-- ==== Sys2Proof/Word.lean ====
section
/-! DEFINITION. The word types of the part: what the manual gives a fixed width and carries as bits.
Counts, offsets, mark numbers and sequence numbers, which the manual only compares and counts, are `Nat`. -/

namespace Sys2Proof

/-- One byte of a frame, a payload, a record or a line. -/
abbrev Byte := BitVec 8

/-- A 40-bit byte address (00, Conventions). -/
abbrev Address := BitVec 40

/-- A requester identifier, 0 to 63; windows and LOG_READER mask its bits (R28, R37). -/
abbrev RequesterId := BitVec 6

/-- An upstream tag, 0 to 255 (R82). -/
abbrev UpstreamTag := BitVec 8

/-- The label software gives a mark (R1). -/
abbrev Label := BitVec 32

/-- A downstream tag, 0 to 63 (R110). -/
abbrev TagNo := Fin 64

/-- A window number, 0 to 15 (R27). -/
abbrev WindowNo := Fin 16

/-- A save context number, 0 to 3 (R64). -/
abbrev ContextNo := Fin 4

/-- The bytes of one 64-byte line, lowest address first. -/
abbrev Line := List Byte

end Sys2Proof
end

