-- ==== Sys2Proof/Config.lean ====
section
/-! DEFINITION. What the manual fixes for every Ingcrest 2240, and the one free value of the model. -/

namespace Sys2Proof.Config

/-- Transit entries, and so upstream credits (R84, R86). -/
abbrev transitEntries : Nat := 24

/-- Notice records the queue holds (R159). -/
abbrev noticeRecords : Nat := 32

/-- Pass-through tags, IN_USE or STALE, stay below this limit at each grant (R114). -/
abbrev passThroughTags : Nat := 56

/-- The most marks on the stack (R1). -/
abbrev markLevels : Nat := 4

/-- The largest mark number, and the value at which an activity counter saturates (R1, R168). -/
abbrev max32 : Nat := 4294967295

/-- Lines one save context may have in flight, and requests the restore engine may have outstanding (R69, R140). -/
abbrev linesInFlight : Nat := 4

/-- Entries of the granule map (R39). -/
abbrev mapEntries : Nat := 65536

/-- The end of the 40-bit address space. -/
abbrev addressSpace : Nat := 2 ^ 40

/-- The largest LOG_SIZE (R46). -/
abbrev maxLogSize : Nat := 1073741824

/-- The largest payload of a command frame (R173). -/
abbrev maxPayload : Nat := 48

/-- FREE VALUE (assumption logs 8 and 19; R148, R154, R158, R163). Where posts of different blocks come together, the
manual lets them be taken in either order, and lets a post that comes together with a change of level carry either level.
It lets an abandon request and a FREE report reach a check in either order, and lets an increment or a post and the reset
step come in either order. The n-th such choice of a run is whatever this constant says at n; it has no body, so nothing
can be proved of it. -/
opaque freeChoice : Nat → Nat

end Sys2Proof.Config
end

