-- ==== Sys2Proof/Syntax.lean ====
section
/-! DEFINITION. The commands of the block: one constructor of `Instr` per row of spec/opcode_table.json, and the
operands they carry. -/

namespace Sys2Proof

/-- The operation of an upstream request with the fields that only it carries (R82). The part never reads the
data, the byte enables, the operation code or the operand. -/
inductive RequestBody where
  | read
  | write (data : List Byte) (enables : List Bool)
  | atomic (code : Nat) (operand : List Byte)
deriving DecidableEq, Repr

/-- READ, WRITE or ATOMIC (R82, R192). -/
inductive RequestKind where
  | read
  | write
  | atomic
deriving DecidableEq, Repr

def RequestBody.kind : RequestBody → RequestKind
  | .read => .read
  | .write _ _ => .write
  | .atomic _ _ => .atomic

/-- An upstream request (R82). -/
structure UpstreamRequest where
  requester : RequesterId
  tag : UpstreamTag
  body : RequestBody
  address : Address
  length : Nat
deriving DecidableEq, Repr

abbrev UpstreamRequest.kind (r : UpstreamRequest) : RequestKind := r.body.kind

/-- The status of a downstream response (R107). -/
inductive LinkStatus where
  | ok
  | error
deriving DecidableEq, Repr

/-- What a complete, well-formed command frame with a right frame check brings beside its command code (R173):
the request number and the payload. `extra` counts the bytes of the period after the frame check, and `bits` the SPI_SCK
cycles after its last whole byte, of a byte left incomplete; the part ignores what they carry, but goes on driving
SPI_MISO (R171, R173). `beganInReset` says that the chip-select period began before the end of the last power-on reset, so
that it is ignored whole: during the reset (R171), or before the reset, of which R171 says only that frames are taken from
the first period that begins after it (DEDUCED, log 32). In the ten WRITE_CONFIG item rows the item identifier is the row's own, and `payload` is what follows it. -/
structure Frame where
  request : Byte
  payload : List Byte
  extra : Nat := 0
  bits : Fin 8 := 0
  beganInReset : Bool := false
deriving DecidableEq, Repr

/-- A chip-select period: its whole bytes, the SPI_SCK cycles of a byte left incomplete at its end, and whether it began
before the end of power-on reset, as in Frame (R171 to R173, log 32). -/
structure Period where
  bytes : List Byte
  bits : Fin 8 := 0
  beganInReset : Bool := false
deriving DecidableEq, Repr

/-- The commands: the rows of spec/opcode_table.json, in its order. A read period brings the number of its SPI_SCK cycles,
eight for each whole byte and those of a byte left incomplete, and whether it began before the end of power-on reset (R171,
R176, log 32). -/
inductive Instr where
  | powerOnReset
  | powerOnResetEnd
  | mapSweepComplete
  | rollbackReqRisingEdge
  | upstreamRequest (r : UpstreamRequest)
  | saveAllocation
  | arbiterGrant
  | downstreamCreditReturn
  | downstreamResponse (tag : TagNo) (status : LinkStatus) (data : Option (List Byte))
  | tagTimeout (tag : TagNo)
  | stalePeriodExpiry (tag : TagNo)
  | openTakesEffect
  | releaseTakesEffect
  | commitTakesEffect
  | rollbackTakesEffect
  | rollbackOutcome
  | checkEnd
  | quietTimerExpiry
  | readPeriod (clocks : Nat) (beganInReset : Bool)
  | replyReady
  | commandFrameCutShort (p : Period)
  | unknownCommand (code : Byte) (f : Frame)
  | getStatus (f : Frame)
  | getMarks (f : Frame)
  | readConfig (f : Frame)
  | writeConfigLogBase (f : Frame)
  | writeConfigLogSize (f : Frame)
  | writeConfigLogThreshold (f : Frame)
  | writeConfigLogFullPolicy (f : Frame)
  | writeConfigLogReader (f : Frame)
  | writeConfigPartRequesterId (f : Frame)
  | writeConfigResponseTimeout (f : Frame)
  | writeConfigNoticeTrigger (f : Frame)
  | writeConfigNoticeQuiet (f : Frame)
  | writeConfigLineRollback (f : Frame)
  | setWindow (f : Frame)
  | getWindow (f : Frame)
  | enableWindow (f : Frame)
  | disableWindow (f : Frame)
  | readMap (f : Frame)
  | openMark (f : Frame)
  | releaseMark (f : Frame)
  | commit (f : Frame)
  | rollback (f : Frame)
  | checkLog (f : Frame)
  | discard (f : Frame)
  | readNotice (f : Frame)
  | readCounters (f : Frame)
  | clearCounters (f : Frame)
  | softReset (f : Frame)
  | softResetQuiesceComplete
  | checkFailedFrame (p : Period)
  | writeConfigUnknownItem (f : Frame)
  | rollbackReqFallingEdge
deriving DecidableEq, Repr

end Sys2Proof
end

