-- ==== Sys2Proof/Machine/Bytes.lean ====
section
/-! DEFINITION. Byte order and the two cyclic redundancy checks: R192 (little-endian fields), R54 (CRC-32 of the log
records), R174 (CRC-8 of the management frames), R171 (SPI periods as bits and bytes). -/

namespace Sys2Proof

/-- The SPI_SCK cycles of a period (R171). -/
def Period.clocks (p : Period) : Nat := 8 * p.bytes.length + p.bits

/-- The SPI_SCK cycles of the period of a frame whose whole payload is `length` bytes: code, request number, length byte,
payload, frame check, and what follows (R173). -/
def Frame.clocks (f : Frame) (length : Nat) : Nat := 8 * (length + 4 + f.extra) + f.bits

end Sys2Proof

namespace Sys2Proof.Machine

/-- The `n` bytes of a little-endian field, least significant byte first (R192). -/
def leBytes : (n : Nat) → (v : Nat) → List Byte
  | 0, _ => []
  | n + 1, v => BitVec.ofNat 8 v :: leBytes n (v / 256)

/-- The number a little-endian field spells (R192). -/
def leValue : List Byte → Nat
  | [] => 0
  | b :: bs => b.toNat + 256 * leValue bs

/-- The field of `n` bytes that begins at byte `at_` of a layout, as a number (R192). -/
def leField (bytes : List Byte) (at_ n : Nat) : Nat := leValue ((bytes.drop at_).take n)

/-- Byte `i` of a layout. -/
def byteAt (bytes : List Byte) (i : Nat) : Byte := bytes.getD i 0

/-- One bit step of the right-shifting CRC-32 (R54, step 3). -/
def crc32Bit (r : BitVec 32) : BitVec 32 :=
  if r.getLsbD 0 then (r >>> 1) ^^^ 0xEDB88320#32 else r >>> 1

/-- One byte of the CRC-32 (R54, steps 2 and 3). -/
def crc32Byte (r : BitVec 32) (b : Byte) : BitVec 32 :=
  crc32Bit (crc32Bit (crc32Bit (crc32Bit (crc32Bit (crc32Bit (crc32Bit (crc32Bit (r ^^^ b.setWidth 32))))))))

/-- The CRC-32 register at its start (R54, step 1). -/
def crc32Start : BitVec 32 := 0xFFFFFFFF#32

/-- The CRC-32 register after more bytes; the save engine's running CRC (R55, R70). -/
def crc32Fold (r : BitVec 32) (bytes : List Byte) : BitVec 32 := bytes.foldl crc32Byte r

/-- The check value of a CRC-32 register: the register inverted (R54, step 4). -/
def crc32Value (r : BitVec 32) : Nat := (~~~r).toNat

/-- The CRC-32 of R54 over a run of bytes. -/
def crc32 (bytes : List Byte) : Nat := crc32Value (crc32Fold crc32Start bytes)

/-- One bit step of the left-shifting CRC-8 (R174). -/
def crc8Bit (r : Byte) : Byte :=
  if r.getLsbD 7 then (r <<< 1) ^^^ 0x07#8 else r <<< 1

/-- One byte of the CRC-8 (R174). -/
def crc8Byte (r b : Byte) : Byte :=
  crc8Bit (crc8Bit (crc8Bit (crc8Bit (crc8Bit (crc8Bit (crc8Bit (crc8Bit (r ^^^ b))))))))

/-- The frame check of R174 over a run of bytes. -/
def crc8 (bytes : List Byte) : Byte := bytes.foldl crc8Byte 0x00#8

/-- The byte that eight bits spell, the first sent most significant (R171). -/
def byteOfBits (bits : List Bool) : Byte :=
  BitVec.ofNat 8 (bits.foldl (fun v b => 2 * v + b.toNat) 0)

/-- The whole bytes of a chip-select period's bits; bits of a byte left incomplete are ignored (R171). -/
def bytesOfBits : List Bool → List Byte
  | b7 :: b6 :: b5 :: b4 :: b3 :: b2 :: b1 :: b0 :: rest =>
    byteOfBits [b7, b6, b5, b4, b3, b2, b1, b0] :: bytesOfBits rest
  | _ => []

/-- The bits of a byte as they are sent, most significant first (R171). -/
def bitsOfByte (b : Byte) : List Bool :=
  [b.getLsbD 7, b.getLsbD 6, b.getLsbD 5, b.getLsbD 4, b.getLsbD 3, b.getLsbD 2, b.getLsbD 1, b.getLsbD 0]

/-- The bits of a run of bytes as they are sent (R171). -/
def bitsOfBytes (bytes : List Byte) : List Bool := bytes.flatMap bitsOfByte

/-- A run of bytes cut or filled with zero bytes to exactly `n` (R118). -/
def shapeTo (n : Nat) (bytes : List Byte) : List Byte :=
  bytes.take n ++ List.replicate (n - bytes.length) 0x00#8

end Sys2Proof.Machine
end

