-- ==== Sys2Proof/WellFormed.lean ====
section
/-! DEFINITION. Which commands can come about at all: the shape of a request (R82) and of a chip-select period
(R171 to R175). The machine's meanings are total and do not lean on this. -/

namespace Sys2Proof

open Machine

/-- R82: a length of 0 to 64, and for a WRITE one data byte and one byte enable for each byte of the length. -/
def UpstreamRequest.wellFormed (r : UpstreamRequest) : Bool :=
  r.length ≤ 64 &&
  match r.body with
  | .write data enables => data.length == r.length && enables.length == r.length
  | _ => true

/-- R173: a well-formed frame's length byte is at most 48. `identifier` is 1 in the rows whose payload begins with an
item identifier that the row itself names. -/
def Frame.wellFormed (f : Frame) (identifier : Nat := 0) : Bool :=
  f.payload.length + identifier ≤ Config.maxPayload

/-- R172, R173: the period begins with a command code and ends before its frame is complete, or it is empty: it ends
before its first byte is whole. That an empty period, in which nothing happens either, stands in the same row is the
model's choice (DESIGN CHOICE, log 29). -/
def Period.cutShort (p : Period) : Bool :=
  match p.bytes with
  | [] => true
  | code :: rest =>
    code != 0#8 &&
    match rest with
    | _ :: len :: tail => len.toNat ≤ Config.maxPayload && tail.length < len.toNat + 1
    | _ => true

/-- R173, R175: the period holds a malformed frame, or a complete one whose frame check fails. -/
def Period.checkFailed (p : Period) : Bool :=
  match p.bytes with
  | code :: request :: len :: tail =>
    code != 0#8 &&
    (Config.maxPayload < len.toNat ||
      (len.toNat + 1 ≤ tail.length &&
        crc8 (code :: request :: len :: tail.take len.toNat) != byteAt tail len.toNat))
  | _ => false

/-- R182, R195: the payload names none of the ten items. -/
def Frame.namesNoItem (f : Frame) : Bool :=
  match f.payload with
  | [] => true
  | id :: _ => id == 0#8 || 0x0B ≤ id.toNat

/-- The commands that can come about. -/
def Instr.wellFormed : Instr → Bool
  | .powerOnReset => true
  | .powerOnResetEnd => true
  | .mapSweepComplete => true
  | .rollbackReqRisingEdge => true
  | .upstreamRequest r => r.wellFormed
  | .saveAllocation => true
  | .arbiterGrant => true
  | .downstreamCreditReturn => true
  | .downstreamResponse _ _ _ => true
  | .tagTimeout _ => true
  | .stalePeriodExpiry _ => true
  | .openTakesEffect => true
  | .releaseTakesEffect => true
  | .commitTakesEffect => true
  | .rollbackTakesEffect => true
  | .rollbackOutcome => true
  | .checkEnd => true
  | .quietTimerExpiry => true
  | .readPeriod clocks _ => 8 ≤ clocks
  | .replyReady => true
  | .commandFrameCutShort p => p.cutShort
  | .unknownCommand code f => 0x14 ≤ code.toNat && f.wellFormed
  | .getStatus f => f.wellFormed
  | .getMarks f => f.wellFormed
  | .readConfig f => f.wellFormed
  | .writeConfigLogBase f => f.wellFormed 1
  | .writeConfigLogSize f => f.wellFormed 1
  | .writeConfigLogThreshold f => f.wellFormed 1
  | .writeConfigLogFullPolicy f => f.wellFormed 1
  | .writeConfigLogReader f => f.wellFormed 1
  | .writeConfigPartRequesterId f => f.wellFormed 1
  | .writeConfigResponseTimeout f => f.wellFormed 1
  | .writeConfigNoticeTrigger f => f.wellFormed 1
  | .writeConfigNoticeQuiet f => f.wellFormed 1
  | .writeConfigLineRollback f => f.wellFormed 1
  | .setWindow f => f.wellFormed
  | .getWindow f => f.wellFormed
  | .enableWindow f => f.wellFormed
  | .disableWindow f => f.wellFormed
  | .readMap f => f.wellFormed
  | .openMark f => f.wellFormed
  | .releaseMark f => f.wellFormed
  | .commit f => f.wellFormed
  | .rollback f => f.wellFormed
  | .checkLog f => f.wellFormed
  | .discard f => f.wellFormed
  | .readNotice f => f.wellFormed
  | .readCounters f => f.wellFormed
  | .clearCounters f => f.wellFormed
  | .softReset f => f.wellFormed
  | .softResetQuiesceComplete => true
  | .checkFailedFrame p => p.checkFailed
  | .writeConfigUnknownItem f => f.wellFormed && f.namesNoItem
  | .rollbackReqFallingEdge => true

end Sys2Proof
end

