-- ==== Sys2Proof/Decode.lean ====
section
/-! DEFINITION. Reading a chip-select period into the command it is (R171 to R175, R182, R194, R195), and writing a
command back as a period. The opcode table itself gives no row any bits, so `decodeTableWord` answers none. -/

namespace Sys2Proof

open Machine

/-- The rows of spec/opcode_table.json give no bits, so no word spells a command by the table's bits. -/
def decodeTableWord (_nbits _w : Nat) : Option Instr := none

/-- The row of a WRITE_CONFIG frame, by its item identifier (R182, R195). A payload of no bytes names no item
(DESIGN CHOICE, log 16: R175 answers it REFUSED_RANGE in whichever row it stands). -/
def writeConfigOf (f : Frame) : Instr :=
  match f.payload with
  | [] => .writeConfigUnknownItem f
  | id :: value =>
    let g : Frame := { f with payload := value }
    match id.toNat with
    | 0x01 => .writeConfigLogBase g
    | 0x02 => .writeConfigLogSize g
    | 0x03 => .writeConfigLogThreshold g
    | 0x04 => .writeConfigLogFullPolicy g
    | 0x05 => .writeConfigLogReader g
    | 0x06 => .writeConfigPartRequesterId g
    | 0x07 => .writeConfigResponseTimeout g
    | 0x08 => .writeConfigNoticeTrigger g
    | 0x09 => .writeConfigNoticeQuiet g
    | 0x0A => .writeConfigLineRollback g
    | _ => .writeConfigUnknownItem f

/-- The row of a complete, well-formed frame with a right check, by its command code (R194). -/
def commandOf (code : Byte) (f : Frame) : Instr :=
  match code.toNat with
  | 0x01 => .getStatus f
  | 0x02 => .getMarks f
  | 0x03 => .readConfig f
  | 0x04 => writeConfigOf f
  | 0x05 => .setWindow f
  | 0x06 => .getWindow f
  | 0x07 => .enableWindow f
  | 0x08 => .disableWindow f
  | 0x09 => .readMap f
  | 0x0A => .openMark f
  | 0x0B => .releaseMark f
  | 0x0C => .commit f
  | 0x0D => .rollback f
  | 0x0E => .checkLog f
  | 0x0F => .discard f
  | 0x10 => .readNotice f
  | 0x11 => .readCounters f
  | 0x12 => .clearCounters f
  | 0x13 => .softReset f
  | _ => .unknownCommand code f

/-- The command that a chip-select period is (R172, R173, R175). An empty period, in which nothing happens but that the
part drives SPI_MISO (R171), is in the row of a frame cut short (DESIGN CHOICE, log 29). -/
def decodePeriod (p : Period) : Instr :=
  match p.bytes with
  | [] => .commandFrameCutShort p
  | code :: rest =>
    if code = 0#8 then .readPeriod p.clocks p.beganInReset
    else match rest with
      | request :: len :: tail =>
        if Config.maxPayload < len.toNat then .checkFailedFrame p
        else if tail.length < len.toNat + 1 then .commandFrameCutShort p
        else
          let payload := tail.take len.toNat
          if crc8 (code :: request :: len :: payload) = byteAt tail len.toNat then
            commandOf code ⟨request, payload, tail.length - (len.toNat + 1), p.bits, p.beganInReset⟩
          else .checkFailedFrame p
      | _ => .commandFrameCutShort p

/-- The command that the bits of a chip-select period are, most significant bit of each byte first; of a byte left
incomplete only the number of bits counts (R171). -/
def decodePeriodBits (bits : List Bool) (beganInReset : Bool) : Instr :=
  decodePeriod ⟨bytesOfBits bits, Fin.ofNat 8 bits.length, beganInReset⟩

/-- The bytes of a period that carries a frame: code, request number, length, payload, frame check (R173, R194), and
zero bytes for the ignored rest. -/
def frameBytes (code : Byte) (request : Byte) (payload : List Byte) (extra : Nat) : List Byte :=
  let covered := code :: request :: BitVec.ofNat 8 payload.length :: payload
  covered ++ crc8 covered :: List.replicate extra 0#8

/-- A period that carries frame `f` under a command code. -/
def Frame.periodOf (f : Frame) (code : Byte) : Option Period :=
  some ⟨frameBytes code f.request f.payload f.extra, f.bits, f.beganInReset⟩

/-- A period that carries a WRITE_CONFIG of one item (R195). -/
def Frame.itemPeriodOf (f : Frame) (id : Byte) : Option Period :=
  some ⟨frameBytes 0x04 f.request (id :: f.payload) f.extra, f.bits, f.beganInReset⟩

/-- The chip-select period a command comes in; none for a command that comes otherwise. -/
def encodePeriod : Instr → Option Period
  | .powerOnReset => none
  | .powerOnResetEnd => none
  | .mapSweepComplete => none
  | .rollbackReqRisingEdge => none
  | .upstreamRequest _ => none
  | .saveAllocation => none
  | .arbiterGrant => none
  | .downstreamCreditReturn => none
  | .downstreamResponse _ _ _ => none
  | .tagTimeout _ => none
  | .stalePeriodExpiry _ => none
  | .openTakesEffect => none
  | .releaseTakesEffect => none
  | .commitTakesEffect => none
  | .rollbackTakesEffect => none
  | .rollbackOutcome => none
  | .checkEnd => none
  | .quietTimerExpiry => none
  | .readPeriod clocks began => some ⟨List.replicate (clocks / 8) 0#8, Fin.ofNat 8 clocks, began⟩
  | .replyReady => none
  | .commandFrameCutShort p => some p
  | .unknownCommand code f => f.periodOf code
  | .getStatus f => f.periodOf 0x01
  | .getMarks f => f.periodOf 0x02
  | .readConfig f => f.periodOf 0x03
  | .writeConfigLogBase f => f.itemPeriodOf 0x01
  | .writeConfigLogSize f => f.itemPeriodOf 0x02
  | .writeConfigLogThreshold f => f.itemPeriodOf 0x03
  | .writeConfigLogFullPolicy f => f.itemPeriodOf 0x04
  | .writeConfigLogReader f => f.itemPeriodOf 0x05
  | .writeConfigPartRequesterId f => f.itemPeriodOf 0x06
  | .writeConfigResponseTimeout f => f.itemPeriodOf 0x07
  | .writeConfigNoticeTrigger f => f.itemPeriodOf 0x08
  | .writeConfigNoticeQuiet f => f.itemPeriodOf 0x09
  | .writeConfigLineRollback f => f.itemPeriodOf 0x0A
  | .setWindow f => f.periodOf 0x05
  | .getWindow f => f.periodOf 0x06
  | .enableWindow f => f.periodOf 0x07
  | .disableWindow f => f.periodOf 0x08
  | .readMap f => f.periodOf 0x09
  | .openMark f => f.periodOf 0x0A
  | .releaseMark f => f.periodOf 0x0B
  | .commit f => f.periodOf 0x0C
  | .rollback f => f.periodOf 0x0D
  | .checkLog f => f.periodOf 0x0E
  | .discard f => f.periodOf 0x0F
  | .readNotice f => f.periodOf 0x10
  | .readCounters f => f.periodOf 0x11
  | .clearCounters f => f.periodOf 0x12
  | .softReset f => f.periodOf 0x13
  | .softResetQuiesceComplete => none
  | .checkFailedFrame p => some p
  | .writeConfigUnknownItem f => f.periodOf 0x04
  | .rollbackReqFallingEdge => none

end Sys2Proof
end

