-- ==== Sys2Proof/Machine/State.lean ====
section
/-! DEFINITION. Everything the manual gives the part as state, block by block (00_scope.md, Block Overview), the
reasons a step can stop (none is used), and the state right after power-on reset. -/

namespace Sys2Proof.Machine

/-- Faults. The manual names no machine stop, so there is none: every command answers a next state. -/
inductive Fault where
deriving DecidableEq, Repr

/-- Refusals. -/
inductive Refusal where
  /-- Raised by `exec` alone, for a row that has no meaning yet. No row is left without one. Safe: the run stops. -/
  | notModelled (mnemonic : String)
deriving DecidableEq, Repr

/-! ### Mark controller (01) -/

/-- The controller states (1.2). -/
inductive ControllerState where
  | starting
  | idle
  | opened
  | draining
  | rollingBack
  | broken
  | resetting
deriving DecidableEq, Repr

/-- Where a rollback came from (R8). -/
inductive Origin where
  | command
  | line
deriving DecidableEq, Repr

/-- The pending action slot (R8). -/
inductive PendingAction where
  | noAction
  | openMark (label : Label)
  | releaseMark
  | commit
  | rollback (target : Nat) (origin : Origin)
deriving DecidableEq, Repr

/-- The broken reason (R3). -/
inductive BrokenReason where
  | noReason
  | logFull
  | logWriteError
  | logWriteTimeout
  | rollbackIncomplete
deriving DecidableEq, Repr

/-- A mark on the stack (R1). -/
structure MarkRecord where
  level : Nat
  number : Nat
  label : Label
  startOffset : Nat
  firstSequence : Nat
deriving DecidableEq, Repr

/-- The mark controller. `nextNumber` is 4,294,967,296 when the numbers are exhausted (R2). -/
structure MarkController where
  state : ControllerState
  stack : List MarkRecord
  nextNumber : Nat
  action : PendingAction
  latch : Bool
  reason : BrokenReason
deriving DecidableEq, Repr

/-! ### Window unit (02) -/

/-- The granule sizes (R27). -/
inductive Granule where
  | g256
  | g1k
  | g4k
deriving DecidableEq, Repr

/-- A window record (R27). The code and the count are held as SET_WINDOW stored them (R30). -/
structure WindowRecord where
  enabled : Bool
  base : Address
  code : Byte
  count : Nat
  mapOffset : Nat
  reqMatch : RequesterId
  reqMask : RequesterId
deriving DecidableEq, Repr

/-- LOG_READER (R37). -/
structure LogReader where
  enable : Bool
  reqMatch : RequesterId
  reqMask : RequesterId
deriving DecidableEq, Repr

/-- The non-zero entries of the granule map, by rising index; an unlisted index holds 0 (R39). -/
abbrev GranuleMap := List (Nat × Nat)

structure WindowUnit where
  records : Vector WindowRecord 16
  map : GranuleMap
  reader : LogReader
deriving DecidableEq, Repr

/-! ### Save log unit (03) -/

/-- LOG_FULL_POLICY (R57). -/
inductive FullPolicy where
  | breakMarks
  | refuse
deriving DecidableEq, Repr

structure SaveLog where
  base : Address
  size : Nat
  threshold : Nat
  policy : FullPolicy
  tail : Nat
  nextSequence : Nat
  crossed : Bool
deriving DecidableEq, Repr

/-! ### Save engine (04) -/

/-- The states of a save context (R64, R65). -/
inductive ContextState where
  | free
  | copying
  | finishing
  | voiding
deriving DecidableEq, Repr

/-- The failure a save acts on (R64). -/
inductive ErrorKind where
  | noError
  | readError
  | readTimeout
  | writeError
  | writeTimeout
deriving DecidableEq, Repr

/-- How far the record data write of a buffered line is (R69 to R71). -/
inductive WriteProgress where
  | notIssued
  | issued
  | acknowledged
deriving DecidableEq, Repr

/-- A line in flight with its line buffer (R69). `data` is absent until the read returns. -/
structure LineBuffer where
  line : Nat
  data : Option Line
  write : WriteProgress
  folded : Bool
deriving DecidableEq, Repr

/-- A save context (R64). `held` is the arrival order of the transit entry it serves. The fields other than the state
hold meaning only while it is busy, that is not FREE. -/
structure SaveContext where
  state : ContextState
  held : Nat
  window : WindowNo
  index : Nat
  granuleAddress : Address
  granule : Granule
  markNumber : Nat
  level : Nat
  offset : Nat
  sequence : Nat
  requester : RequesterId
  linesIssued : Nat
  linesAcknowledged : Nat
  linesFolded : Nat
  lines : List LineBuffer
  crc : BitVec 32
  error : ErrorKind
  headerIssued : Bool
deriving DecidableEq, Repr

/-- The save engine. `allocation` lists the busy contexts, oldest allocated first (R64, R77); `waiting` is the waiting
list as arrival orders (R66). -/
structure SaveEngine where
  contexts : Vector SaveContext 4
  allocation : List ContextNo
  waiting : List Nat
  fullBar : Bool
deriving DecidableEq, Repr

/-! ### Upstream port and transit buffer (05) -/

/-- The class of a request that is taken into an entry (R35, R86). -/
inductive EntryClass where
  | logRead
  | window (w : WindowNo) (index : Nat)
  | pass
deriving DecidableEq, Repr

/-- The transit states (R87). -/
inductive TransitState where
  | forwardable
  | waitOrder
  | waitSave
  | waitMark
deriving DecidableEq, Repr

/-- A transit entry (R86). -/
structure TransitEntry where
  order : Nat
  request : UpstreamRequest
  cls : EntryClass
  markNumber : Option Nat
  state : TransitState
  hasContext : Bool
  preDrain : Bool
deriving DecidableEq, Repr

/-- The transit buffer, its entries in arrival order, and the credits the fabric holds (R84, R86). -/
structure TransitBuffer where
  entries : List TransitEntry
  nextOrder : Nat
  credits : Nat
deriving DecidableEq, Repr

/-! ### Downstream port (06) -/

/-- The three sources the arbiter serves (R113). -/
inductive Source where
  | passThrough
  | save
  | restore
deriving DecidableEq, Repr

/-- The steps a save context issues (R110). -/
inductive SaveStep where
  | granuleRead (line : Nat)
  | dataWrite (line : Nat)
  | headerWrite
deriving DecidableEq, Repr

/-- The steps the restore engine issues (R140). -/
inductive RestoreStep where
  | headerRead
  | dataRead (line : Nat)
  | writeBack (line : Nat)
deriving DecidableEq, Repr

/-- What a tag keeps about the source that issued its request (R110). `length` is the READ's length that R118 shapes
the returned data to. -/
inductive TagOrigin where
  | passThrough (requester : RequesterId) (tag : UpstreamTag) (kind : RequestKind) (windowWrite : Bool) (length : Nat)
  | save (context : ContextNo) (step : SaveStep)
  | restore (step : RestoreStep)
deriving DecidableEq, Repr

/-- The fields of a tag that is IN_USE or STALE (R110). -/
structure TagRecord where
  origin : TagOrigin
  address : Address
  issueTime : Nat
  timeout : Nat
deriving DecidableEq, Repr

/-- A downstream tag (R110, R111). -/
inductive TagEntry where
  | free
  | inUse (r : TagRecord)
  | stale (r : TagRecord)
deriving DecidableEq, Repr

structure DownstreamPort where
  tags : Vector TagEntry 64
  credits : Nat
  rotation : List Source
deriving DecidableEq, Repr

/-! ### Restore engine (07) -/

inductive EngineState where
  | idle
  | restoring
  | checking
deriving DecidableEq, Repr

/-- Progress on the record at the walk position (R127). -/
inductive RecordStep where
  | noStep
  | waitSlot
  | header
  | data
  | writeBack
deriving DecidableEq, Repr

/-- A request to end the walk early (R127). -/
inductive EndRequest where
  | noRequest
  | abandon
  | abandonSilent
  | stop
deriving DecidableEq, Repr

/-- The kinds of a record (R51). -/
inductive RecordKind where
  | saved
  | void
deriving DecidableEq, Repr

/-- The current record, from its verified header (R127, R132). -/
structure CurrentRecord where
  start : Nat
  granule : Granule
  kind : RecordKind
  window : WindowNo
  granuleAddress : Address
  index : Nat
  dataCheck : Nat
deriving DecidableEq, Repr

/-- The outcome of a walk (R143). -/
structure WalkOutcome where
  level : Nat
  origin : Origin
  good : Nat
  skipped : Nat
  failed : Nat
  firstFailure : Option Nat
  stopped : Bool
  stopOffset : Option Nat
deriving DecidableEq, Repr

/-- The restore engine (R127). `headerIssued` says whether the header read of the record at the walk position has been
issued, which R151 and R152 test. -/
structure RestoreEngine where
  state : EngineState
  targetLevel : Nat
  origin : Origin
  lowerMark : Nat
  lastIssued : Nat
  lowerBound : Nat
  upperBound : Nat
  position : Nat
  remaining : Nat
  expected : Nat
  step : RecordStep
  headerIssued : Bool
  current : Option CurrentRecord
  buffer : List (Nat × Line)
  linesIssued : Nat
  linesEnded : Nat
  outstanding : Nat
  recordFailed : Bool
  endRequest : EndRequest
  outcome : WalkOutcome
deriving DecidableEq, Repr

/-! ### Notice unit (08) -/

/-- ACCESS_DENIED reasons (R156, R192). -/
inductive DenyReason where
  | logArea
  | lineCrossing
  | noCredit
deriving DecidableEq, Repr

/-- SAVE_FAILED reasons (R155). -/
inductive SaveFailure where
  | readError
  | readTimeout
deriving DecidableEq, Repr

/-- LINE_IGNORED reasons (R156). -/
inductive IgnoreReason where
  | disabled
  | noMark
  | broken
  | level
deriving DecidableEq, Repr

/-- CHECK_DONE results (R150, R151). -/
inductive CheckResult where
  | complete
  | stopped
  | abandoned
deriving DecidableEq, Repr

/-- The actions MARK_COMMAND_DROPPED can name (R155). -/
inductive DroppedCommand where
  | openMark
  | releaseMark
  | commit
  | rollback (target : Nat) (origin : Origin)
deriving DecidableEq, Repr

/-- The 13 notice kinds with their own fields (R155 to R157). -/
inductive NoticeKind where
  | saveFailed (w : WindowNo) (requester : RequesterId) (reason : SaveFailure) (address : Address)
  | logBroken (reason : BrokenReason) (tail : Nat)
  | logThreshold (tail : Nat)
  | writeRefused (w : WindowNo) (requester : RequesterId) (address : Address)
  | accessDenied (requester : RequesterId) (kind : RequestKind) (reason : DenyReason) (address : Address)
  | responseTimeout (source : Source) (address : Address)
  | lateResponse (tag : TagNo)
  | strayResponse (tag : TagNo)
  | rollbackDone (outcome : WalkOutcome)
  | rollbackIncomplete (outcome : WalkOutcome)
  | checkDone (outcome : WalkOutcome) (result : CheckResult)
  | lineIgnored (reason : IgnoreReason)
  | markCommandDropped (command : DroppedCommand)
deriving DecidableEq, Repr

/-- A notice record (R154). -/
structure NoticeRecord where
  kind : NoticeKind
  sequence : Nat
  lossBefore : Nat
  level : Nat
deriving DecidableEq, Repr

/-- The six activity counters (R168). -/
structure Counters where
  savesCompleted : Nat
  savesFailed : Nat
  writesHeld : Nat
  requestsDenied : Nat
  responsesTimedOut : Nat
  recordsRestored : Nat
deriving DecidableEq, Repr

/-- The notice unit. `quietStart` is the time-base value of the quiet timer's last restart (R165); `asserted` says that
NOTICE_N is driven low (R164). -/
structure NoticeUnit where
  queue : List NoticeRecord
  nextSequence : Nat
  loss : Nat
  quietStart : Nat
  counters : Counters
  asserted : Bool
deriving DecidableEq, Repr

/-! ### Management port (09) -/

/-- The status codes (R175, R194). -/
inductive Status where
  | ok
  | accepted
  | busy
  | notReady
  | refusedState
  | refusedRange
  | refusedOverlap
  | refusedBroken
  | levelLimit
  | numbersExhausted
  | empty
  | unknownCommand
  | checkFailed
deriving DecidableEq, Repr

/-- A reply (R176). -/
structure Reply where
  request : Byte
  status : Status
  payload : List Byte
deriving DecidableEq, Repr

/-- The response buffer (R176). -/
inductive ResponseBuffer where
  | empty
  | forming (r : Reply)
  | ready (r : Reply)
deriving DecidableEq, Repr

/-- LINE_ROLLBACK (R23). -/
structure LineRollback where
  enable : Bool
  target : Nat
deriving DecidableEq, Repr

/-- The reset phase (R184). -/
inductive ResetPhase where
  | noPhase
  | engines
deriving DecidableEq, Repr

/-- The management port. `interruption` is the report of R190; `stoppedWalk` is the walk offset a stopped walk handed
over, kept until the reset step. -/
structure ManagementPort where
  buffer : ResponseBuffer
  partRequesterId : RequesterId
  responseTimeout : Nat
  noticeTrigger : Nat
  noticeQuiet : Nat
  lineRollback : LineRollback
  resetPhase : ResetPhase
  interruption : Option Nat
  stoppedWalk : Option Nat
deriving DecidableEq, Repr

/-! ### Pins, links and the whole part -/

/-- A level of SPI_MISO, a three-state output (R171, R191). -/
inductive MisoLevel where
  | low
  | high
  | highImpedance
deriving DecidableEq, Repr

/-- RESET_N held low, the level of ROLLBACK_REQ, and SPI_MISO (R191). `miso` is the course of SPI_MISO from the start of
the last period taken: the levels it is driven to, the first at the falling edge of SPI_CS_N and one more at each falling
edge of SPI_SCK, then high-impedance, in which the pin stands since SPI_CS_N rose (R171, logs 7 and 25). -/
structure Pins where
  resetLow : Bool
  rollbackReq : Bool
  miso : List MisoLevel
deriving DecidableEq, Repr

/-- The status of an upstream response (R83). -/
inductive UpstreamStatus where
  | ok
  | memError
  | denied
deriving DecidableEq, Repr

/-- An upstream response (R83). -/
structure UpstreamResponse where
  requester : RequesterId
  tag : UpstreamTag
  status : UpstreamStatus
  data : Option (List Byte)
deriving DecidableEq, Repr

/-- A downstream request (R106). -/
structure DownstreamRequest where
  tag : TagNo
  requester : RequesterId
  body : RequestBody
  address : Address
  length : Nat
deriving DecidableEq, Repr

/-- What the part has put on its two links, oldest first (the model's record of its outputs, log 9). -/
structure Links where
  upstream : List UpstreamResponse
  downstream : List DownstreamRequest
deriving DecidableEq, Repr

/-- The part. `now` is the time base in µs, `choices` counts the free choices taken (log 8), and `pending` is the queue
of commands, first in first out. -/
structure State where
  marks : MarkController
  windows : WindowUnit
  log : SaveLog
  save : SaveEngine
  transit : TransitBuffer
  down : DownstreamPort
  restore : RestoreEngine
  notice : NoticeUnit
  mgmt : ManagementPort
  pins : Pins
  links : Links
  now : Nat
  choices : Nat
  pending : List Instr
deriving DecidableEq, Repr

/-! ### Reset values -/

/-- R1, R2, R4, R25, R3. -/
def MarkController.reset : MarkController where
  state := .starting
  stack := []
  nextNumber := 1
  action := .noAction
  latch := false
  reason := .noReason

/-- R27: disabled, with every other field 0. -/
def WindowRecord.reset : WindowRecord where
  enabled := false
  base := 0#40
  code := 0#8
  count := 0
  mapOffset := 0
  reqMatch := 0#6
  reqMask := 0#6

/-- R37: disabled, match 0 and mask 0. -/
def LogReader.reset : LogReader := ⟨false, 0#6, 0#6⟩

/-- R27, R37. The granule map is all 0 after the sweep (R42); before it, log 6. -/
def WindowUnit.reset : WindowUnit where
  records := Vector.replicate 16 WindowRecord.reset
  map := []
  reader := LogReader.reset

/-- R46, R48, R57, R60. -/
def SaveLog.reset : SaveLog where
  base := 0#40
  size := 0
  threshold := 0
  policy := .breakMarks
  tail := 0
  nextSequence := 0
  crossed := false

/-- R64: FREE with error kind NONE, counts zero and line buffers empty; the fields it gives no value hold zero, and the
granule code the first one (log 10). -/
def SaveContext.reset : SaveContext where
  state := .free
  held := 0
  window := 0
  index := 0
  granuleAddress := 0#40
  granule := .g256
  markNumber := 0
  level := 0
  offset := 0
  sequence := 0
  requester := 0#6
  linesIssued := 0
  linesAcknowledged := 0
  linesFolded := 0
  lines := []
  crc := 0#32
  error := .noError
  headerIssued := false

/-- R64, R66, R78. -/
def SaveEngine.reset : SaveEngine where
  contexts := Vector.replicate 4 SaveContext.reset
  allocation := []
  waiting := []
  fullBar := false

/-- R105: no entries; the credits are granted when power-on reset ends. -/
def TransitBuffer.reset : TransitBuffer where
  entries := []
  nextOrder := 0
  credits := 0

/-- R126. -/
def DownstreamPort.reset : DownstreamPort where
  tags := Vector.replicate 64 .free
  credits := 0
  rotation := [.passThrough, .save, .restore]

/-- R127: every count zero and every optional field absent. -/
def WalkOutcome.reset : WalkOutcome where
  level := 0
  origin := .command
  good := 0
  skipped := 0
  failed := 0
  firstFailure := none
  stopped := false
  stopOffset := none

/-- R127; the fields it gives no value hold zero (log 13). -/
def RestoreEngine.reset : RestoreEngine where
  state := .idle
  targetLevel := 0
  origin := .command
  lowerMark := 0
  lastIssued := 0
  lowerBound := 0
  upperBound := 0
  position := 0
  remaining := 0
  expected := 0
  step := .noStep
  headerIssued := false
  current := none
  buffer := []
  linesIssued := 0
  linesEnded := 0
  outstanding := 0
  recordFailed := false
  endRequest := .noRequest
  outcome := WalkOutcome.reset

/-- R170. -/
def Counters.reset : Counters := ⟨0, 0, 0, 0, 0, 0⟩

/-- R159, R165, R167, R170: the quiet timer restarts at time `now`. -/
def NoticeUnit.resetAt (now : Nat) : NoticeUnit where
  queue := []
  nextSequence := 0
  loss := 0
  quietStart := now
  counters := Counters.reset
  asserted := false

/-- R176, R180 with the reset values of 9.5, R184, R190. -/
def ManagementPort.reset : ManagementPort where
  buffer := .empty
  partRequesterId := 63#6
  responseTimeout := 1000
  noticeTrigger := 1
  noticeQuiet := 0
  lineRollback := ⟨false, 1⟩
  resetPhase := .noPhase
  interruption := none
  stoppedWalk := none

/-- The part right after power-on reset has ended (R191): the fabric holds its 24 credits and the granule map sweep is
about to run in STARTING. ROLLBACK_REQ is low, SPI_MISO is high-impedance, and the time base and the model's own
fields stand at zero (logs 4, 5). -/
def State.reset : State where
  marks := MarkController.reset
  windows := WindowUnit.reset
  log := SaveLog.reset
  save := SaveEngine.reset
  transit := { TransitBuffer.reset with credits := Config.transitEntries }
  down := DownstreamPort.reset
  restore := RestoreEngine.reset
  notice := NoticeUnit.resetAt 0
  mgmt := ManagementPort.reset
  pins := ⟨false, false, [.highImpedance]⟩
  links := ⟨[], []⟩
  now := 0
  choices := 0
  pending := []

/-! ### One update per field -/

def State.setMarks (s : State) (x : MarkController) : State := { s with marks := x }
def State.setWindows (s : State) (x : WindowUnit) : State := { s with windows := x }
def State.setLog (s : State) (x : SaveLog) : State := { s with log := x }
def State.setSave (s : State) (x : SaveEngine) : State := { s with save := x }
def State.setTransit (s : State) (x : TransitBuffer) : State := { s with transit := x }
def State.setDown (s : State) (x : DownstreamPort) : State := { s with down := x }
def State.setRestore (s : State) (x : RestoreEngine) : State := { s with restore := x }
def State.setNotice (s : State) (x : NoticeUnit) : State := { s with notice := x }
def State.setMgmt (s : State) (x : ManagementPort) : State := { s with mgmt := x }
def State.setPins (s : State) (x : Pins) : State := { s with pins := x }
def State.setLinks (s : State) (x : Links) : State := { s with links := x }
def State.setNow (s : State) (x : Nat) : State := { s with now := x }
def State.setChoices (s : State) (x : Nat) : State := { s with choices := x }
def State.setPending (s : State) (x : List Instr) : State := { s with pending := x }

end Sys2Proof.Machine
end

