-- ==== Sys2Proof/Machine/Ops.lean ====
section
/-! DEFINITION. The shared operations over the part's tables: granule sizes, the granule map, the transit entries, the
save contexts and the tags, the activity counters, and the taking of notice posts. -/

namespace Sys2Proof.Machine

/-! ### Granules and records (R27, R49) -/

/-- G, the granule size in bytes (R27). -/
def Granule.bytes : Granule → Nat
  | .g256 => 256
  | .g1k => 1024
  | .g4k => 4096

/-- G/64, the lines of a granule (R49). -/
def Granule.lines : Granule → Nat
  | .g256 => 4
  | .g1k => 16
  | .g4k => 64

/-- The size of a record: G data bytes and a 64-byte header (R49). -/
def Granule.recordSize (g : Granule) : Nat := g.bytes + 64

/-- The granule size a granule code names (R192); none for a code that names no size. -/
def Granule.ofCode (code : Byte) : Option Granule :=
  match code.toNat with
  | 1 => some .g256
  | 2 => some .g1k
  | 3 => some .g4k
  | _ => none

/-- The granule code (R192). -/
def Granule.code : Granule → Byte
  | .g256 => 1
  | .g1k => 2
  | .g4k => 3

/-! ### The granule map (R39, R41) -/

/-- The entry at an index; an unlisted index holds 0. -/
def mapRead : GranuleMap → Nat → Nat
  | [], _ => 0
  | (j, v) :: rest, i => if i = j then v else mapRead rest i

/-- Sets the entry at an index, keeping the canonical form. -/
def mapWrite : GranuleMap → Nat → Nat → GranuleMap
  | [], i, v => if v = 0 then [] else [(i, v)]
  | (j, w) :: rest, i, v =>
    if i < j then if v = 0 then (j, w) :: rest else (i, v) :: (j, w) :: rest
    else if i = j then if v = 0 then rest else (j, v) :: rest
    else (j, w) :: mapWrite rest i v

/-- The canonical form: indices at least `low`, strictly rising, and no value 0. -/
def mapWfFrom (low : Nat) : GranuleMap → Bool
  | [] => true
  | (j, v) :: rest => low ≤ j && v != 0 && mapWfFrom (j + 1) rest

/-- The canonical form of the granule map. -/
def mapWf (m : GranuleMap) : Bool := mapWfFrom 0 m

/-- Sets a granule map entry of the part. -/
def State.writeMap (s : State) (index value : Nat) : State :=
  s.setWindows { s.windows with map := mapWrite s.windows.map index value }

/-! ### Marks (R1) -/

/-- The current level (R1). -/
def State.level (s : State) : Nat := s.marks.stack.length

/-- The number of the current mark, absent at level 0 (R1). -/
def State.currentMark (s : State) : Option Nat := s.marks.stack.getLast?.map (·.number)

/-- The last issued mark number (R9, R16). -/
def State.lastIssued (s : State) : Nat := s.marks.nextNumber - 1

/-- The mark at level `k`, counted from 1 (R1). -/
def State.markAt (s : State) (k : Nat) : Option MarkRecord :=
  if k = 0 then none else s.marks.stack[k - 1]?

/-- No mark number remains (R2). -/
def State.numbersExhausted (s : State) : Bool := Config.max32 < s.marks.nextNumber

/-! ### Window entries of the transit buffer (R86, R92) -/

/-- The map index of a WINDOW entry. -/
def TransitEntry.index? (e : TransitEntry) : Option Nat :=
  match e.cls with
  | .window _ i => some i
  | _ => none

/-- Whether an entry is of class WINDOW and kind WRITE or ATOMIC (R101). -/
def TransitEntry.windowWrite (e : TransitEntry) : Bool :=
  e.index?.isSome && e.request.kind != .read

def State.entry? (s : State) (order : Nat) : Option TransitEntry :=
  s.transit.entries.find? (·.order == order)

def State.setEntries (s : State) (entries : List TransitEntry) : State :=
  s.setTransit { s.transit with entries := entries }

/-- Changes the entry of one arrival order. -/
def State.updateEntry (s : State) (order : Nat) (f : TransitEntry → TransitEntry) : State :=
  s.setEntries (s.transit.entries.map fun e => if e.order = order then f e else e)

/-- Changes every entry. -/
def State.updateEntries (s : State) (f : TransitEntry → TransitEntry) : State :=
  s.setEntries (s.transit.entries.map f)

/-- Whether an entry of this map index that arrived earlier is in the buffer (R91, R99). -/
def State.hasEarlier (s : State) (order index : Nat) : Bool :=
  s.transit.entries.any fun e => e.order < order && e.index? == some index

/-- The oldest entry of a map index (R92). -/
def State.headOf (s : State) (index : Nat) : Option TransitEntry :=
  s.transit.entries.find? (·.index? == some index)

/-! ### Save contexts (R64) -/

/-- The context, when it is busy: in a state other than FREE (R64). -/
def SaveContext.busy? (x : SaveContext) : Option SaveContext := if x.state = .free then none else some x

/-- The fields of a context that is busy; none for a FREE one. -/
def State.context? (s : State) (c : ContextNo) : Option SaveContext := s.save.contexts[c].busy?

def State.putContext (s : State) (c : ContextNo) (x : SaveContext) : State :=
  s.setSave { s.save with contexts := s.save.contexts.set c x }

/-- Every save context is FREE (R12). -/
def State.allContextsFree (s : State) : Bool := s.save.contexts.toList.all (·.state = .free)

/-- The lowest-numbered FREE context (R67). -/
def State.freeContext? (s : State) : Option ContextNo :=
  (List.finRange 4).find? fun c => (s.context? c).isNone

/-! ### Tags (R110) -/

def State.tag (s : State) (t : TagNo) : TagEntry := s.down.tags[t]

def State.setTag (s : State) (t : TagNo) (x : TagEntry) : State :=
  s.setDown { s.down with tags := s.down.tags.set t x }

/-- The record of a tag that is IN_USE or STALE. -/
def TagEntry.record? : TagEntry → Option TagRecord
  | .free => none
  | .inUse r => some r
  | .stale r => some r

def TagEntry.isFree : TagEntry → Bool
  | .free => true
  | _ => false

def TagEntry.isInUse : TagEntry → Bool
  | .inUse _ => true
  | _ => false

def TagEntry.isStale : TagEntry → Bool
  | .stale _ => true
  | _ => false

/-- A tag, IN_USE or STALE, of pass-through origin (R110). -/
def TagEntry.isPassThrough (t : TagEntry) : Bool :=
  match t.record? with
  | some r => match r.origin with
    | .passThrough _ _ _ _ _ => true
    | _ => false
  | none => false

/-- A tag, IN_USE or STALE, that carries a window write (R12, R110). -/
def TagEntry.carriesWindowWrite (t : TagEntry) : Bool :=
  match t.record? with
  | some r => match r.origin with
    | .passThrough _ _ _ w _ => w
    | _ => false
  | none => false

/-- An IN_USE tag issued for a save context (R73). -/
def TagEntry.outstandingFor (c : ContextNo) (t : TagEntry) : Bool :=
  match t with
  | .inUse r => match r.origin with
    | .save c' _ => c' == c
    | _ => false
  | _ => false

def State.tagCount (s : State) (p : TagEntry → Bool) : Nat := s.down.tags.toList.countP p

/-- The lowest-numbered FREE tag (R112). -/
def State.freeTag? (s : State) : Option TagNo :=
  (List.finRange 64).find? fun t => (s.tag t).isFree

/-- Requests of a save context whose tags are IN_USE (R73). -/
def State.outstandingOf (s : State) (c : ContextNo) : Nat := s.tagCount (TagEntry.outstandingFor c)

/-! ### Activity counters (R168) -/

/-- A saturating increment. -/
def bump (n : Nat) : Nat := if n < Config.max32 then n + 1 else n

def State.setCounters (s : State) (c : Counters) : State := s.setNotice { s.notice with counters := c }

def State.countSaveCompleted (s : State) : State :=
  s.setCounters { s.notice.counters with savesCompleted := bump s.notice.counters.savesCompleted }

def State.countSaveFailed (s : State) : State :=
  s.setCounters { s.notice.counters with savesFailed := bump s.notice.counters.savesFailed }

def State.countWriteHeld (s : State) : State :=
  s.setCounters { s.notice.counters with writesHeld := bump s.notice.counters.writesHeld }

def State.countRequestDenied (s : State) : State :=
  s.setCounters { s.notice.counters with requestsDenied := bump s.notice.counters.requestsDenied }

def State.countResponseTimedOut (s : State) : State :=
  s.setCounters { s.notice.counters with responsesTimedOut := bump s.notice.counters.responsesTimedOut }

def State.countRecordRestored (s : State) : State :=
  s.setCounters { s.notice.counters with recordsRestored := bump s.notice.counters.recordsRestored }

/-! ### Sending on the links (R83, R106) -/

def State.respond (s : State) (r : UpstreamResponse) : State :=
  s.setLinks { s.links with upstream := s.links.upstream ++ [r] }

def State.send (s : State) (r : DownstreamRequest) : State :=
  s.setLinks { s.links with downstream := s.links.downstream ++ [r] }

/-- The response to a transit entry's or an arriving request, without data (R83). -/
def answerTo (r : UpstreamRequest) (status : UpstreamStatus) : UpstreamResponse :=
  ⟨r.requester, r.tag, status, none⟩

end Sys2Proof.Machine
end

