-- ==== Sys2Proof/Machine/Flags.lean ====
section
/-! DEFINITION. The part's flags: the threshold-crossed flag (R60), the state of NOTICE_N (R164), and the conditions
that end a drain (R12) and a soft reset quiesce (R185). -/

namespace Sys2Proof.Machine

/-- The threshold-crossed flag for a threshold and a tail: set when LOG_THRESHOLD is not 0 and the tail is at or above
it (R60). -/
def thresholdCrossed (threshold tail : Nat) : Bool := threshold != 0 && threshold ≤ tail

/-- R164: the trigger condition or the quiet condition holds. -/
def State.noticeDue (s : State) : Bool :=
  let count := s.notice.queue.length
  s.mgmt.noticeTrigger ≤ count ||
    (1 ≤ count && s.mgmt.noticeQuiet != 0 && s.mgmt.noticeQuiet ≤ s.now - s.notice.quietStart)

/-- Brings NOTICE_N up to date (R164). -/
def State.updateLine (s : State) : State := s.setNotice { s.notice with asserted := s.noticeDue }

/-- R12: the conditions of the pending action's column all hold. -/
def State.drainDone (s : State) : Bool :=
  s.transit.entries.all (fun e => !e.preDrain) && s.allContextsFree &&
  match s.marks.action with
  | .rollback _ origin =>
    s.down.tags.toList.all (fun t => !t.carriesWindowWrite) &&
      (origin == .command || s.restore.state == .idle)
  | _ => true

/-- R185: the ENGINES phase can end. -/
def State.enginesDone (s : State) : Bool := s.allContextsFree && s.restore.state == .idle

end Sys2Proof.Machine
end

