-- ==== Sys2Proof/Machine/Formats.lean ====
section
/-! DEFINITION. Byte layouts the part writes (10): the code tables of R192, record headers (R193), reply frames (R194),
READ_CONFIG (R195), notice records (R196), GET_STATUS and GET_MARKS (R197). -/

namespace Sys2Proof.Machine

/-- A one-byte count. -/
def countByte (n : Nat) : Byte := BitVec.ofNat 8 n

/-- A yes/no value as a byte or a flag bit (R192). -/
def flagBit (b : Bool) : Nat := if b then 1 else 0

/-- An optional 32-bit field: 0xFFFFFFFF when absent (R192). -/
def optionalField (v : Option Nat) : List Byte := leBytes 4 (v.getD 0xFFFFFFFF)

/-! ### Codes (R192, R194) -/

def ControllerState.code : ControllerState → Byte
  | .starting => 0
  | .idle => 1
  | .opened => 2
  | .draining => 3
  | .rollingBack => 4
  | .broken => 5
  | .resetting => 6

def PendingAction.code : PendingAction → Byte
  | .noAction => 0
  | .openMark _ => 1
  | .releaseMark => 2
  | .commit => 3
  | .rollback _ _ => 4

def Origin.code : Origin → Byte
  | .command => 1
  | .line => 2

def BrokenReason.code : BrokenReason → Byte
  | .noReason => 0
  | .logFull => 1
  | .logWriteError => 2
  | .logWriteTimeout => 3
  | .rollbackIncomplete => 4

def ResetPhase.code : ResetPhase → Byte
  | .noPhase => 0
  | .engines => 1

def EngineState.code : EngineState → Byte
  | .idle => 0
  | .restoring => 1
  | .checking => 2

def requestKindCode : RequestKind → Byte
  | .read => 1
  | .write => 2
  | .atomic => 3

def DenyReason.code : DenyReason → Byte
  | .logArea => 1
  | .lineCrossing => 2
  | .noCredit => 3

def SaveFailure.code : SaveFailure → Byte
  | .readError => 1
  | .readTimeout => 2

def Source.code : Source → Byte
  | .passThrough => 1
  | .save => 2
  | .restore => 3

def IgnoreReason.code : IgnoreReason → Byte
  | .disabled => 1
  | .noMark => 2
  | .broken => 3
  | .level => 4

def CheckResult.code : CheckResult → Byte
  | .complete => 1
  | .stopped => 2
  | .abandoned => 3

def FullPolicy.code : FullPolicy → Nat
  | .breakMarks => 0
  | .refuse => 1

/-- The status codes of R194. -/
def Status.code : Status → Byte
  | .ok => 0x00
  | .accepted => 0x01
  | .busy => 0x02
  | .notReady => 0x03
  | .refusedState => 0x10
  | .refusedRange => 0x11
  | .refusedOverlap => 0x12
  | .refusedBroken => 0x13
  | .levelLimit => 0x14
  | .numbersExhausted => 0x15
  | .empty => 0x20
  | .unknownCommand => 0x30
  | .checkFailed => 0x31

def RecordKind.code : RecordKind → Byte
  | .saved => 1
  | .void => 2

/-! ### The record header (R72, R73, R193) -/

/-- The magic of a record header (R50). -/
def headerMagic : Nat := 0x7A3D5C11

/-- The kind of the header a context writes: VOID in VOIDING, else SAVED (R72, R73). -/
def SaveContext.recordKind (x : SaveContext) : RecordKind := if x.state = .voiding then .void else .saved

/-- The data check: the running CRC inverted for SAVED (R71), 0 for VOID (R73). -/
def SaveContext.dataCheck (x : SaveContext) : Nat := if x.state = .voiding then 0 else crc32Value x.crc

/-- Header bytes 0 to 59 (R193). -/
def headerFields (x : SaveContext) : List Byte :=
  leBytes 4 headerMagic ++ [1#8, x.recordKind.code, x.granule.code, countByte x.window.val, x.requester.setWidth 8,
    countByte x.level] ++ leBytes 2 0 ++ leBytes 4 x.markNumber ++ leBytes 4 x.sequence ++
    leBytes 5 x.granuleAddress.toNat ++ leBytes 3 0 ++ leBytes 4 x.dataCheck ++ leBytes 28 0

/-- The 64 bytes of a record header (R193). -/
def headerBytes (x : SaveContext) : Line := headerFields x ++ leBytes 4 (crc32 (headerFields x))

/-! ### Reply frames (R176, R194) -/

/-- The bytes of a reply the check covers: request number, status, payload length, payload. -/
def Reply.covered (r : Reply) : List Byte := [r.request, r.status.code, countByte r.payload.length] ++ r.payload

/-- The response frame: ready byte, reply, frame check (R194). -/
def Reply.frame (r : Reply) : List Byte := 0xA5#8 :: r.covered ++ [crc8 r.covered]

/-! ### GET_STATUS and GET_MARKS (R197) -/

/-- Pending target level, pending origin. -/
def PendingAction.targetByte : PendingAction → Byte
  | .rollback k _ => countByte k
  | _ => 0

def PendingAction.originByte : PendingAction → Byte
  | .rollback _ o => o.code
  | _ => 0

def PendingAction.label : PendingAction → Nat
  | .openMark l => l.toNat
  | _ => 0

/-- The next mark number field: 0 when exhausted (R2, R178). -/
def State.nextNumberField (s : State) : Nat := if s.numbersExhausted then 0 else s.marks.nextNumber

/-- GET_STATUS byte 16. -/
def State.statusFlags (s : State) : Byte :=
  countByte (flagBit s.marks.latch + 2 * flagBit s.numbersExhausted + 4 * flagBit s.log.crossed +
    8 * flagBit s.mgmt.interruption.isSome)

/-- GET_STATUS byte 17: bit j is 1 when context j is busy. -/
def State.busyByte (s : State) : Byte :=
  countByte (flagBit (s.context? 0).isSome + 2 * flagBit (s.context? 1).isSome + 4 * flagBit (s.context? 2).isSome +
    8 * flagBit (s.context? 3).isSome)

/-- The 36 bytes of GET_STATUS (R197). -/
def State.statusPayload (s : State) : List Byte :=
  [s.marks.state.code, countByte s.level, s.mgmt.resetPhase.code, s.restore.state.code, s.marks.action.code,
    s.marks.action.targetByte, s.marks.action.originByte, s.marks.reason.code] ++ leBytes 4 s.marks.action.label ++
    leBytes 4 s.nextNumberField ++ [s.statusFlags, s.busyByte, countByte s.transit.entries.length,
    countByte s.notice.queue.length, countByte (s.tagCount TagEntry.isInUse), countByte (s.tagCount TagEntry.isStale),
    countByte s.down.credits, 0#8] ++ leBytes 4 s.log.tail ++ leBytes 4 s.log.nextSequence ++
    optionalField s.mgmt.interruption

/-- The 20 bytes of a mark record in GET_MARKS (R197). -/
def MarkRecord.layout (m : MarkRecord) : List Byte :=
  countByte m.level :: leBytes 3 0 ++ leBytes 4 m.number ++ leBytes 4 m.label.toNat ++ leBytes 4 m.startOffset ++
    leBytes 4 m.firstSequence

/-- The 12 + 20 × L bytes of GET_MARKS (R197). -/
def State.marksPayload (s : State) : List Byte :=
  [s.marks.state.code, countByte s.level, s.marks.action.code, s.marks.action.targetByte, s.marks.action.originByte,
    countByte (flagBit s.marks.latch), s.marks.reason.code, 0#8] ++ leBytes 4 s.marks.action.label ++
    s.marks.stack.flatMap MarkRecord.layout

/-! ### READ_CONFIG and READ_COUNTERS (R194, R195) -/

/-- The 80 bytes of READ_CONFIG (R195). -/
def State.configPayload (s : State) : List Byte :=
  leBytes 8 s.log.base.toNat ++ leBytes 8 s.log.size ++ leBytes 8 s.log.threshold ++ leBytes 8 s.log.policy.code ++
    [countByte (flagBit s.windows.reader.enable), s.windows.reader.reqMatch.setWidth 8,
      s.windows.reader.reqMask.setWidth 8] ++ leBytes 5 0 ++ leBytes 8 s.mgmt.partRequesterId.toNat ++
    leBytes 8 s.mgmt.responseTimeout ++ leBytes 8 s.mgmt.noticeTrigger ++ leBytes 8 s.mgmt.noticeQuiet ++
    [countByte (flagBit s.mgmt.lineRollback.enable), countByte s.mgmt.lineRollback.target] ++ leBytes 6 0

/-- The 24 bytes of READ_COUNTERS (R194). -/
def Counters.payload (c : Counters) : List Byte :=
  leBytes 4 c.savesCompleted ++ leBytes 4 c.savesFailed ++ leBytes 4 c.writesHeld ++ leBytes 4 c.requestsDenied ++
    leBytes 4 c.responsesTimedOut ++ leBytes 4 c.recordsRestored

/-! ### Notice records (R196) -/

/-- The kind code (R196). -/
def NoticeKind.code : NoticeKind → Byte
  | .saveFailed _ _ _ _ => 0x01
  | .logBroken _ _ => 0x02
  | .logThreshold _ => 0x03
  | .writeRefused _ _ _ => 0x04
  | .accessDenied _ _ _ _ => 0x05
  | .responseTimeout _ _ => 0x06
  | .lateResponse _ => 0x07
  | .strayResponse _ => 0x08
  | .rollbackDone _ => 0x09
  | .rollbackIncomplete _ => 0x0A
  | .checkDone _ _ => 0x0B
  | .lineIgnored _ => 0x0C
  | .markCommandDropped _ => 0x0D

/-- Bytes 8 to 31 of an outcome, with the result at byte 11 (R196). -/
def WalkOutcome.layout (o : WalkOutcome) (result : Byte) : List Byte :=
  [countByte o.level, o.origin.code, countByte (flagBit o.firstFailure.isSome + 2 * flagBit o.stopped), result] ++
    leBytes 4 o.good ++ leBytes 4 o.skipped ++ leBytes 4 o.failed ++ optionalField o.firstFailure ++
    optionalField o.stopOffset

/-- The command code of a dropped action (R196). -/
def DroppedCommand.code : DroppedCommand → Byte
  | .openMark => 0x0A
  | .releaseMark => 0x0B
  | .commit => 0x0C
  | .rollback _ _ => 0x0D

def DroppedCommand.targetByte : DroppedCommand → Byte
  | .rollback k _ => countByte k
  | _ => 0

def DroppedCommand.originByte : DroppedCommand → Byte
  | .rollback _ o => o.code
  | _ => 0

/-- Bytes 8 to 31 that lead with three one-byte fields and hold an address at bytes 16 to 20 (R196). -/
def addressedFields (b8 b9 b10 : Byte) (a : Address) : List Byte :=
  [b8, b9, b10] ++ leBytes 5 0 ++ leBytes 5 a.toNat ++ leBytes 11 0

/-- Bytes 8 to 31 that hold one byte at 8 and a tail at bytes 12 to 15 (R196). -/
def tailFields (b8 : Byte) (tail : Nat) : List Byte := b8 :: leBytes 3 0 ++ leBytes 4 tail ++ leBytes 16 0

/-- Bytes 8 to 31 of a notice record, by kind (R196). -/
def NoticeKind.fields : NoticeKind → List Byte
  | .saveFailed w r reason a => addressedFields (countByte w.val) (r.setWidth 8) reason.code a
  | .logBroken reason tail => tailFields reason.code tail
  | .logThreshold tail => tailFields 0 tail
  | .writeRefused w r a => addressedFields (countByte w.val) (r.setWidth 8) 0 a
  | .accessDenied r kind reason a => addressedFields (r.setWidth 8) (requestKindCode kind) reason.code a
  | .responseTimeout source a => addressedFields source.code 0 0 a
  | .lateResponse t => countByte t.val :: leBytes 23 0
  | .strayResponse t => countByte t.val :: leBytes 23 0
  | .rollbackDone o => o.layout 0
  | .rollbackIncomplete o => o.layout 0
  | .checkDone o result => o.layout result.code
  | .lineIgnored reason => reason.code :: leBytes 23 0
  | .markCommandDropped c => [c.code, c.targetByte, c.originByte] ++ leBytes 21 0

/-- The 32 bytes of a notice record (R196). -/
def NoticeRecord.layout (n : NoticeRecord) : List Byte :=
  [n.kind.code, countByte n.level] ++ leBytes 2 n.sequence ++ [countByte n.lossBefore] ++ leBytes 3 0 ++ n.kind.fields

end Sys2Proof.Machine
end

