-- ==== Sys2Proof/Machine/Notices.lean ====
section
/-! DEFINITION. Posting notices: how blocks hand posts to the notice unit in one happening, and how it takes them
(R154, R158 to R161). -/

namespace Sys2Proof.Machine

/-- The blocks that post notices (R155 to R157). -/
inductive Block where
  | markController
  | saveLog
  | saveEngine
  | restoreEngine
  | transitBuffer
  | downstreamPort
deriving DecidableEq, Repr

/-- A post handed to the notice unit (R158). -/
structure Post where
  block : Block
  kind : NoticeKind
deriving DecidableEq, Repr

/-- A happening in progress: the state its steps have reached, and the posts its blocks have handed over so far, in
the order handed. -/
structure Happening where
  state : State
  posts : List Post

def Happening.start (s : State) : Happening := ⟨s, []⟩

/-- A step that posts nothing. -/
def Happening.step (h : Happening) (f : State → State) : Happening := { h with state := f h.state }

def Happening.post (h : Happening) (block : Block) (kind : NoticeKind) : Happening :=
  { h with posts := h.posts ++ [⟨block, kind⟩] }

/-- The notice unit takes one post at a level: accepted while the queue holds fewer than 32 records (R160), else
dropped (R161). -/
def takePost (s : State) (kind : NoticeKind) (level : Nat) : State :=
  if s.notice.queue.length < Config.noticeRecords then
    (s.setNotice { s.notice with
      queue := s.notice.queue ++ [⟨kind, s.notice.nextSequence, s.notice.loss, level⟩]
      nextSequence := (s.notice.nextSequence + 1) % 65536
      loss := 0
      quietStart := s.now }).updateLine
  else
    s.setNotice { s.notice with loss := if s.notice.loss < 255 then s.notice.loss + 1 else 255 }

/-- The posts that can be taken next: the first of each block, since one block's posts keep their order (R158). -/
def takeable : List Post → List Post
  | [] => []
  | p :: rest => p :: (takeable rest).filter fun q => q.block != p.block

/-- Takes the next free choice (log 8). -/
def State.nextChoice (s : State) : Nat × State := (Config.freeChoice s.choices, s.setChoices (s.choices + 1))

/-- Which post is taken next: posts of different blocks that come together are taken in either order (R158). -/
def choosePost (first : Post) (others : List Post) (s : State) : Post × State :=
  match others with
  | [] => (first, s)
  | _ =>
    let (n, s') := s.nextChoice
    ((first :: others).getD (n % (others.length + 1)) first, s')

/-- The level a record carries (R154). A post of the mark controller carries the level its rule has reached. A post of
another block that comes together with a change of level carries the old level or the new one, and once a record has
carried the new one, so do the later ones. Answers the level and whether the old one may still be carried. -/
def chooseLevel (block : Block) (old : Nat) (mayBeOld : Bool) (s : State) : Nat × Bool × State :=
  if block = .markController || !mayBeOld || old = s.level then (s.level, mayBeOld && block != .markController, s)
  else
    let (n, s') := s.nextChoice
    if n % 2 = 0 then (old, true, s') else (s.level, false, s')

/-- The notice unit takes the posts of a happening that began at level `old`, one at a time (R158). -/
def takePosts : (fuel : Nat) → (old : Nat) → (mayBeOld : Bool) → List Post → State → State
  | 0, _, _, _, s => s
  | n + 1, old, mayBeOld, posts, s =>
    match takeable posts with
    | [] => s
    | first :: others =>
      let (p, s₁) := choosePost first others s
      let (level, mayBeOld', s₂) := chooseLevel p.block old mayBeOld s₁
      takePosts n old mayBeOld' (posts.erase p) (takePost s₂ p.kind level)

/-- The state a happening leaves, when it began at level `old`. -/
def Happening.finish (h : Happening) (old : Nat) : State := takePosts h.posts.length old true h.posts h.state

/-- A whole happening: its steps from `s`, then the taking of its posts. -/
def happening (s : State) (f : Happening → Happening) : State := (f (Happening.start s)).finish s.level

end Sys2Proof.Machine
end

