-- ==== Sys2Proof/Machine/Operands.lean ====
section
/-! DEFINITION. Command frames as the management port takes them: what the part drives on SPI_MISO, the frame tests,
the forming of replies (R172 to R176), and the operands in a payload (R192, R194, R195). -/

namespace Sys2Proof.Machine

/-! ### Replies -/

/-- The ready byte (R172): 0xA5 when the response buffer is READY. -/
def State.readyByte (s : State) : Byte :=
  match s.mgmt.buffer with
  | .ready _ => 0xA5#8
  | _ => 0x00#8

/-- The level SPI_MISO is driven to for a bit. -/
def MisoLevel.ofBit (bit : Bool) : MisoLevel := if bit then .high else .low

/-- The course of SPI_MISO over a period of `clocks` SPI_SCK cycles in which the part sends these bytes and then 0x00 for
every further byte (R172, R176): the first bit from the falling edge of SPI_CS_N on, the next one from each falling edge of
SPI_SCK on, each byte's most significant bit first, a byte left incomplete included; then high-impedance from the rising
edge of SPI_CS_N on (R171). That the bit changed to at the last falling edge stands until SPI_CS_N rises is DEDUCED from
R171 and the set-up times of 9.7 (log 25). -/
def misoOf (sent : List Byte) (clocks : Nat) : List MisoLevel :=
  (List.range (clocks + 1)).map (fun i => MisoLevel.ofBit ((bitsOfBytes sent).getD i false)) ++ [.highImpedance]

/-- SPI_MISO over a command period, or over an empty one, of `clocks` SPI_SCK cycles: the ready byte, then zeros (R172). -/
def State.driveCommandPeriod (s : State) (clocks : Nat) : State :=
  s.setPins { s.pins with miso := misoOf [s.readyByte] clocks }

/-- A complete frame is answered: the reply replaces what the response buffer holds and is FORMING (R176). -/
def State.reply (s : State) (request : Byte) (status : Status) (payload : List Byte) : State :=
  s.setMgmt { s.mgmt with buffer := .forming ⟨request, status, payload⟩ }

/-! ### The frame tests (R175) -/

/-- STARTING and RESETTING, in which every command but GET_STATUS is answered NOT_READY (R175). -/
def State.notReady (s : State) : Bool := s.marks.state == .starting || s.marks.state == .resetting

/-- The tests of R175 on a frame whose check is right and whose code is defined: a malformed length (R173), readiness,
and the payload length. `anyState` is GET_STATUS's; `length` is the whole payload's length received. -/
def State.frameRefusal (s : State) (anyState : Bool) (length expected : Nat) : Option Status :=
  if Config.maxPayload < length then some .checkFailed
  else if s.notReady && !anyState then some .notReady
  else if length != expected then some .refusedRange
  else none

/-- What a command's owner answers: the state its change leaves, the status and the reply payload. -/
structure Answer where
  state : State
  status : Status
  payload : List Byte

/-- An answer that changes nothing, without a payload. -/
def State.refuse (s : State) (status : Status) : Answer := ⟨s, status, []⟩

/-- An answer OK without a payload. -/
def State.done (s : State) : Answer := ⟨s, .ok, []⟩

/-- Taking a command frame at the end of its period (R173, R175 to R177). `identifier` is 1 where the row itself names
the first payload byte. A period that fell into power-on reset is ignored whole (R171), and the part does not drive SPI_MISO
in it (DESIGN CHOICE, log 31). -/
def takeFrame (s : State) (f : Frame) (identifier expected : Nat) (anyState : Bool) (owner : State → Answer) : State :=
  if s.pins.resetLow || f.beganInReset then s
  else
    let length := identifier + f.payload.length
    let s₁ := s.driveCommandPeriod (f.clocks length)
    match s₁.frameRefusal anyState length expected with
    | some status => s₁.reply f.request status []
    | none =>
      let a := owner s₁
      a.state.reply f.request a.status a.payload

/-! ### Operands in payloads -/

/-- The operands of SET_WINDOW (R194); bits 6 and 7 of the match and mask bytes and byte 13 are ignored. -/
structure WindowOperands where
  number : Nat
  code : Byte
  reqMatch : RequesterId
  reqMask : RequesterId
  count : Nat
  base : Address
  mapOffset : Nat

def WindowOperands.ofPayload (payload : List Byte) : WindowOperands where
  number := (byteAt payload 0).toNat
  code := byteAt payload 1
  reqMatch := (byteAt payload 2).setWidth 6
  reqMask := (byteAt payload 3).setWidth 6
  count := leField payload 4 4
  base := BitVec.ofNat 40 (leField payload 8 5)
  mapOffset := leField payload 14 2

/-- A one-byte operand: a window number, or the level k of ROLLBACK and CHECK_LOG (R194). -/
def byteOperand (f : Frame) : Nat := (byteAt f.payload 0).toNat

/-- A four-byte operand: the index of READ_MAP or the label of OPEN_MARK (R194). -/
def wordOperand (f : Frame) : Nat := leField f.payload 0 4

/-- The 64-bit value of a WRITE_CONFIG item (R195); the identifier is not in the payload. -/
def itemValue (f : Frame) : Nat := leField f.payload 0 8

/-- Byte `i` of the value layout of an item, counted from 1 as R195 does. -/
def itemByte (f : Frame) (i : Nat) : Nat := (byteAt f.payload (i - 1)).toNat

end Sys2Proof.Machine
end

