-- ==== Sys2Proof/Machine/Management.lean ====
section
/-! DEFINITION. The management port's own commands and periods (09), and the notice unit's answers (08): GET_STATUS,
GET_MARKS, READ_CONFIG, the WRITE_CONFIG items the port holds, READ_NOTICE and the counters, read periods, and frames
that are not taken. -/

namespace Sys2Proof.Machine

def State.updateMgmt (s : State) (f : ManagementPort → ManagementPort) : State := s.setMgmt (f s.mgmt)

/-! ### Periods (R171 to R176) -/

/-- What a read period sends before the zeros of every further byte (R176): the response frame when READY, else the ready
byte 0x00. -/
def State.readBytes (s : State) : List Byte :=
  match s.mgmt.buffer with
  | .ready r => r.frame
  | _ => [0x00#8]

/-- A read period of `clocks` SPI_SCK cycles (R176); one that began in power-on reset is ignored whole (R171), and the part
does not drive SPI_MISO in it (DESIGN CHOICE, log 31). -/
def State.readPeriod (s : State) (clocks : Nat) (beganInReset : Bool) : State :=
  if s.pins.resetLow || beganInReset then s else s.setPins { s.pins with miso := misoOf s.readBytes clocks }

/-- Assembly of a reply ends (R176). -/
def State.replyReady (s : State) : State :=
  match s.mgmt.buffer with
  | .forming r => s.updateMgmt fun m => { m with buffer := .ready r }
  | _ => s

/-- A cut-short command period is discarded (R173), and in an empty period nothing happens (R172); a period ignored for
power-on reset as in State.readPeriod (log 31). -/
def State.cutShort (s : State) (p : Period) : State :=
  if s.pins.resetLow || p.beganInReset then s else s.driveCommandPeriod p.clocks

/-- A frame whose check fails, or a malformed one: CHECK_FAILED with the request number as received (R173, R175). -/
def State.checkFailed (s : State) (p : Period) : State :=
  if s.pins.resetLow || p.beganInReset then s
  else (s.driveCommandPeriod p.clocks).reply (byteAt p.bytes 1) .checkFailed []

/-- A frame with an undefined code: UNKNOWN_COMMAND in every state (R175). -/
def State.unknownCommand (s : State) (f : Frame) : State :=
  if s.pins.resetLow || f.beganInReset then s
  else (s.driveCommandPeriod (f.clocks f.payload.length)).reply f.request
    (if Config.maxPayload < f.payload.length then .checkFailed else .unknownCommand) []

/-! ### Status (R3, R178, R179, R181, R190) -/

/-- GET_STATUS shows the interruption report and clears it (R178, R179, R190). -/
def answerGetStatus (s : State) : Answer := ⟨s.updateMgmt fun m => { m with interruption := none }, .ok, s.statusPayload⟩

/-- GET_MARKS (R3). -/
def answerGetMarks (s : State) : Answer := ⟨s, .ok, s.marksPayload⟩

/-- READ_CONFIG (R181). -/
def answerReadConfig (s : State) : Answer := ⟨s, .ok, s.configPayload⟩

/-! ### Items the port holds (R183) -/

def answerWritePartRequesterId (v : Nat) (s : State) : Answer :=
  if s.marks.state != .idle then s.refuse .refusedState
  else if 63 < v then s.refuse .refusedRange
  else (s.updateMgmt fun m => { m with partRequesterId := BitVec.ofNat 6 v }).done

def answerWriteResponseTimeout (v : Nat) (s : State) : Answer :=
  if 65535 < v then s.refuse .refusedRange else (s.updateMgmt fun m => { m with responseTimeout := v }).done

def answerWriteNoticeTrigger (v : Nat) (s : State) : Answer :=
  if v != 1 && v != 4 && v != 8 && v != 16 then s.refuse .refusedRange
  else (s.updateMgmt fun m => { m with noticeTrigger := v }).updateLine.done

def answerWriteNoticeQuiet (v : Nat) (s : State) : Answer :=
  if v != 0 && !(16 ≤ v && v ≤ 4096) then s.refuse .refusedRange
  else (s.updateMgmt fun m => { m with noticeQuiet := v }).updateLine.done

def answerWriteLineRollback (enable target : Nat) (s : State) : Answer :=
  if 1 < enable || target < 1 || 4 < target then s.refuse .refusedRange
  else (s.updateMgmt fun m => { m with lineRollback := ⟨enable == 1, target⟩ }).done

/-- An item identifier that names no item (R182). -/
def answerUnknownItem (s : State) : Answer := s.refuse .refusedRange

/-! ### Notices and counters (R162, R165, R169, R170) -/

/-- READ_NOTICE (R162), with the payloads of R196. -/
def answerReadNotice (s : State) : Answer :=
  match s.notice.queue with
  | [] => ⟨s, .empty, [countByte s.notice.loss]⟩
  | front :: rest =>
    ⟨(s.setNotice { s.notice with queue := rest, quietStart := s.now }).updateLine, .ok,
      countByte rest.length :: front.layout⟩

/-- READ_COUNTERS (R169). -/
def answerReadCounters (s : State) : Answer := ⟨s, .ok, s.notice.counters.payload⟩

/-- CLEAR_COUNTERS (R170). -/
def answerClearCounters (s : State) : Answer := (s.setCounters Counters.reset).done

/-- The quiet timer reaches NOTICE_QUIET with records in the queue (R164, R165). -/
def State.quietExpiry (s : State) : State :=
  if 1 ≤ s.notice.queue.length && s.mgmt.noticeQuiet != 0 && s.mgmt.noticeQuiet ≤ s.now - s.notice.quietStart then
    s.updateLine
  else s

end Sys2Proof.Machine
end

