-- ==== Sys2Proof/Machine/Windows.lean ====
section
/-! DEFINITION. The window unit (02): window ranges and overlap, classification, and the owner's answers to the window
commands and READ_MAP. -/

namespace Sys2Proof.Machine

/-! ### Ranges (R27, R34) -/

/-- Two half-open ranges share at least one value (R34). -/
def rangesShare (a b c d : Nat) : Bool := max a c < min b d

/-- count × G, with G of the stored granule code; 0 for a code that names no size. -/
def WindowRecord.span (r : WindowRecord) : Nat :=
  match Granule.ofCode r.code with
  | some g => r.count * g.bytes
  | none => 0

/-- The end of the window's range (R27). -/
def WindowRecord.rangeEnd (r : WindowRecord) : Nat := r.base.toNat + r.span

/-- The address lies in the window's range (R28). -/
def WindowRecord.covers (r : WindowRecord) (a : Nat) : Bool := r.base.toNat ≤ a && a < r.rangeEnd

/-- A masked match (R28, R37). -/
def maskedMatch (requester reqMatch reqMask : RequesterId) : Bool :=
  requester &&& reqMask == reqMatch &&& reqMask

/-- Address overlap (R34). -/
def WindowRecord.addressOverlap (a b : WindowRecord) : Bool :=
  rangesShare a.base.toNat a.rangeEnd b.base.toNat b.rangeEnd

/-- Map-range overlap (R34). -/
def WindowRecord.mapOverlap (a b : WindowRecord) : Bool :=
  rangesShare a.mapOffset (a.mapOffset + a.count) b.mapOffset (b.mapOffset + b.count)

/-- Log overlap with the log area [base, base + size) (R34). -/
def WindowRecord.logOverlap (r : WindowRecord) (base size : Nat) : Bool :=
  size != 0 && rangesShare r.base.toNat r.rangeEnd base (base + size)

def State.window (s : State) (w : WindowNo) : WindowRecord := s.windows.records[w]

def State.setWindow (s : State) (w : WindowNo) (r : WindowRecord) : State :=
  s.setWindows { s.windows with records := s.windows.records.set w r }

/-- An enabled window's log overlap with a proposed log area (R34, R47). -/
def State.logAreaOverlaps (s : State) (base size : Nat) : Bool :=
  (List.finRange 16).any fun w => (s.window w).enabled && (s.window w).logOverlap base size

/-! ### Classification (R28, R35, R37, R39) -/

/-- The result of classifying a request (R35). -/
inductive Classification where
  | denied (reason : DenyReason)
  | taken (cls : EntryClass)
deriving DecidableEq, Repr

/-- The request hits window `w` (R28). -/
def State.hits (s : State) (w : WindowNo) (r : UpstreamRequest) : Bool :=
  (s.window w).enabled && (s.window w).covers r.address.toNat &&
    maskedMatch r.requester (s.window w).reqMatch (s.window w).reqMask

/-- The window a request hits; enabled windows do not overlap, so there is at most one (R28, log 17). -/
def State.windowHit (s : State) (r : UpstreamRequest) : Option WindowNo :=
  (List.finRange 16).find? fun w => s.hits w r

/-- The granule size of a window's stored code; one byte for a code that names none, which no enabled window has. -/
def WindowRecord.granuleBytes (r : WindowRecord) : Nat :=
  match Granule.ofCode r.code with
  | some g => g.bytes
  | none => 1

/-- The map index of an address in a window (R39). -/
def WindowRecord.indexOf (r : WindowRecord) (a : Nat) : Nat :=
  r.mapOffset + (a - r.base.toNat) / r.granuleBytes

/-- The address of a granule of a window, from its map index (R45). -/
def WindowRecord.granuleAddress (r : WindowRecord) (index : Nat) : Nat :=
  r.base.toNat + (index - r.mapOffset) * r.granuleBytes

/-- The transaction crosses a line or has length 0 (R35, test 1). -/
def crossesLine (r : UpstreamRequest) : Bool :=
  64 < r.address.toNat % 64 + r.length || r.length == 0

/-- The address lies in the configured log area (R35, test 2). -/
def State.inLogArea (s : State) (a : Nat) : Bool :=
  s.log.size != 0 && s.log.base.toNat ≤ a && a < s.log.base.toNat + s.log.size

/-- LOG_READER permits the requester (R37). -/
def State.readerPermits (s : State) (requester : RequesterId) : Bool :=
  s.windows.reader.enable && maskedMatch requester s.windows.reader.reqMatch s.windows.reader.reqMask

/-- R35. The controller state takes no part (R36). -/
def State.classify (s : State) (r : UpstreamRequest) : Classification :=
  if crossesLine r then .denied .lineCrossing
  else if s.inLogArea r.address.toNat then
    if r.kind == .read && s.readerPermits r.requester then .taken .logRead else .denied .logArea
  else
    match s.windowHit r with
    | some w => .taken (.window w ((s.window w).indexOf r.address.toNat))
    | none => .taken .pass

/-! ### Window commands (R29 to R33, R43) -/

/-- R29: a window number above 15 is REFUSED_RANGE before any other test. -/
def withWindow (s : State) (number : Nat) (k : WindowNo → Answer) : Answer :=
  if h : number < 16 then k ⟨number, h⟩ else s.refuse .refusedRange

/-- R30. -/
def answerSetWindow (o : WindowOperands) (s : State) : Answer :=
  withWindow s o.number fun w =>
    if (s.window w).enabled then s.refuse .refusedState
    else (s.setWindow w ⟨false, o.base, o.code, o.count, o.mapOffset, o.reqMatch, o.reqMask⟩).done

/-- The tests of R31 in order, on a window that is not enabled, with the controller IDLE. -/
def State.enableRefusal (s : State) (w : WindowNo) : Option Status :=
  let r := s.window w
  match Granule.ofCode r.code with
  | none => some .refusedRange
  | some g =>
    if r.count = 0 || 65536 < r.count then some .refusedRange
    else if r.base.toNat % g.bytes != 0 then some .refusedRange
    else if Config.addressSpace < r.base.toNat + r.count * g.bytes then some .refusedRange
    else if Config.mapEntries < r.mapOffset + r.count then some .refusedRange
    else if (List.finRange 16).any (fun v => v != w && (s.window v).enabled &&
        (r.addressOverlap (s.window v) || r.mapOverlap (s.window v))) then some .refusedOverlap
    else if r.logOverlap s.log.base.toNat s.log.size then some .refusedOverlap
    else none

/-- R31. -/
def answerEnableWindow (number : Nat) (s : State) : Answer :=
  withWindow s number fun w =>
    if s.marks.state != .idle then s.refuse .refusedState
    else if (s.window w).enabled then s.refuse .refusedState
    else match s.enableRefusal w with
      | some status => s.refuse status
      | none => (s.setWindow w { s.window w with enabled := true }).done

/-- R32. -/
def answerDisableWindow (number : Nat) (s : State) : Answer :=
  withWindow s number fun w =>
    if s.marks.state != .idle then s.refuse .refusedState
    else if (s.window w).enabled then (s.setWindow w { s.window w with enabled := false }).done
    else s.done

/-- The 16-byte layout of GET_WINDOW's reply (R194). -/
def WindowRecord.layout (r : WindowRecord) (number : Nat) : List Byte :=
  [BitVec.ofNat 8 number, r.code, r.reqMatch.setWidth 8, r.reqMask.setWidth 8] ++ leBytes 4 r.count ++
    leBytes 5 r.base.toNat ++ [if r.enabled then 1#8 else 0#8] ++ leBytes 2 r.mapOffset

/-- R33. -/
def answerGetWindow (number : Nat) (s : State) : Answer :=
  withWindow s number fun w => ⟨s, .ok, (s.window w).layout number⟩

/-- The enabled window whose map range holds an index (R43). -/
def State.ownerOf (s : State) (index : Nat) : Option WindowNo :=
  (List.finRange 16).find? fun w =>
    (s.window w).enabled && (s.window w).mapOffset ≤ index && index < (s.window w).mapOffset + (s.window w).count

/-- R43, with the reply of R194. -/
def answerReadMap (index : Nat) (s : State) : Answer :=
  if 65535 < index then s.refuse .refusedRange
  else ⟨s, .ok, leBytes 4 (mapRead s.windows.map index) ++
    [match s.ownerOf index with
      | some w => BitVec.ofNat 8 w.val
      | none => 0xFF#8]⟩

/-- LOG_READER's checks and value (R182, R195). -/
def answerWriteLogReader (enable reqMatch reqMask : Nat) (s : State) : Answer :=
  if 1 < enable || 63 < reqMatch || 63 < reqMask then s.refuse .refusedRange
  else (s.setWindows { s.windows with
    reader := ⟨enable == 1, BitVec.ofNat 6 reqMatch, BitVec.ofNat 6 reqMask⟩ }).done

/-- The window part of the reset step (R44): every record disabled with fields 0, LOG_READER reset, the map kept. -/
def WindowUnit.resetStep (u : WindowUnit) : WindowUnit := { WindowUnit.reset with map := u.map }

end Sys2Proof.Machine
end

