-- ==== Sys2Proof/Machine/SaveLogUnit.lean ====
section
/-! DEFINITION. The save log unit (03): reservation, threshold, truncation, emptying, and the owner's answers to its
configuration items. -/

namespace Sys2Proof.Machine

/-- There is room at the tail for a record of this granule size (R56). -/
def State.logFits (s : State) (g : Granule) : Bool := s.log.tail + g.recordSize ≤ s.log.size

/-- A granted reservation advances the tail and the next sequence number, then makes the threshold test (R56, R60). -/
def Happening.reserve (h : Happening) (g : Granule) : Happening :=
  let log := h.state.log
  let tail := log.tail + g.recordSize
  if log.threshold != 0 && log.tail < log.threshold && log.threshold ≤ tail && !log.crossed then
    (h.step fun s => s.setLog { log with tail := tail, nextSequence := log.nextSequence + 1, crossed := true }).post
      .saveLog (.logThreshold tail)
  else h.step fun s => s.setLog { log with tail := tail, nextSequence := log.nextSequence + 1 }

/-- Truncation to a kept mark's start offset and first sequence (R61, R60). -/
def State.truncateLog (s : State) (startOffset firstSequence : Nat) : State :=
  s.setLog { s.log with
    tail := startOffset
    nextSequence := firstSequence
    crossed := s.log.crossed && !(startOffset < s.log.threshold) }

/-- Emptying (R62). -/
def State.emptyLog (s : State) : State := s.setLog { s.log with tail := 0, nextSequence := 0, crossed := false }

/-! ### Configuration items (R47, R57, R60, R195) -/

/-- A write to LOG_BASE (R47). -/
def answerWriteLogBase (v : Nat) (s : State) : Answer :=
  if s.marks.state != .idle then s.refuse .refusedState
  else if v % 4096 != 0 || Config.addressSpace ≤ v then s.refuse .refusedRange
  else if s.log.size != 0 && Config.addressSpace < v + s.log.size then s.refuse .refusedRange
  else if s.logAreaOverlaps v s.log.size then s.refuse .refusedOverlap
  else (s.setLog { s.log with base := BitVec.ofNat 40 v }).done

/-- A write to LOG_SIZE (R47). -/
def answerWriteLogSize (v : Nat) (s : State) : Answer :=
  if s.marks.state != .idle then s.refuse .refusedState
  else if v != 0 && !(v % 4096 == 0 && 65536 ≤ v && v ≤ Config.maxLogSize) then s.refuse .refusedRange
  else if v != 0 && Config.addressSpace < s.log.base.toNat + v then s.refuse .refusedRange
  else if v < s.log.threshold then s.refuse .refusedRange
  else if s.logAreaOverlaps s.log.base.toNat v then s.refuse .refusedOverlap
  else (s.setLog { s.log with size := v }).done

/-- A write to LOG_THRESHOLD brings the flag up to date without a notice (R60). -/
def answerWriteLogThreshold (v : Nat) (s : State) : Answer :=
  if v % 4096 != 0 || s.log.size < v then s.refuse .refusedRange
  else (s.setLog { s.log with threshold := v, crossed := thresholdCrossed v s.log.tail }).done

/-- A write to LOG_FULL_POLICY (R57). -/
def answerWriteLogFullPolicy (v : Nat) (s : State) : Answer :=
  match v with
  | 0 => (s.setLog { s.log with policy := .breakMarks }).done
  | 1 => (s.setLog { s.log with policy := .refuse }).done
  | _ => s.refuse .refusedRange

end Sys2Proof.Machine
end

