-- ==== Sys2Proof/Machine/Transit.lean ====
section
/-! DEFINITION. The upstream port and the transit buffer (05): arrivals, transit states, per-granule order, and what
drains, breaks and soft resets do to entries. -/

namespace Sys2Proof.Machine

/-! ### Heads (R92 to R95) -/

/-- The save-needed test (R40), for an entry of map index `index`. -/
def State.saveNeeded (s : State) (e : TransitEntry) (index : Nat) : Bool :=
  e.request.kind != .read &&
  (match e.markNumber with
    | some n => mapRead s.windows.map index < n
    | none => false) &&
  s.marks.state != .broken && s.marks.state != .resetting

/-- The waiting list stays in arrival order (R66). -/
def insertOrder : List Nat → Nat → List Nat
  | [], o => [o]
  | p :: rest, o => if o < p then o :: p :: rest else p :: insertOrder rest o

/-- A head write enters WAIT_SAVE: it joins the save engine's waiting list and WRITES_HELD is incremented (R66, R95). -/
def State.enterWaitSave (s : State) (order : Nat) : State :=
  let s₁ := s.updateEntry order fun e => { e with state := .waitSave, hasContext := false }
  (s₁.setSave { s₁.save with waiting := insertOrder s₁.save.waiting order }).countWriteHeld

/-- A head is evaluated (R93). -/
def State.evaluateHead (s : State) (order : Nat) : State :=
  match s.entry? order with
  | none => s
  | some e =>
    match e.cls with
    | .window _ index =>
      if s.saveNeeded e index then s.enterWaitSave order
      else s.updateEntry order fun e => { e with state := .forwardable }
    | _ => s

/-- The next entry of a map index takes its turn: out of WAIT_ORDER it becomes head and is evaluated, out of WAIT_MARK
it stays (R94). -/
def State.passTurn (s : State) (index : Nat) : State :=
  match s.headOf index with
  | none => s
  | some e => if e.state = .waitOrder then s.evaluateHead e.order else s

/-- An entry leaves the buffer: its credit is returned and its map index passes its turn on (R88). -/
def State.leave (s : State) (order : Nat) : State :=
  match s.entry? order with
  | none => s
  | some e =>
    let s₁ := s.setTransit { s.transit with
      entries := s.transit.entries.eraseP (·.order == order)
      credits := s.transit.credits + 1 }
    match e.index? with
    | some index => s₁.passTurn index
    | none => s₁

/-- A held write is made FORWARDABLE (R96). -/
def State.release (s : State) (order : Nat) : State :=
  s.updateEntry order fun e => { e with state := .forwardable, hasContext := false }

/-! ### Arrivals (R85, R89 to R91) -/

/-- A request is answered DENIED (R85, R89): the response, the notice, the counter. -/
def Happening.denyRequest (h : Happening) (r : UpstreamRequest) (reason : DenyReason) : Happening :=
  ((h.step fun s => s.respond (answerTo r .denied)).post
    .transitBuffer (.accessDenied r.requester r.kind reason r.address)).step State.countRequestDenied

/-- A WINDOW arrival is held in WAIT_MARK (R91, test 1). -/
def State.holdsArrivals (s : State) : Bool :=
  s.marks.state == .draining || s.marks.state == .rollingBack ||
    (s.marks.state == .resetting && s.restore.state == .restoring)

/-- The classification mark number a WINDOW entry records under the present state: the current mark number in OPEN,
none in IDLE, BROKEN and RESETTING (R91, R99). -/
def State.classificationMark (s : State) : Option Nat :=
  if s.marks.state = .opened then s.currentMark else none

/-- An entry joins the buffer and spends a credit (R85, R86). -/
def State.enter (s : State) (r : UpstreamRequest) (cls : EntryClass) (mark : Option Nat) (state : TransitState) : State :=
  s.setTransit {
    entries := s.transit.entries ++ [⟨s.transit.nextOrder, r, cls, mark, state, false, false⟩]
    nextOrder := s.transit.nextOrder + 1
    credits := s.transit.credits - 1 }

/-- A WINDOW request enters its first transit state (R91). -/
def State.enterWindow (s : State) (r : UpstreamRequest) (w : WindowNo) (index : Nat) : State :=
  let order := s.transit.nextOrder
  if s.holdsArrivals then s.enter r (.window w index) none .waitMark
  else if s.hasEarlier order index then s.enter r (.window w index) s.classificationMark .waitOrder
  else (s.enter r (.window w index) s.classificationMark .forwardable).evaluateHead order

/-- A request arrives (R85): DENIED without credit, or taken into an entry and classified (R89, R90, R91). -/
def Happening.arrive (h : Happening) (r : UpstreamRequest) : Happening :=
  if Config.transitEntries ≤ h.state.transit.entries.length then h.denyRequest r .noCredit
  else match h.state.classify r with
    | .denied reason =>
      (h.step fun s => s.setTransit { s.transit with nextOrder := s.transit.nextOrder + 1 }).denyRequest r reason
    | .taken (.window w index) => h.step fun s => s.enterWindow r w index
    | .taken cls => h.step fun s => s.enter r cls none .forwardable

/-! ### Drains, re-classification, breaks and soft resets (R97 to R105) -/

/-- Every entry held is marked pre-drain (R97). -/
def State.markPreDrain (s : State) : State := s.updateEntries fun e => { e with preDrain := true }

/-- The pre-drain marks are removed (R97). -/
def State.clearPreDrain (s : State) : State := s.updateEntries fun e => { e with preDrain := false }

/-- Every classification mark number is removed (R100, R104). -/
def State.clearMarkNumbers (s : State) : State := s.updateEntries fun e => { e with markNumber := none }

/-- One WAIT_MARK entry is classified afresh under the present state (R99). -/
def State.reclassify (s : State) (e : TransitEntry) : State :=
  match e.cls with
  | .window _ index =>
    let s₁ := s.updateEntry e.order fun e => { e with markNumber := s.classificationMark }
    if s₁.hasEarlier e.order index then s₁.updateEntry e.order fun e => { e with state := .waitOrder }
    else s₁.evaluateHead e.order
  | _ => s

/-- Every WAIT_MARK entry is classified afresh, one at a time in arrival order (R99). -/
def State.reclassifyAll (s : State) : State :=
  (s.transit.entries.filter (·.state == .waitMark)).foldl State.reclassify s

/-- The waiting list is released: every WAIT_SAVE entry without a context becomes FORWARDABLE (R78, R105). -/
def State.releaseWaiting (s : State) : State :=
  let s₁ := s.updateEntries fun e =>
    if e.state = .waitSave && !e.hasContext then { e with state := .forwardable } else e
  s₁.setSave { s₁.save with waiting := [] }

/-- The release step of the soft reset quiesce (R186, R105). -/
def State.releaseStep (s : State) : State := s.releaseWaiting.reclassifyAll

end Sys2Proof.Machine
end

