-- ==== Sys2Proof/Machine/RestoreUnit.lean ====
section
/-! DEFINITION. The restore engine (07): the walk, header verification, data checks, write-back, and the ends of a walk. -/

namespace Sys2Proof.Machine

/-- Changes the restore engine. -/
def State.updateEngine (s : State) (f : RestoreEngine → RestoreEngine) : State := s.setRestore (f s.restore)

/-! ### Ends of a walk (R128, R151 to R153) -/

/-- The engine enters IDLE with record step NONE; what else the walk leaves behind has no effect (R127, R128). -/
def RestoreEngine.toIdle (e : RestoreEngine) : RestoreEngine :=
  { e with state := .idle, step := .noStep, headerIssued := false, current := none, buffer := [] }

/-- The walk ends under its end request: ABANDON posts CHECK_DONE with result ABANDONED (R151), ABANDON_SILENT posts
nothing (R153), STOP hands the walk offset to the management port (R152). -/
def Happening.endByRequest (h : Happening) : Happening :=
  match h.state.restore.endRequest with
  | .noRequest => h
  | .abandon =>
    (h.post .restoreEngine (.checkDone h.state.restore.outcome .abandoned)).step (·.updateEngine RestoreEngine.toIdle)
  | .abandonSilent => h.step (·.updateEngine RestoreEngine.toIdle)
  | .stop =>
    h.step fun s =>
      (s.setMgmt { s.mgmt with stoppedWalk := some s.restore.position }).updateEngine RestoreEngine.toIdle

/-- The walk stops at its walk position (R130 to R132); an end request that is set ends it then (R151, R152). -/
def Happening.stopWalk (h : Happening) : Happening :=
  (h.step (·.updateEngine fun e =>
    { e with step := .noStep, outcome := { e.outcome with stopped := true, stopOffset := some e.position } })).endByRequest

/-- A running walk has ended complete or stopped and waits for its end to be taken: the record step is NONE, which in a
walk that goes on it never is (R130, R142, R150). -/
def RestoreEngine.walkEnded (e : RestoreEngine) : Bool :=
  e.step == .noStep && (e.outcome.stopped || (e.position == e.lowerBound && e.remaining == 0))

/-! ### Records (R130, R131, R148) -/

/-- A busy save context holds a slot that ends at this offset (R148). -/
def State.slotBusyAt (s : State) (offset : Nat) : Bool :=
  s.save.contexts.toList.any fun x => x.state != .free && x.offset + x.granule.recordSize == offset

/-- The engine begins the record that ends at the walk position (R131); a check first waits for a save context that
holds its slot (R148). -/
def State.beginRecord (s : State) : State :=
  s.updateEngine fun e =>
    { e with
      step := if e.state = .checking && s.slotBusyAt e.position then .waitSlot else .header
      headerIssued := false, current := none, buffer := [], linesIssued := 0, linesEnded := 0, recordFailed := false }

/-- The boundary test (R130). Under an end request the walk ends instead of beginning a record or going on as ended. -/
def Happening.boundaryTest (h : Happening) : Happening :=
  let e := h.state.restore
  if e.position = e.lowerBound then
    if e.remaining = 0 then h.endByRequest else h.stopWalk
  else if e.remaining = 0 then h.stopWalk
  else if e.endRequest != .noRequest then h.endByRequest
  else h.step State.beginRecord

/-- A walk begins with the values handed by the mark controller (R129, R130). The expected sequence is the next sequence
number less one; where that number is 0 it is 0 (DESIGN CHOICE, log 30). -/
def Happening.beginWalk (h : Happening) (state : EngineState) (origin : Origin) (k : Nat) (m : MarkRecord) : Happening :=
  (h.step fun s => s.setRestore {
    state := state
    targetLevel := k
    origin := origin
    lowerMark := m.number
    lastIssued := s.lastIssued
    lowerBound := m.startOffset
    upperBound := s.log.tail
    position := s.log.tail
    remaining := s.log.nextSequence - m.firstSequence
    expected := s.log.nextSequence - 1
    step := .noStep
    headerIssued := false
    current := none
    buffer := []
    linesIssued := 0
    linesEnded := 0
    outstanding := 0
    recordFailed := false
    endRequest := .noRequest
    outcome := { WalkOutcome.reset with level := k, origin := origin } }).boundaryTest

/-- How a record is finished (R137). -/
inductive RecordEnd where
  | good
  | skipped
  | failed
deriving DecidableEq, Repr

/-- A finished record is counted (R133 to R137, R143). -/
def WalkOutcome.count (o : WalkOutcome) (start : Nat) : RecordEnd → WalkOutcome
  | .good => { o with good := o.good + 1 }
  | .skipped => { o with skipped := o.skipped + 1 }
  | .failed => { o with failed := o.failed + 1, firstFailure := o.firstFailure.orElse fun _ => some start }

/-- The record is finished and the engine steps to the one below it (R139, R130). Below the record of sequence 0 the
expected sequence, which has no lower value, stays 0 (DESIGN CHOICE, log 30). -/
def Happening.finishRecord (h : Happening) (r : CurrentRecord) (how : RecordEnd) : Happening :=
  (h.step (·.updateEngine fun e =>
    { e with
      outcome := e.outcome.count r.start how
      position := r.start
      remaining := e.remaining - 1
      expected := e.expected - 1
      step := .noStep
      headerIssued := false
      current := none
      buffer := [] })).boundaryTest

/-! ### Headers (R132, R193) -/

def RecordKind.ofCode (code : Byte) : Option RecordKind :=
  match code.toNat with
  | 1 => some .saved
  | 2 => some .void
  | _ => none

/-- The window unit's two tests of R132, and the granule's map index (R45). -/
def State.checkGranule (s : State) (number : Nat) (g : Granule) (address : Nat) : Option (WindowNo × Nat) :=
  if h : number < 16 then
    let w : WindowNo := ⟨number, h⟩
    let r := s.window w
    if r.enabled && Granule.ofCode r.code == some g && r.covers address && address % g.bytes == 0 then
      some (w, r.indexOf address)
    else none
  else none

/-- Header verification (R132), from the byte positions of R193; the current record when every test holds. -/
def State.verifyHeader (s : State) (bytes : Line) : Option CurrentRecord :=
  let e := s.restore
  if leField bytes 0 4 = headerMagic && (byteAt bytes 4).toNat = 1 &&
      leField bytes 60 4 = crc32 (bytes.take 60) && leField bytes 16 4 = e.expected then
    match RecordKind.ofCode (byteAt bytes 5), Granule.ofCode (byteAt bytes 6) with
    | some kind, some g =>
      if e.lowerBound + 64 + g.bytes ≤ e.position &&
          e.lowerMark ≤ leField bytes 12 4 && leField bytes 12 4 ≤ e.lastIssued then
        match s.checkGranule (byteAt bytes 7).toNat g (leField bytes 20 5) with
        | some (w, index) =>
          some {
            start := e.position - 64 - g.bytes
            granule := g
            kind := kind
            window := w
            granuleAddress := BitVec.ofNat 40 (leField bytes 20 5)
            index := index
            dataCheck := leField bytes 28 4 }
        | none => none
      else none
    | _, _ => none
  else none

/-- The header read has returned OK (R131 to R134). -/
def Happening.headerArrived (h : Happening) (bytes : Line) : Happening :=
  match h.state.verifyHeader bytes with
  | none => h.stopWalk
  | some r =>
    match r.kind with
    | .void => h.finishRecord r .skipped
    | .saved =>
      h.step (·.updateEngine fun e =>
        { e with step := .data, current := some r, buffer := [], linesIssued := 0, linesEnded := 0, recordFailed := false })

/-! ### Data and write-back (R134 to R136) -/

/-- The record buffer's bytes in ascending line order (R134). -/
def bufferBytes (buffer : List (Nat × Line)) (lines : Nat) : List Byte :=
  (List.range lines).flatMap fun j => (buffer.lookup j).getD []

/-- Every data line has returned OK: the data check (R134). -/
def Happening.checkData (h : Happening) (r : CurrentRecord) : Happening :=
  let e := h.state.restore
  if crc32 (bufferBytes e.buffer r.granule.lines) = r.dataCheck then
    if e.state = .restoring then
      h.step (·.updateEngine fun e => { e with step := .writeBack, linesIssued := 0, linesEnded := 0 })
    else h.finishRecord r .good
  else h.finishRecord r .failed

/-- Every write-back has been acknowledged OK: the map entry is cleared and the record restored (R135). -/
def Happening.restored (h : Happening) (r : CurrentRecord) : Happening :=
  (h.step fun s => (s.writeMap r.index 0).countRecordRestored).finishRecord r .good

/-- What a request ends with: a response OK with its data, or a failure of kind ERROR or TIMEOUT (R118, R123). -/
inductive Result where
  | ok (data : Line)
  | error
  | timeout
deriving DecidableEq, Repr

def Result.failed : Result → Bool
  | .ok _ => false
  | _ => true

/-- A data read or write-back of the current record has ended (R134 to R136). -/
def Happening.recordRequestEnded (h : Happening) (r : CurrentRecord) (line : Nat) (isRead : Bool) (result : Result) :
    Happening :=
  let failed := h.state.restore.recordFailed || result.failed
  let h₁ := h.step (·.updateEngine fun e =>
    { e with
      linesEnded := e.linesEnded + 1
      recordFailed := failed
      buffer := if failed then [] else
        match result with
        | .ok data => if isRead then e.buffer ++ [(line, data)] else e.buffer
        | _ => e.buffer })
  if failed then
    if h₁.state.restore.outstanding = 0 then h₁.finishRecord r .failed else h₁
  else if h₁.state.restore.linesEnded = r.granule.lines then
    if isRead then h₁.checkData r else h₁.restored r
  else h₁

/-- A request of restore origin has ended, by response or by timeout (R118, R123, R131, R136). -/
def Happening.restoreResult (h : Happening) (step : RestoreStep) (result : Result) : Happening :=
  let h₁ := h.step (·.updateEngine fun e => { e with outstanding := e.outstanding - 1 })
  match step, h₁.state.restore.step, h₁.state.restore.current with
  | .headerRead, .header, _ =>
    match result with
    | .ok data => h₁.headerArrived data
    | _ => h₁.stopWalk
  | .dataRead j, .data, some r => h₁.recordRequestEnded r j true result
  | .writeBack j, .writeBack, some r => h₁.recordRequestEnded r j false result
  | _, _, _ => h₁

/-! ### The engine's offer (R140) -/

/-- The next request of the current record's step, when fewer than 4 are outstanding (R140). -/
def RestoreEngine.offer (e : RestoreEngine) : Option RestoreStep :=
  if e.state = .idle || Config.linesInFlight ≤ e.outstanding || e.recordFailed then none
  else match e.step with
    | .header => if e.headerIssued then none else some .headerRead
    | .data =>
      match e.current with
      | some r => if e.linesIssued < r.granule.lines then some (.dataRead e.linesIssued) else none
      | none => none
    | .writeBack =>
      match e.current with
      | some r => if e.linesIssued < r.granule.lines then some (.writeBack e.linesIssued) else none
      | none => none
    | _ => none

/-- The engine counts its issued request outstanding and advances its step (R116, R140). -/
def RestoreEngine.issued (e : RestoreEngine) : RestoreStep → RestoreEngine
  | .headerRead => { e with outstanding := e.outstanding + 1, headerIssued := true }
  | _ => { e with outstanding := e.outstanding + 1, linesIssued := e.linesIssued + 1 }

/-- The downstream request of a restore step: its address and its body (R131, R134, R135). -/
def State.restoreRequest (s : State) (step : RestoreStep) : Nat × RequestBody :=
  let e := s.restore
  match step with
  | .headerRead => (s.log.base.toNat + e.position - 64, .read)
  | .dataRead j => (s.log.base.toNat + ((e.current.map (·.start)).getD 0) + 64 * j, .read)
  | .writeBack j =>
    (((e.current.map (·.granuleAddress.toNat)).getD 0) + 64 * j,
      .write ((e.buffer.lookup j).getD []) (List.replicate 64 true))

/-! ### Requests to end a walk (R151 to R153) -/

/-- The record step lets an end request end the walk at once: no read of the record has been issued. -/
def RestoreEngine.endsAtOnce (e : RestoreEngine) : Bool :=
  e.step == .noStep || e.step == .waitSlot || (e.step == .header && !e.headerIssued)

/-- Sets an end request and ends the walk at once where the record step allows it. -/
def Happening.requestEnd (h : Happening) (request : EndRequest) : Happening :=
  let h₁ := h.step (·.updateEngine fun e => { e with endRequest := request })
  if h.state.restore.endsAtOnce then h₁.endByRequest else h₁

/-- The mark controller abandons a running check (R20, R24, R151); a second request changes nothing. -/
def Happening.abandonCheck (h : Happening) : Happening :=
  if h.state.restore.state = .checking && h.state.restore.endRequest = .noRequest then h.requestEnd .abandon else h

/-- Entry to RESETTING: a rollback walk is stopped (R152), a check abandoned silently (R153). -/
def Happening.endWalkForReset (h : Happening) : Happening :=
  match h.state.restore.state with
  | .idle => h
  | .restoring => h.requestEnd .stop
  | .checking => h.requestEnd .abandonSilent

/-- A save context has reported FREE: a check that waited for its slot goes on to the header (R148). -/
def State.slotFreed (s : State) : State :=
  if s.restore.state = .checking && s.restore.step = .waitSlot && !s.slotBusyAt s.restore.position then
    s.updateEngine fun e => { e with step := .header, headerIssued := false }
  else s

end Sys2Proof.Machine
end

