-- ==== Sys2Proof/Machine/Marks.lean ====
section
/-! DEFINITION. The mark controller (01): drains, mark actions taking effect, breaks, the rollback line and its latch,
walk outcomes, and the owner's answers to the mark commands. -/

namespace Sys2Proof.Machine

def State.updateMarks (s : State) (f : MarkController → MarkController) : State := s.setMarks (f s.marks)

/-! ### Drains (R7, R8, R11) -/

/-- The controller enters DRAINING with a pending action, and the entries held become pre-drain (R11, R97). -/
def State.startDrain (s : State) (action : PendingAction) : State :=
  (s.updateMarks fun m => { m with state := .draining, action := action }).markPreDrain

/-! ### The rollback line (R24, R25) -/

def Happening.ignoreLine (h : Happening) (reason : IgnoreReason) : Happening :=
  h.post .markController (.lineIgnored reason)

/-- One line request, as R24 handles a rising edge. -/
def Happening.lineRequest (h : Happening) : Happening :=
  let s := h.state
  match s.marks.state with
  | .starting | .resetting => h
  | _ =>
    if !s.mgmt.lineRollback.enable then h.ignoreLine .disabled
    else match s.marks.state with
      | .idle => h.ignoreLine .noMark
      | .broken => h.ignoreLine .broken
      | .opened =>
        if s.level < s.mgmt.lineRollback.target then h.ignoreLine .level
        else (h.step (·.startDrain (.rollback s.mgmt.lineRollback.target .line))).abandonCheck
      | _ => h.step (·.updateMarks fun m => { m with latch := true })

/-- The latch is evaluated as the second step of R17 (R25). -/
def Happening.evaluateLatch (h : Happening) : Happening :=
  if h.state.marks.latch then
    match h.state.marks.state with
    | .opened => (h.step (·.updateMarks fun m => { m with latch := false })).lineRequest
    | .idle => (h.step (·.updateMarks fun m => { m with latch := false })).ignoreLine .noMark
    | .broken => (h.step (·.updateMarks fun m => { m with latch := false })).ignoreLine .broken
    | _ => h
  else h

/-- The two steps after a mark action: re-classification, then the latch (R17). -/
def Happening.settle (h : Happening) : Happening := (h.step State.reclassifyAll).evaluateLatch

/-! ### BROKEN (R20, R21) -/

/-- The controller enters BROKEN: the stack is emptied and the reason set (R19, R20), the entries lose their
classification mark numbers (R100) and pre-drain marks (R97), and the waiting list is released (R78). -/
def State.enterBroken (s : State) (reason : BrokenReason) : State :=
  let broken := s.updateMarks fun m =>
    { m with state := .broken, stack := [], reason := reason, action := .noAction }
  broken.clearPreDrain.clearMarkNumbers.releaseWaiting

/-- The name MARK_COMMAND_DROPPED gives a pending action (R155). -/
def PendingAction.dropped : PendingAction → Option DroppedCommand
  | .noAction => none
  | .openMark _ => some .openMark
  | .releaseMark => some .releaseMark
  | .commit => some .commit
  | .rollback k o => some (.rollback k o)

/-- A break report (R20). -/
def Happening.breakReport (h : Happening) (reason : BrokenReason) : Happening :=
  let s := h.state
  match s.marks.state with
  | .opened =>
    ((h.step (·.enterBroken reason)).post .markController (.logBroken reason s.log.tail)).abandonCheck
  | .draining =>
    let h₁ := (h.step (·.enterBroken reason)).post .markController (.logBroken reason s.log.tail)
    let h₂ := match s.marks.action.dropped with
      | some command => h₁.post .markController (.markCommandDropped command)
      | none => h₁
    let h₃ := if s.marks.latch then
        (h₂.step (·.updateMarks fun m => { m with latch := false })).ignoreLine .broken
      else h₂
    h₃.abandonCheck.settle
  | _ => h

/-! ### Mark actions taking effect (R13 to R16) -/

/-- An OPEN takes effect (R13). -/
def State.pushMark (s : State) (label : Label) : State :=
  (s.updateMarks fun m =>
    { m with
      stack := m.stack ++ [⟨s.level + 1, m.nextNumber, label, s.log.tail, s.log.nextSequence⟩]
      nextNumber := m.nextNumber + 1
      action := .noAction
      state := .opened }).clearPreDrain

/-- A RELEASE takes effect at level 2 to 4 (R14). -/
def State.popMark (s : State) : State :=
  (s.updateMarks fun m =>
    { m with stack := m.stack.dropLast, action := .noAction, state := .opened }).clearPreDrain

/-- A COMMIT takes effect, or a RELEASE at level 1 (R15). -/
def State.commitMarks (s : State) : State :=
  ((s.updateMarks fun m => { m with stack := [], action := .noAction, state := .idle }).emptyLog).clearPreDrain

/-- A ROLLBACK takes effect and the walk begins (R16). -/
def Happening.beginRollback (h : Happening) (k : Nat) (origin : Origin) (m : MarkRecord) : Happening :=
  (h.step fun s =>
    (s.updateMarks fun m => { m with action := .noAction, state := .rollingBack }).clearPreDrain).beginWalk
      .restoring origin k m

/-- The drain of the pending action has ended and the action can take effect (R12). -/
def State.drained (s : State) : Bool := s.marks.state == .draining && s.drainDone

/-! ### The outcome of a rollback (R18, R19, R142) -/

/-- A complete outcome with no failed record (R18); `m` is mark k. -/
def Happening.rollbackDone (h : Happening) (o : WalkOutcome) (m : MarkRecord) : Happening :=
  ((h.step fun s =>
    ((s.truncateLog m.startOffset m.firstSequence).updateMarks fun c =>
      { c with stack := c.stack.take o.level, state := .opened })).post .markController (.rollbackDone o)).settle

/-- An outcome with a failed record, or stopped (R19). -/
def Happening.rollbackIncomplete (h : Happening) (o : WalkOutcome) : Happening :=
  ((h.step (·.enterBroken .rollbackIncomplete)).post .markController (.rollbackIncomplete o)).settle

/-! ### Mark commands (R6 to R10) -/

/-- A log check is running (R5). -/
def State.checkRunning (s : State) : Bool := s.restore.state == .checking

/-- The first rows of R6 for every mark command but DISCARD: BUSY while draining, rolling back or latched, then
REFUSED_BROKEN. -/
def State.markBusy (s : State) : Option Status :=
  if s.marks.state == .draining || s.marks.state == .rollingBack || s.marks.latch then some .busy
  else if s.marks.state == .broken then some .refusedBroken
  else none

/-- OPEN_MARK (R6, R7). -/
def answerOpenMark (label : Label) (s : State) : Answer :=
  match s.markBusy with
  | some status => s.refuse status
  | none =>
    if s.log.size = 0 then s.refuse .refusedState
    else if s.marks.state == .opened && s.level = Config.markLevels then s.refuse .levelLimit
    else if s.numbersExhausted then s.refuse .numbersExhausted
    else ⟨s.startDrain (.openMark label), .accepted, []⟩

/-- RELEASE_MARK (R6, R8). -/
def answerReleaseMark (s : State) : Answer :=
  match s.markBusy with
  | some status => s.refuse status
  | none =>
    if s.marks.state == .idle then s.refuse .refusedState
    else if s.checkRunning && s.level = 1 then s.refuse .busy
    else ⟨s.startDrain .releaseMark, .accepted, []⟩

/-- COMMIT (R6, R8). -/
def answerCommit (s : State) : Answer :=
  match s.markBusy with
  | some status => s.refuse status
  | none =>
    if s.marks.state == .idle then s.refuse .refusedState
    else if s.checkRunning then s.refuse .busy
    else ⟨s.startDrain .commit, .accepted, []⟩

/-- ROLLBACK(k) (R6, R8). -/
def answerRollback (k : Nat) (s : State) : Answer :=
  match s.markBusy with
  | some status => s.refuse status
  | none =>
    if s.marks.state == .idle then s.refuse .refusedState
    else if s.checkRunning then s.refuse .busy
    else if k < 1 || s.level < k then s.refuse .refusedRange
    else ⟨s.startDrain (.rollback k .command), .accepted, []⟩

/-- CHECK_LOG(k) (R6, R9). The walk posts nothing at its beginning, so the happening's state is the answer's. -/
def answerCheckLog (k : Nat) (s : State) : Answer :=
  match s.markBusy with
  | some status => s.refuse status
  | none =>
    if s.marks.state == .idle then s.refuse .refusedState
    else if s.checkRunning || s.restore.state != .idle then s.refuse .busy
    else match s.markAt k with
      | none => s.refuse .refusedRange
      | some m => ⟨((Happening.start s).beginWalk .checking .command k m).state, .accepted, []⟩

/-- DISCARD (R6, R10, R78). -/
def answerDiscard (s : State) : Answer :=
  if s.marks.state != .broken then s.refuse .refusedState
  else if !s.allContextsFree || s.restore.state != .idle then s.refuse .busy
  else
    let s₁ := s.emptyLog.updateMarks fun m => { m with reason := .noReason, state := .idle }
    (s₁.setSave { s₁.save with fullBar := false }).done

end Sys2Proof.Machine
end

