-- ==== Sys2Proof/Machine/Resets.lean ====
section
/-! DEFINITION. Power-on reset, the map sweep, the soft reset and its quiesce, and the ROLLBACK_REQ pin (01, 09). -/

namespace Sys2Proof.Machine

/-- A happening that reaches the part: nothing does while RESET_N is low (R191). -/
def State.running (s : State) (f : State → State) : State := if s.pins.resetLow then s else f s

/-! ### Power-on reset (R4, R42, R167, R191) -/

/-- Power-on reset begins, or holds: every block takes its power-on values, requests held or outstanding are dropped,
and NOTICE_N is high (R191). The granule map is not yet swept (R42, log 6); the pin levels, the time base, the links and
the queue of commands are not the blocks' own. -/
def State.powerOn (s : State) : State :=
  { s with
    marks := MarkController.reset
    windows := { WindowUnit.reset with map := s.windows.map }
    log := SaveLog.reset
    save := SaveEngine.reset
    transit := TransitBuffer.reset
    down := DownstreamPort.reset
    restore := RestoreEngine.reset
    notice := NoticeUnit.resetAt s.now
    mgmt := ManagementPort.reset
    pins := { s.pins with resetLow := true } }

/-- Power-on reset ends: 24 upstream credits, STARTING, and the quiet timer restarted (R84, R165, R191). -/
def State.powerOnEnd (s : State) : State :=
  if s.pins.resetLow then
    { s with
      marks := { s.marks with state := .starting }
      transit := { s.transit with credits := Config.transitEntries }
      notice := { s.notice with quietStart := s.now }
      pins := { s.pins with resetLow := false } }
  else s

/-- The sweep is complete: every map entry is 0 and the controller enters IDLE (R4, R42). -/
def State.sweepComplete (s : State) : State :=
  if s.marks.state = .starting then
    (s.setWindows { s.windows with map := [] }).setMarks { MarkController.reset with state := .idle }
  else s

/-! ### Soft reset (R26, R184 to R190) -/

/-- The management port at the reset step (R188, R190); the response buffer is kept (R176). -/
def ManagementPort.resetStep (m : ManagementPort) : ManagementPort :=
  { ManagementPort.reset with
    buffer := m.buffer
    interruption := m.stoppedWalk.orElse fun _ => m.interruption }

/-- The reset step (R188). -/
def State.resetStep (s : State) : State :=
  { s with
    marks := { MarkController.reset with state := .idle, nextNumber := s.marks.nextNumber }
    windows := s.windows.resetStep
    log := SaveLog.reset
    save := SaveEngine.reset
    restore := { s.restore with state := .idle, step := .noStep, outstanding := 0 }
    notice := NoticeUnit.resetAt s.now
    mgmt := s.mgmt.resetStep }

/-- The end of the quiesce: the release step, then the reset step (R186, R187, R188). -/
def State.quiesceStep (s : State) : State := s.releaseStep.resetStep

/-- The ENGINES phase is on and both of its conditions hold (R185). -/
def State.quiesceDue (s : State) : Bool := s.marks.state = .resetting && s.enginesDone

/-- The quiesce completes where its conditions hold (R185 to R188). -/
def State.quiesceComplete (s : State) : State := if s.quiesceDue then s.quiesceStep else s

/-- SOFT_RESET is taken (R184, R26, R104). A rollback walk is stopped and a check abandoned silently; neither posts. The
ENGINES phase's conditions are tested once at entry (R185). -/
def answerSoftReset (s : State) : Answer :=
  let entered := (s.updateMgmt fun m => { m with resetPhase := .engines }).setMarks
    { s.marks with state := .resetting, action := .noAction, latch := false }
  let stopped := ((Happening.start entered.clearMarkNumbers.clearPreDrain).endWalkForReset).state
  ⟨stopped.quiesceComplete, .accepted, []⟩

/-- A happening that began in `s` and has come to `t` made the FREE report or the IDLE report that completes the ENGINES
phase (R185). -/
def State.completesQuiesce (s t : State) : Bool := !s.enginesDone && t.quiesceDue

/-- The quiesce is completed in the happening of the report that completes it (R185 to R187). -/
def State.reported (s t : State) : State := if s.completesQuiesce t then t.quiesceStep else t

/-! ### The ROLLBACK_REQ pin (R23, R191) -/

def State.setRollbackReq (s : State) (high : Bool) : State := s.setPins { s.pins with rollbackReq := high }

/-- A rising edge: one line request, unless RESET_N is low (R191). A line already high has no rising edge. -/
def State.risingEdge (s : State) : State :=
  if s.pins.rollbackReq then s
  else if s.pins.resetLow then s.setRollbackReq true
  else happening (s.setRollbackReq true) Happening.lineRequest

end Sys2Proof.Machine
end

