-- ==== Sys2Proof/Machine/ExecConfig.lean ====
section
/-! DEFINITION. The meanings of GET_STATUS, GET_MARKS, READ_CONFIG and the WRITE_CONFIG rows. In the item rows the
identifier is the row's own, and the payload length tested is 9 with it (R194, R195). -/

namespace Sys2Proof.Machine

/-- GET_STATUS (R178). -/
def execGetStatus (f : Frame) (s : State) : Host.Outcome State Fault Refusal :=
  .next (takeFrame s f 0 0 true answerGetStatus)

/-- GET_MARKS (R3). -/
def execGetMarks (f : Frame) (s : State) : Host.Outcome State Fault Refusal :=
  .next (takeFrame s f 0 0 false answerGetMarks)

/-- READ_CONFIG (R181). -/
def execReadConfig (f : Frame) (s : State) : Host.Outcome State Fault Refusal :=
  .next (takeFrame s f 0 0 false answerReadConfig)

/-- WRITE_CONFIG of LOG_BASE (R47). -/
def execWriteConfigLogBase (f : Frame) (s : State) : Host.Outcome State Fault Refusal :=
  .next (takeFrame s f 1 9 false (answerWriteLogBase (itemValue f)))

/-- WRITE_CONFIG of LOG_SIZE (R47). -/
def execWriteConfigLogSize (f : Frame) (s : State) : Host.Outcome State Fault Refusal :=
  .next (takeFrame s f 1 9 false (answerWriteLogSize (itemValue f)))

/-- WRITE_CONFIG of LOG_THRESHOLD (R60). -/
def execWriteConfigLogThreshold (f : Frame) (s : State) : Host.Outcome State Fault Refusal :=
  .next (takeFrame s f 1 9 false (answerWriteLogThreshold (itemValue f)))

/-- WRITE_CONFIG of LOG_FULL_POLICY (R57). -/
def execWriteConfigLogFullPolicy (f : Frame) (s : State) : Host.Outcome State Fault Refusal :=
  .next (takeFrame s f 1 9 false (answerWriteLogFullPolicy (itemValue f)))

/-- WRITE_CONFIG of LOG_READER (R37, R182). -/
def execWriteConfigLogReader (f : Frame) (s : State) : Host.Outcome State Fault Refusal :=
  .next (takeFrame s f 1 9 false (answerWriteLogReader (itemByte f 1) (itemByte f 2) (itemByte f 3)))

/-- WRITE_CONFIG of PART_REQUESTER_ID (R183). -/
def execWriteConfigPartRequesterId (f : Frame) (s : State) : Host.Outcome State Fault Refusal :=
  .next (takeFrame s f 1 9 false (answerWritePartRequesterId (itemValue f)))

/-- WRITE_CONFIG of RESPONSE_TIMEOUT (R122). -/
def execWriteConfigResponseTimeout (f : Frame) (s : State) : Host.Outcome State Fault Refusal :=
  .next (takeFrame s f 1 9 false (answerWriteResponseTimeout (itemValue f)))

/-- WRITE_CONFIG of NOTICE_TRIGGER (R166). -/
def execWriteConfigNoticeTrigger (f : Frame) (s : State) : Host.Outcome State Fault Refusal :=
  .next (takeFrame s f 1 9 false (answerWriteNoticeTrigger (itemValue f)))

/-- WRITE_CONFIG of NOTICE_QUIET (R166). -/
def execWriteConfigNoticeQuiet (f : Frame) (s : State) : Host.Outcome State Fault Refusal :=
  .next (takeFrame s f 1 9 false (answerWriteNoticeQuiet (itemValue f)))

/-- WRITE_CONFIG of LINE_ROLLBACK (R23, R183). -/
def execWriteConfigLineRollback (f : Frame) (s : State) : Host.Outcome State Fault Refusal :=
  .next (takeFrame s f 1 9 false (answerWriteLineRollback (itemByte f 1) (itemByte f 2)))

/-- WRITE_CONFIG of an identifier that names no item (R182). -/
def execWriteConfigUnknownItem (f : Frame) (s : State) : Host.Outcome State Fault Refusal :=
  .next (takeFrame s f 0 9 false answerUnknownItem)

end Sys2Proof.Machine
end

