-- ==== Sys2Proof/Machine/Effects.lean ====
section
/-! DEFINITION. The conditions under which a mark action takes effect and a walk's end is taken (01, 07), and the
happenings that follow. -/

namespace Sys2Proof.Machine

/-- OPEN takes effect, then R17 (R13). -/
def Happening.openEffect (h : Happening) : Happening :=
  match h.state.marks.action with
  | .openMark label => if h.state.drained then (h.step (·.pushMark label)).settle else h
  | _ => h

/-- RELEASE takes effect: a pop at level 2 to 4, a COMMIT at level 1; then R17 (R14, R15). -/
def Happening.releaseEffect (h : Happening) : Happening :=
  match h.state.marks.action with
  | .releaseMark =>
    if h.state.drained then
      (h.step fun s => if 2 ≤ s.level then s.popMark else s.commitMarks).settle
    else h
  | _ => h

/-- COMMIT takes effect, then R17 (R15). -/
def Happening.commitEffect (h : Happening) : Happening :=
  match h.state.marks.action with
  | .commit => if h.state.drained then (h.step State.commitMarks).settle else h
  | _ => h

/-- ROLLBACK takes effect and the walk begins; neither step of R17 is taken (R16, R17). -/
def Happening.rollbackEffect (h : Happening) : Happening :=
  match h.state.marks.action with
  | .rollback k origin =>
    match h.state.drained, h.state.markAt k with
    | true, some m => h.beginRollback k origin m
    | _, _ => h
  | _ => h

/-- A rollback walk has ended and waits for its outcome to be taken (R142). -/
def State.outcomeReady (s : State) : Bool :=
  s.marks.state == .rollingBack && s.restore.state == .restoring && s.restore.walkEnded

/-- The outcome of a rollback walk is taken, the engine entering IDLE in the same happening (R142, R18, R19). -/
def Happening.takeOutcome (h : Happening) : Happening :=
  if h.state.outcomeReady then
    let o := h.state.restore.outcome
    let h₁ := h.step (·.updateEngine RestoreEngine.toIdle)
    if o.failed = 0 && !o.stopped then
      match h₁.state.markAt o.level with
      | some m => h₁.rollbackDone o m
      | none => h
    else h₁.rollbackIncomplete o
  else h

/-- A log check has ended complete or stopped (R150). -/
def State.checkEnded (s : State) : Bool :=
  s.restore.state == .checking && s.restore.walkEnded && s.restore.endRequest == .noRequest

/-- CHECK_DONE is posted and the engine enters IDLE (R150). -/
def Happening.endCheck (h : Happening) : Happening :=
  if h.state.checkEnded then
    let o := h.state.restore.outcome
    (h.step (·.updateEngine RestoreEngine.toIdle)).post .restoreEngine
      (.checkDone o (if o.stopped then .stopped else .complete))
  else h

end Sys2Proof.Machine
end

