-- ==== Sys2Proof/Machine/ExecEffects.lean ====
section
/-! DEFINITION. The meanings of the rows in which mark actions take effect and walks end. -/

namespace Sys2Proof.Machine

/-- OPEN_TAKES_EFFECT (R13). -/
def execOpenTakesEffect (s : State) : Host.Outcome State Fault Refusal :=
  .next (s.running fun s => happening s Happening.openEffect)

/-- RELEASE_TAKES_EFFECT (R14). -/
def execReleaseTakesEffect (s : State) : Host.Outcome State Fault Refusal :=
  .next (s.running fun s => happening s Happening.releaseEffect)

/-- COMMIT_TAKES_EFFECT (R15). -/
def execCommitTakesEffect (s : State) : Host.Outcome State Fault Refusal :=
  .next (s.running fun s => happening s Happening.commitEffect)

/-- ROLLBACK_TAKES_EFFECT (R16). -/
def execRollbackTakesEffect (s : State) : Host.Outcome State Fault Refusal :=
  .next (s.running fun s => happening s Happening.rollbackEffect)

/-- ROLLBACK_OUTCOME (R142). -/
def execRollbackOutcome (s : State) : Host.Outcome State Fault Refusal :=
  .next (s.running fun s => happening s Happening.takeOutcome)

/-- CHECK_END (R150). -/
def execCheckEnd (s : State) : Host.Outcome State Fault Refusal :=
  .next (s.running fun s => happening s Happening.endCheck)

end Sys2Proof.Machine
end

