-- ==== Sys2Proof/Machine/ExecMarkCommands.lean ====
section
/-! DEFINITION. The meanings of the mark commands (R6). -/

namespace Sys2Proof.Machine

/-- OPEN_MARK (R7). -/
def execOpenMark (f : Frame) (s : State) : Host.Outcome State Fault Refusal :=
  .next (takeFrame s f 0 4 false (answerOpenMark (BitVec.ofNat 32 (wordOperand f))))

/-- RELEASE_MARK (R8). -/
def execReleaseMark (f : Frame) (s : State) : Host.Outcome State Fault Refusal :=
  .next (takeFrame s f 0 0 false answerReleaseMark)

/-- COMMIT (R8). -/
def execCommit (f : Frame) (s : State) : Host.Outcome State Fault Refusal :=
  .next (takeFrame s f 0 0 false answerCommit)

/-- ROLLBACK (R8). -/
def execRollback (f : Frame) (s : State) : Host.Outcome State Fault Refusal :=
  .next (takeFrame s f 0 1 false (answerRollback (byteOperand f)))

/-- CHECK_LOG (R9). -/
def execCheckLog (f : Frame) (s : State) : Host.Outcome State Fault Refusal :=
  .next (takeFrame s f 0 1 false (answerCheckLog (byteOperand f)))

/-- DISCARD (R10). -/
def execDiscard (f : Frame) (s : State) : Host.Outcome State Fault Refusal :=
  .next (takeFrame s f 0 0 false answerDiscard)

end Sys2Proof.Machine
end

