-- ==== Sys2Proof/Machine/ExecNotices.lean ====
section
/-! DEFINITION. The meanings of the notice and counter rows. -/

namespace Sys2Proof.Machine

/-- QUIET_TIMER_EXPIRY (R165). -/
def execQuietTimerExpiry (s : State) : Host.Outcome State Fault Refusal := .next (s.running State.quietExpiry)

/-- READ_NOTICE (R162). -/
def execReadNotice (f : Frame) (s : State) : Host.Outcome State Fault Refusal :=
  .next (takeFrame s f 0 0 false answerReadNotice)

/-- READ_COUNTERS (R169). -/
def execReadCounters (f : Frame) (s : State) : Host.Outcome State Fault Refusal :=
  .next (takeFrame s f 0 0 false answerReadCounters)

/-- CLEAR_COUNTERS (R170). -/
def execClearCounters (f : Frame) (s : State) : Host.Outcome State Fault Refusal :=
  .next (takeFrame s f 0 0 false answerClearCounters)

end Sys2Proof.Machine
end

