-- ==== Sys2Proof/Machine/ExecPeriods.lean ====
section
/-! DEFINITION. The meanings of the SPI rows that are no defined command, and of the reply's assembly. -/

namespace Sys2Proof.Machine

/-- READ_PERIOD (R176). -/
def execReadPeriod (clocks : Nat) (beganInReset : Bool) (s : State) : Host.Outcome State Fault Refusal :=
  .next (s.readPeriod clocks beganInReset)

/-- REPLY_READY (R176). -/
def execReplyReady (s : State) : Host.Outcome State Fault Refusal := .next (s.running State.replyReady)

/-- COMMAND_FRAME_CUT_SHORT (R173), and the empty period of R172. -/
def execCommandFrameCutShort (p : Period) (s : State) : Host.Outcome State Fault Refusal := .next (s.cutShort p)

/-- UNKNOWN_COMMAND (R175). -/
def execUnknownCommand (_code : Byte) (f : Frame) (s : State) : Host.Outcome State Fault Refusal :=
  .next (s.unknownCommand f)

/-- CHECK_FAILED_FRAME (R175). -/
def execCheckFailedFrame (p : Period) (s : State) : Host.Outcome State Fault Refusal := .next (s.checkFailed p)

end Sys2Proof.Machine
end

