-- ==== Sys2Proof/Machine/ExecPower.lean ====
section
/-! DEFINITION. The meanings of the power, pin and soft reset rows. -/

namespace Sys2Proof.Machine

/-- POWER_ON_RESET (R191). -/
def execPowerOnReset (s : State) : Host.Outcome State Fault Refusal := .next s.powerOn

/-- POWER_ON_RESET_END (R191). -/
def execPowerOnResetEnd (s : State) : Host.Outcome State Fault Refusal := .next s.powerOnEnd

/-- MAP_SWEEP_COMPLETE (R42). -/
def execMapSweepComplete (s : State) : Host.Outcome State Fault Refusal := .next (s.running State.sweepComplete)

/-- ROLLBACK_REQ_RISING_EDGE (R24). -/
def execRollbackReqRisingEdge (s : State) : Host.Outcome State Fault Refusal := .next s.risingEdge

/-- ROLLBACK_REQ_FALLING_EDGE (R191). -/
def execRollbackReqFallingEdge (s : State) : Host.Outcome State Fault Refusal := .next (s.setRollbackReq false)

/-- SOFT_RESET (R184). -/
def execSoftReset (f : Frame) (s : State) : Host.Outcome State Fault Refusal :=
  .next (takeFrame s f 0 0 false answerSoftReset)

/-- SOFT_RESET_QUIESCE_COMPLETE (R188). -/
def execSoftResetQuiesceComplete (s : State) : Host.Outcome State Fault Refusal :=
  .next (s.running State.quiesceComplete)

end Sys2Proof.Machine
end

