-- ==== Sys2Proof/Machine/SaveUnit.lean ====
section
/-! DEFINITION. The save engine (04): allocation, the steps a context offers, what their results do, and how a save
ends. -/

namespace Sys2Proof.Machine

/-! ### Allocation (R67, R68) -/

/-- The level of the stack mark with a number (R68); 0 where no mark has it, which R68 excludes. -/
def State.levelOfMark (s : State) (number : Nat) : Nat :=
  match s.marks.stack.find? (·.number == number) with
  | some m => m.level
  | none => 0

/-- The next save to be allocated: the front of the waiting list with the entry it names, its window's granule and the
lowest-numbered FREE context, under the conditions of R67. -/
def State.nextAllocation (s : State) : Option (TransitEntry × WindowNo × Nat × Granule × ContextNo) :=
  if (s.marks.state == .opened || s.marks.state == .draining) && !s.save.fullBar then do
    let order ← s.save.waiting.head?
    let e ← s.entry? order
    match e.cls with
    | .window w index =>
      let g ← Granule.ofCode (s.window w).code
      let c ← s.freeContext?
      pure (e, w, index, g, c)
    | _ => none
  else none

/-- The values a context takes at a granted allocation (R68, R45). -/
def State.newContext (s : State) (e : TransitEntry) (w : WindowNo) (index : Nat) (g : Granule) : SaveContext where
  state := .copying
  held := e.order
  window := w
  index := index
  granuleAddress := BitVec.ofNat 40 ((s.window w).granuleAddress index)
  granule := g
  markNumber := e.markNumber.getD 0
  level := s.levelOfMark (e.markNumber.getD 0)
  offset := s.log.tail
  sequence := s.log.nextSequence
  requester := e.request.requester
  linesIssued := 0
  linesAcknowledged := 0
  linesFolded := 0
  lines := []
  crc := crc32Start
  error := .noError
  headerIssued := false

/-- The write at the front leaves the waiting list. -/
def State.popWaiting (s : State) : State := s.setSave { s.save with waiting := s.save.waiting.tail }

/-- An allocation is granted: the slot is reserved and the context takes its values (R56, R68, R95). -/
def Happening.grantSave (h : Happening) (e : TransitEntry) (w : WindowNo) (index : Nat) (g : Granule) (c : ContextNo) :
    Happening :=
  let x := h.state.newContext e w index g
  (h.reserve g).step fun s =>
    let s₁ := (s.putContext c x).popWaiting
    (s₁.setSave { s₁.save with allocation := s₁.save.allocation ++ [c] }).updateEntry e.order
      fun e => { e with hasContext := true }

/-- A write found full under REFUSE is answered DENIED and leaves (R59, R68, R96). -/
def Happening.refuseSave (h : Happening) (e : TransitEntry) (w : WindowNo) : Happening :=
  ((h.step fun s => s.popWaiting.respond (answerTo e.request .denied)).post
    .saveEngine (.writeRefused w e.request.requester e.request.address)).step
      fun s => s.countRequestDenied.leave e.order

/-- One allocation (R67, R68): granted, or the log found full under BREAK (R58) or REFUSE (R59). -/
def Happening.allocateSave (h : Happening) : Happening :=
  match h.state.nextAllocation with
  | none => h
  | some (e, w, index, g, c) =>
    if h.state.logFits g then h.grantSave e w index g c
    else match h.state.log.policy with
      | .breakMarks => (h.step fun s => s.setSave { s.save with fullBar := true }).breakReport .logFull
      | .refuse => h.refuseSave e w

/-! ### The engine's offer (R69, R70, R72, R73, R77) -/

/-- The lowest line whose data has arrived and has not been written (R77). -/
def SaveContext.lineToWrite (x : SaveContext) : Option Nat :=
  (x.lines.filterMap fun b => if b.data.isSome && b.write == .notIssued then some b.line else none).min?

/-- The step a context has ready, in the order of R77. -/
def SaveContext.offer (x : SaveContext) : Option SaveStep :=
  match x.state, x.error with
  | .free, _ => none
  | _, .writeError => none
  | _, .writeTimeout => none
  | .copying, .noError =>
    match x.lineToWrite with
    | some j => some (.dataWrite j)
    | none =>
      if x.linesIssued < x.granule.lines && x.lines.length < Config.linesInFlight then some (.granuleRead x.linesIssued)
      else none
  | .copying, _ => none
  | _, _ => if x.headerIssued then none else some .headerWrite

/-- The engine's offer: the ready step of the oldest-allocated busy context that has one (R77). -/
def State.saveOffer (s : State) : Option (ContextNo × SaveStep) :=
  s.save.allocation.findSome? fun c => (s.context? c).bind fun x => x.offer.map fun step => (c, step)

/-- The data held for a line. -/
def SaveContext.dataOf (x : SaveContext) (line : Nat) : Line :=
  ((x.lines.find? (·.line == line)).bind (·.data)).getD []

/-- The downstream request of a save step: its address and its body (R69, R70, R72, R73). -/
def State.saveRequest (s : State) (x : SaveContext) : SaveStep → Nat × RequestBody
  | .granuleRead j => (x.granuleAddress.toNat + 64 * j, .read)
  | .dataWrite j =>
    (s.log.base.toNat + x.offset + 64 * j, .write (x.dataOf j) (List.replicate 64 true))
  | .headerWrite =>
    (s.log.base.toNat + x.offset + x.granule.bytes, .write (headerBytes x) (List.replicate 64 true))

/-- Changes one line buffer. -/
def SaveContext.updateLine (x : SaveContext) (line : Nat) (f : LineBuffer → LineBuffer) : SaveContext :=
  { x with lines := x.lines.map fun b => if b.line = line then f b else b }

/-- What an issue changes in its context (R69, R116). -/
def SaveContext.issued (x : SaveContext) : SaveStep → SaveContext
  | .granuleRead j => { x with linesIssued := x.linesIssued + 1, lines := x.lines ++ [⟨j, none, .notIssued, false⟩] }
  | .dataWrite j => x.updateLine j fun b => { b with write := .issued }
  | .headerWrite => { x with headerIssued := true }

/-! ### Results (R70, R71) -/

/-- Lines leave flight once their write is acknowledged and their data folded (R69). -/
def SaveContext.retire (x : SaveContext) : SaveContext :=
  { x with lines := x.lines.filter fun b => !(b.write == .acknowledged && b.folded) }

/-- Folds lines into the running CRC in line order while the next one's data is held (R70). -/
def foldLines : Nat → SaveContext → SaveContext
  | 0, x => x
  | n + 1, x =>
    match x.lines.find? (·.line == x.linesFolded) with
    | some ⟨line, some data, _, false⟩ =>
      foldLines n ({ x with crc := crc32Fold x.crc data, linesFolded := x.linesFolded + 1 }.updateLine line
        fun b => { b with folded := true })
    | _ => x

/-- The read of a line has returned OK (R70). -/
def SaveContext.lineArrived (x : SaveContext) (line : Nat) (data : Line) : SaveContext :=
  let x₁ := x.updateLine line fun b => { b with data := some data }
  (foldLines x₁.lines.length x₁).retire

/-- A record data write has been acknowledged OK (R71). -/
def SaveContext.lineWritten (x : SaveContext) (line : Nat) : SaveContext :=
  let x₁ := ({ x with linesAcknowledged := x.linesAcknowledged + 1 }.updateLine line
    fun b => { b with write := .acknowledged }).retire
  if x₁.state = .copying && x₁.error = .noError && x₁.linesAcknowledged = x₁.granule.lines then
    { x₁ with state := .finishing }
  else x₁

/-- The first granule read failure: data that has arrived and has not been written is dropped (R73). -/
def SaveContext.readFailed (x : SaveContext) (kind : ErrorKind) : SaveContext :=
  { x with error := kind, lines := x.lines.filter fun b => !(b.data.isSome && b.write == .notIssued) }

def ErrorKind.isWrite : ErrorKind → Bool
  | .writeError => true
  | .writeTimeout => true
  | _ => false

/-! ### Ends of a save (R72 to R75) -/

/-- A context becomes FREE, its other fields at their reset values (log 10), and reports it (R72, R74, R75, R148). -/
def State.freeContext (s : State) (c : ContextNo) : State :=
  let s₁ := s.putContext c SaveContext.reset
  (s₁.setSave { s₁.save with allocation := s₁.save.allocation.erase c }).slotFreed

/-- The SAVED header has been acknowledged OK (R72). -/
def State.saveCompleted (s : State) (c : ContextNo) (x : SaveContext) : State :=
  (((s.writeMap x.index x.markNumber).countSaveCompleted).freeContext c).release x.held

/-- The reason SAVE_FAILED carries (R74). -/
def ErrorKind.saveFailure : ErrorKind → SaveFailure
  | .readTimeout => .readTimeout
  | _ => .readError

/-- The held write is answered MEM_ERROR and leaves (R74, R96). -/
def State.answerMemError (s : State) (order : Nat) : State :=
  match s.entry? order with
  | some e => (s.respond (answerTo e.request .memError)).leave order
  | none => s

/-- The address the fabric sent in a held write. -/
def State.heldAddress (s : State) (order : Nat) : Address :=
  match s.entry? order with
  | some e => e.request.address
  | none => 0#40

/-- The VOID header has been acknowledged OK (R74). -/
def Happening.voidCompleted (h : Happening) (c : ContextNo) (x : SaveContext) : Happening :=
  (h.post .saveEngine (.saveFailed x.window x.requester x.error.saveFailure (h.state.heldAddress x.held))).step fun s =>
    let s₁ := s.countSaveFailed.freeContext c
    if s.marks.state = .opened || s.marks.state = .draining then s₁.answerMemError x.held else s₁.release x.held

/-- A context that acts on a failure goes on once its outstanding requests have ended: to VOIDING after a read failure
(R73), to FREE after a log write failure (R75). VOIDING begins with every line buffer given up, those too whose line was
written and never folded (DESIGN CHOICE, log 28: R70 and R73 give these no end). -/
def State.settleContext (s : State) (c : ContextNo) : State :=
  match s.context? c with
  | none => s
  | some x =>
    if s.outstandingOf c != 0 then s
    else if x.error.isWrite then (s.freeContext c).release x.held
    else if x.error != .noError && x.state == .copying then
      s.putContext c { x with state := .voiding, headerIssued := false, lines := [] }
    else s

/-- R148: where a break report abandons a check that waits for the slot of the context that failed, the abandon request and
the context's FREE report reach the engine in either order, as a free choice says (log 19), whether the context becomes FREE
in this happening or waits for other requests first. FREE report first: the end request is held while the check goes on
waiting, and the check then begins the slot's record with it set. -/
def State.freeReportFirst (s : State) (x : SaveContext) : State :=
  if (s.marks.state = .opened || s.marks.state = .draining) && s.restore.state = .checking &&
      s.restore.step = .waitSlot && s.restore.endRequest = .noRequest &&
      x.offset + x.granule.recordSize = s.restore.position then
    let (n, s') := s.nextChoice
    if n % 2 = 0 then s' else s'.updateEngine fun e => { e with endRequest := .abandon }
  else s

/-- A record data write or a header write has failed (R75, R76). -/
def Happening.logWriteFailed (h : Happening) (c : ContextNo) (x : SaveContext) (result : Result) : Happening :=
  if x.error.isWrite then h.step (·.settleContext c)
  else
    let kind : ErrorKind := if result = .timeout then .writeTimeout else .writeError
    let reason : BrokenReason := if result = .timeout then .logWriteTimeout else .logWriteError
    (((h.step (·.putContext c { x with error := kind })).step (·.freeReportFirst x)).breakReport reason).step
      (·.settleContext c)

/-- A request of save origin has ended, by response or by timeout (R70 to R76). -/
def Happening.saveResult (h : Happening) (c : ContextNo) (step : SaveStep) (result : Result) : Happening :=
  match h.state.context? c with
  | none => h
  | some x =>
    match step, result with
    | .granuleRead j, .ok data =>
      if x.error = .noError then h.step (·.putContext c (x.lineArrived j data))
      else h.step (·.settleContext c)
    | .granuleRead _, failure =>
      if x.error = .noError then
        (h.step (·.putContext c (x.readFailed (if failure = .timeout then .readTimeout else .readError)))).step
          (·.settleContext c)
      else h.step (·.settleContext c)
    | .dataWrite j, .ok _ =>
      if x.error.isWrite then h.step (·.settleContext c)
      else (h.step (·.putContext c (x.lineWritten j))).step (·.settleContext c)
    | .headerWrite, .ok _ =>
      match x.state, x.error.isWrite with
      | .finishing, false => h.step (·.saveCompleted c x)
      | .voiding, false => h.voidCompleted c x
      | _, _ => h.step (·.settleContext c)
    | _, failure => h.logWriteFailed c x failure

end Sys2Proof.Machine
end

