-- ==== Sys2Proof/Machine/Downstream.lean ====
section
/-! DEFINITION. The downstream port (06): offers, the arbiter and its rotation, issues, credits, responses, timeouts and
stale expiry. -/

namespace Sys2Proof.Machine

/-! ### Offers (R101, R113) -/

/-- What a source offers the arbiter. -/
inductive Offer where
  | passThrough (e : TransitEntry)
  | save (c : ContextNo) (x : SaveContext) (step : SaveStep)
  | restore (step : RestoreStep)
deriving DecidableEq, Repr

/-- The offer of each source (R113): the FORWARDABLE entry with the earliest arrival order (R101), the save engine's
step (R77), the restore engine's next request (R140). -/
def State.offerOf (s : State) : Source → Option Offer
  | .passThrough => (s.transit.entries.find? (·.state == .forwardable)).map .passThrough
  | .save => s.saveOffer.bind fun (c, step) => (s.context? c).map fun x => .save c x step
  | .restore => s.restore.offer.map .restore

/-- The origin a tag records for an offer (R110, R101). -/
def Offer.origin : Offer → TagOrigin
  | .passThrough e => .passThrough e.request.requester e.request.tag e.request.kind e.windowWrite e.request.length
  | .save c _ step => .save c step
  | .restore step => .restore step

/-- The downstream request of an offer under a tag (R106). -/
def State.requestOf (s : State) (t : TagNo) : Offer → DownstreamRequest
  | .passThrough e => ⟨t, e.request.requester, e.request.body, e.request.address, e.request.length⟩
  | .save _ x step =>
    ⟨t, s.mgmt.partRequesterId, (s.saveRequest x step).2, BitVec.ofNat 40 (s.saveRequest x step).1, 64⟩
  | .restore step =>
    ⟨t, s.mgmt.partRequesterId, (s.restoreRequest step).2, BitVec.ofNat 40 (s.restoreRequest step).1, 64⟩

/-! ### The arbiter (R114 to R116) -/

/-- The number of tags of pass-through origin that are IN_USE or STALE (R114). -/
def State.passThroughCount (s : State) : Nat := s.tagCount TagEntry.isPassThrough

/-- The source can be served (R114). -/
def State.canServe (s : State) (source : Source) : Bool :=
  (s.offerOf source).isSome && 1 ≤ s.down.credits && s.freeTag?.isSome &&
    (source != .passThrough || s.passThroughCount < Config.passThroughTags)

/-- The highest source of the rotation that can be served (R115). -/
def State.grantee (s : State) : Option Source := s.down.rotation.find? s.canServe

/-- The served source moves to the bottom (R115). -/
def rotate (rotation : List Source) (served : Source) : List Source := rotation.filter (· != served) ++ [served]

/-- The source served is told of its issue (R116). -/
def State.tellIssued (s : State) : Offer → State
  | .passThrough e => s.leave e.order
  | .save c x step => s.putContext c (x.issued step)
  | .restore step => s.updateEngine fun e => e.issued step

/-- An issue (R116). -/
def State.issue (s : State) (source : Source) (offer : Offer) (t : TagNo) : State :=
  let request := s.requestOf t offer
  let s₁ := s.setTag t (.inUse ⟨offer.origin, request.address, s.now, s.mgmt.responseTimeout⟩)
  ((s₁.setDown { s₁.down with
    credits := s₁.down.credits - 1
    rotation := rotate s₁.down.rotation source }).send request).tellIssued offer

/-- One grant (R115 to R117); without a source that can be served the arbiter waits. -/
def State.grant (s : State) : State :=
  match s.grantee with
  | none => s
  | some source =>
    match s.offerOf source, s.freeTag? with
    | some offer, some t => s.issue source offer t
    | _, _ => s

/-- A credit returned by the memory controller (R109). -/
def State.creditReturned (s : State) : State :=
  if s.down.credits < 255 then s.setDown { s.down with credits := s.down.credits + 1 } else s

/-! ### Responses (R107, R118 to R121) -/

/-- The data of an upstream response OK (R102, R118). -/
def upstreamData (kind : RequestKind) (length : Nat) (data : Option (List Byte)) : Option (List Byte) :=
  match kind with
  | .read => some (shapeTo length (data.getD []))
  | .write => none
  | .atomic => data

/-- A request has ended OK: its result goes to its origin (R118). -/
def Happening.deliverOk (h : Happening) (data : Option (List Byte)) : TagOrigin → Happening
  | .passThrough requester tag kind _ length =>
    h.step (·.respond ⟨requester, tag, .ok, upstreamData kind length data⟩)
  | .save c step => h.saveResult c step (.ok (shapeTo 64 (data.getD [])))
  | .restore step => h.restoreResult step (.ok (shapeTo 64 (data.getD [])))

/-- A request has failed, by a response ERROR or by timeout: its origin is told (R118, R123). -/
def Happening.deliverFailure (h : Happening) (failure : Result) : TagOrigin → Happening
  | .passThrough requester tag _ _ _ => h.step (·.respond ⟨requester, tag, .memError, none⟩)
  | .save c step => h.saveResult c step failure
  | .restore step => h.restoreResult step failure

/-- A downstream response (R118, R120, R121). -/
def Happening.response (h : Happening) (t : TagNo) (status : LinkStatus) (data : Option (List Byte)) : Happening :=
  match h.state.tag t with
  | .inUse r =>
    let h₁ := h.step (·.setTag t .free)
    match status with
    | .ok => h₁.deliverOk data r.origin
    | .error => h₁.deliverFailure .error r.origin
  | .stale _ => (h.step (·.setTag t .free)).post .downstreamPort (.lateResponse t)
  | .free => h.post .downstreamPort (.strayResponse t)

/-! ### Timeouts (R123, R124) -/

/-- The class of an origin (R110, R123). -/
def TagOrigin.source : TagOrigin → Source
  | .passThrough _ _ _ _ _ => .passThrough
  | .save _ _ => .save
  | .restore _ => .restore

/-- The timeout in force has passed since the issue (R123). -/
def TagRecord.timedOut (r : TagRecord) (now : Nat) : Bool := r.timeout != 0 && r.timeout ≤ now - r.issueTime

/-- The stale period has passed since the issue (R124). -/
def TagRecord.staleOver (r : TagRecord) (now : Nat) : Bool := 4 * r.timeout ≤ now - r.issueTime

/-- An IN_USE tag whose timeout has passed times out (R123). -/
def Happening.timeOut (h : Happening) (t : TagNo) : Happening :=
  match h.state.tag t with
  | .inUse r =>
    if r.timedOut h.state.now then
      (((h.step (·.setTag t (.stale r))).deliverFailure .timeout r.origin).step State.countResponseTimedOut).post
        .downstreamPort (.responseTimeout r.origin.source r.address)
    else h
  | _ => h

/-- A STALE tag whose stale period has passed becomes FREE, silently (R124). -/
def State.expireStale (s : State) (t : TagNo) : State :=
  match s.tag t with
  | .stale r => if r.staleOver s.now then s.setTag t .free else s
  | _ => s

end Sys2Proof.Machine
end

