-- ==== Sys2Proof/Machine/ExecTraffic.lean ====
section
/-! DEFINITION. The meanings of the traffic rows: the upstream port, the save engine's allocation, and the downstream
port. -/

namespace Sys2Proof.Machine

/-- UPSTREAM_REQUEST (R85). -/
def execUpstreamRequest (r : UpstreamRequest) (s : State) : Host.Outcome State Fault Refusal :=
  .next (s.running fun s => happening s fun h => h.arrive r)

/-- SAVE_ALLOCATION (R67). -/
def execSaveAllocation (s : State) : Host.Outcome State Fault Refusal :=
  .next (s.running fun s => happening s Happening.allocateSave)

/-- ARBITER_GRANT (R116). -/
def execArbiterGrant (s : State) : Host.Outcome State Fault Refusal := .next (s.running State.grant)

/-- DOWNSTREAM_CREDIT_RETURN (R109). -/
def execDownstreamCreditReturn (s : State) : Host.Outcome State Fault Refusal := .next (s.running State.creditReturned)

/-- DOWNSTREAM_RESPONSE (R118). -/
def execDownstreamResponse (tag : TagNo) (status : LinkStatus) (data : Option (List Byte)) (s : State) :
    Host.Outcome State Fault Refusal :=
  .next (s.running fun s => s.reported (happening s fun h => h.response tag status data))

/-- The quiesce is completed by the FREE report or the IDLE report of a timeout (R123, step 2; R185). Whether the reset
step comes after that timeout's increment and post (R123, steps 3 and 4), between them or before them is a free choice:
those made before it are cleared by it, those made after it stand (R163, R170, log 8). -/
def State.quiesceAmidTimeout (t : State) (post : NoticeKind) : State :=
  let (n, t₁) := t.nextChoice
  let reset := t₁.quiesceStep
  match n % 3 with
  | 0 => reset
  | 1 => takePost reset post reset.level
  | _ => takePost reset.countResponseTimedOut post reset.level

/-- A tag times out where its timeout has passed (R123), and completes the quiesce where its report does (R185). -/
def State.timeOutTag (s : State) (tag : TagNo) : State :=
  let t := happening s fun h => h.timeOut tag
  match s.completesQuiesce t, s.tag tag with
  | true, .inUse r => t.quiesceAmidTimeout (.responseTimeout r.origin.source r.address)
  | _, _ => t

/-- TAG_TIMEOUT (R123). -/
def execTagTimeout (tag : TagNo) (s : State) : Host.Outcome State Fault Refusal :=
  .next (s.running fun s => s.timeOutTag tag)

/-- STALE_PERIOD_EXPIRY (R124). -/
def execStalePeriodExpiry (tag : TagNo) (s : State) : Host.Outcome State Fault Refusal :=
  .next (s.running fun s => s.expireStale tag)

end Sys2Proof.Machine
end

