-- ==== Sys2Proof/Machine/ExecWindows.lean ====
section
/-! DEFINITION. The meanings of the window commands and READ_MAP. -/

namespace Sys2Proof.Machine

/-- SET_WINDOW (R30). -/
def execSetWindow (f : Frame) (s : State) : Host.Outcome State Fault Refusal :=
  .next (takeFrame s f 0 16 false (answerSetWindow (WindowOperands.ofPayload f.payload)))

/-- GET_WINDOW (R33). -/
def execGetWindow (f : Frame) (s : State) : Host.Outcome State Fault Refusal :=
  .next (takeFrame s f 0 1 false (answerGetWindow (byteOperand f)))

/-- ENABLE_WINDOW (R31). -/
def execEnableWindow (f : Frame) (s : State) : Host.Outcome State Fault Refusal :=
  .next (takeFrame s f 0 1 false (answerEnableWindow (byteOperand f)))

/-- DISABLE_WINDOW (R32). -/
def execDisableWindow (f : Frame) (s : State) : Host.Outcome State Fault Refusal :=
  .next (takeFrame s f 0 1 false (answerDisableWindow (byteOperand f)))

/-- READ_MAP (R43). -/
def execReadMap (f : Frame) (s : State) : Host.Outcome State Fault Refusal :=
  .next (takeFrame s f 0 4 false (answerReadMap (wordOperand f)))

end Sys2Proof.Machine
end

