-- ==== Sys2Proof/Machine/Dispatch.lean ====
section
/-! DEFINITION. One arm per row of spec/opcode_table.json: a command's effect on everything but the queue. -/

namespace Sys2Proof.Machine

def exec (i : Instr) (s : State) : Host.Outcome State Fault Refusal :=
  match i with
  | .powerOnReset => Sys2Proof.Machine.execPowerOnReset s
  | .powerOnResetEnd => Sys2Proof.Machine.execPowerOnResetEnd s
  | .mapSweepComplete => Sys2Proof.Machine.execMapSweepComplete s
  | .rollbackReqRisingEdge => Sys2Proof.Machine.execRollbackReqRisingEdge s
  | .upstreamRequest r => Sys2Proof.Machine.execUpstreamRequest r s
  | .saveAllocation => Sys2Proof.Machine.execSaveAllocation s
  | .arbiterGrant => Sys2Proof.Machine.execArbiterGrant s
  | .downstreamCreditReturn => Sys2Proof.Machine.execDownstreamCreditReturn s
  | .downstreamResponse tag status data => Sys2Proof.Machine.execDownstreamResponse tag status data s
  | .tagTimeout tag => Sys2Proof.Machine.execTagTimeout tag s
  | .stalePeriodExpiry tag => Sys2Proof.Machine.execStalePeriodExpiry tag s
  | .openTakesEffect => Sys2Proof.Machine.execOpenTakesEffect s
  | .releaseTakesEffect => Sys2Proof.Machine.execReleaseTakesEffect s
  | .commitTakesEffect => Sys2Proof.Machine.execCommitTakesEffect s
  | .rollbackTakesEffect => Sys2Proof.Machine.execRollbackTakesEffect s
  | .rollbackOutcome => Sys2Proof.Machine.execRollbackOutcome s
  | .checkEnd => Sys2Proof.Machine.execCheckEnd s
  | .quietTimerExpiry => Sys2Proof.Machine.execQuietTimerExpiry s
  | .readPeriod clocks beganInReset => Sys2Proof.Machine.execReadPeriod clocks beganInReset s
  | .replyReady => Sys2Proof.Machine.execReplyReady s
  | .commandFrameCutShort p => Sys2Proof.Machine.execCommandFrameCutShort p s
  | .unknownCommand code f => Sys2Proof.Machine.execUnknownCommand code f s
  | .getStatus f => Sys2Proof.Machine.execGetStatus f s
  | .getMarks f => Sys2Proof.Machine.execGetMarks f s
  | .readConfig f => Sys2Proof.Machine.execReadConfig f s
  | .writeConfigLogBase f => Sys2Proof.Machine.execWriteConfigLogBase f s
  | .writeConfigLogSize f => Sys2Proof.Machine.execWriteConfigLogSize f s
  | .writeConfigLogThreshold f => Sys2Proof.Machine.execWriteConfigLogThreshold f s
  | .writeConfigLogFullPolicy f => Sys2Proof.Machine.execWriteConfigLogFullPolicy f s
  | .writeConfigLogReader f => Sys2Proof.Machine.execWriteConfigLogReader f s
  | .writeConfigPartRequesterId f => Sys2Proof.Machine.execWriteConfigPartRequesterId f s
  | .writeConfigResponseTimeout f => Sys2Proof.Machine.execWriteConfigResponseTimeout f s
  | .writeConfigNoticeTrigger f => Sys2Proof.Machine.execWriteConfigNoticeTrigger f s
  | .writeConfigNoticeQuiet f => Sys2Proof.Machine.execWriteConfigNoticeQuiet f s
  | .writeConfigLineRollback f => Sys2Proof.Machine.execWriteConfigLineRollback f s
  | .setWindow f => Sys2Proof.Machine.execSetWindow f s
  | .getWindow f => Sys2Proof.Machine.execGetWindow f s
  | .enableWindow f => Sys2Proof.Machine.execEnableWindow f s
  | .disableWindow f => Sys2Proof.Machine.execDisableWindow f s
  | .readMap f => Sys2Proof.Machine.execReadMap f s
  | .openMark f => Sys2Proof.Machine.execOpenMark f s
  | .releaseMark f => Sys2Proof.Machine.execReleaseMark f s
  | .commit f => Sys2Proof.Machine.execCommit f s
  | .rollback f => Sys2Proof.Machine.execRollback f s
  | .checkLog f => Sys2Proof.Machine.execCheckLog f s
  | .discard f => Sys2Proof.Machine.execDiscard f s
  | .readNotice f => Sys2Proof.Machine.execReadNotice f s
  | .readCounters f => Sys2Proof.Machine.execReadCounters f s
  | .clearCounters f => Sys2Proof.Machine.execClearCounters f s
  | .softReset f => Sys2Proof.Machine.execSoftReset f s
  | .softResetQuiesceComplete => Sys2Proof.Machine.execSoftResetQuiesceComplete s
  | .checkFailedFrame p => Sys2Proof.Machine.execCheckFailedFrame p s
  | .writeConfigUnknownItem f => Sys2Proof.Machine.execWriteConfigUnknownItem f s
  | .rollbackReqFallingEdge => Sys2Proof.Machine.execRollbackReqFallingEdge s

end Sys2Proof.Machine
end

