-- ==== Sys2Proof/Machine/Step.lean ====
section
/-! DEFINITION. The step of the part: the command at the front of the queue, or a tick of the time base. -/

namespace Sys2Proof.Machine

/-- One µs of the time base passes (00, Time; log 4). -/
def State.tick (s : State) : State := s.setNow (s.now + 1)

/-- Takes the command at the front of the queue (R177; 95: each step whole and indivisible); on an empty queue the part
idles and one µs passes (DESIGN CHOICE, log 4). -/
def step (s : State) : Host.Outcome State Fault Refusal :=
  match s.pending with
  | [] => .next s.tick
  | c :: rest => exec c (s.setPending rest)

/-- The state with the command that a table word spells at the front of its queue; the table gives no row any bits. -/
def State.withFetchWord (s : State) (nbits w : Nat) : State :=
  match decodeTableWord nbits w with
  | some c => s.setPending (c :: s.pending)
  | none => s

end Sys2Proof.Machine
end

