-- ==== Sys2Proof/Safety.lean ====
section
/-! DEFINITION. The words the claims are made in: frames that reach their owner, the state with a reply in place, and
the invariants the manual states of the part's tables. -/

namespace Sys2Proof.Safety

open Machine

/-! ### Frames and replies -/

/-- RESET_N is high (R191). -/
def Running (s : State) : Prop := s.pins.resetLow = false

/-- The controller is in a state from IDLE to BROKEN, in which commands are passed to their owners (R175). -/
def Ready (s : State) : Prop := s.marks.state ≠ .starting ∧ s.marks.state ≠ .resetting

/-- The frame's period is received and the part is ready: the frame meets every test of R175 but the payload length,
which is `n` bytes behind the row's own identifier. -/
def Delivered (s : State) (f : Frame) (n : Nat) : Prop :=
  Running s ∧ Ready s ∧ f.beganInReset = false ∧ f.payload.length = n

/-- `s` once a frame of `n` payload bytes is answered: the reply FORMING (R176), and SPI_MISO's ready byte and zeros over
every SPI_SCK cycle of the period (R171, R172). -/
def replied (s : State) (f : Frame) (n : Nat) (status : Status) (payload : List Byte) : State :=
  { s with
    mgmt := { s.mgmt with buffer := .forming ⟨f.request, status, payload⟩ }
    pins := { s.pins with miso := misoOf [s.readyByte] (8 * (n + 4 + f.extra) + f.bits) } }

/-- The frame of a row, with 1 where the row itself names the first payload byte, and the payload length Formats gives
the command (R194, R195). -/
def frameRow : Instr → Option (Frame × Nat × Nat)
  | .getStatus f => some (f, 0, 0)
  | .getMarks f => some (f, 0, 0)
  | .readConfig f => some (f, 0, 0)
  | .writeConfigLogBase f => some (f, 1, 9)
  | .writeConfigLogSize f => some (f, 1, 9)
  | .writeConfigLogThreshold f => some (f, 1, 9)
  | .writeConfigLogFullPolicy f => some (f, 1, 9)
  | .writeConfigLogReader f => some (f, 1, 9)
  | .writeConfigPartRequesterId f => some (f, 1, 9)
  | .writeConfigResponseTimeout f => some (f, 1, 9)
  | .writeConfigNoticeTrigger f => some (f, 1, 9)
  | .writeConfigNoticeQuiet f => some (f, 1, 9)
  | .writeConfigLineRollback f => some (f, 1, 9)
  | .writeConfigUnknownItem f => some (f, 0, 9)
  | .setWindow f => some (f, 0, 16)
  | .getWindow f => some (f, 0, 1)
  | .enableWindow f => some (f, 0, 1)
  | .disableWindow f => some (f, 0, 1)
  | .readMap f => some (f, 0, 4)
  | .openMark f => some (f, 0, 4)
  | .releaseMark f => some (f, 0, 0)
  | .commit f => some (f, 0, 0)
  | .rollback f => some (f, 0, 1)
  | .checkLog f => some (f, 0, 1)
  | .discard f => some (f, 0, 0)
  | .readNotice f => some (f, 0, 0)
  | .readCounters f => some (f, 0, 0)
  | .clearCounters f => some (f, 0, 0)
  | .softReset f => some (f, 0, 0)
  | _ => none

/-- The ten configuration items (9.5). -/
structure Items where
  logBase : Address
  logSize : Nat
  logThreshold : Nat
  logFullPolicy : FullPolicy
  logReader : LogReader
  partRequesterId : RequesterId
  responseTimeout : Nat
  noticeTrigger : Nat
  noticeQuiet : Nat
  lineRollback : LineRollback
deriving DecidableEq, Repr

/-- The items as they stand. -/
def items (s : State) : Items where
  logBase := s.log.base
  logSize := s.log.size
  logThreshold := s.log.threshold
  logFullPolicy := s.log.policy
  logReader := s.windows.reader
  partRequesterId := s.mgmt.partRequesterId
  responseTimeout := s.mgmt.responseTimeout
  noticeTrigger := s.mgmt.noticeTrigger
  noticeQuiet := s.mgmt.noticeQuiet
  lineRollback := s.mgmt.lineRollback

/-- The reset values of 9.5. -/
def resetItems : Items where
  logBase := 0#40
  logSize := 0
  logThreshold := 0
  logFullPolicy := .breakMarks
  logReader := ⟨false, 0#6, 0#6⟩
  partRequesterId := 63#6
  responseTimeout := 1000
  noticeTrigger := 1
  noticeQuiet := 0
  lineRollback := ⟨false, 1⟩

/-- The WRITE_CONFIG rows. -/
def isWriteConfig : Instr → Bool
  | .writeConfigLogBase _ => true
  | .writeConfigLogSize _ => true
  | .writeConfigLogThreshold _ => true
  | .writeConfigLogFullPolicy _ => true
  | .writeConfigLogReader _ => true
  | .writeConfigPartRequesterId _ => true
  | .writeConfigResponseTimeout _ => true
  | .writeConfigNoticeTrigger _ => true
  | .writeConfigNoticeQuiet _ => true
  | .writeConfigLineRollback _ => true
  | .writeConfigUnknownItem _ => true
  | _ => false

/-! ### Notices (R154, R158) -/

/-- The notice unit takes posts in order, each at this level. -/
def takeAll (s : State) (posts : List NoticeKind) (level : Nat) : State :=
  posts.foldl (fun s post => takePost s post level) s

/-- `t` is `s` once the posts of one happening are taken: `own`, one block's, which come with any change of level from
`old` to `new`, in their own order at the new level, and `others`, other blocks' posts, anywhere among them, at the old
level only before every record at the new one (R154, R158). Where nothing is left to choose, no free choice is taken; how
many the model takes else is left open. -/
def TakenTogether (s t : State) (own others : List NoticeKind) (old new : Nat) : Prop :=
  ∃ before after choices, (before ++ after).Perm (own ++ others) ∧ own.Sublist after ∧
    (others = [] ∨ ((own ++ others).length ≤ 1 ∧ old = new) → choices = s.choices) ∧
    t = { takeAll (takeAll s before old) after new with choices := choices }

/-! ### What a happening leaves

The definitions below say what the steps of a happening leave, `v`, and the posts they make, `own`, one block's in their
order, and `others`, other blocks'. How these come to the state the command answers is one of the next three. -/

/-- Command `c` answers a next state, which is `v` with these posts taken. -/
def CommandLeaves (s : State) (c : Instr) (v : State) (own others : List NoticeKind) : Prop :=
  ∃ u, exec c s = .next u ∧ TakenTogether v u own others s.level v.level

/-- A response under tag `t` leaves `v` with these posts taken, and completes the quiesce where its FREE report or its IDLE
report does (R185). -/
def ResponseLeaves (s : State) (t : TagNo) (status : LinkStatus) (data : Option (List Byte)) (v : State)
    (own others : List NoticeKind) : Prop :=
  ∃ u, TakenTogether v u own others s.level v.level ∧
    (s.marks.state ≠ .resetting → exec (.downstreamResponse t status data) s = .next u) ∧
    exec (.downstreamResponse t status data) s = exec .softResetQuiesceComplete u

/-- The timeout of a request of the save engine or the restore engine under tag `t`: its origin's steps leave `v`, then
RESPONSES_TIMED_OUT is incremented and RESPONSE_TIMEOUT posted (R123). Where the origin's report completes the quiesce
(R185), the increment and the post come before the reset step, which clears them, or after it (R163, R170, log 8). -/
def TimeoutLeaves (s : State) (t : TagNo) (source : Source) (address : Address) (v : State)
    (own others : List NoticeKind) : Prop :=
  ∀ counted : State → State, (counted = fun u => { u with notice := { u.notice with
    counters := { u.notice.counters with responsesTimedOut := bump u.notice.counters.responsesTimedOut } } }) →
  (¬ (s.marks.state = .resetting ∧ (∀ c, v.context? c = none) ∧ v.restore.state = .idle) →
    ∃ u, exec (.tagTimeout t) s = .next u ∧
      TakenTogether (counted v) u own (others ++ [.responseTimeout source address]) s.level v.level) ∧
  (s.marks.state = .resetting → (∀ c, v.context? c = none) → v.restore.state = .idle → own = [] → others = [] →
    ∃ u w, exec .softResetQuiesceComplete { v with choices := v.choices + 1 } = .next u ∧
      exec (.tagTimeout t) s = .next w ∧ (w = u ∨ w = takePost u (.responseTimeout source address) 0 ∨
        w = takePost (counted u) (.responseTimeout source address) 0))

/-! ### The drain's end (R12) -/

/-- No pre-drain entry remains and every save context is FREE: the conditions an OPEN, RELEASE or COMMIT needs. -/
def DrainClear (s : State) : Prop :=
  s.marks.state = .draining ∧ (∀ e ∈ s.transit.entries, e.preDrain = false) ∧ ∀ c, s.context? c = none

/-- The conditions a ROLLBACK of this origin needs. -/
def RollbackDrainClear (s : State) (origin : Origin) : Prop :=
  DrainClear s ∧ (∀ t, (s.tag t).carriesWindowWrite = false) ∧ (origin = .line → s.restore.state = .idle)

/-! ### Save contexts (R64) -/

/-- A context as power-on reset and the quiesce leave it: FREE, error kind NONE, counts zero, line buffers empty (R64,
R79). -/
def ContextCleared (x : SaveContext) : Prop :=
  x.state = .free ∧ x.error = .noError ∧ x.linesIssued = 0 ∧ x.linesAcknowledged = 0 ∧ x.linesFolded = 0 ∧ x.lines = []

/-- `engine` is the restore engine once context `c` has reported FREE: a check that waits for a slot goes on to its header
once no other busy context holds the slot (R148). -/
def FreeReported (s : State) (c : ContextNo) (engine : RestoreEngine) : Prop :=
  (engine = s.restore ∧ (s.restore.state ≠ .checking ∨ s.restore.step ≠ .waitSlot ∨
    ∃ d z, d ≠ c ∧ s.context? d = some z ∧ z.offset + (z.granule.bytes + 64) = s.restore.position)) ∨
  (engine = { s.restore with step := .header, headerIssued := false } ∧ s.restore.state = .checking ∧
    s.restore.step = .waitSlot ∧
    ∀ d z, d ≠ c → s.context? d = some z → z.offset + (z.granule.bytes + 64) ≠ s.restore.position)

/-- `s` once context `c` is FREE with the restore engine as given, its held write FORWARDABLE (R72, R75). That the
context's other fields, which then hold no meaning (R64), take their reset values is the model's choice (log 10). -/
def contextFreed (s : State) (c : ContextNo) (held : Nat) (engine : RestoreEngine) : State :=
  { s with
    save := { s.save with contexts := s.save.contexts.set c SaveContext.reset, allocation := s.save.allocation.erase c }
    restore := engine
    transit := { s.transit with entries := s.transit.entries.map fun e =>
      if e.order = held then { e with state := .forwardable, hasContext := false } else e } }

/-- No request of context `c` but the one under tag `t` is outstanding (R73). -/
def LastRequest (s : State) (t : TagNo) (c : ContextNo) : Prop :=
  ∀ u, u ≠ t → (s.tag u).outstandingFor c = false

/-! ### Issues (R112 to R116) -/

/-- A grant goes to this source under this tag: every source above it in the rotation cannot be served, a credit is in
hand, and `t` is the lowest-numbered FREE tag. `rest` is the rotation without the source. -/
def GrantGoesTo (s : State) (source : Source) (t : TagNo) (rest : List Source) : Prop :=
  Running s ∧ 1 ≤ s.down.credits ∧ s.tag t = .free ∧ (∀ u, u < t → s.tag u ≠ .free) ∧ s.down.rotation.Nodup ∧
  ∃ above below, s.down.rotation = above ++ source :: below ∧ rest = above ++ below ∧
    ∀ x ∈ above, s.canServe x = false

/-- `s` with a request issued under tag `t`: the tag IN_USE with its origin, address, issue time and timeout in force,
one credit less, the source at the bottom of the rotation, and the request on the link (R116). -/
def issuedAs (s : State) (source : Source) (t : TagNo) (origin : TagOrigin) (request : DownstreamRequest)
    (rest : List Source) : State :=
  { s with
    down := {
      tags := s.down.tags.set t (.inUse ⟨origin, request.address, s.now, s.mgmt.responseTimeout⟩)
      credits := s.down.credits - 1
      rotation := rest ++ [source] }
    links := { s.links with downstream := s.links.downstream ++ [request] } }

/-- `s` with one tag FREE. -/
def tagFreed (s : State) (t : TagNo) : State := { s with down := { s.down with tags := s.down.tags.set t .free } }

/-! ### Walks (R127 to R130) -/

/-- A walk that has ended complete or stopped, with record step NONE (R130 to R132). -/
def WalkOver (e : RestoreEngine) : Prop :=
  e.step = .noStep ∧ (e.outcome.stopped = true ∨ (e.position = e.lowerBound ∧ e.remaining = 0))

/-- An engine back in IDLE: record step NONE, nothing in hand. -/
def idleEngine (e : RestoreEngine) : RestoreEngine :=
  { e with state := .idle, step := .noStep, headerIssued := false, current := none, buffer := [] }

/-- No read of the record at the walk position has been issued: a request to end the walk ends it at once (R151, R152). -/
def EndsAtOnce (e : RestoreEngine) : Prop :=
  e.step = .noStep ∨ e.step = .waitSlot ∨ (e.step = .header ∧ e.headerIssued = false)

/-- A read of the record at the walk position has been issued: under a request to end the walk, its record is finished
first (R151, R152). -/
def GoesOn (e : RestoreEngine) : Prop :=
  (e.step = .header ∧ e.headerIssued = true) ∨ e.step = .data ∨ (e.state = .restoring ∧ e.step = .writeBack)

/-- The engine right after a walk to mark `m` at level `k` has begun over a span of `n` records (R129, R130). That the
expected sequence is 0 where the next sequence number is 0 is the model's choice (log 30). -/
def walkBegun (s : State) (state : EngineState) (origin : Origin) (k : Nat) (m : MarkRecord) (n : Nat)
    (step : RecordStep) : RestoreEngine where
  state := state
  targetLevel := k
  origin := origin
  lowerMark := m.number
  lastIssued := s.marks.nextNumber - 1
  lowerBound := m.startOffset
  upperBound := s.log.tail
  position := s.log.tail
  remaining := n
  expected := s.log.nextSequence - 1
  step := step
  headerIssued := false
  current := none
  buffer := []
  linesIssued := 0
  linesEnded := 0
  outstanding := 0
  recordFailed := false
  endRequest := .noRequest
  outcome := ⟨k, origin, 0, 0, 0, none, false, none⟩

/-- `e` stopped at its walk position (R130 to R132). -/
def stoppedEngine (e : RestoreEngine) : RestoreEngine :=
  { e with step := .noStep, outcome := { e.outcome with stopped := true, stopOffset := some e.position } }

/-- What a walk that stands at `e` leaves of `s` once it has ended or stopped: without an end request it waits for its end
to be taken (R142, R150); under one the engine enters IDLE, an abandoned check posting CHECK_DONE with result ABANDONED
(R151), a silently abandoned one nothing (R153), and a stopped rollback handing over its walk offset (R152). -/
def WalkEnds (s : State) (e : RestoreEngine) (leaves : State → List NoticeKind → List NoticeKind → Prop) : Prop :=
  (e.endRequest = .noRequest → leaves { s with restore := e } [] []) ∧
  (e.endRequest = .abandon → leaves { s with restore := idleEngine e } [.checkDone e.outcome .abandoned] []) ∧
  (e.endRequest = .abandonSilent → leaves { s with restore := idleEngine e } [] []) ∧
  (e.endRequest = .stop →
    leaves { s with restore := idleEngine e, mgmt := { s.mgmt with stoppedWalk := some e.position } } [] [])

/-- What engine `e` leaves of `s` once it has finished the record that begins at `start` and stepped to it (R139) with this
outcome: the walk ends complete at the lower bound, stops where bound and count disagree, ends under an end request, or
goes on to the record below (R130), where a check first waits for a busy context that holds its slot (R148). That a stop
met under an end request is recorded in the outcome all the same is the model's reading (log 20), and that the expected
sequence stays 0 below the record of sequence 0 its choice (log 30). -/
def RecordFinished (s : State) (e : RestoreEngine) (start : Nat) (outcome : WalkOutcome)
    (leaves : State → List NoticeKind → List NoticeKind → Prop) : Prop :=
  ∃ d : RestoreEngine, d = { e with
    outcome := outcome, position := start, remaining := e.remaining - 1, expected := e.expected - 1
    step := .noStep, headerIssued := false, current := none, buffer := [] } ∧
  (d.position = d.lowerBound → d.remaining = 0 → WalkEnds s d leaves) ∧
  (d.position = d.lowerBound → d.remaining ≠ 0 → WalkEnds s (stoppedEngine d) leaves) ∧
  (d.position ≠ d.lowerBound → d.remaining = 0 → WalkEnds s (stoppedEngine d) leaves) ∧
  (d.position ≠ d.lowerBound → d.remaining ≠ 0 →
    (d.endRequest ≠ .noRequest → WalkEnds s d leaves) ∧
    (d.endRequest = .noRequest → ∀ next : RecordStep → State,
      (next = fun step => { s with restore := { d with
        step := step, linesIssued := 0, linesEnded := 0, recordFailed := false } }) →
      (e.state = .checking → (∃ c x, s.context? c = some x ∧ x.offset + (x.granule.bytes + 64) = start) →
        leaves (next .waitSlot) [] []) ∧
      (e.state ≠ .checking ∨ (∀ c x, s.context? c = some x → x.offset + (x.granule.bytes + 64) ≠ start) →
        leaves (next .header) [] [])))

/-- What engine `e` leaves of `s` once a request of its record has ended and the record has failed: it waits for the
requests outstanding, and is then counted failed, with the first failure offset if none is recorded (R136). -/
def RecordFails (s : State) (e : RestoreEngine) (record : CurrentRecord)
    (leaves : State → List NoticeKind → List NoticeKind → Prop) : Prop :=
  (e.outstanding ≠ 0 → leaves { s with restore := { e with recordFailed := true, buffer := [] } } [] []) ∧
  (e.outstanding = 0 → RecordFinished s { e with recordFailed := true } record.start
    { e.outcome with
      failed := e.outcome.failed + 1
      firstFailure := some (e.outcome.firstFailure.getD record.start) } leaves)

/-! ### Breaks and the latch (R17, R20, R25) -/

/-- `s` as the controller enters BROKEN: the stack emptied and the reason set (R19, R20), the entries without mark
numbers and pre-drain marks (R97, R100), and the waiting list released unsaved (R78). -/
def brokenAs (s : State) (reason : BrokenReason) : State :=
  { s with
    marks := { s.marks with state := .broken, stack := [], reason := reason, action := .noAction }
    save := { s.save with waiting := [] }
    transit := { s.transit with entries := s.transit.entries.map fun e => { e with
      preDrain := false, markNumber := none
      state := if e.state = .waitSave ∧ e.hasContext = false then .forwardable else e.state } } }

/-- `s` once a break report is taken: BROKEN, and from DRAINING with the latch cleared and the held entries re-classified
(R17, R20). -/
def brokenFrom (s : State) (reason : BrokenReason) : State :=
  if s.marks.state = .draining then
    State.reclassifyAll (brokenAs { s with marks := { s.marks with latch := false } } reason)
  else brokenAs s reason

/-- The posts of a break report: LOG_BROKEN, and from DRAINING MARK_COMMAND_DROPPED for the pending action and, where a
request was latched, LINE_IGNORED with reason BROKEN (R20, R17). -/
def breakPosts (s : State) (reason : BrokenReason) : List NoticeKind :=
  .logBroken reason s.log.tail ::
    if s.marks.state = .draining then
      (match s.marks.action with
        | .openMark _ => [.markCommandDropped .openMark]
        | .releaseMark => [.markCommandDropped .releaseMark]
        | .commit => [.markCommandDropped .commit]
        | .rollback k origin => [.markCommandDropped (.rollback k origin)]
        | .noAction => []) ++ if s.marks.latch then [.lineIgnored .broken] else []
    else []

/-- What a break report taken in OPEN or DRAINING leaves of `s`, with its posts; a running check is abandoned: it ends at
once or goes on to the end of its record (R20, R151). -/
def BreakTaken (s : State) (reason : BrokenReason) (leaves : State → List NoticeKind → List NoticeKind → Prop) : Prop :=
  (s.restore.state ≠ .checking ∨ s.restore.endRequest ≠ .noRequest →
    leaves (brokenFrom s reason) (breakPosts s reason) []) ∧
  (s.restore.state = .checking → s.restore.endRequest = .noRequest →
    (EndsAtOnce s.restore → leaves
      { brokenFrom s reason with restore := idleEngine { s.restore with endRequest := .abandon } }
      (breakPosts s reason) [.checkDone s.restore.outcome .abandoned]) ∧
    (GoesOn s.restore → leaves
      { brokenFrom s reason with restore := { s.restore with endRequest := .abandon } } (breakPosts s reason) []))

/-- What the failure of a record data write or a header write of context `c` leaves of `ended`, which is `s` with the
request's tag ended (R75): the break report from OPEN and DRAINING, nothing of it in BROKEN and RESETTING (R20), and where
it was the `last` request of the context, the context FREE and its held write FORWARDABLE. Where a check waits for the slot
of that context, the abandon request reaches it before the FREE report or after it, as a free choice says, also where the
context waits for other requests before it becomes FREE (R148). In the second order the end request is held while the check
waits, and once the context is FREE the check stands at the slot's header under it (log 19). -/
def LogWriteFails (s ended : State) (c : ContextNo) (x : SaveContext) (kind : ErrorKind) (reason : BrokenReason)
    (last : Bool) (leaves : State → List NoticeKind → List NoticeKind → Prop) : Prop :=
  ∀ (settled : RestoreEngine → State) (told : RestoreEngine → RestoreEngine → Prop),
  (settled = fun engine => if last then contextFreed ended c x.held engine
    else { ended with
      save := { s.save with contexts := s.save.contexts.set c { x with error := kind } }, restore := engine }) →
  (told = fun e engine => if last then FreeReported { s with restore := e } c engine else engine = e) →
  (s.marks.state = .opened ∨ s.marks.state = .draining →
    (s.restore.state = .checking → s.restore.step = .waitSlot → s.restore.endRequest = .noRequest →
      (x.offset + (x.granule.bytes + 64) = s.restore.position →
        ∃ choices, BreakTaken { settled s.restore with choices := choices } reason leaves ∨
          ∀ engine, told { s.restore with endRequest := .abandon } engine →
            BreakTaken { settled engine with choices := choices } reason leaves) ∧
      (x.offset + (x.granule.bytes + 64) ≠ s.restore.position → BreakTaken (settled s.restore) reason leaves)) ∧
    (s.restore.state ≠ .checking ∨ s.restore.step ≠ .waitSlot ∨ s.restore.endRequest ≠ .noRequest →
      ∀ engine, told s.restore engine → BreakTaken (settled engine) reason leaves)) ∧
  (s.marks.state = .broken ∨ s.marks.state = .resetting →
    ∀ engine, told s.restore engine → leaves (settled engine) [] [])

/-- `t` is `s` once the latch is evaluated and the posts are taken, those given and the latch's own: a latched request is
dropped with LINE_IGNORED in IDLE and BROKEN, and handled as a rising edge in OPEN, where it is dropped as DISABLED or
LEVEL or starts a line-origin drain, which abandons a running check (R17, R24, R25). `old` is the level the happening
began at. -/
def LatchTaken (s t : State) (posts : List NoticeKind) (old : Nat) : Prop :=
  ∀ clear drains : State, clear = { s with marks := { s.marks with latch := false } } →
  drains = { clear with
    marks := { clear.marks with state := .draining, action := .rollback s.mgmt.lineRollback.target .line }
    transit := { s.transit with entries := s.transit.entries.map fun e => { e with preDrain := true } } } →
  (s.marks.latch = false → t = takeAll s posts s.level) ∧
  (s.marks.latch = true →
    (s.marks.state = .idle → t = takeAll clear (posts ++ [.lineIgnored .noMark]) s.level) ∧
    (s.marks.state = .broken → t = takeAll clear (posts ++ [.lineIgnored .broken]) s.level) ∧
    (s.marks.state = .opened →
      (s.mgmt.lineRollback.enable = false → t = takeAll clear (posts ++ [.lineIgnored .disabled]) s.level) ∧
      (s.mgmt.lineRollback.enable = true → s.level < s.mgmt.lineRollback.target →
        t = takeAll clear (posts ++ [.lineIgnored .level]) s.level) ∧
      (s.mgmt.lineRollback.enable = true → s.mgmt.lineRollback.target ≤ s.level →
        (s.restore.state ≠ .checking ∨ s.restore.endRequest ≠ .noRequest → t = takeAll drains posts s.level) ∧
        (s.restore.state = .checking → s.restore.endRequest = .noRequest →
          (EndsAtOnce s.restore → TakenTogether
            { drains with restore := idleEngine { s.restore with endRequest := .abandon } } t
            posts [.checkDone s.restore.outcome .abandoned] old s.level) ∧
          (GoesOn s.restore → t = takeAll
            { drains with restore := { s.restore with endRequest := .abandon } } posts s.level)))))

/-! ### Byte layouts (R192) -/

/-- Bytes the part marks zero or does not use: `n` bytes from byte `first` on hold 0. -/
def Zeros (bytes : List Byte) (first n : Nat) : Prop := ∀ i, first ≤ i → i < first + n → byteAt bytes i = 0#8

/-! ### Invariants -/

/-- R159, R160, R161, R168: at most 32 records, sequence numbers consecutive modulo 65,536 in queue order up to the
notice sequence, loss counts at most 255, and counters within 32 bits. -/
def NoticeUnitOk (s : State) : Prop :=
  s.notice.queue.length ≤ 32 ∧ s.notice.nextSequence < 65536 ∧ s.notice.loss ≤ 255 ∧
  (∀ i r, s.notice.queue[i]? = some r →
    r.sequence < 65536 ∧ (r.sequence + (s.notice.queue.length - i)) % 65536 = s.notice.nextSequence ∧
      r.lossBefore ≤ 255) ∧
  s.notice.counters.savesCompleted ≤ Config.max32 ∧ s.notice.counters.savesFailed ≤ Config.max32 ∧
  s.notice.counters.writesHeld ≤ Config.max32 ∧ s.notice.counters.requestsDenied ≤ Config.max32 ∧
  s.notice.counters.responsesTimedOut ≤ Config.max32 ∧ s.notice.counters.recordsRestored ≤ Config.max32

/-- R84, R86, R191: at most 24 entries in strictly rising arrival order; the credits the fabric holds and the entries
make 24, or there is neither while RESET_N is low. -/
def TransitOk (s : State) : Prop :=
  s.transit.entries.length ≤ 24 ∧
  (if s.pins.resetLow then s.transit.entries = [] ∧ s.transit.credits = 0
    else s.transit.credits + s.transit.entries.length = 24) ∧
  s.transit.entries.Pairwise (fun a b => a.order < b.order) ∧
  ∀ e ∈ s.transit.entries, e.order < s.transit.nextOrder

/-- R109, R111, R115: at most 56 tags of pass-through origin IN_USE or STALE, at most 255 credits, and each source once
in the rotation. -/
def DownstreamOk (s : State) : Prop :=
  s.passThroughCount ≤ 56 ∧ s.down.credits ≤ 255 ∧ s.down.rotation.Perm [.passThrough, .save, .restore]

/-- R1, R2 and the table of 1.2: at most 4 marks, levels 1 upward, numbers strictly rising below the next mark number,
start offsets not falling and at most the tail; no mark in STARTING, IDLE and BROKEN, one at least in OPEN and
ROLLING_BACK; a pending action exactly in DRAINING, and a pending OPEN only where a mark and a number are left;
in STARTING, and so while RESET_N is low, the next mark number is 1. -/
def MarksOk (s : State) : Prop :=
  s.marks.stack.length ≤ 4 ∧ 1 ≤ s.marks.nextNumber ∧ s.marks.nextNumber ≤ Config.max32 + 1 ∧
  s.marks.stack.Pairwise (fun a b => a.number < b.number ∧ a.startOffset ≤ b.startOffset) ∧
  (∀ m ∈ s.marks.stack, 1 ≤ m.number ∧ m.number < s.marks.nextNumber ∧ m.startOffset ≤ s.log.tail) ∧
  (∀ i m, s.marks.stack[i]? = some m → m.level = i + 1) ∧
  (s.marks.state = .starting ∨ s.marks.state = .idle ∨ s.marks.state = .broken → s.marks.stack = []) ∧
  (s.marks.state = .opened ∨ s.marks.state = .rollingBack → s.marks.stack ≠ []) ∧
  (s.marks.action = .noAction ↔ s.marks.state ≠ .draining) ∧
  (∀ label, s.marks.action = .openMark label → s.marks.stack.length ≤ 3 ∧ s.marks.nextNumber ≤ Config.max32) ∧
  (s.marks.state = .starting → s.marks.nextNumber = 1) ∧ (s.pins.resetLow = true → s.marks.state = .starting)

/-- R3, R25: a broken reason in BROKEN, none outside BROKEN and RESETTING; a latched request only in DRAINING and
ROLLING_BACK. -/
def ReasonAndLatchOk (s : State) : Prop :=
  (s.marks.state = .broken → s.marks.reason ≠ .noReason) ∧
  (s.marks.state ≠ .broken → s.marks.state ≠ .resetting → s.marks.reason = .noReason) ∧
  (s.marks.latch = true → s.marks.state = .draining ∨ s.marks.state = .rollingBack)

/-- R48, R60, R13: the tail is at most LOG_SIZE, 0 with the next sequence number in STARTING and IDLE, and the
threshold-crossed flag is set exactly when LOG_THRESHOLD is not 0 and at most the tail. -/
def LogOk (s : State) : Prop :=
  s.log.tail ≤ s.log.size ∧
  (s.marks.state = .starting ∨ s.marks.state = .idle → s.log.tail = 0 ∧ s.log.nextSequence = 0) ∧
  (s.log.crossed = true ↔ s.log.threshold ≠ 0 ∧ s.log.threshold ≤ s.log.tail)

/-- R39, R41: the granule map keeps its canonical form, and from the sweep on every entry, and every mark number a save
or a transit entry carries, lies below the next mark number. -/
def MapOk (s : State) : Prop :=
  mapWf s.windows.map = true ∧
  (s.marks.state ≠ .starting → ∀ p ∈ s.windows.map, p.2 < s.marks.nextNumber) ∧
  (∀ c x, s.context? c = some x → x.markNumber < s.marks.nextNumber) ∧
  (∀ e ∈ s.transit.entries, ∀ n, e.markNumber = some n → n < s.marks.nextNumber)

/-- R27 on an enabled window: a granule size, a base aligned to it, a count from 1 to 65,536, a range that ends at or
below 2^40 and a map range that ends at or below 65,536. -/
def WindowValid (r : WindowRecord) : Prop :=
  ∃ g, Granule.ofCode r.code = some g ∧ r.base.toNat % g.bytes = 0 ∧ 1 ≤ r.count ∧ r.count ≤ 65536 ∧
    r.base.toNat + r.count * g.bytes ≤ 2 ^ 40 ∧ r.mapOffset + r.count ≤ 65536

/-- R27, R34, R47: enabled windows are valid, and overlap neither each other, in address or in map range, nor the log
area. -/
def WindowsOk (s : State) : Prop :=
  (∀ w, (s.window w).enabled = true →
    WindowValid (s.window w) ∧
    (s.log.size = 0 ∨ (s.window w).rangeEnd ≤ s.log.base.toNat ∨
      s.log.base.toNat + s.log.size ≤ (s.window w).base.toNat)) ∧
  (∀ v w, v ≠ w → (s.window v).enabled = true → (s.window w).enabled = true →
    ((s.window v).rangeEnd ≤ (s.window w).base.toNat ∨ (s.window w).rangeEnd ≤ (s.window v).base.toNat) ∧
    ((s.window v).mapOffset + (s.window v).count ≤ (s.window w).mapOffset ∨
      (s.window w).mapOffset + (s.window w).count ≤ (s.window v).mapOffset))

/-- The table of 9.5: each item holds one of its values. -/
def ItemsOk (s : State) : Prop :=
  s.log.base.toNat % 4096 = 0 ∧
  (s.log.size = 0 ∨ s.log.size % 4096 = 0 ∧ 65536 ≤ s.log.size ∧ s.log.size ≤ 1073741824) ∧
  s.log.base.toNat + s.log.size ≤ 2 ^ 40 ∧
  s.log.threshold % 4096 = 0 ∧ s.log.threshold ≤ s.log.size ∧
  s.mgmt.responseTimeout ≤ 65535 ∧
  s.mgmt.noticeTrigger ∈ [1, 4, 8, 16] ∧
  (s.mgmt.noticeQuiet = 0 ∨ 16 ≤ s.mgmt.noticeQuiet ∧ s.mgmt.noticeQuiet ≤ 4096) ∧
  1 ≤ s.mgmt.lineRollback.target ∧ s.mgmt.lineRollback.target ≤ 4

/-- R64, R69, R77, R140: the allocation order lists each busy context once, a context has at most four lines in flight
and issues no more reads than its granule has lines, and the restore engine has at most four requests outstanding. -/
def EnginesOk (s : State) : Prop :=
  s.save.allocation.Nodup ∧ (∀ c, c ∈ s.save.allocation ↔ (s.context? c).isSome = true) ∧
  (∀ c x, s.context? c = some x → x.lines.length ≤ 4 ∧ x.linesIssued ≤ x.granule.lines) ∧
  s.restore.outstanding ≤ 4

/-- R184, R185, R152, R153: the reset phase is ENGINES exactly in RESETTING, which RESET_N low ends (R191); there the
engines have not both ended, since the happening that ends the second completes the quiesce, and a walk goes on under an
end request. -/
def ResetPhaseOk (s : State) : Prop :=
  (s.mgmt.resetPhase = .engines ↔ s.marks.state = .resetting) ∧
  (s.pins.resetLow = true → s.marks.state ≠ .resetting) ∧
  (s.marks.state = .resetting → ((∃ c, s.context? c ≠ none) ∨ s.restore.state ≠ .idle) ∧
    (s.restore.state ≠ .idle → s.restore.endRequest ≠ .noRequest))

end Sys2Proof.Safety
end

