-- ==== Sys2Proof/Certificates/Slice0/Obligations.lean ====
section
/-! DEFINITION. The statements for the provers. Each docstring names the rule the statement formalises. -/

open Sys2Proof Sys2Proof.Machine Sys2Proof.Safety

/-! ### The machine as a whole -/

/-- R177 and 95_what_each_step_holds.md: commands and happenings are taken one at a time, each whole. That they wait in
one queue, first in first out, is the model's choice (log 1): a step takes the command at the front of the queue, with
the queue's rest. -/
def Obligations.StepRunsFrontCommand : Prop :=
  ∀ (s : State) (c : Instr) (rest : List Instr),
    step { s with pending := c :: rest } = exec c { s with pending := rest }

/-- No command touches the queue of commands, and, by the model's choice (log 4), none takes time: one µs passes when a
step finds no command waiting, and then nothing else changes. -/
def Obligations.TimePassesOnlyWhenIdle : Prop :=
  (∀ (c : Instr) (s t : State), exec c s = .next t → t.pending = s.pending ∧ t.now = s.now) ∧
  ∀ s : State, s.pending = [] → step s = .next { s with now := s.now + 1 }

/-- The model's reading of R191, R171, R85 and R109 (log 24): while RESET_N is low, every command but power-on reset
itself, its end and the edges of ROLLBACK_REQ leaves the part as it is; an edge moves the pin's level alone. That a
chip-select period then does not drive SPI_MISO is the model's choice (log 31). -/
def Obligations.PowerOnResetHoldsThePart : Prop :=
  ∀ (c : Instr) (s : State), s.pins.resetLow = true →
    (c ≠ .powerOnReset → c ≠ .powerOnResetEnd → c ≠ .rollbackReqRisingEdge → c ≠ .rollbackReqFallingEdge →
      exec c s = .next s) ∧
    exec .rollbackReqRisingEdge s = .next { s with pins := { s.pins with rollbackReq := true } } ∧
    exec .rollbackReqFallingEdge s = .next { s with pins := { s.pins with rollbackReq := false } }

/-- The reset values the manual gives, at the reset state: STARTING with an empty stack and next mark number 1 (R1, R2,
R4), windows disabled with fields 0 (R27), the items' values of 9.5, an empty log (R48), FREE contexts with error kind
NONE, counts zero and empty line buffers (R64), an empty waiting list (R66) and a clear bar (R78), no entries and 24
credits (R105), FREE tags, no credit and the rotation of R115 (R126), an IDLE engine with its outcome counts zero, its
optional outcome fields absent and no data in its record buffer (R127), an empty notice queue and zero counters (R159,
R170), NOTICE_N high (R167), no reply (R176), no reset phase (R184) and no interruption report (R190). -/
def Obligations.ResetStateHoldsResetValues : Prop :=
  State.reset.marks = ⟨.starting, [], 1, .noAction, false, .noReason⟩ ∧
  (∀ w, State.reset.window w = ⟨false, 0#40, 0#8, 0, 0, 0#6, 0#6⟩) ∧
  items State.reset = resetItems ∧
  State.reset.log.tail = 0 ∧ State.reset.log.nextSequence = 0 ∧ State.reset.log.crossed = false ∧
  (∀ c, ContextCleared (State.reset.save.contexts[(c : ContextNo)])) ∧ State.reset.save.waiting = [] ∧
  State.reset.save.fullBar = false ∧
  State.reset.transit.entries = [] ∧ State.reset.transit.credits = 24 ∧
  (∀ t, State.reset.tag t = .free) ∧ State.reset.down.credits = 0 ∧
  State.reset.down.rotation = [.passThrough, .save, .restore] ∧
  State.reset.restore.state = .idle ∧ State.reset.restore.step = .noStep ∧ State.reset.restore.outstanding = 0 ∧
  State.reset.restore.endRequest = .noRequest ∧ State.reset.restore.outcome.good = 0 ∧
  State.reset.restore.outcome.skipped = 0 ∧ State.reset.restore.outcome.failed = 0 ∧
  State.reset.restore.outcome.firstFailure = none ∧ State.reset.restore.outcome.stopOffset = none ∧
  State.reset.restore.buffer = [] ∧
  State.reset.notice.queue = [] ∧ State.reset.notice.nextSequence = 0 ∧ State.reset.notice.loss = 0 ∧
  State.reset.notice.counters = ⟨0, 0, 0, 0, 0, 0⟩ ∧ State.reset.notice.asserted = false ∧
  State.reset.mgmt.buffer = .empty ∧ State.reset.mgmt.resetPhase = .noPhase ∧ State.reset.mgmt.interruption = none

/-! ### Reading chip-select periods -/

/-- R171 to R175, R182, R194, R195: every well-formed command that comes in a chip-select period is read back from the
bytes of that period, with every operand, and from its bits, most significant first, whatever the bits of a byte left
incomplete at its end are. That an empty period is in the row of a frame cut short is the model's choice (log 29). -/
def Obligations.PeriodsDecodeToTheirCommands : Prop :=
  ∀ (c : Instr) (p : Period), c.wellFormed = true → encodePeriod c = some p →
    decodePeriod p = c ∧
    ∀ loose : List Bool, loose.length = p.bits.val →
      decodePeriodBits (bitsOfBytes p.bytes ++ loose) p.beganInReset = c

/-! ### Power-on, pins and soft reset -/

/-- R191, R126, R167: POWER_ON_RESET gives every block its power-on values and drops what the part held. The model's
choices in it: the values of the engine's and the contexts' fields to which R127 and R64 give none (logs 13 and 10), the
granule map as it stands until its sweep (log 6), and that the links' records, the time base and the queue are not the
blocks' (logs 9, 4 and 1). -/
def Obligations.PowerOnResetValues : Prop :=
  ∀ s : State, ∃ t, exec .powerOnReset s = .next t ∧
    t.marks = State.reset.marks ∧ t.windows.records = State.reset.windows.records ∧ t.windows.map = s.windows.map ∧
    items t = resetItems ∧ t.log = State.reset.log ∧ t.save = State.reset.save ∧
    t.transit.entries = [] ∧ t.transit.credits = 0 ∧ t.down = State.reset.down ∧ t.restore = State.reset.restore ∧
    t.notice.queue = [] ∧ t.notice.nextSequence = 0 ∧ t.notice.loss = 0 ∧ t.notice.counters = ⟨0, 0, 0, 0, 0, 0⟩ ∧
    t.notice.asserted = false ∧ t.mgmt = State.reset.mgmt ∧ t.pins = { s.pins with resetLow := true } ∧
    t.links = s.links ∧ t.now = s.now ∧ t.pending = s.pending

/-- R191, R84, R165: the rising edge of RESET_N grants 24 credits, restarts the quiet timer and leaves STARTING to the
sweep; R42, R4: the sweep's end sets every map entry to 0 and the controller to IDLE with its values. -/
def Obligations.ResetEndAndSweepComplete : Prop :=
  (∀ s : State, s.pins.resetLow = true → s.marks.state = .starting →
    exec .powerOnResetEnd s = .next { s with
      transit := { s.transit with credits := 24 }
      notice := { s.notice with quietStart := s.now }
      pins := { s.pins with resetLow := false } }) ∧
  (∀ s : State, Running s → s.marks.state = .starting →
    ∃ t, exec .mapSweepComplete s = .next t ∧ (∀ i, mapRead t.windows.map i = 0) ∧
      t = { s with
        windows := { s.windows with map := t.windows.map }
        marks := ⟨.idle, [], 1, .noAction, false, .noReason⟩ })

/-- R24: what a detected rising edge does, row by row of the rule's table: LINE_IGNORED with its reason, the line-origin
drain with every held entry pre-drain (R97), or the latch. R151: a drain that starts while a check runs abandons it: it
ends at once with CHECK_DONE, result ABANDONED, or goes on to the end of its record; a second request changes nothing.
R191, R23: the falling edge re-arms the pin and changes nothing else; a rising edge in STARTING or RESETTING is not
detected, and a line already high has none. -/
def Obligations.RollbackReqEdges : Prop :=
  (∀ s : State, Running s →
    exec .rollbackReqFallingEdge s = .next { s with pins := { s.pins with rollbackReq := false } } ∧
    (¬ Ready s → exec .rollbackReqRisingEdge s = .next { s with pins := { s.pins with rollbackReq := true } }) ∧
    (s.pins.rollbackReq = true → exec .rollbackReqRisingEdge s = .next s)) ∧
  ∀ s high drains : State, Running s → Ready s → s.pins.rollbackReq = false →
    high = { s with pins := { s.pins with rollbackReq := true } } →
    drains = { high with
      marks := { s.marks with state := .draining, action := .rollback s.mgmt.lineRollback.target .line }
      transit := { s.transit with entries := s.transit.entries.map fun e => { e with preDrain := true } } } →
    (s.mgmt.lineRollback.enable = false →
      exec .rollbackReqRisingEdge s = .next (takePost high (.lineIgnored .disabled) s.level)) ∧
    (s.mgmt.lineRollback.enable = true → s.marks.state = .idle →
      exec .rollbackReqRisingEdge s = .next (takePost high (.lineIgnored .noMark) s.level)) ∧
    (s.mgmt.lineRollback.enable = true → s.marks.state = .broken →
      exec .rollbackReqRisingEdge s = .next (takePost high (.lineIgnored .broken) s.level)) ∧
    (s.mgmt.lineRollback.enable = true → s.marks.state = .opened → s.level < s.mgmt.lineRollback.target →
      exec .rollbackReqRisingEdge s = .next (takePost high (.lineIgnored .level) s.level)) ∧
    (s.mgmt.lineRollback.enable = true → s.marks.state = .opened → s.mgmt.lineRollback.target ≤ s.level →
      (s.restore.state ≠ .checking ∨ s.restore.endRequest ≠ .noRequest →
        exec .rollbackReqRisingEdge s = .next drains) ∧
      (s.restore.state = .checking → s.restore.endRequest = .noRequest →
        (EndsAtOnce s.restore → exec .rollbackReqRisingEdge s = .next (takePost
          { drains with restore := idleEngine { s.restore with endRequest := .abandon } }
          (.checkDone s.restore.outcome .abandoned) s.level)) ∧
        (GoesOn s.restore → exec .rollbackReqRisingEdge s =
          .next { drains with restore := { s.restore with endRequest := .abandon } }))) ∧
    (s.mgmt.lineRollback.enable = true → s.marks.state = .draining ∨ s.marks.state = .rollingBack →
      exec .rollbackReqRisingEdge s = .next { high with marks := { s.marks with latch := true } })

/-- R160 and R161: a post that finds fewer than 32 records is stamped and appended, and NOTICE_N is brought up to date;
one that finds 32 is dropped and counted up to 255, and nothing else changes. -/
def Obligations.NoticePostAcceptedOrDropped : Prop :=
  ∀ (s : State) (kind : NoticeKind) (level : Nat),
    (s.notice.queue.length < 32 →
      ∃ t, takePost s kind level = { s with notice := t } ∧
        t.queue = s.notice.queue ++ [⟨kind, s.notice.nextSequence, s.notice.loss, level⟩] ∧
        t.loss = 0 ∧ t.nextSequence = (s.notice.nextSequence + 1) % 65536 ∧ t.quietStart = s.now ∧
        t.counters = s.notice.counters ∧
        (t.asserted = true ↔ s.mgmt.noticeTrigger ≤ s.notice.queue.length + 1)) ∧
    (32 ≤ s.notice.queue.length →
      takePost s kind level =
        { s with notice := { s.notice with loss := if s.notice.loss < 255 then s.notice.loss + 1 else 255 } })

/-- R184, R26, R104, R152, R153: SOFT_RESET is answered ACCEPTED, the controller enters RESETTING with the pending
action and the latch cleared, entries lose their mark numbers and pre-drain marks, and no notice is posted; an IDLE
engine stays so, a walk with no read of its record issued ends at once (a rollback hands over its walk offset), any
other goes on under an end request. R185: the quiesce is tested once at entry: what SOFT_RESET leaves is what
SOFT_RESET_QUIESCE_COMPLETE leaves of the state entered. -/
def Obligations.SoftResetEntersResetting : Prop :=
  ∀ (s : State) (f : Frame), Delivered s f 0 → ∃ t u,
    exec (.softReset f) s = .next u ∧ exec .softResetQuiesceComplete (replied t f 0 .accepted []) = .next u ∧
    t.marks = { s.marks with state := .resetting, action := .noAction, latch := false } ∧
    t.transit = { s.transit with
      entries := s.transit.entries.map fun e => { e with markNumber := none, preDrain := false } } ∧
    t.mgmt = { s.mgmt with resetPhase := .engines, stoppedWalk := t.mgmt.stoppedWalk } ∧
    t.windows = s.windows ∧ t.log = s.log ∧ t.save = s.save ∧ t.down = s.down ∧ t.notice = s.notice ∧
    t.links = s.links ∧ t.pins = s.pins ∧
    (s.restore.state = .idle → t.restore = s.restore ∧ t.mgmt.stoppedWalk = s.mgmt.stoppedWalk) ∧
    (s.restore.state = .restoring → EndsAtOnce s.restore →
      t.restore = idleEngine { s.restore with endRequest := .stop } ∧
      t.mgmt.stoppedWalk = some s.restore.position) ∧
    (s.restore.state = .restoring → GoesOn s.restore →
      t.restore = { s.restore with endRequest := .stop } ∧ t.mgmt.stoppedWalk = s.mgmt.stoppedWalk) ∧
    (s.restore.state = .checking → EndsAtOnce s.restore →
      t.restore = idleEngine { s.restore with endRequest := .abandonSilent } ∧
      t.mgmt.stoppedWalk = s.mgmt.stoppedWalk) ∧
    (s.restore.state = .checking → GoesOn s.restore →
      t.restore = { s.restore with endRequest := .abandonSilent } ∧ t.mgmt.stoppedWalk = s.mgmt.stoppedWalk)

/-- R185, R186, R188, R190: once every context is FREE and the engine IDLE, the quiesce completes: the release step makes
each WAIT_SAVE entry without a context FORWARDABLE and each WAIT_MARK entry FORWARDABLE as head of its map index, or
WAIT_ORDER behind an earlier entry (R105); then the blocks take their reset values, the granule map, the next mark
number, the transit entries, the tags, the credits, the rotation and the response buffer are kept, every context stands
cleared (R79), and a stopped walk's offset becomes the interruption report. Until then nothing changes. -/
def Obligations.QuiesceCompletesWithResetStep : Prop :=
  ∀ s : State, Running s → s.marks.state = .resetting →
    s.transit.entries.Pairwise (fun a b => a.order < b.order) →
    ((∀ c, s.context? c = none) → s.restore.state = .idle →
      ∃ t, exec .softResetQuiesceComplete s = .next t ∧
        t.marks = ⟨.idle, [], s.marks.nextNumber, .noAction, false, .noReason⟩ ∧
        (∀ w, t.window w = ⟨false, 0#40, 0#8, 0, 0, 0#6, 0#6⟩) ∧ t.windows.map = s.windows.map ∧
        items t = resetItems ∧ t.log.tail = 0 ∧ t.log.nextSequence = 0 ∧ t.log.crossed = false ∧
        (∀ c, ContextCleared (t.save.contexts[(c : ContextNo)])) ∧ t.save.waiting = [] ∧ t.save.fullBar = false ∧
        t.restore.state = .idle ∧ t.restore.step = .noStep ∧ t.restore.outstanding = 0 ∧
        t.notice = ⟨[], 0, 0, s.now, ⟨0, 0, 0, 0, 0, 0⟩, false⟩ ∧
        t.mgmt.resetPhase = .noPhase ∧ t.mgmt.buffer = s.mgmt.buffer ∧
        (∀ p, s.mgmt.stoppedWalk = some p → t.mgmt.interruption = some p) ∧
        (s.mgmt.stoppedWalk = none → t.mgmt.interruption = s.mgmt.interruption) ∧
        t.transit.entries.length = s.transit.entries.length ∧
        (∀ before e after, s.transit.entries = before ++ e :: after → t.transit.entries[before.length]? = some (
          if e.state = .waitSave ∧ e.hasContext = false then { e with state := .forwardable }
          else if e.state = .waitMark ∧ e.index? ≠ none then { e with
            markNumber := none
            state := if ∃ d ∈ before, d.index? = e.index? then .waitOrder else .forwardable }
          else e)) ∧
        t.transit.credits = s.transit.credits ∧ t.down = s.down ∧ t.links = s.links ∧ t.pins = s.pins) ∧
    ((∃ c, s.context? c ≠ none) ∨ s.restore.state ≠ .idle → exec .softResetQuiesceComplete s = .next s)

/-! ### The upstream port -/

/-- R35, with R28, R37 and R39: the line test comes first, then the log area with LOG_READER, then the window hit with
its map index, and what hits nothing is PASS. -/
def Obligations.ClassificationByFirstTest : Prop :=
  ∀ (s : State) (r : UpstreamRequest),
    (64 < r.address.toNat % 64 + r.length ∨ r.length = 0 → s.classify r = .denied .lineCrossing) ∧
    (r.address.toNat % 64 + r.length ≤ 64 → 1 ≤ r.length →
      (s.log.size ≠ 0 → s.log.base.toNat ≤ r.address.toNat → r.address.toNat < s.log.base.toNat + s.log.size →
        (r.kind = .read → s.windows.reader.enable = true →
          r.requester &&& s.windows.reader.reqMask = s.windows.reader.reqMatch &&& s.windows.reader.reqMask →
          s.classify r = .taken .logRead) ∧
        (r.kind ≠ .read ∨ s.windows.reader.enable = false ∨
          r.requester &&& s.windows.reader.reqMask ≠ s.windows.reader.reqMatch &&& s.windows.reader.reqMask →
          s.classify r = .denied .logArea)) ∧
      (s.log.size = 0 ∨ r.address.toNat < s.log.base.toNat ∨ s.log.base.toNat + s.log.size ≤ r.address.toNat →
        (∀ w g, (s.window w).enabled = true → Granule.ofCode (s.window w).code = some g →
          (s.window w).base.toNat ≤ r.address.toNat →
          r.address.toNat < (s.window w).base.toNat + (s.window w).count * g.bytes →
          r.requester &&& (s.window w).reqMask = (s.window w).reqMatch &&& (s.window w).reqMask →
          (∀ v, v ≠ w → s.hits v r = false) →
          s.classify r =
            .taken (.window w ((s.window w).mapOffset + (r.address.toNat - (s.window w).base.toNat) / g.bytes))) ∧
        ((∀ w, s.hits w r = false) → s.classify r = .taken .pass)))

/-- R85, R89: a request that finds 24 entries, and one classified DENIED, is answered DENIED at once, ACCESS_DENIED is
posted with its reason, REQUESTS_DENIED is incremented, and the buffer and the credits stay as they are. R86, R90: a
PASS or LOG_READ request joins the buffer FORWARDABLE in every controller state and spends one credit. -/
def Obligations.DeniedAndPassRequests : Prop :=
  ∀ (s : State) (r : UpstreamRequest), Running s →
    (24 ≤ s.transit.entries.length →
      exec (.upstreamRequest r) s = .next (takePost { s with
        links := { s.links with upstream := s.links.upstream ++ [⟨r.requester, r.tag, .denied, none⟩] }
        notice := { s.notice with
          counters := { s.notice.counters with requestsDenied := bump s.notice.counters.requestsDenied } } }
        (.accessDenied r.requester r.kind .noCredit r.address) s.level)) ∧
    (∀ reason, s.transit.entries.length < 24 → s.classify r = .denied reason →
      exec (.upstreamRequest r) s = .next (takePost { s with
        transit := { s.transit with nextOrder := s.transit.nextOrder + 1 }
        links := { s.links with upstream := s.links.upstream ++ [⟨r.requester, r.tag, .denied, none⟩] }
        notice := { s.notice with
          counters := { s.notice.counters with requestsDenied := bump s.notice.counters.requestsDenied } } }
        (.accessDenied r.requester r.kind reason r.address) s.level)) ∧
    (∀ cls, s.transit.entries.length < 24 → cls = .pass ∨ cls = .logRead → s.classify r = .taken cls →
      exec (.upstreamRequest r) s = .next { s with transit := {
        entries := s.transit.entries ++ [⟨s.transit.nextOrder, r, cls, none, .forwardable, false, false⟩]
        nextOrder := s.transit.nextOrder + 1
        credits := s.transit.credits - 1 } })

/-- R91, R93, R40, R95, R66: the first transit state of a WINDOW request: WAIT_MARK while the controller cannot settle
its mark, WAIT_ORDER behind an earlier entry of its map index, and as head WAIT_SAVE when it is a write whose map entry
is below the current mark number in OPEN, else FORWARDABLE. -/
def Obligations.WindowRequestTransitState : Prop :=
  ∀ (s : State) (r : UpstreamRequest) (w : WindowNo) (i : Nat) (mark : Option Nat),
    Running s → s.transit.entries.length < 24 → s.classify r = .taken (.window w i) →
    (∀ e ∈ s.transit.entries, e.order < s.transit.nextOrder) →
    mark = (if s.marks.state = .opened then s.currentMark else none) →
    ((s.marks.state = .draining ∨ s.marks.state = .rollingBack ∨
        (s.marks.state = .resetting ∧ s.restore.state = .restoring)) →
      exec (.upstreamRequest r) s = .next { s with transit := {
        entries := s.transit.entries ++ [⟨s.transit.nextOrder, r, .window w i, none, .waitMark, false, false⟩]
        nextOrder := s.transit.nextOrder + 1
        credits := s.transit.credits - 1 } }) ∧
    (s.marks.state ≠ .draining → s.marks.state ≠ .rollingBack →
      ¬ (s.marks.state = .resetting ∧ s.restore.state = .restoring) →
      ((∃ e ∈ s.transit.entries, e.index? = some i) →
        exec (.upstreamRequest r) s = .next { s with transit := {
          entries := s.transit.entries ++ [⟨s.transit.nextOrder, r, .window w i, mark, .waitOrder, false, false⟩]
          nextOrder := s.transit.nextOrder + 1
          credits := s.transit.credits - 1 } }) ∧
      ((∀ e ∈ s.transit.entries, e.index? ≠ some i) →
        (∀ n, r.kind ≠ .read → mark = some n → mapRead s.windows.map i < n →
          exec (.upstreamRequest r) s = .next { s with
            transit := {
              entries := s.transit.entries ++ [⟨s.transit.nextOrder, r, .window w i, mark, .waitSave, false, false⟩]
              nextOrder := s.transit.nextOrder + 1
              credits := s.transit.credits - 1 }
            save := { s.save with waiting := insertOrder s.save.waiting s.transit.nextOrder }
            notice := { s.notice with
              counters := { s.notice.counters with writesHeld := bump s.notice.counters.writesHeld } } }) ∧
        (r.kind = .read ∨ mark = none ∨ (∃ n, mark = some n ∧ n ≤ mapRead s.windows.map i) →
          exec (.upstreamRequest r) s = .next { s with transit := {
            entries := s.transit.entries ++ [⟨s.transit.nextOrder, r, .window w i, mark, .forwardable, false, false⟩]
            nextOrder := s.transit.nextOrder + 1
            credits := s.transit.credits - 1 } })))

/-! ### The save engine -/

/-- R67, R68, R56, R60: with a FREE context, OPEN or DRAINING and a clear bar, the oldest waiting write is given the
lowest-numbered FREE context and the slot at the tail; a reservation that crosses LOG_THRESHOLD sets the flag and posts
LOG_THRESHOLD with the tail after it. -/
def Obligations.SaveAllocationGranted : Prop :=
  ∀ (s : State) (o : Nat) (rest : List Nat) (e : TransitEntry) (w : WindowNo) (i n : Nat) (g : Granule) (c : ContextNo)
    (granted : State),
    Running s → s.marks.state = .opened ∨ s.marks.state = .draining → s.save.fullBar = false →
    s.save.waiting = o :: rest → s.entry? o = some e → e.cls = .window w i → e.markNumber = some n →
    Granule.ofCode (s.window w).code = some g → s.context? c = none → (∀ d, d < c → s.context? d ≠ none) →
    s.log.tail + (g.bytes + 64) ≤ s.log.size →
    granted = { s with
      save := { s.save with
        waiting := rest
        allocation := s.save.allocation ++ [c]
        contexts := s.save.contexts.set c {
          state := .copying, held := o, window := w, index := i
          granuleAddress := BitVec.ofNat 40 ((s.window w).base.toNat + (i - (s.window w).mapOffset) * g.bytes)
          granule := g, markNumber := n, level := s.levelOfMark n
          offset := s.log.tail, sequence := s.log.nextSequence, requester := e.request.requester
          linesIssued := 0, linesAcknowledged := 0, linesFolded := 0, lines := [], crc := 0xFFFFFFFF#32
          error := .noError, headerIssued := false } }
      log := { s.log with
        tail := s.log.tail + (g.bytes + 64)
        nextSequence := s.log.nextSequence + 1
        crossed := s.log.crossed || (s.log.threshold != 0 && s.log.tail < s.log.threshold &&
          s.log.threshold ≤ s.log.tail + (g.bytes + 64)) }
      transit := { s.transit with
        entries := s.transit.entries.map fun e => if e.order = o then { e with hasContext := true } else e } } →
    (s.log.threshold ≠ 0 → s.log.tail < s.log.threshold → s.log.threshold ≤ s.log.tail + (g.bytes + 64) →
      s.log.crossed = false →
      exec .saveAllocation s = .next (takePost granted (.logThreshold (s.log.tail + (g.bytes + 64))) s.level)) ∧
    (s.log.threshold = 0 ∨ s.log.threshold ≤ s.log.tail ∨ s.log.tail + (g.bytes + 64) < s.log.threshold ∨
      s.log.crossed = true → exec .saveAllocation s = .next granted)

/-- R59, R68, R96: under REFUSE a save that finds the log full leaves the log as it is, and the write is answered DENIED
and leaves the waiting list and the buffer (R88), with WRITE_REFUSED posted and REQUESTS_DENIED incremented. -/
def Obligations.LogFullRefusesTheWrite : Prop :=
  ∀ (s : State) (o : Nat) (rest : List Nat) (e : TransitEntry) (w : WindowNo) (i : Nat) (g : Granule) (c : ContextNo),
    Running s → s.marks.state = .opened ∨ s.marks.state = .draining → s.save.fullBar = false →
    s.save.waiting = o :: rest → s.entry? o = some e → e.cls = .window w i →
    Granule.ofCode (s.window w).code = some g → s.context? c = none →
    s.log.size < s.log.tail + (g.bytes + 64) → s.log.policy = .refuse →
    exec .saveAllocation s = .next (takePost (State.leave { s with
      save := { s.save with waiting := rest }
      links := { s.links with upstream := s.links.upstream ++ [⟨e.request.requester, e.request.tag, .denied, none⟩] }
      notice := { s.notice with
        counters := { s.notice.counters with requestsDenied := bump s.notice.counters.requestsDenied } } } o)
      (.writeRefused w e.request.requester e.request.address) s.level)

/-- R58, R20, R78, R100, R17, R151: under BREAK a save that finds the log full in OPEN or DRAINING breaks the marks: the
stack is emptied, the bar set, the waiting list released unsaved, the log left as it is, and LOG_BROKEN posted with reason
LOG_FULL, the tail and level 0; in DRAINING the pending action is dropped with MARK_COMMAND_DROPPED, a latched request
with LINE_IGNORED, reason BROKEN, and the held entries are re-classified. A running check is abandoned. -/
def Obligations.LogFullBreaksTheMarks : Prop :=
  ∀ (s : State) (o : Nat) (rest : List Nat) (e : TransitEntry) (w : WindowNo) (i : Nat) (g : Granule) (c : ContextNo),
    Running s → s.marks.state = .opened ∨ s.marks.state = .draining → s.save.fullBar = false →
    s.save.waiting = o :: rest → s.entry? o = some e → e.cls = .window w i →
    Granule.ofCode (s.window w).code = some g → s.context? c = none →
    s.log.size < s.log.tail + (g.bytes + 64) → s.log.policy = .breakMarks →
    BreakTaken { s with save := { s.save with fullBar := true } } .logFull (CommandLeaves s .saveAllocation)

/-! ### The downstream port -/

/-- R114, R117: what serving a source takes, and that the arbiter waits while no source can be served. -/
def Obligations.ArbiterServesAndWaits : Prop :=
  (∀ (s : State) (source : Source), s.canServe source = true ↔
    s.offerOf source ≠ none ∧ 1 ≤ s.down.credits ∧ (∃ t, s.tag t = .free) ∧
      (source = .passThrough → s.passThroughCount < 56)) ∧
  (∀ s : State, (∀ source, s.canServe source = false) → exec .arbiterGrant s = .next s) ∧
  (∀ s : State, Running s → s.canServe .passThrough = true → s.canServe .save = true → s.canServe .restore = true →
    ∀ source rest, s.down.rotation = source :: rest → source ∉ rest →
      ∃ t, exec .arbiterGrant s = .next t ∧ t.down.rotation = rest ++ [source])

/-- R101, R106, R112, R115, R116: a grant to pass-through issues the earliest FORWARDABLE entry with the fields the
fabric gave it under the lowest-numbered FREE tag, spends a credit, moves the source to the bottom of the rotation, and
the entry leaves the buffer (R88). -/
def Obligations.GrantIssuesPassThrough : Prop :=
  ∀ (s : State) (before after : List TransitEntry) (e : TransitEntry) (t : TagNo) (rest : List Source),
    GrantGoesTo s .passThrough t rest → s.passThroughCount < 56 →
    s.transit.entries = before ++ e :: after → (∀ d ∈ before, d.state ≠ .forwardable) → e.state = .forwardable →
    exec .arbiterGrant s = .next ((issuedAs s .passThrough t
      (.passThrough e.request.requester e.request.tag e.request.kind
        (decide (e.index? ≠ none ∧ e.request.kind ≠ .read)) e.request.length)
      ⟨t, e.request.requester, e.request.body, e.request.address, e.request.length⟩ rest).leave e.order)

/-- R88, R94, R93, R40: an entry that leaves returns its credit, and the next entry of its map index, if it is in
WAIT_ORDER, becomes head: WAIT_SAVE when it is a write that needs a save, else FORWARDABLE. -/
def Obligations.LeavingEntryPassesItsTurn : Prop :=
  ∀ (s left : State) (before after : List TransitEntry) (e : TransitEntry),
    s.transit.entries = before ++ e :: after → s.transit.entries.Pairwise (fun a b => a.order < b.order) →
    left = { s with transit := { s.transit with
      entries := before ++ after, credits := s.transit.credits + 1 } } →
    (e.index? = none → s.leave e.order = left) ∧
    (∀ i, e.index? = some i → (∀ d ∈ before ++ after, d.index? ≠ some i) → s.leave e.order = left) ∧
    (∀ i front d back, e.index? = some i → before ++ after = front ++ d :: back → d.index? = some i →
      (∀ x ∈ front, x.index? ≠ some i) →
      (d.state ≠ .waitOrder → s.leave e.order = left) ∧
      (∀ n, d.state = .waitOrder → d.request.kind ≠ .read → d.markNumber = some n → mapRead s.windows.map i < n →
        s.marks.state ≠ .broken → s.marks.state ≠ .resetting →
        s.leave e.order = { left with
          transit := { left.transit with entries := front ++ { d with state := .waitSave, hasContext := false } :: back }
          save := { s.save with waiting := insertOrder s.save.waiting d.order }
          notice := { s.notice with
            counters := { s.notice.counters with writesHeld := bump s.notice.counters.writesHeld } } }) ∧
      (d.state = .waitOrder →
        d.request.kind = .read ∨ d.markNumber = none ∨ (∃ n, d.markNumber = some n ∧ n ≤ mapRead s.windows.map i) ∨
          s.marks.state = .broken ∨ s.marks.state = .resetting →
        s.leave e.order = { left with
          transit := { left.transit with entries := front ++ { d with state := .forwardable } :: back } }))

/-- R69, R70, R72, R73, R77, R106, R116: a grant to the save engine issues the oldest-allocated context's ready step,
the lowest arrived line's data write first, then the next granule read, then the header write, each 64 bytes under
PART_REQUESTER_ID at its address, and the context notes it. R72, R73, R193: the header's 64 bytes, SAVED or VOID. -/
def Obligations.GrantIssuesSaveStep : Prop :=
  ∀ (s : State) (older younger : List ContextNo) (c : ContextNo) (x : SaveContext) (t : TagNo) (rest : List Source),
    GrantGoesTo s .save t rest → s.save.allocation = older ++ c :: younger →
    (∀ d ∈ older, ∀ y, s.context? d = some y → y.offer = none) → s.context? c = some x →
    (∀ bs j data f as, x.state = .copying → x.error = .noError → x.lines = bs ++ ⟨j, some data, .notIssued, f⟩ :: as →
      (∀ b ∈ bs ++ as, b.line ≠ j ∧ (b.data ≠ none → b.write = .notIssued → j < b.line)) →
      exec .arbiterGrant s = .next { (issuedAs s .save t (.save c (.dataWrite j))
          ⟨t, s.mgmt.partRequesterId, .write data (List.replicate 64 true),
            BitVec.ofNat 40 (s.log.base.toNat + x.offset + 64 * j), 64⟩ rest) with
        save := { s.save with contexts := s.save.contexts.set c { x with
          lines := bs ++ ⟨j, some data, .issued, f⟩ :: as } } }) ∧
    (x.state = .copying → x.error = .noError → (∀ b ∈ x.lines, b.data = none ∨ b.write ≠ .notIssued) →
      x.linesIssued < x.granule.bytes / 64 → x.lines.length < 4 →
      exec .arbiterGrant s = .next { (issuedAs s .save t (.save c (.granuleRead x.linesIssued))
          ⟨t, s.mgmt.partRequesterId, .read,
            BitVec.ofNat 40 (x.granuleAddress.toNat + 64 * x.linesIssued), 64⟩ rest) with
        save := { s.save with contexts := s.save.contexts.set c { x with
          linesIssued := x.linesIssued + 1, lines := x.lines ++ [⟨x.linesIssued, none, .notIssued, false⟩] } } }) ∧
    ((x.state = .finishing ∧ x.error = .noError) ∨ (x.state = .voiding ∧ x.error ∈ [.readError, .readTimeout]) →
      x.headerIssued = false →
      exec .arbiterGrant s = .next { (issuedAs s .save t (.save c .headerWrite)
          ⟨t, s.mgmt.partRequesterId, .write (headerBytes x) (List.replicate 64 true),
            BitVec.ofNat 40 (s.log.base.toNat + x.offset + x.granule.bytes), 64⟩ rest) with
        save := { s.save with contexts := s.save.contexts.set c { x with headerIssued := true } } }) ∧
    ((headerBytes x).length = 64 ∧ leField (headerBytes x) 0 4 = 0x7A3D5C11 ∧ byteAt (headerBytes x) 4 = 1#8 ∧
      byteAt (headerBytes x) 5 = (if x.state = .voiding then 2#8 else 1#8) ∧
      byteAt (headerBytes x) 6 = (match x.granule with
        | .g256 => 1#8
        | .g1k => 2#8
        | .g4k => 3#8) ∧
      byteAt (headerBytes x) 7 = BitVec.ofNat 8 x.window.val ∧
      (byteAt (headerBytes x) 8).toNat = x.requester.toNat ∧ byteAt (headerBytes x) 9 = BitVec.ofNat 8 x.level ∧
      Zeros (headerBytes x) 10 2 ∧ leField (headerBytes x) 12 4 = x.markNumber % 2 ^ 32 ∧
      leField (headerBytes x) 16 4 = x.sequence % 2 ^ 32 ∧ leField (headerBytes x) 20 5 = x.granuleAddress.toNat ∧
      Zeros (headerBytes x) 25 3 ∧
      leField (headerBytes x) 28 4 = (if x.state = .voiding then 0 else (~~~x.crc).toNat) ∧
      Zeros (headerBytes x) 32 28 ∧ leField (headerBytes x) 60 4 = crc32 ((headerBytes x).take 60))

/-- R131, R134, R135, R140, R106, R116: a grant to the restore engine issues the header read, the read of the lowest
data line not yet issued, or the write-back of the lowest line not yet issued, with fewer than 4 outstanding. -/
def Obligations.GrantIssuesRestoreStep : Prop :=
  ∀ (s : State) (t : TagNo) (rest : List Source),
    GrantGoesTo s .restore t rest → s.restore.state ≠ .idle → s.restore.outstanding < 4 →
    s.restore.recordFailed = false →
    (s.restore.step = .header → s.restore.headerIssued = false →
      exec .arbiterGrant s = .next { (issuedAs s .restore t (.restore .headerRead)
          ⟨t, s.mgmt.partRequesterId, .read, BitVec.ofNat 40 (s.log.base.toNat + s.restore.position - 64), 64⟩ rest) with
        restore := { s.restore with outstanding := s.restore.outstanding + 1, headerIssued := true } }) ∧
    (∀ r, s.restore.step = .data → s.restore.current = some r → s.restore.linesIssued < r.granule.bytes / 64 →
      exec .arbiterGrant s = .next { (issuedAs s .restore t (.restore (.dataRead s.restore.linesIssued))
          ⟨t, s.mgmt.partRequesterId, .read,
            BitVec.ofNat 40 (s.log.base.toNat + r.start + 64 * s.restore.linesIssued), 64⟩ rest) with
        restore := { s.restore with
          outstanding := s.restore.outstanding + 1, linesIssued := s.restore.linesIssued + 1 } }) ∧
    (∀ r data, s.restore.step = .writeBack → s.restore.current = some r →
      s.restore.linesIssued < r.granule.bytes / 64 → s.restore.buffer.lookup s.restore.linesIssued = some data →
      exec .arbiterGrant s = .next { (issuedAs s .restore t (.restore (.writeBack s.restore.linesIssued))
          ⟨t, s.mgmt.partRequesterId, .write data (List.replicate 64 true),
            BitVec.ofNat 40 (r.granuleAddress.toNat + 64 * s.restore.linesIssued), 64⟩ rest) with
        restore := { s.restore with
          outstanding := s.restore.outstanding + 1, linesIssued := s.restore.linesIssued + 1 } })

/-- R109: a returned credit raises the counter, which stays at 255. R124: a STALE tag whose stale period has passed
becomes FREE in silence; before that, and in any other state of the tag, nothing changes. -/
def Obligations.CreditReturnAndStaleExpiry : Prop :=
  ∀ s : State, Running s →
    (s.down.credits < 255 → exec .downstreamCreditReturn s = .next { s with
      down := { s.down with credits := s.down.credits + 1 } }) ∧
    (255 ≤ s.down.credits → exec .downstreamCreditReturn s = .next s) ∧
    ∀ t : TagNo,
      (∀ r, s.tag t = .stale r → 4 * r.timeout ≤ s.now - r.issueTime →
        exec (.stalePeriodExpiry t) s = .next (tagFreed s t)) ∧
      ((∀ r, s.tag t = .stale r → s.now - r.issueTime < 4 * r.timeout) → exec (.stalePeriodExpiry t) s = .next s)

/-- R118, R102, R107: a response to a pass-through request frees its tag and is answered upstream: OK with a READ's data
shaped to the request's length, with an ATOMIC's data as it came, and without data for a WRITE; ERROR as MEM_ERROR
without data. -/
def Obligations.PassThroughResponseAnswered : Prop :=
  ∀ (s : State) (t : TagNo) (r : TagRecord) (requester : RequesterId) (tag : UpstreamTag) (kind : RequestKind)
    (windowWrite : Bool) (length : Nat) (data : Option (List Byte)) (answered : LinkStatus → UpstreamResponse → Prop),
    Running s → s.tag t = .inUse r → r.origin = .passThrough requester tag kind windowWrite length →
    (answered = fun status response => exec (.downstreamResponse t status data) s = .next { (tagFreed s t) with
      links := { s.links with upstream := s.links.upstream ++ [response] } }) →
    answered .error ⟨requester, tag, .memError, none⟩ ∧
    (kind = .write → answered .ok ⟨requester, tag, .ok, none⟩) ∧
    (kind = .atomic → answered .ok ⟨requester, tag, .ok, data⟩) ∧
    (∀ d, kind = .read → data = some d → length ≤ d.length →
      answered .ok ⟨requester, tag, .ok, some (d.take length)⟩) ∧
    (∀ d, kind = .read → data = some d → d.length ≤ length →
      answered .ok ⟨requester, tag, .ok, some (d ++ List.replicate (length - d.length) 0x00#8)⟩) ∧
    (kind = .read → data = none → answered .ok ⟨requester, tag, .ok, some (List.replicate length 0x00#8)⟩)

/-- R120, R121: a response for a STALE tag frees it and posts LATE_RESPONSE; one for a FREE tag posts STRAY_RESPONSE;
both are discarded, whatever their status and data. -/
def Obligations.LateAndStrayResponses : Prop :=
  ∀ (s : State) (t : TagNo) (status : LinkStatus) (data : Option (List Byte)), Running s →
    (∀ r, s.tag t = .stale r →
      exec (.downstreamResponse t status data) s = .next (takePost (tagFreed s t) (.lateResponse t) s.level)) ∧
    (s.tag t = .free →
      exec (.downstreamResponse t status data) s = .next (takePost s (.strayResponse t) s.level))

/-- R123: once its timeout in force, if not 0, has passed since issue, an IN_USE tag is STALE, its origin takes the
failure, RESPONSES_TIMED_OUT is incremented and RESPONSE_TIMEOUT posted. A pass-through request is answered MEM_ERROR
without data. A save's granule read fails with READ_TIMEOUT (R73), or ends without effect of its own in a context that
waits after a failure (R76); that VOIDING begins with no line buffered is the model's choice (log 28). A save's data or
header write fails with LOG_WRITE_TIMEOUT as LogWriteFails says (R75, R20, R148, R151; the freed context's values are log
10's choice, the order of an abandon request and a FREE report log 19's); after a log write failure nothing further
changes until the last request frees the context. A restore request fails as a response ERROR does (R131, R136, R151 to
R153; that a stop met under an end request is recorded is log 20's reading, the expected sequence below 0 log 30's
choice). Where the report completes the quiesce, the increment and the post come before the reset step or after it (R163,
R170, R185, log 8). R122: with a timeout of 0, or
before it has passed, and for a tag not IN_USE, nothing changes. -/
def Obligations.TagTimeouts : Prop :=
  ∀ (s : State) (t : TagNo), Running s →
    ((∀ r, s.tag t = .inUse r → r.timeout = 0 ∨ s.now - r.issueTime < r.timeout) → exec (.tagTimeout t) s = .next s) ∧
    ∀ (r : TagRecord) (stale : State) (counted : State → State), s.tag t = .inUse r → r.timeout ≠ 0 →
    r.timeout ≤ s.now - r.issueTime →
    stale = { s with down := { s.down with tags := s.down.tags.set t (.stale r) } } →
    (counted = fun u => { u with notice := { u.notice with
      counters := { u.notice.counters with responsesTimedOut := bump u.notice.counters.responsesTimedOut } } }) →
    (∀ requester tag kind windowWrite length, r.origin = .passThrough requester tag kind windowWrite length →
      exec (.tagTimeout t) s = .next (takePost (counted { stale with
        links := { s.links with upstream := s.links.upstream ++ [⟨requester, tag, .memError, none⟩] } })
        (.responseTimeout .passThrough r.address) s.level)) ∧
    (∀ c x step (last : Bool) (becomes : SaveContext → Prop), r.origin = .save c step → s.context? c = some x →
      (last = true ↔ LastRequest s t c) →
      (becomes = fun y => TimeoutLeaves s t .save r.address
        { stale with save := { s.save with contexts := s.save.contexts.set c y } } [] []) →
      (∀ j, step = .granuleRead j → x.state = .copying →
        (x.error = .noError → becomes (if last
          then { x with error := .readTimeout, state := .voiding, headerIssued := false, lines := [] }
          else { x with
            error := .readTimeout
            lines := x.lines.filter fun b => !(b.data.isSome && b.write == .notIssued) })) ∧
        (x.error ∈ [.readError, .readTimeout] → becomes (if last
          then { x with state := .voiding, headerIssued := false, lines := [] } else x))) ∧
      ((∀ j, step ≠ .granuleRead j) → x.error ∈ [.noError, .readError, .readTimeout] →
        LogWriteFails s stale c x .writeTimeout .logWriteTimeout last (TimeoutLeaves s t .save r.address)) ∧
      (x.error ∈ [.writeError, .writeTimeout] → ∀ engine, FreeReported s c engine → TimeoutLeaves s t .save r.address
        (if last then contextFreed stale c x.held engine else stale) [] [])) ∧
    (∀ (step : RestoreStep) (e : RestoreEngine), r.origin = .restore step → s.restore.state ≠ .idle →
      e = { s.restore with outstanding := s.restore.outstanding - 1 } →
      (step = .headerRead → s.restore.step = .header →
        WalkEnds stale (stoppedEngine e) (TimeoutLeaves s t .restore r.address)) ∧
      (∀ j record, (step = .dataRead j ∧ s.restore.step = .data) ∨ (step = .writeBack j ∧ s.restore.step = .writeBack) →
        s.restore.current = some record →
        RecordFails stale { e with linesEnded := s.restore.linesEnded + 1 } record
          (TimeoutLeaves s t .restore r.address))) ∧
    (∀ step, r.origin = .restore step → s.restore.endRequest = .noRequest → ∃ u,
      exec (.downstreamResponse t .error none) s = .next u ∧ exec (.tagTimeout t) s = .next (takePost
        (counted { u with down := { u.down with tags := s.down.tags.set t (.stale r) } })
        (.responseTimeout .restore r.address) s.level))

/-! ### Saves in progress -/

/-- R70, R71, R73, R76: a granule line that returns in order is buffered and folded, and with it the lines that waited for
it; one that returns ahead of a lower line waits in its buffer. An acknowledged data write is counted, its line leaves
flight once folded, and the last one moves the context to FINISHING. A read that fails with nothing else outstanding moves
it to VOIDING; with other requests outstanding it first waits for them, dropping data not written. A read that ends
meanwhile changes nothing further, a data write acknowledged meanwhile is counted, and the last of them moves the context
to VOIDING. That VOIDING begins with no line buffered is the model's choice (log 28). What ends in a context that failed a
log write is in LogWriteErrorBreaksTheMarks. -/
def Obligations.SaveContextProgress : Prop :=
  ∀ (s : State) (t : TagNo) (r : TagRecord) (c : ContextNo) (x : SaveContext) (step : SaveStep)
    (becomes : SaveContext → State) (last : Prop),
    Running s → s.tag t = .inUse r → r.origin = .save c step → s.context? c = some x → x.state = .copying →
    (becomes = fun y => { (tagFreed s t) with save := { s.save with contexts := s.save.contexts.set c y } }) →
    last = LastRequest s t c →
    (x.error = .noError → ∀ bs j as line, step = .granuleRead j → x.lines = bs ++ ⟨j, none, .notIssued, false⟩ :: as →
      (∀ b ∈ bs ++ as, b.line ≠ j ∧ (b.write = .acknowledged → b.folded = false)) → line.length = 64 →
      (∀ waiting : List LineBuffer, j = x.linesFolded → (x.lines.map (·.line)).Nodup →
        (∀ i b, waiting[i]? = some b → b ∈ bs ++ as ∧ b.line = j + 1 + i ∧ b.data ≠ none ∧ b.folded = false) →
        (∀ b ∈ bs ++ as, b.line = j + 1 + waiting.length → b.data = none) →
        exec (.downstreamResponse t .ok (some line)) s = .next (becomes { x with
          crc := crc32Fold x.crc (line ++ waiting.flatMap fun b => b.data.getD [])
          linesFolded := j + 1 + waiting.length
          lines := ((bs ++ ⟨j, some line, .notIssued, false⟩ :: as).map fun b =>
            if j ≤ b.line ∧ b.line ≤ j + waiting.length then { b with folded := true } else b).filter fun b =>
              !(b.write == .acknowledged && b.folded) })) ∧
      (x.linesFolded < j → (∀ b ∈ bs ++ as, b.line ≠ x.linesFolded ∨ b.data = none) →
        exec (.downstreamResponse t .ok (some line)) s = .next (becomes { x with
          lines := bs ++ ⟨j, some line, .notIssued, false⟩ :: as }))) ∧
    (x.error = .noError → ∀ bs j d f as data, step = .dataWrite j → x.lines = bs ++ ⟨j, some d, .issued, f⟩ :: as →
      (∀ b ∈ bs ++ as, b.line ≠ j ∧ (b.write = .acknowledged → b.folded = false)) →
      exec (.downstreamResponse t .ok data) s = .next (becomes { x with
        linesAcknowledged := x.linesAcknowledged + 1
        lines := if f then bs ++ as else bs ++ ⟨j, some d, .acknowledged, false⟩ :: as
        state := if x.linesAcknowledged + 1 = x.granule.bytes / 64 then .finishing else .copying })) ∧
    (x.error = .noError → ∀ j data, step = .granuleRead j →
      (last → exec (.downstreamResponse t .error data) s = .next (becomes { x with
        error := .readError, state := .voiding, headerIssued := false, lines := [] })) ∧
      (¬ last → exec (.downstreamResponse t .error data) s = .next (becomes { x with
        error := .readError
        lines := x.lines.filter fun b => !(b.data.isSome && b.write == .notIssued) }))) ∧
    (x.error = .readError ∨ x.error = .readTimeout → ∀ j status data, step = .granuleRead j →
      (last → exec (.downstreamResponse t status data) s = .next (becomes { x with
        state := .voiding, headerIssued := false, lines := [] })) ∧
      (¬ last → exec (.downstreamResponse t status data) s = .next (becomes x))) ∧
    (x.error = .readError ∨ x.error = .readTimeout → ∀ bs j d f as data,
      step = .dataWrite j → x.lines = bs ++ ⟨j, some d, .issued, f⟩ :: as →
      (∀ b ∈ bs ++ as, b.line ≠ j ∧ (b.write = .acknowledged → b.folded = false)) →
      (last → exec (.downstreamResponse t .ok data) s = .next (becomes { x with
        linesAcknowledged := x.linesAcknowledged + 1, state := .voiding, headerIssued := false, lines := [] })) ∧
      (¬ last → exec (.downstreamResponse t .ok data) s = .next (becomes { x with
        linesAcknowledged := x.linesAcknowledged + 1
        lines := if f then bs ++ as else bs ++ ⟨j, some d, .acknowledged, false⟩ :: as })))

/-- R72: the acknowledged SAVED header sets the map entry to the mark number, counts SAVES_COMPLETED, frees the context
and makes the held write FORWARDABLE, in every controller state. R41: setting an entry changes no other one. R74: the
acknowledged VOID header posts SAVE_FAILED, counts SAVES_FAILED and frees the context (whose other fields, which then hold
no meaning, take their reset values by the model's choice, log 10); the held write is answered MEM_ERROR and leaves in
OPEN and DRAINING, and is made FORWARDABLE in BROKEN and RESETTING. R148: a check that waits for a slot goes on to its
header once no other busy context holds it. R185: in RESETTING the quiesce is completed where the FREE report completes
it: what the response leaves is what SOFT_RESET_QUIESCE_COMPLETE leaves. -/
def Obligations.AcknowledgedHeaderEndsTheSave : Prop :=
  (∀ (map : GranuleMap) (i v : Nat), mapWf map = true →
    ∀ j, mapRead (mapWrite map i v) j = if j = i then v else mapRead map j) ∧
  ∀ (s freed : State) (t : TagNo) (r : TagRecord) (c : ContextNo) (x : SaveContext) (data : Option (List Byte))
    (released : List TransitEntry) (engine : RestoreEngine) (becomes : State → Prop),
    Running s → s.tag t = .inUse r → r.origin = .save c .headerWrite → s.context? c = some x →
    FreeReported s c engine →
    freed = { (tagFreed s t) with
      save := { s.save with
        contexts := s.save.contexts.set c SaveContext.reset, allocation := s.save.allocation.erase c }
      restore := engine } →
    (released = s.transit.entries.map fun e =>
      if e.order = x.held then { e with state := .forwardable, hasContext := false } else e) →
    (becomes = fun u =>
      (s.marks.state ≠ .resetting → exec (.downstreamResponse t .ok data) s = .next u) ∧
      exec (.downstreamResponse t .ok data) s = exec .softResetQuiesceComplete u) →
    (x.state = .finishing → x.error = .noError →
      becomes { freed with
        windows := { s.windows with map := mapWrite s.windows.map x.index x.markNumber }
        notice := { s.notice with
          counters := { s.notice.counters with savesCompleted := bump s.notice.counters.savesCompleted } }
        transit := { s.transit with entries := released } }) ∧
    (∀ e reason failed, s.entry? x.held = some e → x.state = .voiding →
      (x.error = .readError ∧ reason = .readError) ∨ (x.error = .readTimeout ∧ reason = .readTimeout) →
      failed = { freed with notice := { s.notice with
        counters := { s.notice.counters with savesFailed := bump s.notice.counters.savesFailed } } } →
      (s.marks.state = .opened ∨ s.marks.state = .draining →
        becomes (takePost
          (State.leave { failed with links := { s.links with
            upstream := s.links.upstream ++ [⟨e.request.requester, e.request.tag, .memError, none⟩] } } x.held)
          (.saveFailed x.window x.requester reason e.request.address) s.level)) ∧
      (s.marks.state = .broken ∨ s.marks.state = .resetting →
        becomes (takePost
          { failed with transit := { s.transit with entries := released } }
          (.saveFailed x.window x.requester reason e.request.address) s.level)))

/-- R75, R20, R78, R21, R17, R151: a record data write or header write answered ERROR breaks open marks with
LOG_WRITE_ERROR, from DRAINING as from OPEN; the context becomes FREE once none of its requests is outstanding, and its
held write is made FORWARDABLE. In BROKEN and RESETTING the break report changes nothing and nothing is posted; in
RESETTING the quiesce is completed where the FREE report completes it (R185). R75, R76: whatever ends in a context that has
failed a log write changes nothing further, and the last of it frees the context and makes its held write FORWARDABLE. The
model's own in it: the freed context's values (log 10), and that where a check waits for the slot of the context that failed,
the order of the abandon request and the FREE report is a free choice made at the break report, the check going on waiting
in the second order under its end request and standing under it at the slot's header once the context is FREE (R148, log
19). -/
def Obligations.LogWriteErrorBreaksTheMarks : Prop :=
  ∀ (s : State) (t : TagNo) (r : TagRecord) (c : ContextNo) (x : SaveContext) (step : SaveStep)
    (data : Option (List Byte)) (last : Bool),
    Running s → s.tag t = .inUse r → r.origin = .save c step → s.context? c = some x →
    (last = true ↔ LastRequest s t c) →
    ((∀ j, step ≠ .granuleRead j) → x.error ∈ [.noError, .readError, .readTimeout] →
      LogWriteFails s (tagFreed s t) c x .writeError .logWriteError last (ResponseLeaves s t .error data)) ∧
    (x.error ∈ [.writeError, .writeTimeout] → ∀ status engine, FreeReported s c engine →
      ResponseLeaves s t status data
        (if last then contextFreed (tagFreed s t) c x.held engine else tagFreed s t) [] [])

/-! ### Walks -/

/-- R132: a header verifies exactly when all nine tests hold, and the current record is then taken from it. R131, R142: a
header that does not verify, and a header read answered ERROR, stops the walk at its walk position. R134: a verified SAVED
header leads to its data; R133: a verified VOID header finishes its record at once, as skipped. R151 to R153, R185: under
an end request the walk ends then, and the quiesce is completed where the IDLE report completes it. That a stop of R130
met under an end request is recorded in the outcome is the model's reading (log 20), and that the expected sequence stays 0
below the record of sequence 0 its choice (log 30). -/
def Obligations.HeaderVerification : Prop :=
  (∀ (s : State) (bytes : Line) (r : CurrentRecord), s.verifyHeader bytes = some r ↔
    leField bytes 0 4 = 0x7A3D5C11 ∧ byteAt bytes 4 = 1#8 ∧ leField bytes 60 4 = crc32 (bytes.take 60) ∧
    leField bytes 16 4 = s.restore.expected ∧
    ((byteAt bytes 5 = 1#8 ∧ r.kind = .saved) ∨ (byteAt bytes 5 = 2#8 ∧ r.kind = .void)) ∧
    Granule.ofCode (byteAt bytes 6) = some r.granule ∧
    s.restore.lowerBound + 64 + r.granule.bytes ≤ s.restore.position ∧
    s.restore.lowerMark ≤ leField bytes 12 4 ∧ leField bytes 12 4 ≤ s.restore.lastIssued ∧
    (byteAt bytes 7).toNat = r.window.val ∧ (s.window r.window).enabled = true ∧
    Granule.ofCode (s.window r.window).code = some r.granule ∧
    (s.window r.window).base.toNat ≤ leField bytes 20 5 ∧ leField bytes 20 5 < (s.window r.window).rangeEnd ∧
    leField bytes 20 5 % r.granule.bytes = 0 ∧
    r.start = s.restore.position - 64 - r.granule.bytes ∧ r.granuleAddress = BitVec.ofNat 40 (leField bytes 20 5) ∧
    r.index = (s.window r.window).mapOffset + (leField bytes 20 5 - (s.window r.window).base.toNat) / r.granule.bytes ∧
    r.dataCheck = leField bytes 28 4) ∧
  ∀ (s : State) (t : TagNo) (r : TagRecord) (bytes : Line) (data : Option (List Byte)) (e : RestoreEngine),
    Running s → s.tag t = .inUse r →
    r.origin = .restore .headerRead → s.restore.state ≠ .idle → s.restore.step = .header → bytes.length = 64 →
    e = { s.restore with outstanding := s.restore.outstanding - 1 } →
    (s.verifyHeader bytes = none →
      WalkEnds (tagFreed s t) (stoppedEngine e) (ResponseLeaves s t .ok (some bytes))) ∧
    WalkEnds (tagFreed s t) (stoppedEngine e) (ResponseLeaves s t .error data) ∧
    (∀ record, s.verifyHeader bytes = some record → record.kind = .saved →
      exec (.downstreamResponse t .ok (some bytes)) s = .next { (tagFreed s t) with restore := { e with
        step := .data, current := some record, buffer := []
        linesIssued := 0, linesEnded := 0, recordFailed := false } }) ∧
    (∀ record, s.verifyHeader bytes = some record → record.kind = .void →
      RecordFinished (tagFreed s t) e record.start
        { s.restore.outcome with skipped := s.restore.outcome.skipped + 1 } (ResponseLeaves s t .ok (some bytes)))

/-- R134: a data line that returns OK is put in the record buffer, and the last one leads to the data check over the
buffer in line order: equal, the record is written back in RESTORING and counted good in CHECKING; not equal, it is counted
failed, with the first failure offset if none is recorded. R135: the last write-back acknowledged OK clears the record's
map entry and counts RECORDS_RESTORED and the record as good. R136: a request that ends with ERROR fails the record, which
waits for those outstanding, whatever they end with, and is then counted failed. R139, R130, R151 to R153: the walk then
steps on, ends or stops, and the quiesce is completed where the IDLE report completes it (R185); that a stop of R130 met
under an end request is recorded in the outcome is the model's reading (log 20), and the expected sequence below the record of
sequence 0 its choice (log 30). R41: clearing a map entry changes no
other one. -/
def Obligations.RecordsAreReadRestoredAndFinished : Prop :=
  (∀ (map : GranuleMap) (i : Nat), mapWf map = true →
    ∀ j, mapRead (mapWrite map i 0) j = if j = i then 0 else mapRead map j) ∧
  ∀ (s : State) (t : TagNo) (r : TagRecord) (j : Nat) (record : CurrentRecord) (data : Option (List Byte)) (line : Line)
    (e : RestoreEngine) (failed : WalkOutcome) (isRead : Prop) (finishes : LinkStatus → Option (List Byte) → State →
      RestoreEngine → WalkOutcome → Prop),
    Running s → s.tag t = .inUse r → s.restore.state ≠ .idle → s.restore.current = some record →
    (r.origin = .restore (.dataRead j) ∧ s.restore.step = .data ∧ isRead = True) ∨
      (r.origin = .restore (.writeBack j) ∧ s.restore.step = .writeBack ∧ isRead = False) →
    line.length = 64 →
    e = { s.restore with outstanding := s.restore.outstanding - 1, linesEnded := s.restore.linesEnded + 1 } →
    failed = { s.restore.outcome with
      failed := s.restore.outcome.failed + 1
      firstFailure := some (s.restore.outcome.firstFailure.getD record.start) } →
    (finishes = fun status data v engine outcome =>
      RecordFinished v engine record.start outcome (ResponseLeaves s t status data)) →
    (isRead → s.restore.recordFailed = false →
      (e.linesEnded ≠ record.granule.bytes / 64 → exec (.downstreamResponse t .ok (some line)) s =
        .next { (tagFreed s t) with restore := { e with buffer := s.restore.buffer ++ [(j, line)] } }) ∧
      (e.linesEnded = record.granule.bytes / 64 → ∀ content,
        content = (List.range (record.granule.bytes / 64)).flatMap (fun k =>
          ((s.restore.buffer ++ [(j, line)]).lookup k).getD []) →
        (crc32 content = record.dataCheck →
          (s.restore.state = .restoring → exec (.downstreamResponse t .ok (some line)) s =
            .next { (tagFreed s t) with restore := { e with
              buffer := s.restore.buffer ++ [(j, line)], step := .writeBack, linesIssued := 0, linesEnded := 0 } }) ∧
          (s.restore.state = .checking → finishes .ok (some line) (tagFreed s t) e
            { s.restore.outcome with good := s.restore.outcome.good + 1 })) ∧
        (crc32 content ≠ record.dataCheck → finishes .ok (some line) (tagFreed s t) e failed))) ∧
    (¬ isRead → s.restore.recordFailed = false →
      (e.linesEnded ≠ record.granule.bytes / 64 →
        exec (.downstreamResponse t .ok data) s = .next { (tagFreed s t) with restore := e }) ∧
      (e.linesEnded = record.granule.bytes / 64 → finishes .ok data { (tagFreed s t) with
        windows := { s.windows with map := mapWrite s.windows.map record.index 0 }
        notice := { s.notice with
          counters := { s.notice.counters with recordsRestored := bump s.notice.counters.recordsRestored } } } e
        { s.restore.outcome with good := s.restore.outcome.good + 1 })) ∧
    ∀ status, status = .error ∨ s.restore.recordFailed = true →
      RecordFails (tagFreed s t) e record (ResponseLeaves s t status data)

/-! ### Mark actions and the ends of walks -/

/-- R13, R17, R25: at the end of its drain an OPEN pushes a mark with the next number, the pending label, the tail and
the next sequence number, the controller enters OPEN and the held entries are re-classified; a latched request is then
handled as a rising edge in OPEN. -/
def Obligations.OpenTakesEffect : Prop :=
  ∀ (s : State) (label : Label), Running s → DrainClear s → s.marks.action = .openMark label →
    ∃ t, exec .openTakesEffect s = .next t ∧ LatchTaken (State.reclassifyAll { s with marks := { s.marks with
      state := .opened
      stack := s.marks.stack ++ [⟨s.level + 1, s.marks.nextNumber, label, s.log.tail, s.log.nextSequence⟩]
      nextNumber := s.marks.nextNumber + 1
      action := .noAction } }) t [] s.level

/-- R14, R15, R62, R17, R25: at the end of its drain a RELEASE at level 2 to 4 pops the innermost mark and the controller
enters OPEN; a COMMIT, or a RELEASE at level 1, empties the stack and the log and the controller enters IDLE. The held
entries are then re-classified, and a latched request is handled as a rising edge in OPEN, or dropped with LINE_IGNORED,
reason NO_MARK, in IDLE. -/
def Obligations.ReleaseAndCommitTakeEffect : Prop :=
  ∀ (s popped committed : State), Running s → DrainClear s →
    popped = State.reclassifyAll { s with marks := { s.marks with
      state := .opened, stack := s.marks.stack.dropLast, action := .noAction } } →
    committed = State.reclassifyAll { s with
      marks := { s.marks with state := .idle, stack := [], action := .noAction }
      log := { s.log with tail := 0, nextSequence := 0, crossed := false } } →
    (s.marks.action = .releaseMark → 2 ≤ s.level →
      ∃ t, exec .releaseTakesEffect s = .next t ∧ LatchTaken popped t [] s.level) ∧
    (s.marks.action = .releaseMark → s.level = 1 →
      ∃ t, exec .releaseTakesEffect s = .next t ∧ LatchTaken committed t [] s.level) ∧
    (s.marks.action = .commit → ∃ t, exec .commitTakesEffect s = .next t ∧ LatchTaken committed t [] s.level)

/-- R99, R40, R91: a WAIT_MARK entry classified afresh takes the current mark number in OPEN, or none, and goes behind
an earlier entry of its map index, to WAIT_SAVE when it is a write that needs a save, or to FORWARDABLE. R17, R99: every
WAIT_MARK entry is classified afresh, one at a time in arrival order, and no other entry changes. R66: the write that
enters WAIT_SAVE joins the waiting list, the others keep their places, and a list in arrival order stays so. -/
def Obligations.HeldEntryReclassified : Prop :=
  (∀ (waiting : List Nat) (order : Nat), (insertOrder waiting order).Perm (order :: waiting) ∧
    waiting.Sublist (insertOrder waiting order) ∧
    (waiting.Pairwise (· < ·) → order ∉ waiting → (insertOrder waiting order).Pairwise (· < ·))) ∧
  ∀ (s : State) (front back : List TransitEntry) (e : TransitEntry) (w : WindowNo) (i : Nat) (mark : Option Nat),
    s.transit.entries = front ++ e :: back → s.transit.entries.Pairwise (fun a b => a.order < b.order) →
    e.cls = .window w i → mark = (if s.marks.state = .opened then s.currentMark else none) →
    ((∃ d ∈ front, d.index? = some i) →
      s.reclassify e = { s with transit := { s.transit with
        entries := front ++ { e with markNumber := mark, state := .waitOrder } :: back } }) ∧
    ((∀ d ∈ front, d.index? ≠ some i) →
      (∀ n, e.request.kind ≠ .read → mark = some n → mapRead s.windows.map i < n →
        s.reclassify e = { s with
          transit := { s.transit with
            entries := front ++ { e with markNumber := mark, state := .waitSave, hasContext := false } :: back }
          save := { s.save with waiting := insertOrder s.save.waiting e.order }
          notice := { s.notice with
            counters := { s.notice.counters with writesHeld := bump s.notice.counters.writesHeld } } }) ∧
      (e.request.kind = .read ∨ mark = none ∨ (∃ n, mark = some n ∧ n ≤ mapRead s.windows.map i) →
        s.reclassify e = { s with transit := { s.transit with
          entries := front ++ { e with markNumber := mark, state := .forwardable } :: back } })) ∧
    (e.state = .waitMark → (∀ d ∈ front, d.state ≠ .waitMark) →
      s.reclassifyAll = (s.reclassify e).reclassifyAll) ∧
    ((∀ d ∈ s.transit.entries, d.state ≠ .waitMark) → s.reclassifyAll = s) ∧
    ∃ d, s.reclassifyAll.transit.entries[front.length]? = some d ∧ (e.state ≠ .waitMark → d = e) ∧
      (e.state = .waitMark → d.state ≠ .waitMark)

/-- R16, R129, R130, R131: at the end of its drain a ROLLBACK hands mark k's values, the tail, the next sequence number
and the last issued number to the restore engine, which begins the walk: complete at once over an empty span, else with
the header of the newest record. The stack and the latch stay as they are. That the expected sequence is 0 where the next
sequence number is 0 is the model's choice (log 30). -/
def Obligations.RollbackTakesEffect : Prop :=
  ∀ (s : State) (k : Nat) (origin : Origin) (m : MarkRecord) (walking : RestoreEngine → State),
    Running s → RollbackDrainClear s origin → s.marks.action = .rollback k origin → 1 ≤ k →
    s.marks.stack[k - 1]? = some m →
    (walking = fun engine => { s with
      marks := { s.marks with state := .rollingBack, action := .noAction }, restore := engine }) →
    (m.startOffset = s.log.tail → m.firstSequence = s.log.nextSequence →
      exec .rollbackTakesEffect s = .next (walking (walkBegun s .restoring origin k m 0 .noStep))) ∧
    (m.startOffset < s.log.tail → m.firstSequence < s.log.nextSequence →
      exec .rollbackTakesEffect s =
        .next (walking (walkBegun s .restoring origin k m (s.log.nextSequence - m.firstSequence) .header)))

/-- R142, R18, R61, R17, R25: a rollback walk that ended complete with no failed record truncates the log to mark k,
removes the marks above it, enters OPEN and posts ROLLBACK_DONE with the outcome; the held entries are re-classified, and
a latched request is then handled as a rising edge in OPEN. -/
def Obligations.CompleteRollbackOutcome : Prop :=
  ∀ (s : State) (m : MarkRecord), Running s → s.marks.state = .rollingBack → s.restore.state = .restoring →
    WalkOver s.restore → s.restore.outcome.failed = 0 → s.restore.outcome.stopped = false →
    1 ≤ s.restore.outcome.level → s.marks.stack[s.restore.outcome.level - 1]? = some m →
    ∃ t, exec .rollbackOutcome s = .next t ∧ LatchTaken (State.reclassifyAll { s with
      marks := { s.marks with state := .opened, stack := s.marks.stack.take s.restore.outcome.level }
      log := { s.log with
        tail := m.startOffset, nextSequence := m.firstSequence
        crossed := s.log.crossed && !decide (m.startOffset < s.log.threshold) }
      restore := idleEngine s.restore }) t [.rollbackDone s.restore.outcome] s.level

/-- R142, R19, R100, R17, R25: a rollback walk that stopped, or met a failed record, empties the stack, enters BROKEN with
reason ROLLBACK_INCOMPLETE, posts ROLLBACK_INCOMPLETE with the outcome and leaves the log as it is; the held entries are
re-classified, and a latched request is then dropped with LINE_IGNORED, reason BROKEN. -/
def Obligations.IncompleteRollbackOutcome : Prop :=
  ∀ s : State, Running s → s.marks.state = .rollingBack → s.restore.state = .restoring →
    WalkOver s.restore → s.restore.outcome.failed ≠ 0 ∨ s.restore.outcome.stopped = true →
    ∃ t, exec .rollbackOutcome s = .next t ∧ LatchTaken
      (State.reclassifyAll (brokenAs { s with restore := idleEngine s.restore } .rollbackIncomplete)) t
      [.rollbackIncomplete s.restore.outcome] s.level

/-- R150, R128: a check that ended complete or stopped posts CHECK_DONE with its outcome and the result COMPLETE or
STOPPED, and the engine enters IDLE; the marks, the tail and the map stay as they are. -/
def Obligations.CheckEndPostsCheckDone : Prop :=
  ∀ s : State, Running s → s.restore.state = .checking → s.restore.endRequest = .noRequest →
    (WalkOver s.restore →
      exec .checkEnd s = .next (takePost { s with restore := idleEngine s.restore }
        (.checkDone s.restore.outcome (if s.restore.outcome.stopped then .stopped else .complete)) s.level)) ∧
    (¬ WalkOver s.restore → exec .checkEnd s = .next s)

/-! ### Command frames -/

/-- R175, R171: the tests before any owner's, for every row that a command frame comes in: NOT_READY in STARTING and
RESETTING for all but GET_STATUS, then REFUSED_RANGE for a wrong payload length; neither changes anything outside the
response buffer and SPI_MISO. A period that began during power-on reset is ignored whole; that the part does not drive
SPI_MISO in it is the model's choice (log 31), and that a period begun before the reset is ignored with it its reading (log
32). -/
def Obligations.FrameTestsComeFirst : Prop :=
  ∀ (s : State) (c : Instr) (f : Frame) (identifier n : Nat), frameRow c = some (f, identifier, n) → Running s →
    (f.beganInReset = true → exec c s = .next s) ∧
    (f.beganInReset = false → identifier + f.payload.length ≤ 48 →
      (¬ Ready s → c ≠ .getStatus f →
        exec c s = .next (replied s f (identifier + f.payload.length) .notReady [])) ∧
      (Ready s ∨ c = .getStatus f → identifier + f.payload.length ≠ n →
        exec c s = .next (replied s f (identifier + f.payload.length) .refusedRange [])))

/-- R175, R182, R173, R176: a frame with an undefined code is answered UNKNOWN_COMMAND in every controller state; a
WRITE_CONFIG that names no item is answered REFUSED_RANGE; a complete frame whose check fails and a malformed frame are
answered CHECK_FAILED with the request number as received. Nothing else changes. R171: SPI_MISO carries the ready byte and
zeros over every SPI_SCK cycle, those of a byte left incomplete too; a period that began during power-on reset is ignored
whole, and the part does not drive SPI_MISO in it (the model's choice, log 31; a period begun before the reset: log 32). -/
def Obligations.FramesThatAreNotTaken : Prop :=
  (∀ (s : State) (code : Byte) (f : Frame), Running s → f.beganInReset = false → f.payload.length ≤ 48 →
    exec (.unknownCommand code f) s = .next (replied s f f.payload.length .unknownCommand [])) ∧
  (∀ (s : State) (f : Frame), Delivered s f 9 →
    exec (.writeConfigUnknownItem f) s = .next (replied s f 9 .refusedRange [])) ∧
  (∀ (s : State) (code request length : Byte) (rest : List Byte) (bits : Fin 8), Running s →
    exec (.checkFailedFrame ⟨code :: request :: length :: rest, bits, false⟩) s = .next { s with
      mgmt := { s.mgmt with buffer := .forming ⟨request, .checkFailed, []⟩ }
      pins := { s.pins with miso := misoOf [s.readyByte] (8 * (rest.length + 3) + bits) } }) ∧
  (∀ (s : State) (code : Byte) (f : Frame), f.beganInReset = true → exec (.unknownCommand code f) s = .next s) ∧
  ∀ (s : State) (p : Period), p.beganInReset = true → exec (.checkFailedFrame p) s = .next s

/-- R172, R173, R174, R176: a read period sends the READY reply's frame and zeros behind it, and zeros otherwise, and
changes nothing; assembly makes a FORMING reply READY; a cut-short command period, or an empty one, drives the ready byte
and zeros and does nothing else. R171: over a period of so many SPI_SCK cycles, of whole bytes and of one left incomplete,
SPI_MISO is driven to each byte's bits, most significant first, and is high-impedance once SPI_CS_N is high; a period that
began during power-on reset is ignored whole. That it stands at the bit changed to at the last falling edge of SPI_SCK until
SPI_CS_N rises is the model's reading (log 25), that an empty period is in the row of a frame cut short its choice (log 29),
as is that a period ignored for power-on reset does not drive SPI_MISO (log 31; a period begun before the reset: log 32). -/
def Obligations.PeriodsAndReplies : Prop :=
  (∀ sent clocks, ∃ bits : List Bool, misoOf sent clocks =
      bits.map (fun b => if b then MisoLevel.high else MisoLevel.low) ++ [MisoLevel.highImpedance] ∧
    bits.length = clocks + 1 ∧
    ∀ i k, k < 8 → 8 * i + k ≤ clocks → bits[8 * i + k]? = some ((byteAt sent i).getLsbD (7 - k))) ∧
  ∀ (s : State) (drives : List Byte → Nat → State), Running s →
    (drives = fun sent clocks => { s with pins := { s.pins with miso := misoOf sent clocks } }) →
    (∀ r clocks, s.mgmt.buffer = .ready r →
      exec (.readPeriod clocks false) s = .next (drives
        (0xA5#8 :: r.request :: r.status.code :: BitVec.ofNat 8 r.payload.length :: (r.payload ++
          [crc8 (r.request :: r.status.code :: BitVec.ofNat 8 r.payload.length :: r.payload)])) clocks)) ∧
    (∀ clocks, (∀ r, s.mgmt.buffer ≠ .ready r) →
      exec (.readPeriod clocks false) s = .next (drives [0x00#8] clocks)) ∧
    (∀ clocks, exec (.readPeriod clocks true) s = .next s) ∧
    (∀ r, s.mgmt.buffer = .forming r → exec .replyReady s = .next { s with mgmt := { s.mgmt with buffer := .ready r } }) ∧
    (∀ bytes (bits : Fin 8), exec (.commandFrameCutShort ⟨bytes, bits, false⟩) s =
      .next (drives [s.readyByte] (8 * bytes.length + bits))) ∧
    (∀ bytes bits, exec (.commandFrameCutShort ⟨bytes, bits, true⟩) s = .next s) ∧
    (∀ r, s.mgmt.buffer = .ready r → s.readyByte = 0xA5#8) ∧
    ((∀ r, s.mgmt.buffer ≠ .ready r) → s.readyByte = 0x00#8)

/-- R178, R179, R190, R197: GET_STATUS is answered OK in every controller state with 36 bytes that spell the state as it
stands, and clears the interruption report it shows. R3, R197 and R181, R195: GET_MARKS shows the stack and READ_CONFIG
the ten items, and neither changes anything. R192: the codes of the named sets in them. -/
def Obligations.StatusRepliesSpellTheState : Prop :=
  ∀ (s : State) (f : Frame) (flag : Bool → Byte) (target origin : PendingAction → Byte) (label : PendingAction → Nat)
    (count : (TagEntry → Bool) → Byte),
    (flag = fun b => if b then 1#8 else 0#8) →
    (target = fun
      | .rollback k _ => BitVec.ofNat 8 k
      | _ => 0#8) →
    (origin = fun
      | .rollback _ .command => 1#8
      | .rollback _ .line => 2#8
      | _ => 0#8) →
    (label = fun
      | .openMark l => l.toNat
      | _ => 0) →
    (count = fun p => BitVec.ofNat 8 ((List.finRange 64).countP fun t => p (s.tag t))) →
    (Running s → f.beganInReset = false → f.payload.length = 0 → ∃ p,
      exec (.getStatus f) s = .next (replied { s with mgmt := { s.mgmt with interruption := none } } f 0 .ok p) ∧
      p.length = 36 ∧ byteAt p 0 = s.marks.state.code ∧ byteAt p 1 = BitVec.ofNat 8 s.level ∧
      byteAt p 2 = s.mgmt.resetPhase.code ∧ byteAt p 3 = s.restore.state.code ∧ byteAt p 4 = s.marks.action.code ∧
      byteAt p 5 = target s.marks.action ∧ byteAt p 6 = origin s.marks.action ∧ byteAt p 7 = s.marks.reason.code ∧
      leField p 8 4 = label s.marks.action ∧
      leField p 12 4 = (if Config.max32 < s.marks.nextNumber then 0 else s.marks.nextNumber) ∧
      (∀ k, (byteAt p 16).getLsbD k = if k = 0 then s.marks.latch else if k = 1 then decide (Config.max32 < s.marks.nextNumber)
        else if k = 2 then s.log.crossed else if k = 3 then s.mgmt.interruption.isSome else false) ∧
      (∀ k, (byteAt p 17).getLsbD k = if h : k < 4 then (s.context? ⟨k, h⟩).isSome else false) ∧
      byteAt p 18 = BitVec.ofNat 8 s.transit.entries.length ∧ byteAt p 19 = BitVec.ofNat 8 s.notice.queue.length ∧
      byteAt p 20 = count (fun
        | .inUse _ => true
        | _ => false) ∧
      byteAt p 21 = count (fun
        | .stale _ => true
        | _ => false) ∧
      byteAt p 22 = BitVec.ofNat 8 s.down.credits ∧ byteAt p 23 = 0#8 ∧ leField p 24 4 = s.log.tail % 2 ^ 32 ∧
      leField p 28 4 = s.log.nextSequence % 2 ^ 32 ∧
      leField p 32 4 = (s.mgmt.interruption.getD 0xFFFFFFFF) % 2 ^ 32) ∧
    (Delivered s f 0 → ∃ p, exec (.getMarks f) s = .next (replied s f 0 .ok p) ∧
      p.length = 12 + 20 * s.level ∧ byteAt p 0 = s.marks.state.code ∧ byteAt p 1 = BitVec.ofNat 8 s.level ∧
      byteAt p 2 = s.marks.action.code ∧ byteAt p 3 = target s.marks.action ∧ byteAt p 4 = origin s.marks.action ∧
      byteAt p 5 = flag s.marks.latch ∧ byteAt p 6 = s.marks.reason.code ∧ byteAt p 7 = 0#8 ∧
      leField p 8 4 = label s.marks.action ∧
      ∀ i m, s.marks.stack[i]? = some m →
        byteAt p (12 + 20 * i) = BitVec.ofNat 8 m.level ∧ Zeros p (13 + 20 * i) 3 ∧
        leField p (16 + 20 * i) 4 = m.number % 2 ^ 32 ∧
        leField p (20 + 20 * i) 4 = m.label.toNat ∧ leField p (24 + 20 * i) 4 = m.startOffset % 2 ^ 32 ∧
        leField p (28 + 20 * i) 4 = m.firstSequence % 2 ^ 32) ∧
    (Delivered s f 0 → ∃ p, exec (.readConfig f) s = .next (replied s f 0 .ok p) ∧ p.length = 80 ∧
      leField p 0 8 = s.log.base.toNat ∧ leField p 8 8 = s.log.size % 2 ^ 64 ∧
      leField p 16 8 = s.log.threshold % 2 ^ 64 ∧ leField p 24 8 = s.log.policy.code ∧
      byteAt p 32 = flag s.windows.reader.enable ∧
      (byteAt p 33).toNat = s.windows.reader.reqMatch.toNat ∧ (byteAt p 34).toNat = s.windows.reader.reqMask.toNat ∧
      Zeros p 35 5 ∧
      leField p 40 8 = s.mgmt.partRequesterId.toNat ∧ leField p 48 8 = s.mgmt.responseTimeout % 2 ^ 64 ∧
      leField p 56 8 = s.mgmt.noticeTrigger % 2 ^ 64 ∧ leField p 64 8 = s.mgmt.noticeQuiet % 2 ^ 64 ∧
      byteAt p 72 = flag s.mgmt.lineRollback.enable ∧
      byteAt p 73 = BitVec.ofNat 8 s.mgmt.lineRollback.target ∧ Zeros p 74 6) ∧
    [ControllerState.starting, .idle, .opened, .draining, .rollingBack, .broken, .resetting].map
      ControllerState.code = [0, 1, 2, 3, 4, 5, 6] ∧
    (∀ l k o, [PendingAction.noAction, .openMark l, .releaseMark, .commit, .rollback k o].map
      PendingAction.code = [0, 1, 2, 3, 4]) ∧
    [BrokenReason.noReason, .logFull, .logWriteError, .logWriteTimeout, .rollbackIncomplete].map
      BrokenReason.code = [0, 1, 2, 3, 4] ∧
    [ResetPhase.noPhase, .engines].map ResetPhase.code = [0, 1] ∧
    [EngineState.idle, .restoring, .checking].map EngineState.code = [0, 1, 2] ∧
    [FullPolicy.breakMarks, .refuse].map FullPolicy.code = [0, 1]

/-- R47: writes to LOG_BASE and LOG_SIZE, answered by the first row that holds, with the log overlap of R34. -/
def Obligations.LogAreaItemsWritten : Prop :=
  ∀ (s : State) (f : Frame) (v : Nat) (overlaps : Nat → Nat → Prop), Delivered s f 8 → leField f.payload 0 8 = v →
    (overlaps = fun base size => size ≠ 0 ∧ ∃ w, (s.window w).enabled = true ∧
      max (s.window w).base.toNat base < min (s.window w).rangeEnd (base + size)) →
    (s.marks.state ≠ .idle →
      exec (.writeConfigLogBase f) s = .next (replied s f 9 .refusedState []) ∧
      exec (.writeConfigLogSize f) s = .next (replied s f 9 .refusedState [])) ∧
    (s.marks.state = .idle →
      (v % 4096 ≠ 0 ∨ 2 ^ 40 ≤ v ∨ (s.log.size ≠ 0 ∧ 2 ^ 40 < v + s.log.size) →
        exec (.writeConfigLogBase f) s = .next (replied s f 9 .refusedRange [])) ∧
      (v % 4096 = 0 → v < 2 ^ 40 → s.log.size = 0 ∨ v + s.log.size ≤ 2 ^ 40 →
        (overlaps v s.log.size → exec (.writeConfigLogBase f) s = .next (replied s f 9 .refusedOverlap [])) ∧
        (¬ overlaps v s.log.size → exec (.writeConfigLogBase f) s =
          .next (replied { s with log := { s.log with base := BitVec.ofNat 40 v } } f 9 .ok []))) ∧
      ((v ≠ 0 ∧ (v % 4096 ≠ 0 ∨ v < 65536 ∨ 1073741824 < v)) ∨ (v ≠ 0 ∧ 2 ^ 40 < s.log.base.toNat + v) ∨
          v < s.log.threshold →
        exec (.writeConfigLogSize f) s = .next (replied s f 9 .refusedRange [])) ∧
      (v = 0 ∨ (v % 4096 = 0 ∧ 65536 ≤ v ∧ v ≤ 1073741824 ∧ s.log.base.toNat + v ≤ 2 ^ 40) → s.log.threshold ≤ v →
        (overlaps s.log.base.toNat v → exec (.writeConfigLogSize f) s = .next (replied s f 9 .refusedOverlap [])) ∧
        (¬ overlaps s.log.base.toNat v → exec (.writeConfigLogSize f) s =
          .next (replied { s with log := { s.log with size := v } } f 9 .ok []))))

/-- R60, R57, R182, R183, R122, R166, R23: the writes to the other eight items: a value outside the item's values is
refused and leaves it as it was; any other is stored, LOG_THRESHOLD with its flag and NOTICE_TRIGGER and NOTICE_QUIET
with NOTICE_N brought up to date. PART_REQUESTER_ID is written in IDLE alone. -/
def Obligations.OtherItemsWritten : Prop :=
  ∀ (s : State) (f : Frame) (v enable second third : Nat) (answered : Instr → State → Prop) (refused : Instr → Prop),
    Delivered s f 8 → leField f.payload 0 8 = v → (byteAt f.payload 0).toNat = enable →
    (byteAt f.payload 1).toNat = second → (byteAt f.payload 2).toNat = third →
    (answered = fun c t => exec c s = .next (replied t f 9 .ok [])) →
    (refused = fun c => exec c s = .next (replied s f 9 .refusedRange [])) →
    (if v % 4096 = 0 ∧ v ≤ s.log.size then answered (.writeConfigLogThreshold f) { s with
        log := { s.log with threshold := v, crossed := decide (v ≠ 0 ∧ v ≤ s.log.tail) } }
      else refused (.writeConfigLogThreshold f)) ∧
    (if v = 0 then answered (.writeConfigLogFullPolicy f) { s with log := { s.log with policy := .breakMarks } }
      else if v = 1 then answered (.writeConfigLogFullPolicy f) { s with log := { s.log with policy := .refuse } }
      else refused (.writeConfigLogFullPolicy f)) ∧
    (if enable ≤ 1 ∧ second ≤ 63 ∧ third ≤ 63 then answered (.writeConfigLogReader f) { s with
        windows := { s.windows with
          reader := ⟨decide (enable = 1), BitVec.ofNat 6 second, BitVec.ofNat 6 third⟩ } }
      else refused (.writeConfigLogReader f)) ∧
    (if s.marks.state ≠ .idle then
        exec (.writeConfigPartRequesterId f) s = .next (replied s f 9 .refusedState [])
      else if v ≤ 63 then answered (.writeConfigPartRequesterId f) { s with
        mgmt := { s.mgmt with partRequesterId := BitVec.ofNat 6 v } }
      else refused (.writeConfigPartRequesterId f)) ∧
    (if v ≤ 65535 then answered (.writeConfigResponseTimeout f) { s with
        mgmt := { s.mgmt with responseTimeout := v } }
      else refused (.writeConfigResponseTimeout f)) ∧
    (if v ∈ [1, 4, 8, 16] then answered (.writeConfigNoticeTrigger f) { s with
        mgmt := { s.mgmt with noticeTrigger := v }
        notice := { s.notice with asserted := decide (v ≤ s.notice.queue.length ∨
          (1 ≤ s.notice.queue.length ∧ s.mgmt.noticeQuiet ≠ 0 ∧ s.mgmt.noticeQuiet ≤ s.now - s.notice.quietStart)) } }
      else refused (.writeConfigNoticeTrigger f)) ∧
    (if v = 0 ∨ (16 ≤ v ∧ v ≤ 4096) then answered (.writeConfigNoticeQuiet f) { s with
        mgmt := { s.mgmt with noticeQuiet := v }
        notice := { s.notice with asserted := decide (s.mgmt.noticeTrigger ≤ s.notice.queue.length ∨
          (1 ≤ s.notice.queue.length ∧ v ≠ 0 ∧ v ≤ s.now - s.notice.quietStart)) } }
      else refused (.writeConfigNoticeQuiet f)) ∧
    (if enable ≤ 1 ∧ 1 ≤ second ∧ second ≤ 4 then answered (.writeConfigLineRollback f) { s with
        mgmt := { s.mgmt with lineRollback := ⟨decide (enable = 1), second⟩ } }
      else refused (.writeConfigLineRollback f))

/-! ### Window commands -/

/-- R30, with R29: SET_WINDOW stores all six fields as given in a disabled window, in every controller state from IDLE
to BROKEN, and refuses an enabled one; it does not change the granule map. -/
def Obligations.SetWindowStoresItsFields : Prop :=
  ∀ (s : State) (f : Frame), Delivered s f 16 →
    (16 ≤ (byteAt f.payload 0).toNat → exec (.setWindow f) s = .next (replied s f 16 .refusedRange [])) ∧
    ∀ w : WindowNo, (byteAt f.payload 0).toNat = w.val →
      ((s.window w).enabled = true → exec (.setWindow f) s = .next (replied s f 16 .refusedState [])) ∧
      ((s.window w).enabled = false → exec (.setWindow f) s = .next (replied { s with windows := { s.windows with
        records := s.windows.records.set w {
          enabled := false
          base := BitVec.ofNat 40 (leField f.payload 8 5)
          code := byteAt f.payload 1
          count := leField f.payload 4 4
          mapOffset := leField f.payload 14 2
          reqMatch := (byteAt f.payload 2).setWidth 6
          reqMask := (byteAt f.payload 3).setWidth 6 } } } f 16 .ok []))

/-- R31, with R29 and R34: ENABLE_WINDOW answered by the first row that holds; a window that passes every test becomes
enabled with its fields as they are, and nothing else changes. -/
def Obligations.EnableWindowTests : Prop :=
  ∀ (s : State) (f : Frame) (answered : Status → Prop), Delivered s f 1 →
    (answered = fun status => exec (.enableWindow f) s = .next (replied s f 1 status [])) →
    (16 ≤ (byteAt f.payload 0).toNat → answered .refusedRange) ∧
    ∀ w : WindowNo, (byteAt f.payload 0).toNat = w.val →
      (s.marks.state ≠ .idle ∨ (s.window w).enabled = true → answered .refusedState) ∧
      (s.marks.state = .idle → (s.window w).enabled = false →
        (Granule.ofCode (s.window w).code = none → answered .refusedRange) ∧
        ∀ g, Granule.ofCode (s.window w).code = some g →
          ((s.window w).count = 0 ∨ 65536 < (s.window w).count ∨ (s.window w).base.toNat % g.bytes ≠ 0 ∨
              2 ^ 40 < (s.window w).base.toNat + (s.window w).count * g.bytes ∨
              65536 < (s.window w).mapOffset + (s.window w).count → answered .refusedRange) ∧
          (WindowValid (s.window w) →
            ((∃ v, v ≠ w ∧ (s.window v).enabled = true ∧
                (max (s.window w).base.toNat (s.window v).base.toNat < min (s.window w).rangeEnd (s.window v).rangeEnd ∨
                  max (s.window w).mapOffset (s.window v).mapOffset <
                    min ((s.window w).mapOffset + (s.window w).count) ((s.window v).mapOffset + (s.window v).count))) ∨
              (s.log.size ≠ 0 ∧ max (s.window w).base.toNat s.log.base.toNat <
                min (s.window w).rangeEnd (s.log.base.toNat + s.log.size)) → answered .refusedOverlap) ∧
            ((∀ v, v ≠ w → (s.window v).enabled = true →
                min (s.window w).rangeEnd (s.window v).rangeEnd ≤ max (s.window w).base.toNat (s.window v).base.toNat ∧
                min ((s.window w).mapOffset + (s.window w).count) ((s.window v).mapOffset + (s.window v).count) ≤
                  max (s.window w).mapOffset (s.window v).mapOffset) →
              (s.log.size = 0 ∨ min (s.window w).rangeEnd (s.log.base.toNat + s.log.size) ≤
                max (s.window w).base.toNat s.log.base.toNat) →
              exec (.enableWindow f) s = .next (replied { s with windows := { s.windows with
                records := s.windows.records.set w { s.window w with enabled := true } } } f 1 .ok []))))

/-- R32, R33 and R43, with R29: DISABLE_WINDOW in IDLE alone, keeping the stored fields; GET_WINDOW returns the enabled
flag and the six stored fields; READ_MAP returns the entry and the enabled window whose map range holds the index, or
none. The two reads change nothing. -/
def Obligations.DisableGetWindowAndReadMap : Prop :=
  ∀ (s : State) (f : Frame),
    (Delivered s f 1 →
      (16 ≤ (byteAt f.payload 0).toNat →
        exec (.disableWindow f) s = .next (replied s f 1 .refusedRange []) ∧
        exec (.getWindow f) s = .next (replied s f 1 .refusedRange [])) ∧
      ∀ w : WindowNo, (byteAt f.payload 0).toNat = w.val →
        (s.marks.state ≠ .idle → exec (.disableWindow f) s = .next (replied s f 1 .refusedState [])) ∧
        (s.marks.state = .idle → exec (.disableWindow f) s = .next (replied { s with windows := { s.windows with
          records := s.windows.records.set w { s.window w with enabled := false } } } f 1 .ok [])) ∧
        ∃ p, exec (.getWindow f) s = .next (replied s f 1 .ok p) ∧ p.length = 16 ∧
          byteAt p 0 = BitVec.ofNat 8 w.val ∧ byteAt p 1 = (s.window w).code ∧
          (byteAt p 2).toNat = (s.window w).reqMatch.toNat ∧ (byteAt p 3).toNat = (s.window w).reqMask.toNat ∧
          leField p 4 4 = (s.window w).count % 2 ^ 32 ∧ leField p 8 5 = (s.window w).base.toNat ∧
          byteAt p 13 = (if (s.window w).enabled then 1#8 else 0#8) ∧
          leField p 14 2 = (s.window w).mapOffset % 2 ^ 16) ∧
    (Delivered s f 4 →
      (65536 ≤ leField f.payload 0 4 → exec (.readMap f) s = .next (replied s f 4 .refusedRange [])) ∧
      (leField f.payload 0 4 ≤ 65535 → ∃ p, exec (.readMap f) s = .next (replied s f 4 .ok p) ∧ p.length = 5 ∧
        leField p 0 4 = mapRead s.windows.map (leField f.payload 0 4) % 2 ^ 32 ∧
        (∀ w, (s.window w).enabled = true → (s.window w).mapOffset ≤ leField f.payload 0 4 →
          leField f.payload 0 4 < (s.window w).mapOffset + (s.window w).count →
          (∀ v, v ≠ w → (s.window v).enabled = true → leField f.payload 0 4 < (s.window v).mapOffset ∨
            (s.window v).mapOffset + (s.window v).count ≤ leField f.payload 0 4) →
          byteAt p 4 = BitVec.ofNat 8 w.val) ∧
        ((∀ w, (s.window w).enabled = true → leField f.payload 0 4 < (s.window w).mapOffset ∨
            (s.window w).mapOffset + (s.window w).count ≤ leField f.payload 0 4) → byteAt p 4 = 0xFF#8)))

/-! ### Mark commands -/

/-- R7, R8, R10, R11, R97: the taken mark commands: OPEN_MARK, RELEASE_MARK, COMMIT and ROLLBACK are answered ACCEPTED
and put the controller in DRAINING with the pending action recorded and every entry held pre-drain; DISCARD is answered
OK with the log emptied, the reason NONE and the LOG_FULL bar clear in IDLE. -/
def Obligations.MarkCommandsTaken : Prop :=
  ∀ (s : State) (f : Frame) (drains : PendingAction → State),
    (drains = fun action => { s with
      marks := { s.marks with state := .draining, action := action }
      transit := { s.transit with entries := s.transit.entries.map fun e => { e with preDrain := true } } }) →
    s.marks.latch = false →
    (Delivered s f 4 → s.marks.state = .idle ∨ (s.marks.state = .opened ∧ s.level ≠ 4) → s.log.size ≠ 0 →
      s.marks.nextNumber ≤ 4294967295 →
      exec (.openMark f) s =
        .next (replied (drains (.openMark (BitVec.ofNat 32 (leField f.payload 0 4)))) f 4 .accepted [])) ∧
    (Delivered s f 0 → s.marks.state = .opened → s.restore.state ≠ .checking ∨ s.level ≠ 1 →
      exec (.releaseMark f) s = .next (replied (drains .releaseMark) f 0 .accepted [])) ∧
    (Delivered s f 0 → s.marks.state = .opened → s.restore.state ≠ .checking →
      exec (.commit f) s = .next (replied (drains .commit) f 0 .accepted [])) ∧
    (Delivered s f 1 → s.marks.state = .opened → s.restore.state ≠ .checking →
      1 ≤ (byteAt f.payload 0).toNat → (byteAt f.payload 0).toNat ≤ s.level →
      exec (.rollback f) s =
        .next (replied (drains (.rollback (byteAt f.payload 0).toNat .command)) f 1 .accepted [])) ∧
    (Delivered s f 0 → s.marks.state = .broken → (∀ c, s.context? c = none) → s.restore.state = .idle →
      exec (.discard f) s = .next (replied { s with
        marks := { s.marks with state := .idle, reason := .noReason }
        log := { s.log with tail := 0, nextSequence := 0, crossed := false }
        save := { s.save with fullBar := false } } f 0 .ok []))

/-- R9, R129, R130, R148: a taken CHECK_LOG is answered ACCEPTED and leaves the controller in OPEN; the engine enters
CHECKING with mark k's values and stands at the newest record's header, or waits for the busy context that holds its
slot, or has ended complete over an empty span. That the expected sequence is 0 where the next sequence number is 0 is the
model's choice (log 30). -/
def Obligations.CheckLogTaken : Prop :=
  ∀ (s : State) (f : Frame) (k : Nat) (m : MarkRecord) (checks : RestoreEngine → Prop),
    Delivered s f 1 → (byteAt f.payload 0).toNat = k → s.marks.latch = false → s.marks.state = .opened →
    s.restore.state = .idle → 1 ≤ k → s.marks.stack[k - 1]? = some m →
    (checks = fun engine => exec (.checkLog f) s = .next (replied { s with restore := engine } f 1 .accepted [])) →
    (m.startOffset = s.log.tail → m.firstSequence = s.log.nextSequence →
      checks (walkBegun s .checking .command k m 0 .noStep)) ∧
    (m.startOffset < s.log.tail → m.firstSequence < s.log.nextSequence →
      ((∀ c x, s.context? c = some x → x.offset + x.granule.recordSize ≠ s.log.tail) →
        checks (walkBegun s .checking .command k m (s.log.nextSequence - m.firstSequence) .header)) ∧
      (∀ c x, s.context? c = some x → x.offset + x.granule.recordSize = s.log.tail →
        checks (walkBegun s .checking .command k m (s.log.nextSequence - m.firstSequence) .waitSlot)))

/-- R6: the refusals of the mark commands, by the first row whose condition holds; a refused command changes nothing but
the reply. -/
def Obligations.MarkCommandsRefused : Prop :=
  ∀ (s : State) (f : Frame) (refused : Instr → Nat → Status → Prop),
    (refused = fun c n status => exec c s = .next (replied s f n status [])) →
    (s.marks.state = .draining ∨ s.marks.state = .rollingBack ∨ s.marks.latch = true →
      (Delivered s f 4 → refused (.openMark f) 4 .busy) ∧
      (Delivered s f 0 → refused (.releaseMark f) 0 .busy ∧ refused (.commit f) 0 .busy) ∧
      (Delivered s f 1 → refused (.rollback f) 1 .busy ∧ refused (.checkLog f) 1 .busy)) ∧
    (s.marks.latch = false → s.marks.state = .broken →
      (Delivered s f 4 → refused (.openMark f) 4 .refusedBroken) ∧
      (Delivered s f 0 → refused (.releaseMark f) 0 .refusedBroken ∧ refused (.commit f) 0 .refusedBroken) ∧
      (Delivered s f 1 → refused (.rollback f) 1 .refusedBroken ∧ refused (.checkLog f) 1 .refusedBroken)) ∧
    (s.marks.latch = false → s.marks.state = .idle →
      (Delivered s f 0 → refused (.releaseMark f) 0 .refusedState ∧ refused (.commit f) 0 .refusedState) ∧
      (Delivered s f 1 → refused (.rollback f) 1 .refusedState ∧ refused (.checkLog f) 1 .refusedState)) ∧
    (s.marks.latch = false → s.marks.state = .idle ∨ s.marks.state = .opened → Delivered s f 4 →
      (s.log.size = 0 → refused (.openMark f) 4 .refusedState) ∧
      (s.log.size ≠ 0 → s.marks.state = .opened → s.level = 4 → refused (.openMark f) 4 .levelLimit) ∧
      (s.log.size ≠ 0 → s.marks.state = .idle ∨ s.level ≠ 4 → 4294967295 < s.marks.nextNumber →
        refused (.openMark f) 4 .numbersExhausted)) ∧
    (s.marks.latch = false → s.marks.state = .opened → s.restore.state = .checking →
      (Delivered s f 0 → (s.level = 1 → refused (.releaseMark f) 0 .busy) ∧ refused (.commit f) 0 .busy) ∧
      (Delivered s f 1 → refused (.rollback f) 1 .busy ∧ refused (.checkLog f) 1 .busy)) ∧
    (s.marks.latch = false → s.marks.state = .opened → s.restore.state = .idle → Delivered s f 1 →
      (byteAt f.payload 0).toNat < 1 ∨ s.level < (byteAt f.payload 0).toNat →
      refused (.rollback f) 1 .refusedRange ∧ refused (.checkLog f) 1 .refusedRange) ∧
    (s.marks.latch = false → s.marks.state = .opened → s.restore.state = .restoring → Delivered s f 1 →
      refused (.checkLog f) 1 .busy) ∧
    (Delivered s f 0 →
      (s.marks.state ≠ .broken → refused (.discard f) 0 .refusedState) ∧
      (s.marks.state = .broken → (∃ c, s.context? c ≠ none) ∨ s.restore.state ≠ .idle →
        refused (.discard f) 0 .busy))

/-! ### Notices and counters -/

/-- R162, R164, R165, R196: READ_NOTICE takes the front record with the count left behind it, restarts the quiet timer
and brings NOTICE_N up to date; on an empty queue it is answered EMPTY with the loss count and changes nothing. R196, with
the codes of R192: the layout of each of the 13 kinds. -/
def Obligations.ReadNoticeTakesTheFrontRecord : Prop :=
  (∀ (s : State) (f : Frame), Delivered s f 0 →
    (s.notice.queue = [] →
      exec (.readNotice f) s = .next (replied s f 0 .empty [BitVec.ofNat 8 s.notice.loss])) ∧
    (∀ front rest, s.notice.queue = front :: rest → ∃ record,
      exec (.readNotice f) s = .next (replied { s with notice := { s.notice with
        queue := rest, quietStart := s.now, asserted := decide (s.mgmt.noticeTrigger ≤ rest.length) } } f 0 .ok
          (BitVec.ofNat 8 rest.length :: record)) ∧
      record.length = 32 ∧ byteAt record 0 = front.kind.code ∧ byteAt record 1 = BitVec.ofNat 8 front.level ∧
      leField record 2 2 = front.sequence % 65536 ∧ byteAt record 4 = BitVec.ofNat 8 front.lossBefore ∧
      Zeros record 5 3 ∧ record.drop 8 = front.kind.fields)) ∧
  ∀ (laid : NoticeKind → Byte → (List Byte → Prop) → Prop) (addressed : Address → List Byte → Prop)
    (outcome : WalkOutcome → Byte → List Byte → Prop),
    (laid = fun kind code layout => kind.code = code ∧ kind.fields.length = 24 ∧ layout kind.fields) →
    (addressed = fun a f => Zeros f 3 5 ∧ leField f 8 5 = a.toNat ∧ Zeros f 13 11) →
    (outcome = fun o result f => byteAt f 0 = BitVec.ofNat 8 o.level ∧
      byteAt f 1 = (if o.origin = .command then 1#8 else 2#8) ∧
      (∀ k, (byteAt f 2).getLsbD k =
        if k = 0 then o.firstFailure.isSome else if k = 1 then o.stopped else false) ∧ byteAt f 3 = result ∧
      leField f 4 4 = o.good % 2 ^ 32 ∧ leField f 8 4 = o.skipped % 2 ^ 32 ∧ leField f 12 4 = o.failed % 2 ^ 32 ∧
      leField f 16 4 = (o.firstFailure.getD 0xFFFFFFFF) % 2 ^ 32 ∧
      leField f 20 4 = (o.stopOffset.getD 0xFFFFFFFF) % 2 ^ 32) →
    (∀ w r reason a, laid (.saveFailed w r reason a) 0x01#8 fun f => byteAt f 0 = BitVec.ofNat 8 w.val ∧
      (byteAt f 1).toNat = r.toNat ∧ byteAt f 2 = (if reason = .readError then 1#8 else 2#8) ∧ addressed a f) ∧
    (∀ reason tail, laid (.logBroken reason tail) 0x02#8 fun f => byteAt f 0 = reason.code ∧ Zeros f 1 3 ∧
      leField f 4 4 = tail % 2 ^ 32 ∧ Zeros f 8 16) ∧
    (∀ tail, laid (.logThreshold tail) 0x03#8 fun f => Zeros f 0 4 ∧ leField f 4 4 = tail % 2 ^ 32 ∧ Zeros f 8 16) ∧
    (∀ w r a, laid (.writeRefused w r a) 0x04#8 fun f => byteAt f 0 = BitVec.ofNat 8 w.val ∧
      (byteAt f 1).toNat = r.toNat ∧ byteAt f 2 = 0#8 ∧ addressed a f) ∧
    (∀ r kind reason a, laid (.accessDenied r kind reason a) 0x05#8 fun f => (byteAt f 0).toNat = r.toNat ∧
      byteAt f 1 = (match kind with
        | .read => 1#8
        | .write => 2#8
        | .atomic => 3#8) ∧
      byteAt f 2 = (match reason with
        | .logArea => 1#8
        | .lineCrossing => 2#8
        | .noCredit => 3#8) ∧ addressed a f) ∧
    (∀ source a, laid (.responseTimeout source a) 0x06#8 fun f =>
      byteAt f 0 = (match source with
        | .passThrough => 1#8
        | .save => 2#8
        | .restore => 3#8) ∧ Zeros f 1 2 ∧ addressed a f) ∧
    (∀ t, laid (.lateResponse t) 0x07#8 fun f => byteAt f 0 = BitVec.ofNat 8 t.val ∧ Zeros f 1 23) ∧
    (∀ t, laid (.strayResponse t) 0x08#8 fun f => byteAt f 0 = BitVec.ofNat 8 t.val ∧ Zeros f 1 23) ∧
    (∀ o, laid (.rollbackDone o) 0x09#8 (outcome o 0#8)) ∧
    (∀ o, laid (.rollbackIncomplete o) 0x0A#8 (outcome o 0#8)) ∧
    (∀ o result, laid (.checkDone o result) 0x0B#8 (outcome o (match result with
      | .complete => 1#8
      | .stopped => 2#8
      | .abandoned => 3#8))) ∧
    (∀ reason, laid (.lineIgnored reason) 0x0C#8 fun f =>
      byteAt f 0 = (match reason with
        | .disabled => 1#8
        | .noMark => 2#8
        | .broken => 3#8
        | .level => 4#8) ∧ Zeros f 1 23) ∧
    (∀ command, laid (.markCommandDropped command) 0x0D#8 fun f =>
      byteAt f 0 = (match command with
        | .openMark => 0x0A#8
        | .releaseMark => 0x0B#8
        | .commit => 0x0C#8
        | .rollback _ _ => 0x0D#8) ∧
      byteAt f 1 = (match command with
        | .rollback k _ => BitVec.ofNat 8 k
        | _ => 0#8) ∧
      byteAt f 2 = (match command with
        | .rollback _ .command => 1#8
        | .rollback _ .line => 2#8
        | _ => 0#8) ∧ Zeros f 3 21)

/-- R169, R170: READ_COUNTERS returns the six counters and changes nothing; CLEAR_COUNTERS sets them to 0 and changes
nothing else. R164, R165: the quiet timer's expiry with a record in the queue asserts NOTICE_N; before it, or with the
quiet time off or the queue empty, nothing changes. R168: an increment adds 1 below 4,294,967,295 and leaves a counter
there as it is. -/
def Obligations.CountersAndQuietTimer : Prop :=
  (∀ n, (n < 4294967295 → bump n = n + 1) ∧ (4294967295 ≤ n → bump n = n)) ∧
  ∀ s : State,
    (∀ f, Delivered s f 0 → ∃ p, exec (.readCounters f) s = .next (replied s f 0 .ok p) ∧ p.length = 24 ∧
      leField p 0 4 = s.notice.counters.savesCompleted % 2 ^ 32 ∧
      leField p 4 4 = s.notice.counters.savesFailed % 2 ^ 32 ∧
      leField p 8 4 = s.notice.counters.writesHeld % 2 ^ 32 ∧
      leField p 12 4 = s.notice.counters.requestsDenied % 2 ^ 32 ∧
      leField p 16 4 = s.notice.counters.responsesTimedOut % 2 ^ 32 ∧
      leField p 20 4 = s.notice.counters.recordsRestored % 2 ^ 32) ∧
    (∀ f, Delivered s f 0 → exec (.clearCounters f) s =
      .next (replied { s with notice := { s.notice with counters := ⟨0, 0, 0, 0, 0, 0⟩ } } f 0 .ok [])) ∧
    (Running s →
      (1 ≤ s.notice.queue.length → s.mgmt.noticeQuiet ≠ 0 → s.mgmt.noticeQuiet ≤ s.now - s.notice.quietStart →
        exec .quietTimerExpiry s = .next { s with notice := { s.notice with asserted := true } }) ∧
      (s.notice.queue = [] ∨ s.mgmt.noticeQuiet = 0 ∨ s.now - s.notice.quietStart < s.mgmt.noticeQuiet →
        exec .quietTimerExpiry s = .next s))

/-! ### What every step keeps -/

/-- Every step keeps the notice unit's invariant: at most 32 records with consecutive sequence numbers (R159 to R161),
and counters within 32 bits (R168). -/
def Obligations.StepsKeepTheNoticeUnit : Prop :=
  ∀ s t : State, NoticeUnitOk s → step s = .next t → NoticeUnitOk t

/-- Every step keeps the credits and the tags: entries and upstream credits make 24 (R84, R86), at most 56 tags are of
pass-through origin (R111), the credit counter stays at most 255 (R109) and the rotation names each source once (R115). -/
def Obligations.StepsKeepCreditsAndTags : Prop :=
  ∀ s t : State, TransitOk s → DownstreamOk s → step s = .next t → TransitOk t ∧ DownstreamOk t

/-- Every step keeps the marks and the log: the stack of R1 with the states of 1.2, the reason and the latch of R3 and
R25, and the tail and the threshold-crossed flag of R48 and R60. -/
def Obligations.StepsKeepMarksAndLog : Prop :=
  ∀ s t : State, MarksOk s → ReasonAndLatchOk s → LogOk s → step s = .next t →
    MarksOk t ∧ ReasonAndLatchOk t ∧ LogOk t

/-- Every step keeps the granule map canonical and its entries below the next mark number (R39, R41). -/
def Obligations.StepsKeepMapEntriesBelowNextNumber : Prop :=
  ∀ s t : State, MarksOk s → LogOk s → MapOk s → step s = .next t → MapOk t

/-- Every step keeps enabled windows valid and free of overlaps (R27, R31, R34, R47) and every configuration item within
its values (R47, R57, R60, R182, R183). -/
def Obligations.StepsKeepWindowsAndItems : Prop :=
  ∀ s t : State, WindowsOk s → ItemsOk s → step s = .next t → WindowsOk t ∧ ItemsOk t

/-- Every step keeps the engines' limits: each busy context once in the allocation order, at most 4 lines in flight
(R69), and at most 4 restore requests outstanding (R140); and the reset phase (R184, R185): ENGINES exactly in RESETTING,
which no happening leaves with both conditions of the phase met. -/
def Obligations.StepsKeepTheEngineLimits : Prop :=
  ∀ s t : State, EnginesOk s → ResetPhaseOk s → step s = .next t → EnginesOk t ∧ ResetPhaseOk t

/-- The reset state meets every invariant. -/
def Obligations.ResetStateMeetsTheInvariants : Prop :=
  NoticeUnitOk State.reset ∧ TransitOk State.reset ∧ DownstreamOk State.reset ∧ MarksOk State.reset ∧
  ReasonAndLatchOk State.reset ∧ LogOk State.reset ∧ MapOk State.reset ∧ WindowsOk State.reset ∧ ItemsOk State.reset ∧
  EnginesOk State.reset ∧ ResetPhaseOk State.reset

/-- R180: an item changes only by a WRITE_CONFIG answered OK, by power-on reset, and at the reset step of a soft reset,
which comes with SOFT_RESET or in RESETTING (R185); the two resets give every item its reset value. R2: the next mark
number changes only when an OPEN takes effect, by one, and at power-on. R41: the granule map is written only by the sweep
and by responses that end a save or a restore; that POWER_ON_RESET keeps it until the sweep is the model's choice
(log 6). -/
def Obligations.OnlyTheirCommandsChangeThem : Prop :=
  ∀ (c : Instr) (s t : State), exec c s = .next t →
    (items t = items s ∨
      (isWriteConfig c = true ∧ ∃ request, t.mgmt.buffer = .forming ⟨request, .ok, []⟩) ∨
      (items t = resetItems ∧ (c = .powerOnReset ∨ (∃ f, c = .softReset f) ∨ s.marks.state = .resetting))) ∧
    (c = .powerOnReset ∨ (Running s ∧ s.marks.state = .resetting ∧ t.marks.state ≠ .resetting) ∨
        (∃ f, c = .softReset f ∧ Delivered s f 0 ∧ t.marks.state = .idle) →
      items t = resetItems) ∧
    (c ≠ .powerOnReset → c ≠ .mapSweepComplete →
      t.marks.nextNumber = s.marks.nextNumber ∨
        (c = .openTakesEffect ∧ t.marks.nextNumber = s.marks.nextNumber + 1)) ∧
    (c ≠ .mapSweepComplete → (∀ tag status data, c ≠ .downstreamResponse tag status data) →
      t.windows.map = s.windows.map)
end

