-- ==== Sys2Proof/Laws/State.lean ====
section
/-! SUPPORT. What each update of a State field leaves in each field, so that no proof unfolds a record update. -/

namespace Sys2Proof.Machine

/-- Two states are equal when their fields are. -/
theorem State.eq_of_fields {s t : State} (h : s.marks = t.marks ∧ s.windows = t.windows ∧ s.log = t.log ∧
    s.save = t.save ∧ s.transit = t.transit ∧ s.down = t.down ∧ s.restore = t.restore ∧ s.notice = t.notice ∧
    s.mgmt = t.mgmt ∧ s.pins = t.pins ∧ s.links = t.links ∧ s.now = t.now ∧ s.choices = t.choices ∧
    s.pending = t.pending) : s = t := by
  cases s; cases t; simp_all

@[simp] theorem State.setMarks_marks (s : State) (x : MarkController) : (s.setMarks x).marks = x := rfl
@[simp] theorem State.setMarks_windows (s : State) (x : MarkController) : (s.setMarks x).windows = s.windows := rfl
@[simp] theorem State.setMarks_log (s : State) (x : MarkController) : (s.setMarks x).log = s.log := rfl
@[simp] theorem State.setMarks_save (s : State) (x : MarkController) : (s.setMarks x).save = s.save := rfl
@[simp] theorem State.setMarks_transit (s : State) (x : MarkController) : (s.setMarks x).transit = s.transit := rfl
@[simp] theorem State.setMarks_down (s : State) (x : MarkController) : (s.setMarks x).down = s.down := rfl
@[simp] theorem State.setMarks_restore (s : State) (x : MarkController) : (s.setMarks x).restore = s.restore := rfl
@[simp] theorem State.setMarks_notice (s : State) (x : MarkController) : (s.setMarks x).notice = s.notice := rfl
@[simp] theorem State.setMarks_mgmt (s : State) (x : MarkController) : (s.setMarks x).mgmt = s.mgmt := rfl
@[simp] theorem State.setMarks_pins (s : State) (x : MarkController) : (s.setMarks x).pins = s.pins := rfl
@[simp] theorem State.setMarks_links (s : State) (x : MarkController) : (s.setMarks x).links = s.links := rfl
@[simp] theorem State.setMarks_now (s : State) (x : MarkController) : (s.setMarks x).now = s.now := rfl
@[simp] theorem State.setMarks_choices (s : State) (x : MarkController) : (s.setMarks x).choices = s.choices := rfl
@[simp] theorem State.setMarks_pending (s : State) (x : MarkController) : (s.setMarks x).pending = s.pending := rfl
@[simp] theorem State.setMarks_same (s : State) : s.setMarks s.marks = s := rfl
@[simp] theorem State.setMarks_setMarks (s : State) (x y : MarkController) : (s.setMarks x).setMarks y = s.setMarks y := rfl

@[simp] theorem State.setWindows_marks (s : State) (x : WindowUnit) : (s.setWindows x).marks = s.marks := rfl
@[simp] theorem State.setWindows_windows (s : State) (x : WindowUnit) : (s.setWindows x).windows = x := rfl
@[simp] theorem State.setWindows_log (s : State) (x : WindowUnit) : (s.setWindows x).log = s.log := rfl
@[simp] theorem State.setWindows_save (s : State) (x : WindowUnit) : (s.setWindows x).save = s.save := rfl
@[simp] theorem State.setWindows_transit (s : State) (x : WindowUnit) : (s.setWindows x).transit = s.transit := rfl
@[simp] theorem State.setWindows_down (s : State) (x : WindowUnit) : (s.setWindows x).down = s.down := rfl
@[simp] theorem State.setWindows_restore (s : State) (x : WindowUnit) : (s.setWindows x).restore = s.restore := rfl
@[simp] theorem State.setWindows_notice (s : State) (x : WindowUnit) : (s.setWindows x).notice = s.notice := rfl
@[simp] theorem State.setWindows_mgmt (s : State) (x : WindowUnit) : (s.setWindows x).mgmt = s.mgmt := rfl
@[simp] theorem State.setWindows_pins (s : State) (x : WindowUnit) : (s.setWindows x).pins = s.pins := rfl
@[simp] theorem State.setWindows_links (s : State) (x : WindowUnit) : (s.setWindows x).links = s.links := rfl
@[simp] theorem State.setWindows_now (s : State) (x : WindowUnit) : (s.setWindows x).now = s.now := rfl
@[simp] theorem State.setWindows_choices (s : State) (x : WindowUnit) : (s.setWindows x).choices = s.choices := rfl
@[simp] theorem State.setWindows_pending (s : State) (x : WindowUnit) : (s.setWindows x).pending = s.pending := rfl
@[simp] theorem State.setWindows_same (s : State) : s.setWindows s.windows = s := rfl
@[simp] theorem State.setWindows_setWindows (s : State) (x y : WindowUnit) : (s.setWindows x).setWindows y = s.setWindows y := rfl

@[simp] theorem State.setLog_marks (s : State) (x : SaveLog) : (s.setLog x).marks = s.marks := rfl
@[simp] theorem State.setLog_windows (s : State) (x : SaveLog) : (s.setLog x).windows = s.windows := rfl
@[simp] theorem State.setLog_log (s : State) (x : SaveLog) : (s.setLog x).log = x := rfl
@[simp] theorem State.setLog_save (s : State) (x : SaveLog) : (s.setLog x).save = s.save := rfl
@[simp] theorem State.setLog_transit (s : State) (x : SaveLog) : (s.setLog x).transit = s.transit := rfl
@[simp] theorem State.setLog_down (s : State) (x : SaveLog) : (s.setLog x).down = s.down := rfl
@[simp] theorem State.setLog_restore (s : State) (x : SaveLog) : (s.setLog x).restore = s.restore := rfl
@[simp] theorem State.setLog_notice (s : State) (x : SaveLog) : (s.setLog x).notice = s.notice := rfl
@[simp] theorem State.setLog_mgmt (s : State) (x : SaveLog) : (s.setLog x).mgmt = s.mgmt := rfl
@[simp] theorem State.setLog_pins (s : State) (x : SaveLog) : (s.setLog x).pins = s.pins := rfl
@[simp] theorem State.setLog_links (s : State) (x : SaveLog) : (s.setLog x).links = s.links := rfl
@[simp] theorem State.setLog_now (s : State) (x : SaveLog) : (s.setLog x).now = s.now := rfl
@[simp] theorem State.setLog_choices (s : State) (x : SaveLog) : (s.setLog x).choices = s.choices := rfl
@[simp] theorem State.setLog_pending (s : State) (x : SaveLog) : (s.setLog x).pending = s.pending := rfl
@[simp] theorem State.setLog_same (s : State) : s.setLog s.log = s := rfl
@[simp] theorem State.setLog_setLog (s : State) (x y : SaveLog) : (s.setLog x).setLog y = s.setLog y := rfl

@[simp] theorem State.setSave_marks (s : State) (x : SaveEngine) : (s.setSave x).marks = s.marks := rfl
@[simp] theorem State.setSave_windows (s : State) (x : SaveEngine) : (s.setSave x).windows = s.windows := rfl
@[simp] theorem State.setSave_log (s : State) (x : SaveEngine) : (s.setSave x).log = s.log := rfl
@[simp] theorem State.setSave_save (s : State) (x : SaveEngine) : (s.setSave x).save = x := rfl
@[simp] theorem State.setSave_transit (s : State) (x : SaveEngine) : (s.setSave x).transit = s.transit := rfl
@[simp] theorem State.setSave_down (s : State) (x : SaveEngine) : (s.setSave x).down = s.down := rfl
@[simp] theorem State.setSave_restore (s : State) (x : SaveEngine) : (s.setSave x).restore = s.restore := rfl
@[simp] theorem State.setSave_notice (s : State) (x : SaveEngine) : (s.setSave x).notice = s.notice := rfl
@[simp] theorem State.setSave_mgmt (s : State) (x : SaveEngine) : (s.setSave x).mgmt = s.mgmt := rfl
@[simp] theorem State.setSave_pins (s : State) (x : SaveEngine) : (s.setSave x).pins = s.pins := rfl
@[simp] theorem State.setSave_links (s : State) (x : SaveEngine) : (s.setSave x).links = s.links := rfl
@[simp] theorem State.setSave_now (s : State) (x : SaveEngine) : (s.setSave x).now = s.now := rfl
@[simp] theorem State.setSave_choices (s : State) (x : SaveEngine) : (s.setSave x).choices = s.choices := rfl
@[simp] theorem State.setSave_pending (s : State) (x : SaveEngine) : (s.setSave x).pending = s.pending := rfl
@[simp] theorem State.setSave_same (s : State) : s.setSave s.save = s := rfl
@[simp] theorem State.setSave_setSave (s : State) (x y : SaveEngine) : (s.setSave x).setSave y = s.setSave y := rfl

@[simp] theorem State.setTransit_marks (s : State) (x : TransitBuffer) : (s.setTransit x).marks = s.marks := rfl
@[simp] theorem State.setTransit_windows (s : State) (x : TransitBuffer) : (s.setTransit x).windows = s.windows := rfl
@[simp] theorem State.setTransit_log (s : State) (x : TransitBuffer) : (s.setTransit x).log = s.log := rfl
@[simp] theorem State.setTransit_save (s : State) (x : TransitBuffer) : (s.setTransit x).save = s.save := rfl
@[simp] theorem State.setTransit_transit (s : State) (x : TransitBuffer) : (s.setTransit x).transit = x := rfl
@[simp] theorem State.setTransit_down (s : State) (x : TransitBuffer) : (s.setTransit x).down = s.down := rfl
@[simp] theorem State.setTransit_restore (s : State) (x : TransitBuffer) : (s.setTransit x).restore = s.restore := rfl
@[simp] theorem State.setTransit_notice (s : State) (x : TransitBuffer) : (s.setTransit x).notice = s.notice := rfl
@[simp] theorem State.setTransit_mgmt (s : State) (x : TransitBuffer) : (s.setTransit x).mgmt = s.mgmt := rfl
@[simp] theorem State.setTransit_pins (s : State) (x : TransitBuffer) : (s.setTransit x).pins = s.pins := rfl
@[simp] theorem State.setTransit_links (s : State) (x : TransitBuffer) : (s.setTransit x).links = s.links := rfl
@[simp] theorem State.setTransit_now (s : State) (x : TransitBuffer) : (s.setTransit x).now = s.now := rfl
@[simp] theorem State.setTransit_choices (s : State) (x : TransitBuffer) : (s.setTransit x).choices = s.choices := rfl
@[simp] theorem State.setTransit_pending (s : State) (x : TransitBuffer) : (s.setTransit x).pending = s.pending := rfl
@[simp] theorem State.setTransit_same (s : State) : s.setTransit s.transit = s := rfl
@[simp] theorem State.setTransit_setTransit (s : State) (x y : TransitBuffer) : (s.setTransit x).setTransit y = s.setTransit y := rfl

@[simp] theorem State.setDown_marks (s : State) (x : DownstreamPort) : (s.setDown x).marks = s.marks := rfl
@[simp] theorem State.setDown_windows (s : State) (x : DownstreamPort) : (s.setDown x).windows = s.windows := rfl
@[simp] theorem State.setDown_log (s : State) (x : DownstreamPort) : (s.setDown x).log = s.log := rfl
@[simp] theorem State.setDown_save (s : State) (x : DownstreamPort) : (s.setDown x).save = s.save := rfl
@[simp] theorem State.setDown_transit (s : State) (x : DownstreamPort) : (s.setDown x).transit = s.transit := rfl
@[simp] theorem State.setDown_down (s : State) (x : DownstreamPort) : (s.setDown x).down = x := rfl
@[simp] theorem State.setDown_restore (s : State) (x : DownstreamPort) : (s.setDown x).restore = s.restore := rfl
@[simp] theorem State.setDown_notice (s : State) (x : DownstreamPort) : (s.setDown x).notice = s.notice := rfl
@[simp] theorem State.setDown_mgmt (s : State) (x : DownstreamPort) : (s.setDown x).mgmt = s.mgmt := rfl
@[simp] theorem State.setDown_pins (s : State) (x : DownstreamPort) : (s.setDown x).pins = s.pins := rfl
@[simp] theorem State.setDown_links (s : State) (x : DownstreamPort) : (s.setDown x).links = s.links := rfl
@[simp] theorem State.setDown_now (s : State) (x : DownstreamPort) : (s.setDown x).now = s.now := rfl
@[simp] theorem State.setDown_choices (s : State) (x : DownstreamPort) : (s.setDown x).choices = s.choices := rfl
@[simp] theorem State.setDown_pending (s : State) (x : DownstreamPort) : (s.setDown x).pending = s.pending := rfl
@[simp] theorem State.setDown_same (s : State) : s.setDown s.down = s := rfl
@[simp] theorem State.setDown_setDown (s : State) (x y : DownstreamPort) : (s.setDown x).setDown y = s.setDown y := rfl

@[simp] theorem State.setRestore_marks (s : State) (x : RestoreEngine) : (s.setRestore x).marks = s.marks := rfl
@[simp] theorem State.setRestore_windows (s : State) (x : RestoreEngine) : (s.setRestore x).windows = s.windows := rfl
@[simp] theorem State.setRestore_log (s : State) (x : RestoreEngine) : (s.setRestore x).log = s.log := rfl
@[simp] theorem State.setRestore_save (s : State) (x : RestoreEngine) : (s.setRestore x).save = s.save := rfl
@[simp] theorem State.setRestore_transit (s : State) (x : RestoreEngine) : (s.setRestore x).transit = s.transit := rfl
@[simp] theorem State.setRestore_down (s : State) (x : RestoreEngine) : (s.setRestore x).down = s.down := rfl
@[simp] theorem State.setRestore_restore (s : State) (x : RestoreEngine) : (s.setRestore x).restore = x := rfl
@[simp] theorem State.setRestore_notice (s : State) (x : RestoreEngine) : (s.setRestore x).notice = s.notice := rfl
@[simp] theorem State.setRestore_mgmt (s : State) (x : RestoreEngine) : (s.setRestore x).mgmt = s.mgmt := rfl
@[simp] theorem State.setRestore_pins (s : State) (x : RestoreEngine) : (s.setRestore x).pins = s.pins := rfl
@[simp] theorem State.setRestore_links (s : State) (x : RestoreEngine) : (s.setRestore x).links = s.links := rfl
@[simp] theorem State.setRestore_now (s : State) (x : RestoreEngine) : (s.setRestore x).now = s.now := rfl
@[simp] theorem State.setRestore_choices (s : State) (x : RestoreEngine) : (s.setRestore x).choices = s.choices := rfl
@[simp] theorem State.setRestore_pending (s : State) (x : RestoreEngine) : (s.setRestore x).pending = s.pending := rfl
@[simp] theorem State.setRestore_same (s : State) : s.setRestore s.restore = s := rfl
@[simp] theorem State.setRestore_setRestore (s : State) (x y : RestoreEngine) : (s.setRestore x).setRestore y = s.setRestore y := rfl

@[simp] theorem State.setNotice_marks (s : State) (x : NoticeUnit) : (s.setNotice x).marks = s.marks := rfl
@[simp] theorem State.setNotice_windows (s : State) (x : NoticeUnit) : (s.setNotice x).windows = s.windows := rfl
@[simp] theorem State.setNotice_log (s : State) (x : NoticeUnit) : (s.setNotice x).log = s.log := rfl
@[simp] theorem State.setNotice_save (s : State) (x : NoticeUnit) : (s.setNotice x).save = s.save := rfl
@[simp] theorem State.setNotice_transit (s : State) (x : NoticeUnit) : (s.setNotice x).transit = s.transit := rfl
@[simp] theorem State.setNotice_down (s : State) (x : NoticeUnit) : (s.setNotice x).down = s.down := rfl
@[simp] theorem State.setNotice_restore (s : State) (x : NoticeUnit) : (s.setNotice x).restore = s.restore := rfl
@[simp] theorem State.setNotice_notice (s : State) (x : NoticeUnit) : (s.setNotice x).notice = x := rfl
@[simp] theorem State.setNotice_mgmt (s : State) (x : NoticeUnit) : (s.setNotice x).mgmt = s.mgmt := rfl
@[simp] theorem State.setNotice_pins (s : State) (x : NoticeUnit) : (s.setNotice x).pins = s.pins := rfl
@[simp] theorem State.setNotice_links (s : State) (x : NoticeUnit) : (s.setNotice x).links = s.links := rfl
@[simp] theorem State.setNotice_now (s : State) (x : NoticeUnit) : (s.setNotice x).now = s.now := rfl
@[simp] theorem State.setNotice_choices (s : State) (x : NoticeUnit) : (s.setNotice x).choices = s.choices := rfl
@[simp] theorem State.setNotice_pending (s : State) (x : NoticeUnit) : (s.setNotice x).pending = s.pending := rfl
@[simp] theorem State.setNotice_same (s : State) : s.setNotice s.notice = s := rfl
@[simp] theorem State.setNotice_setNotice (s : State) (x y : NoticeUnit) : (s.setNotice x).setNotice y = s.setNotice y := rfl

@[simp] theorem State.setMgmt_marks (s : State) (x : ManagementPort) : (s.setMgmt x).marks = s.marks := rfl
@[simp] theorem State.setMgmt_windows (s : State) (x : ManagementPort) : (s.setMgmt x).windows = s.windows := rfl
@[simp] theorem State.setMgmt_log (s : State) (x : ManagementPort) : (s.setMgmt x).log = s.log := rfl
@[simp] theorem State.setMgmt_save (s : State) (x : ManagementPort) : (s.setMgmt x).save = s.save := rfl
@[simp] theorem State.setMgmt_transit (s : State) (x : ManagementPort) : (s.setMgmt x).transit = s.transit := rfl
@[simp] theorem State.setMgmt_down (s : State) (x : ManagementPort) : (s.setMgmt x).down = s.down := rfl
@[simp] theorem State.setMgmt_restore (s : State) (x : ManagementPort) : (s.setMgmt x).restore = s.restore := rfl
@[simp] theorem State.setMgmt_notice (s : State) (x : ManagementPort) : (s.setMgmt x).notice = s.notice := rfl
@[simp] theorem State.setMgmt_mgmt (s : State) (x : ManagementPort) : (s.setMgmt x).mgmt = x := rfl
@[simp] theorem State.setMgmt_pins (s : State) (x : ManagementPort) : (s.setMgmt x).pins = s.pins := rfl
@[simp] theorem State.setMgmt_links (s : State) (x : ManagementPort) : (s.setMgmt x).links = s.links := rfl
@[simp] theorem State.setMgmt_now (s : State) (x : ManagementPort) : (s.setMgmt x).now = s.now := rfl
@[simp] theorem State.setMgmt_choices (s : State) (x : ManagementPort) : (s.setMgmt x).choices = s.choices := rfl
@[simp] theorem State.setMgmt_pending (s : State) (x : ManagementPort) : (s.setMgmt x).pending = s.pending := rfl
@[simp] theorem State.setMgmt_same (s : State) : s.setMgmt s.mgmt = s := rfl
@[simp] theorem State.setMgmt_setMgmt (s : State) (x y : ManagementPort) : (s.setMgmt x).setMgmt y = s.setMgmt y := rfl

@[simp] theorem State.setPins_marks (s : State) (x : Pins) : (s.setPins x).marks = s.marks := rfl
@[simp] theorem State.setPins_windows (s : State) (x : Pins) : (s.setPins x).windows = s.windows := rfl
@[simp] theorem State.setPins_log (s : State) (x : Pins) : (s.setPins x).log = s.log := rfl
@[simp] theorem State.setPins_save (s : State) (x : Pins) : (s.setPins x).save = s.save := rfl
@[simp] theorem State.setPins_transit (s : State) (x : Pins) : (s.setPins x).transit = s.transit := rfl
@[simp] theorem State.setPins_down (s : State) (x : Pins) : (s.setPins x).down = s.down := rfl
@[simp] theorem State.setPins_restore (s : State) (x : Pins) : (s.setPins x).restore = s.restore := rfl
@[simp] theorem State.setPins_notice (s : State) (x : Pins) : (s.setPins x).notice = s.notice := rfl
@[simp] theorem State.setPins_mgmt (s : State) (x : Pins) : (s.setPins x).mgmt = s.mgmt := rfl
@[simp] theorem State.setPins_pins (s : State) (x : Pins) : (s.setPins x).pins = x := rfl
@[simp] theorem State.setPins_links (s : State) (x : Pins) : (s.setPins x).links = s.links := rfl
@[simp] theorem State.setPins_now (s : State) (x : Pins) : (s.setPins x).now = s.now := rfl
@[simp] theorem State.setPins_choices (s : State) (x : Pins) : (s.setPins x).choices = s.choices := rfl
@[simp] theorem State.setPins_pending (s : State) (x : Pins) : (s.setPins x).pending = s.pending := rfl
@[simp] theorem State.setPins_same (s : State) : s.setPins s.pins = s := rfl
@[simp] theorem State.setPins_setPins (s : State) (x y : Pins) : (s.setPins x).setPins y = s.setPins y := rfl

@[simp] theorem State.setLinks_marks (s : State) (x : Links) : (s.setLinks x).marks = s.marks := rfl
@[simp] theorem State.setLinks_windows (s : State) (x : Links) : (s.setLinks x).windows = s.windows := rfl
@[simp] theorem State.setLinks_log (s : State) (x : Links) : (s.setLinks x).log = s.log := rfl
@[simp] theorem State.setLinks_save (s : State) (x : Links) : (s.setLinks x).save = s.save := rfl
@[simp] theorem State.setLinks_transit (s : State) (x : Links) : (s.setLinks x).transit = s.transit := rfl
@[simp] theorem State.setLinks_down (s : State) (x : Links) : (s.setLinks x).down = s.down := rfl
@[simp] theorem State.setLinks_restore (s : State) (x : Links) : (s.setLinks x).restore = s.restore := rfl
@[simp] theorem State.setLinks_notice (s : State) (x : Links) : (s.setLinks x).notice = s.notice := rfl
@[simp] theorem State.setLinks_mgmt (s : State) (x : Links) : (s.setLinks x).mgmt = s.mgmt := rfl
@[simp] theorem State.setLinks_pins (s : State) (x : Links) : (s.setLinks x).pins = s.pins := rfl
@[simp] theorem State.setLinks_links (s : State) (x : Links) : (s.setLinks x).links = x := rfl
@[simp] theorem State.setLinks_now (s : State) (x : Links) : (s.setLinks x).now = s.now := rfl
@[simp] theorem State.setLinks_choices (s : State) (x : Links) : (s.setLinks x).choices = s.choices := rfl
@[simp] theorem State.setLinks_pending (s : State) (x : Links) : (s.setLinks x).pending = s.pending := rfl
@[simp] theorem State.setLinks_same (s : State) : s.setLinks s.links = s := rfl
@[simp] theorem State.setLinks_setLinks (s : State) (x y : Links) : (s.setLinks x).setLinks y = s.setLinks y := rfl

@[simp] theorem State.setNow_marks (s : State) (x : Nat) : (s.setNow x).marks = s.marks := rfl
@[simp] theorem State.setNow_windows (s : State) (x : Nat) : (s.setNow x).windows = s.windows := rfl
@[simp] theorem State.setNow_log (s : State) (x : Nat) : (s.setNow x).log = s.log := rfl
@[simp] theorem State.setNow_save (s : State) (x : Nat) : (s.setNow x).save = s.save := rfl
@[simp] theorem State.setNow_transit (s : State) (x : Nat) : (s.setNow x).transit = s.transit := rfl
@[simp] theorem State.setNow_down (s : State) (x : Nat) : (s.setNow x).down = s.down := rfl
@[simp] theorem State.setNow_restore (s : State) (x : Nat) : (s.setNow x).restore = s.restore := rfl
@[simp] theorem State.setNow_notice (s : State) (x : Nat) : (s.setNow x).notice = s.notice := rfl
@[simp] theorem State.setNow_mgmt (s : State) (x : Nat) : (s.setNow x).mgmt = s.mgmt := rfl
@[simp] theorem State.setNow_pins (s : State) (x : Nat) : (s.setNow x).pins = s.pins := rfl
@[simp] theorem State.setNow_links (s : State) (x : Nat) : (s.setNow x).links = s.links := rfl
@[simp] theorem State.setNow_now (s : State) (x : Nat) : (s.setNow x).now = x := rfl
@[simp] theorem State.setNow_choices (s : State) (x : Nat) : (s.setNow x).choices = s.choices := rfl
@[simp] theorem State.setNow_pending (s : State) (x : Nat) : (s.setNow x).pending = s.pending := rfl
@[simp] theorem State.setNow_same (s : State) : s.setNow s.now = s := rfl
@[simp] theorem State.setNow_setNow (s : State) (x y : Nat) : (s.setNow x).setNow y = s.setNow y := rfl

@[simp] theorem State.setChoices_marks (s : State) (x : Nat) : (s.setChoices x).marks = s.marks := rfl
@[simp] theorem State.setChoices_windows (s : State) (x : Nat) : (s.setChoices x).windows = s.windows := rfl
@[simp] theorem State.setChoices_log (s : State) (x : Nat) : (s.setChoices x).log = s.log := rfl
@[simp] theorem State.setChoices_save (s : State) (x : Nat) : (s.setChoices x).save = s.save := rfl
@[simp] theorem State.setChoices_transit (s : State) (x : Nat) : (s.setChoices x).transit = s.transit := rfl
@[simp] theorem State.setChoices_down (s : State) (x : Nat) : (s.setChoices x).down = s.down := rfl
@[simp] theorem State.setChoices_restore (s : State) (x : Nat) : (s.setChoices x).restore = s.restore := rfl
@[simp] theorem State.setChoices_notice (s : State) (x : Nat) : (s.setChoices x).notice = s.notice := rfl
@[simp] theorem State.setChoices_mgmt (s : State) (x : Nat) : (s.setChoices x).mgmt = s.mgmt := rfl
@[simp] theorem State.setChoices_pins (s : State) (x : Nat) : (s.setChoices x).pins = s.pins := rfl
@[simp] theorem State.setChoices_links (s : State) (x : Nat) : (s.setChoices x).links = s.links := rfl
@[simp] theorem State.setChoices_now (s : State) (x : Nat) : (s.setChoices x).now = s.now := rfl
@[simp] theorem State.setChoices_choices (s : State) (x : Nat) : (s.setChoices x).choices = x := rfl
@[simp] theorem State.setChoices_pending (s : State) (x : Nat) : (s.setChoices x).pending = s.pending := rfl
@[simp] theorem State.setChoices_same (s : State) : s.setChoices s.choices = s := rfl
@[simp] theorem State.setChoices_setChoices (s : State) (x y : Nat) : (s.setChoices x).setChoices y = s.setChoices y := rfl

@[simp] theorem State.setPending_marks (s : State) (x : List Instr) : (s.setPending x).marks = s.marks := rfl
@[simp] theorem State.setPending_windows (s : State) (x : List Instr) : (s.setPending x).windows = s.windows := rfl
@[simp] theorem State.setPending_log (s : State) (x : List Instr) : (s.setPending x).log = s.log := rfl
@[simp] theorem State.setPending_save (s : State) (x : List Instr) : (s.setPending x).save = s.save := rfl
@[simp] theorem State.setPending_transit (s : State) (x : List Instr) : (s.setPending x).transit = s.transit := rfl
@[simp] theorem State.setPending_down (s : State) (x : List Instr) : (s.setPending x).down = s.down := rfl
@[simp] theorem State.setPending_restore (s : State) (x : List Instr) : (s.setPending x).restore = s.restore := rfl
@[simp] theorem State.setPending_notice (s : State) (x : List Instr) : (s.setPending x).notice = s.notice := rfl
@[simp] theorem State.setPending_mgmt (s : State) (x : List Instr) : (s.setPending x).mgmt = s.mgmt := rfl
@[simp] theorem State.setPending_pins (s : State) (x : List Instr) : (s.setPending x).pins = s.pins := rfl
@[simp] theorem State.setPending_links (s : State) (x : List Instr) : (s.setPending x).links = s.links := rfl
@[simp] theorem State.setPending_now (s : State) (x : List Instr) : (s.setPending x).now = s.now := rfl
@[simp] theorem State.setPending_choices (s : State) (x : List Instr) : (s.setPending x).choices = s.choices := rfl
@[simp] theorem State.setPending_pending (s : State) (x : List Instr) : (s.setPending x).pending = x := rfl
@[simp] theorem State.setPending_same (s : State) : s.setPending s.pending = s := rfl
@[simp] theorem State.setPending_setPending (s : State) (x y : List Instr) : (s.setPending x).setPending y = s.setPending y := rfl

end Sys2Proof.Machine
end

