-- ==== Sys2Proof/Laws/Keeps.lean ====
section
/-! SUPPORT. For each shared operation, the fields of State it leaves as they are, whatever the state it starts from:
each lemma rewrites every such field at once. -/

namespace Sys2Proof.Machine

/-! ### Tables, counters and links (Ops) -/

@[simp] theorem State.writeMap_keeps (s : State) (i v : Nat) :
    (s.writeMap i v).marks = s.marks ∧ (s.writeMap i v).log = s.log ∧ (s.writeMap i v).save = s.save ∧
    (s.writeMap i v).transit = s.transit ∧ (s.writeMap i v).down = s.down ∧ (s.writeMap i v).restore = s.restore ∧
    (s.writeMap i v).notice = s.notice ∧ (s.writeMap i v).mgmt = s.mgmt ∧ (s.writeMap i v).pins = s.pins ∧
    (s.writeMap i v).links = s.links ∧ (s.writeMap i v).now = s.now ∧ (s.writeMap i v).choices = s.choices ∧
    (s.writeMap i v).pending = s.pending := by
  simp [State.writeMap]

@[simp] theorem State.setEntries_keeps (s : State) (es : List TransitEntry) :
    (s.setEntries es).marks = s.marks ∧ (s.setEntries es).windows = s.windows ∧ (s.setEntries es).log = s.log ∧
    (s.setEntries es).save = s.save ∧ (s.setEntries es).down = s.down ∧ (s.setEntries es).restore = s.restore ∧
    (s.setEntries es).notice = s.notice ∧ (s.setEntries es).mgmt = s.mgmt ∧ (s.setEntries es).pins = s.pins ∧
    (s.setEntries es).links = s.links ∧ (s.setEntries es).now = s.now ∧ (s.setEntries es).choices = s.choices ∧
    (s.setEntries es).pending = s.pending := by
  simp [State.setEntries]

@[simp] theorem State.updateEntry_keeps (s : State) (o : Nat) (f : TransitEntry → TransitEntry) :
    (s.updateEntry o f).marks = s.marks ∧ (s.updateEntry o f).windows = s.windows ∧
    (s.updateEntry o f).log = s.log ∧ (s.updateEntry o f).save = s.save ∧ (s.updateEntry o f).down = s.down ∧
    (s.updateEntry o f).restore = s.restore ∧ (s.updateEntry o f).notice = s.notice ∧
    (s.updateEntry o f).mgmt = s.mgmt ∧ (s.updateEntry o f).pins = s.pins ∧ (s.updateEntry o f).links = s.links ∧
    (s.updateEntry o f).now = s.now ∧ (s.updateEntry o f).choices = s.choices ∧
    (s.updateEntry o f).pending = s.pending := by
  simp [State.updateEntry]

@[simp] theorem State.updateEntries_keeps (s : State) (f : TransitEntry → TransitEntry) :
    (s.updateEntries f).marks = s.marks ∧ (s.updateEntries f).windows = s.windows ∧
    (s.updateEntries f).log = s.log ∧ (s.updateEntries f).save = s.save ∧ (s.updateEntries f).down = s.down ∧
    (s.updateEntries f).restore = s.restore ∧ (s.updateEntries f).notice = s.notice ∧
    (s.updateEntries f).mgmt = s.mgmt ∧ (s.updateEntries f).pins = s.pins ∧ (s.updateEntries f).links = s.links ∧
    (s.updateEntries f).now = s.now ∧ (s.updateEntries f).choices = s.choices ∧
    (s.updateEntries f).pending = s.pending := by
  simp [State.updateEntries]

@[simp] theorem State.putContext_keeps (s : State) (c : ContextNo) (x : SaveContext) :
    (s.putContext c x).marks = s.marks ∧ (s.putContext c x).windows = s.windows ∧ (s.putContext c x).log = s.log ∧
    (s.putContext c x).transit = s.transit ∧ (s.putContext c x).down = s.down ∧
    (s.putContext c x).restore = s.restore ∧ (s.putContext c x).notice = s.notice ∧
    (s.putContext c x).mgmt = s.mgmt ∧ (s.putContext c x).pins = s.pins ∧ (s.putContext c x).links = s.links ∧
    (s.putContext c x).now = s.now ∧ (s.putContext c x).choices = s.choices ∧ (s.putContext c x).pending = s.pending := by
  simp [State.putContext]

@[simp] theorem State.setTag_keeps (s : State) (t : TagNo) (x : TagEntry) :
    (s.setTag t x).marks = s.marks ∧ (s.setTag t x).windows = s.windows ∧ (s.setTag t x).log = s.log ∧
    (s.setTag t x).save = s.save ∧ (s.setTag t x).transit = s.transit ∧ (s.setTag t x).restore = s.restore ∧
    (s.setTag t x).notice = s.notice ∧ (s.setTag t x).mgmt = s.mgmt ∧ (s.setTag t x).pins = s.pins ∧
    (s.setTag t x).links = s.links ∧ (s.setTag t x).now = s.now ∧ (s.setTag t x).choices = s.choices ∧
    (s.setTag t x).pending = s.pending := by
  simp [State.setTag]

@[simp] theorem State.setCounters_keeps (s : State) (c : Counters) :
    (s.setCounters c).marks = s.marks ∧ (s.setCounters c).windows = s.windows ∧ (s.setCounters c).log = s.log ∧
    (s.setCounters c).save = s.save ∧ (s.setCounters c).transit = s.transit ∧ (s.setCounters c).down = s.down ∧
    (s.setCounters c).restore = s.restore ∧ (s.setCounters c).mgmt = s.mgmt ∧ (s.setCounters c).pins = s.pins ∧
    (s.setCounters c).links = s.links ∧ (s.setCounters c).now = s.now ∧ (s.setCounters c).choices = s.choices ∧
    (s.setCounters c).pending = s.pending := by
  simp [State.setCounters]

@[simp] theorem State.countSaveCompleted_keeps (s : State) :
    s.countSaveCompleted.marks = s.marks ∧ s.countSaveCompleted.windows = s.windows ∧
    s.countSaveCompleted.log = s.log ∧ s.countSaveCompleted.save = s.save ∧
    s.countSaveCompleted.transit = s.transit ∧ s.countSaveCompleted.down = s.down ∧
    s.countSaveCompleted.restore = s.restore ∧ s.countSaveCompleted.mgmt = s.mgmt ∧
    s.countSaveCompleted.pins = s.pins ∧ s.countSaveCompleted.links = s.links ∧ s.countSaveCompleted.now = s.now ∧
    s.countSaveCompleted.choices = s.choices ∧ s.countSaveCompleted.pending = s.pending := by
  simp [State.countSaveCompleted]

@[simp] theorem State.countSaveFailed_keeps (s : State) :
    s.countSaveFailed.marks = s.marks ∧ s.countSaveFailed.windows = s.windows ∧ s.countSaveFailed.log = s.log ∧
    s.countSaveFailed.save = s.save ∧ s.countSaveFailed.transit = s.transit ∧ s.countSaveFailed.down = s.down ∧
    s.countSaveFailed.restore = s.restore ∧ s.countSaveFailed.mgmt = s.mgmt ∧ s.countSaveFailed.pins = s.pins ∧
    s.countSaveFailed.links = s.links ∧ s.countSaveFailed.now = s.now ∧ s.countSaveFailed.choices = s.choices ∧
    s.countSaveFailed.pending = s.pending := by
  simp [State.countSaveFailed]

@[simp] theorem State.countWriteHeld_keeps (s : State) :
    s.countWriteHeld.marks = s.marks ∧ s.countWriteHeld.windows = s.windows ∧ s.countWriteHeld.log = s.log ∧
    s.countWriteHeld.save = s.save ∧ s.countWriteHeld.transit = s.transit ∧ s.countWriteHeld.down = s.down ∧
    s.countWriteHeld.restore = s.restore ∧ s.countWriteHeld.mgmt = s.mgmt ∧ s.countWriteHeld.pins = s.pins ∧
    s.countWriteHeld.links = s.links ∧ s.countWriteHeld.now = s.now ∧ s.countWriteHeld.choices = s.choices ∧
    s.countWriteHeld.pending = s.pending := by
  simp [State.countWriteHeld]

@[simp] theorem State.countRequestDenied_keeps (s : State) :
    s.countRequestDenied.marks = s.marks ∧ s.countRequestDenied.windows = s.windows ∧
    s.countRequestDenied.log = s.log ∧ s.countRequestDenied.save = s.save ∧
    s.countRequestDenied.transit = s.transit ∧ s.countRequestDenied.down = s.down ∧
    s.countRequestDenied.restore = s.restore ∧ s.countRequestDenied.mgmt = s.mgmt ∧
    s.countRequestDenied.pins = s.pins ∧ s.countRequestDenied.links = s.links ∧ s.countRequestDenied.now = s.now ∧
    s.countRequestDenied.choices = s.choices ∧ s.countRequestDenied.pending = s.pending := by
  simp [State.countRequestDenied]

@[simp] theorem State.countResponseTimedOut_keeps (s : State) :
    s.countResponseTimedOut.marks = s.marks ∧ s.countResponseTimedOut.windows = s.windows ∧
    s.countResponseTimedOut.log = s.log ∧ s.countResponseTimedOut.save = s.save ∧
    s.countResponseTimedOut.transit = s.transit ∧ s.countResponseTimedOut.down = s.down ∧
    s.countResponseTimedOut.restore = s.restore ∧ s.countResponseTimedOut.mgmt = s.mgmt ∧
    s.countResponseTimedOut.pins = s.pins ∧ s.countResponseTimedOut.links = s.links ∧
    s.countResponseTimedOut.now = s.now ∧ s.countResponseTimedOut.choices = s.choices ∧
    s.countResponseTimedOut.pending = s.pending := by
  simp [State.countResponseTimedOut]

@[simp] theorem State.countRecordRestored_keeps (s : State) :
    s.countRecordRestored.marks = s.marks ∧ s.countRecordRestored.windows = s.windows ∧
    s.countRecordRestored.log = s.log ∧ s.countRecordRestored.save = s.save ∧
    s.countRecordRestored.transit = s.transit ∧ s.countRecordRestored.down = s.down ∧
    s.countRecordRestored.restore = s.restore ∧ s.countRecordRestored.mgmt = s.mgmt ∧
    s.countRecordRestored.pins = s.pins ∧ s.countRecordRestored.links = s.links ∧
    s.countRecordRestored.now = s.now ∧ s.countRecordRestored.choices = s.choices ∧
    s.countRecordRestored.pending = s.pending := by
  simp [State.countRecordRestored]

@[simp] theorem State.respond_keeps (s : State) (r : UpstreamResponse) :
    (s.respond r).marks = s.marks ∧ (s.respond r).windows = s.windows ∧ (s.respond r).log = s.log ∧
    (s.respond r).save = s.save ∧ (s.respond r).transit = s.transit ∧ (s.respond r).down = s.down ∧
    (s.respond r).restore = s.restore ∧ (s.respond r).notice = s.notice ∧ (s.respond r).mgmt = s.mgmt ∧
    (s.respond r).pins = s.pins ∧ (s.respond r).now = s.now ∧ (s.respond r).choices = s.choices ∧
    (s.respond r).pending = s.pending := by
  simp [State.respond]

@[simp] theorem State.send_keeps (s : State) (r : DownstreamRequest) :
    (s.send r).marks = s.marks ∧ (s.send r).windows = s.windows ∧ (s.send r).log = s.log ∧
    (s.send r).save = s.save ∧ (s.send r).transit = s.transit ∧ (s.send r).down = s.down ∧
    (s.send r).restore = s.restore ∧ (s.send r).notice = s.notice ∧ (s.send r).mgmt = s.mgmt ∧
    (s.send r).pins = s.pins ∧ (s.send r).now = s.now ∧ (s.send r).choices = s.choices ∧
    (s.send r).pending = s.pending := by
  simp [State.send]

/-! ### Notices -/

@[simp] theorem State.updateLine_keeps (s : State) :
    s.updateLine.marks = s.marks ∧ s.updateLine.windows = s.windows ∧ s.updateLine.log = s.log ∧
    s.updateLine.save = s.save ∧ s.updateLine.transit = s.transit ∧ s.updateLine.down = s.down ∧
    s.updateLine.restore = s.restore ∧ s.updateLine.mgmt = s.mgmt ∧ s.updateLine.pins = s.pins ∧
    s.updateLine.links = s.links ∧ s.updateLine.now = s.now ∧ s.updateLine.choices = s.choices ∧
    s.updateLine.pending = s.pending := by
  simp [State.updateLine]

@[simp] theorem takePost_keeps (s : State) (k : NoticeKind) (v : Nat) :
    (takePost s k v).marks = s.marks ∧ (takePost s k v).windows = s.windows ∧ (takePost s k v).log = s.log ∧
    (takePost s k v).save = s.save ∧ (takePost s k v).transit = s.transit ∧ (takePost s k v).down = s.down ∧
    (takePost s k v).restore = s.restore ∧ (takePost s k v).mgmt = s.mgmt ∧ (takePost s k v).pins = s.pins ∧
    (takePost s k v).links = s.links ∧ (takePost s k v).now = s.now ∧ (takePost s k v).choices = s.choices ∧
    (takePost s k v).pending = s.pending := by
  unfold takePost
  split <;> simp

/-- Choosing the next post changes nothing but the count of choices (log 8). -/
theorem choosePost_state (p : Post) (ps : List Post) (s : State) :
    ∃ n, (choosePost p ps s).2 = { s with choices := n } := by
  unfold choosePost
  split
  · exact ⟨s.choices, rfl⟩
  · exact ⟨s.choices + 1, rfl⟩

/-- Choosing a level changes nothing but the count of choices (log 8). -/
theorem chooseLevel_state (b : Block) (old : Nat) (mayBeOld : Bool) (s : State) :
    ∃ n, (chooseLevel b old mayBeOld s).2.2 = { s with choices := n } := by
  unfold chooseLevel
  dsimp only
  (repeat' split)
  · exact ⟨s.choices, rfl⟩
  · exact ⟨s.choices + 1, rfl⟩
  · exact ⟨s.choices + 1, rfl⟩

@[simp] theorem takePosts_keeps (n old : Nat) (mayBeOld : Bool) (ps : List Post) (s : State) :
    (takePosts n old mayBeOld ps s).marks = s.marks ∧ (takePosts n old mayBeOld ps s).windows = s.windows ∧
    (takePosts n old mayBeOld ps s).log = s.log ∧ (takePosts n old mayBeOld ps s).save = s.save ∧
    (takePosts n old mayBeOld ps s).transit = s.transit ∧ (takePosts n old mayBeOld ps s).down = s.down ∧
    (takePosts n old mayBeOld ps s).restore = s.restore ∧ (takePosts n old mayBeOld ps s).mgmt = s.mgmt ∧
    (takePosts n old mayBeOld ps s).pins = s.pins ∧ (takePosts n old mayBeOld ps s).links = s.links ∧
    (takePosts n old mayBeOld ps s).now = s.now ∧ (takePosts n old mayBeOld ps s).pending = s.pending := by
  induction n generalizing mayBeOld ps s with
  | zero => simp [takePosts]
  | succ n ih =>
    unfold takePosts
    split
    · simp
    · rename_i first others _
      obtain ⟨a, ha⟩ := choosePost_state first others s
      obtain ⟨b, hb⟩ := chooseLevel_state (choosePost first others s).1.block old mayBeOld { s with choices := a }
      simp [ih, ha, hb]

/-- A happening leaves what its steps reach, but for the notice unit, which takes the posts, and the count of choices. -/
@[simp] theorem happening_keeps (s : State) (f : Happening → Happening) :
    (happening s f).marks = (f (Happening.start s)).state.marks ∧
    (happening s f).windows = (f (Happening.start s)).state.windows ∧
    (happening s f).log = (f (Happening.start s)).state.log ∧
    (happening s f).save = (f (Happening.start s)).state.save ∧
    (happening s f).transit = (f (Happening.start s)).state.transit ∧
    (happening s f).down = (f (Happening.start s)).state.down ∧
    (happening s f).restore = (f (Happening.start s)).state.restore ∧
    (happening s f).mgmt = (f (Happening.start s)).state.mgmt ∧
    (happening s f).pins = (f (Happening.start s)).state.pins ∧
    (happening s f).links = (f (Happening.start s)).state.links ∧
    (happening s f).now = (f (Happening.start s)).state.now ∧
    (happening s f).pending = (f (Happening.start s)).state.pending := by
  simp [happening, Happening.finish]

/-! ### Frames and replies -/

@[simp] theorem State.driveCommandPeriod_keeps (s : State) (n : Nat) :
    (s.driveCommandPeriod n).marks = s.marks ∧ (s.driveCommandPeriod n).windows = s.windows ∧
    (s.driveCommandPeriod n).log = s.log ∧ (s.driveCommandPeriod n).save = s.save ∧
    (s.driveCommandPeriod n).transit = s.transit ∧ (s.driveCommandPeriod n).down = s.down ∧
    (s.driveCommandPeriod n).restore = s.restore ∧ (s.driveCommandPeriod n).notice = s.notice ∧
    (s.driveCommandPeriod n).mgmt = s.mgmt ∧ (s.driveCommandPeriod n).links = s.links ∧
    (s.driveCommandPeriod n).now = s.now ∧ (s.driveCommandPeriod n).choices = s.choices ∧
    (s.driveCommandPeriod n).pending = s.pending := by
  simp [State.driveCommandPeriod]

@[simp] theorem State.reply_keeps (s : State) (r : Byte) (st : Status) (p : List Byte) :
    (s.reply r st p).marks = s.marks ∧ (s.reply r st p).windows = s.windows ∧ (s.reply r st p).log = s.log ∧
    (s.reply r st p).save = s.save ∧ (s.reply r st p).transit = s.transit ∧ (s.reply r st p).down = s.down ∧
    (s.reply r st p).restore = s.restore ∧ (s.reply r st p).notice = s.notice ∧ (s.reply r st p).pins = s.pins ∧
    (s.reply r st p).links = s.links ∧ (s.reply r st p).now = s.now ∧ (s.reply r st p).choices = s.choices ∧
    (s.reply r st p).pending = s.pending := by
  simp [State.reply]

/-! ### Windows and the log -/

@[simp] theorem State.setWindow_keeps (s : State) (w : WindowNo) (r : WindowRecord) :
    (s.setWindow w r).marks = s.marks ∧ (s.setWindow w r).log = s.log ∧ (s.setWindow w r).save = s.save ∧
    (s.setWindow w r).transit = s.transit ∧ (s.setWindow w r).down = s.down ∧
    (s.setWindow w r).restore = s.restore ∧ (s.setWindow w r).notice = s.notice ∧ (s.setWindow w r).mgmt = s.mgmt ∧
    (s.setWindow w r).pins = s.pins ∧ (s.setWindow w r).links = s.links ∧ (s.setWindow w r).now = s.now ∧
    (s.setWindow w r).choices = s.choices ∧ (s.setWindow w r).pending = s.pending := by
  simp [State.setWindow]

@[simp] theorem State.truncateLog_keeps (s : State) (o q : Nat) :
    (s.truncateLog o q).marks = s.marks ∧ (s.truncateLog o q).windows = s.windows ∧
    (s.truncateLog o q).save = s.save ∧ (s.truncateLog o q).transit = s.transit ∧
    (s.truncateLog o q).down = s.down ∧ (s.truncateLog o q).restore = s.restore ∧
    (s.truncateLog o q).notice = s.notice ∧ (s.truncateLog o q).mgmt = s.mgmt ∧ (s.truncateLog o q).pins = s.pins ∧
    (s.truncateLog o q).links = s.links ∧ (s.truncateLog o q).now = s.now ∧
    (s.truncateLog o q).choices = s.choices ∧ (s.truncateLog o q).pending = s.pending := by
  simp [State.truncateLog]

@[simp] theorem State.emptyLog_keeps (s : State) :
    s.emptyLog.marks = s.marks ∧ s.emptyLog.windows = s.windows ∧ s.emptyLog.save = s.save ∧
    s.emptyLog.transit = s.transit ∧ s.emptyLog.down = s.down ∧ s.emptyLog.restore = s.restore ∧
    s.emptyLog.notice = s.notice ∧ s.emptyLog.mgmt = s.mgmt ∧ s.emptyLog.pins = s.pins ∧
    s.emptyLog.links = s.links ∧ s.emptyLog.now = s.now ∧ s.emptyLog.choices = s.choices ∧
    s.emptyLog.pending = s.pending := by
  simp [State.emptyLog]

@[simp] theorem Happening.step_state (h : Happening) (f : State → State) : (h.step f).state = f h.state := rfl
@[simp] theorem Happening.step_posts (h : Happening) (f : State → State) : (h.step f).posts = h.posts := rfl
@[simp] theorem Happening.post_state (h : Happening) (b : Block) (k : NoticeKind) : (h.post b k).state = h.state := rfl
@[simp] theorem Happening.post_posts (h : Happening) (b : Block) (k : NoticeKind) :
    (h.post b k).posts = h.posts ++ [⟨b, k⟩] := rfl
@[simp] theorem Happening.start_state (s : State) : (Happening.start s).state = s := rfl
@[simp] theorem Happening.start_posts (s : State) : (Happening.start s).posts = [] := rfl

@[simp] theorem Happening.reserve_keeps (h : Happening) (g : Granule) :
    (h.reserve g).state.marks = h.state.marks ∧ (h.reserve g).state.windows = h.state.windows ∧
    (h.reserve g).state.save = h.state.save ∧ (h.reserve g).state.transit = h.state.transit ∧
    (h.reserve g).state.down = h.state.down ∧ (h.reserve g).state.restore = h.state.restore ∧
    (h.reserve g).state.notice = h.state.notice ∧ (h.reserve g).state.mgmt = h.state.mgmt ∧
    (h.reserve g).state.pins = h.state.pins ∧ (h.reserve g).state.links = h.state.links ∧
    (h.reserve g).state.now = h.state.now ∧ (h.reserve g).state.choices = h.state.choices ∧
    (h.reserve g).state.pending = h.state.pending := by
  unfold Happening.reserve
  try dsimp only
  (repeat' split) <;> simp

/-! ### The transit buffer -/

@[simp] theorem State.enterWaitSave_keeps (s : State) (o : Nat) :
    (s.enterWaitSave o).marks = s.marks ∧ (s.enterWaitSave o).windows = s.windows ∧
    (s.enterWaitSave o).log = s.log ∧ (s.enterWaitSave o).down = s.down ∧ (s.enterWaitSave o).restore = s.restore ∧
    (s.enterWaitSave o).mgmt = s.mgmt ∧ (s.enterWaitSave o).pins = s.pins ∧ (s.enterWaitSave o).links = s.links ∧
    (s.enterWaitSave o).now = s.now ∧ (s.enterWaitSave o).choices = s.choices ∧
    (s.enterWaitSave o).pending = s.pending := by
  simp [State.enterWaitSave]

@[simp] theorem State.evaluateHead_keeps (s : State) (o : Nat) :
    (s.evaluateHead o).marks = s.marks ∧ (s.evaluateHead o).windows = s.windows ∧ (s.evaluateHead o).log = s.log ∧
    (s.evaluateHead o).down = s.down ∧ (s.evaluateHead o).restore = s.restore ∧ (s.evaluateHead o).mgmt = s.mgmt ∧
    (s.evaluateHead o).pins = s.pins ∧ (s.evaluateHead o).links = s.links ∧ (s.evaluateHead o).now = s.now ∧
    (s.evaluateHead o).choices = s.choices ∧ (s.evaluateHead o).pending = s.pending := by
  unfold State.evaluateHead
  try dsimp only
  (repeat' split) <;> simp

@[simp] theorem State.passTurn_keeps (s : State) (i : Nat) :
    (s.passTurn i).marks = s.marks ∧ (s.passTurn i).windows = s.windows ∧ (s.passTurn i).log = s.log ∧
    (s.passTurn i).down = s.down ∧ (s.passTurn i).restore = s.restore ∧ (s.passTurn i).mgmt = s.mgmt ∧
    (s.passTurn i).pins = s.pins ∧ (s.passTurn i).links = s.links ∧ (s.passTurn i).now = s.now ∧
    (s.passTurn i).choices = s.choices ∧ (s.passTurn i).pending = s.pending := by
  unfold State.passTurn
  try dsimp only
  (repeat' split) <;> simp

@[simp] theorem State.leave_keeps (s : State) (o : Nat) :
    (s.leave o).marks = s.marks ∧ (s.leave o).windows = s.windows ∧ (s.leave o).log = s.log ∧
    (s.leave o).down = s.down ∧ (s.leave o).restore = s.restore ∧ (s.leave o).mgmt = s.mgmt ∧
    (s.leave o).pins = s.pins ∧ (s.leave o).links = s.links ∧ (s.leave o).now = s.now ∧
    (s.leave o).choices = s.choices ∧ (s.leave o).pending = s.pending := by
  unfold State.leave
  try dsimp only
  (repeat' split) <;> simp

@[simp] theorem State.release_keeps (s : State) (o : Nat) :
    (s.release o).marks = s.marks ∧ (s.release o).windows = s.windows ∧ (s.release o).log = s.log ∧
    (s.release o).save = s.save ∧ (s.release o).down = s.down ∧ (s.release o).restore = s.restore ∧
    (s.release o).notice = s.notice ∧ (s.release o).mgmt = s.mgmt ∧ (s.release o).pins = s.pins ∧
    (s.release o).links = s.links ∧ (s.release o).now = s.now ∧ (s.release o).choices = s.choices ∧
    (s.release o).pending = s.pending := by
  simp [State.release]

@[simp] theorem State.enter_keeps (s : State) (r : UpstreamRequest) (c : EntryClass) (m : Option Nat) (t : TransitState) :
    (s.enter r c m t).marks = s.marks ∧ (s.enter r c m t).windows = s.windows ∧ (s.enter r c m t).log = s.log ∧
    (s.enter r c m t).save = s.save ∧ (s.enter r c m t).down = s.down ∧ (s.enter r c m t).restore = s.restore ∧
    (s.enter r c m t).notice = s.notice ∧ (s.enter r c m t).mgmt = s.mgmt ∧ (s.enter r c m t).pins = s.pins ∧
    (s.enter r c m t).links = s.links ∧ (s.enter r c m t).now = s.now ∧ (s.enter r c m t).choices = s.choices ∧
    (s.enter r c m t).pending = s.pending := by
  simp [State.enter]

@[simp] theorem State.enterWindow_keeps (s : State) (r : UpstreamRequest) (w : WindowNo) (i : Nat) :
    (s.enterWindow r w i).marks = s.marks ∧ (s.enterWindow r w i).windows = s.windows ∧
    (s.enterWindow r w i).log = s.log ∧ (s.enterWindow r w i).down = s.down ∧
    (s.enterWindow r w i).restore = s.restore ∧ (s.enterWindow r w i).mgmt = s.mgmt ∧
    (s.enterWindow r w i).pins = s.pins ∧ (s.enterWindow r w i).links = s.links ∧
    (s.enterWindow r w i).now = s.now ∧ (s.enterWindow r w i).choices = s.choices ∧
    (s.enterWindow r w i).pending = s.pending := by
  unfold State.enterWindow
  try dsimp only
  (repeat' split) <;> simp

@[simp] theorem Happening.denyRequest_keeps (h : Happening) (r : UpstreamRequest) (d : DenyReason) :
    (h.denyRequest r d).state.marks = h.state.marks ∧ (h.denyRequest r d).state.windows = h.state.windows ∧
    (h.denyRequest r d).state.log = h.state.log ∧ (h.denyRequest r d).state.save = h.state.save ∧
    (h.denyRequest r d).state.transit = h.state.transit ∧ (h.denyRequest r d).state.down = h.state.down ∧
    (h.denyRequest r d).state.restore = h.state.restore ∧ (h.denyRequest r d).state.mgmt = h.state.mgmt ∧
    (h.denyRequest r d).state.pins = h.state.pins ∧ (h.denyRequest r d).state.now = h.state.now ∧
    (h.denyRequest r d).state.choices = h.state.choices ∧ (h.denyRequest r d).state.pending = h.state.pending := by
  simp [Happening.denyRequest]

@[simp] theorem Happening.arrive_keeps (h : Happening) (r : UpstreamRequest) :
    (h.arrive r).state.marks = h.state.marks ∧ (h.arrive r).state.windows = h.state.windows ∧
    (h.arrive r).state.log = h.state.log ∧ (h.arrive r).state.down = h.state.down ∧
    (h.arrive r).state.restore = h.state.restore ∧ (h.arrive r).state.mgmt = h.state.mgmt ∧
    (h.arrive r).state.pins = h.state.pins ∧ (h.arrive r).state.now = h.state.now ∧
    (h.arrive r).state.choices = h.state.choices ∧ (h.arrive r).state.pending = h.state.pending := by
  unfold Happening.arrive
  try dsimp only
  (repeat' split) <;> simp

@[simp] theorem State.markPreDrain_keeps (s : State) :
    s.markPreDrain.marks = s.marks ∧ s.markPreDrain.windows = s.windows ∧ s.markPreDrain.log = s.log ∧
    s.markPreDrain.save = s.save ∧ s.markPreDrain.down = s.down ∧ s.markPreDrain.restore = s.restore ∧
    s.markPreDrain.notice = s.notice ∧ s.markPreDrain.mgmt = s.mgmt ∧ s.markPreDrain.pins = s.pins ∧
    s.markPreDrain.links = s.links ∧ s.markPreDrain.now = s.now ∧ s.markPreDrain.choices = s.choices ∧
    s.markPreDrain.pending = s.pending := by
  simp [State.markPreDrain]

@[simp] theorem State.clearPreDrain_keeps (s : State) :
    s.clearPreDrain.marks = s.marks ∧ s.clearPreDrain.windows = s.windows ∧ s.clearPreDrain.log = s.log ∧
    s.clearPreDrain.save = s.save ∧ s.clearPreDrain.down = s.down ∧ s.clearPreDrain.restore = s.restore ∧
    s.clearPreDrain.notice = s.notice ∧ s.clearPreDrain.mgmt = s.mgmt ∧ s.clearPreDrain.pins = s.pins ∧
    s.clearPreDrain.links = s.links ∧ s.clearPreDrain.now = s.now ∧ s.clearPreDrain.choices = s.choices ∧
    s.clearPreDrain.pending = s.pending := by
  simp [State.clearPreDrain]

@[simp] theorem State.clearMarkNumbers_keeps (s : State) :
    s.clearMarkNumbers.marks = s.marks ∧ s.clearMarkNumbers.windows = s.windows ∧ s.clearMarkNumbers.log = s.log ∧
    s.clearMarkNumbers.save = s.save ∧ s.clearMarkNumbers.down = s.down ∧ s.clearMarkNumbers.restore = s.restore ∧
    s.clearMarkNumbers.notice = s.notice ∧ s.clearMarkNumbers.mgmt = s.mgmt ∧ s.clearMarkNumbers.pins = s.pins ∧
    s.clearMarkNumbers.links = s.links ∧ s.clearMarkNumbers.now = s.now ∧ s.clearMarkNumbers.choices = s.choices ∧
    s.clearMarkNumbers.pending = s.pending := by
  simp [State.clearMarkNumbers]

@[simp] theorem State.reclassify_keeps (s : State) (e : TransitEntry) :
    (s.reclassify e).marks = s.marks ∧ (s.reclassify e).windows = s.windows ∧ (s.reclassify e).log = s.log ∧
    (s.reclassify e).down = s.down ∧ (s.reclassify e).restore = s.restore ∧ (s.reclassify e).mgmt = s.mgmt ∧
    (s.reclassify e).pins = s.pins ∧ (s.reclassify e).links = s.links ∧ (s.reclassify e).now = s.now ∧
    (s.reclassify e).choices = s.choices ∧ (s.reclassify e).pending = s.pending := by
  unfold State.reclassify
  try dsimp only
  (repeat' split) <;> simp

@[simp] theorem State.reclassifyAll_keeps (s : State) :
    s.reclassifyAll.marks = s.marks ∧ s.reclassifyAll.windows = s.windows ∧ s.reclassifyAll.log = s.log ∧
    s.reclassifyAll.down = s.down ∧ s.reclassifyAll.restore = s.restore ∧ s.reclassifyAll.mgmt = s.mgmt ∧
    s.reclassifyAll.pins = s.pins ∧ s.reclassifyAll.links = s.links ∧ s.reclassifyAll.now = s.now ∧
    s.reclassifyAll.choices = s.choices ∧ s.reclassifyAll.pending = s.pending := by
  unfold State.reclassifyAll
  generalize List.filter _ s.transit.entries = es
  induction es generalizing s with
  | nil => simp
  | cons e es ih => have := ih (s.reclassify e); simp_all

@[simp] theorem State.releaseWaiting_keeps (s : State) :
    s.releaseWaiting.marks = s.marks ∧ s.releaseWaiting.windows = s.windows ∧ s.releaseWaiting.log = s.log ∧
    s.releaseWaiting.down = s.down ∧ s.releaseWaiting.restore = s.restore ∧ s.releaseWaiting.notice = s.notice ∧
    s.releaseWaiting.mgmt = s.mgmt ∧ s.releaseWaiting.pins = s.pins ∧ s.releaseWaiting.links = s.links ∧
    s.releaseWaiting.now = s.now ∧ s.releaseWaiting.choices = s.choices ∧ s.releaseWaiting.pending = s.pending := by
  simp [State.releaseWaiting]

@[simp] theorem State.releaseStep_keeps (s : State) :
    s.releaseStep.marks = s.marks ∧ s.releaseStep.windows = s.windows ∧ s.releaseStep.log = s.log ∧
    s.releaseStep.down = s.down ∧ s.releaseStep.restore = s.restore ∧ s.releaseStep.mgmt = s.mgmt ∧
    s.releaseStep.pins = s.pins ∧ s.releaseStep.links = s.links ∧ s.releaseStep.now = s.now ∧
    s.releaseStep.choices = s.choices ∧ s.releaseStep.pending = s.pending := by
  simp [State.releaseStep]

/-! ### The restore engine -/

@[simp] theorem State.updateEngine_keeps (s : State) (f : RestoreEngine → RestoreEngine) :
    (s.updateEngine f).marks = s.marks ∧ (s.updateEngine f).windows = s.windows ∧ (s.updateEngine f).log = s.log ∧
    (s.updateEngine f).save = s.save ∧ (s.updateEngine f).transit = s.transit ∧ (s.updateEngine f).down = s.down ∧
    (s.updateEngine f).notice = s.notice ∧ (s.updateEngine f).mgmt = s.mgmt ∧ (s.updateEngine f).pins = s.pins ∧
    (s.updateEngine f).links = s.links ∧ (s.updateEngine f).now = s.now ∧ (s.updateEngine f).choices = s.choices ∧
    (s.updateEngine f).pending = s.pending := by
  simp [State.updateEngine]

@[simp] theorem Happening.endByRequest_keeps (h : Happening) :
    h.endByRequest.state.marks = h.state.marks ∧ h.endByRequest.state.windows = h.state.windows ∧
    h.endByRequest.state.log = h.state.log ∧ h.endByRequest.state.save = h.state.save ∧
    h.endByRequest.state.transit = h.state.transit ∧ h.endByRequest.state.down = h.state.down ∧
    h.endByRequest.state.notice = h.state.notice ∧ h.endByRequest.state.pins = h.state.pins ∧
    h.endByRequest.state.links = h.state.links ∧ h.endByRequest.state.now = h.state.now ∧
    h.endByRequest.state.choices = h.state.choices ∧ h.endByRequest.state.pending = h.state.pending := by
  unfold Happening.endByRequest
  try dsimp only
  (repeat' split) <;> simp

@[simp] theorem Happening.stopWalk_keeps (h : Happening) :
    h.stopWalk.state.marks = h.state.marks ∧ h.stopWalk.state.windows = h.state.windows ∧
    h.stopWalk.state.log = h.state.log ∧ h.stopWalk.state.save = h.state.save ∧
    h.stopWalk.state.transit = h.state.transit ∧ h.stopWalk.state.down = h.state.down ∧
    h.stopWalk.state.notice = h.state.notice ∧ h.stopWalk.state.pins = h.state.pins ∧
    h.stopWalk.state.links = h.state.links ∧ h.stopWalk.state.now = h.state.now ∧
    h.stopWalk.state.choices = h.state.choices ∧ h.stopWalk.state.pending = h.state.pending := by
  simp [Happening.stopWalk]

@[simp] theorem State.beginRecord_keeps (s : State) :
    s.beginRecord.marks = s.marks ∧ s.beginRecord.windows = s.windows ∧ s.beginRecord.log = s.log ∧
    s.beginRecord.save = s.save ∧ s.beginRecord.transit = s.transit ∧ s.beginRecord.down = s.down ∧
    s.beginRecord.notice = s.notice ∧ s.beginRecord.mgmt = s.mgmt ∧ s.beginRecord.pins = s.pins ∧
    s.beginRecord.links = s.links ∧ s.beginRecord.now = s.now ∧ s.beginRecord.choices = s.choices ∧
    s.beginRecord.pending = s.pending := by
  simp [State.beginRecord]

@[simp] theorem Happening.boundaryTest_keeps (h : Happening) :
    h.boundaryTest.state.marks = h.state.marks ∧ h.boundaryTest.state.windows = h.state.windows ∧
    h.boundaryTest.state.log = h.state.log ∧ h.boundaryTest.state.save = h.state.save ∧
    h.boundaryTest.state.transit = h.state.transit ∧ h.boundaryTest.state.down = h.state.down ∧
    h.boundaryTest.state.notice = h.state.notice ∧ h.boundaryTest.state.pins = h.state.pins ∧
    h.boundaryTest.state.links = h.state.links ∧ h.boundaryTest.state.now = h.state.now ∧
    h.boundaryTest.state.choices = h.state.choices ∧ h.boundaryTest.state.pending = h.state.pending := by
  unfold Happening.boundaryTest
  try dsimp only
  (repeat' split) <;> simp

@[simp] theorem Happening.beginWalk_keeps (h : Happening) (st : EngineState) (o : Origin) (k : Nat) (m : MarkRecord) :
    (h.beginWalk st o k m).state.marks = h.state.marks ∧ (h.beginWalk st o k m).state.windows = h.state.windows ∧
    (h.beginWalk st o k m).state.log = h.state.log ∧ (h.beginWalk st o k m).state.save = h.state.save ∧
    (h.beginWalk st o k m).state.transit = h.state.transit ∧ (h.beginWalk st o k m).state.down = h.state.down ∧
    (h.beginWalk st o k m).state.notice = h.state.notice ∧ (h.beginWalk st o k m).state.pins = h.state.pins ∧
    (h.beginWalk st o k m).state.links = h.state.links ∧ (h.beginWalk st o k m).state.now = h.state.now ∧
    (h.beginWalk st o k m).state.choices = h.state.choices ∧ (h.beginWalk st o k m).state.pending = h.state.pending := by
  simp [Happening.beginWalk]

@[simp] theorem Happening.finishRecord_keeps (h : Happening) (r : CurrentRecord) (w : RecordEnd) :
    (h.finishRecord r w).state.marks = h.state.marks ∧ (h.finishRecord r w).state.windows = h.state.windows ∧
    (h.finishRecord r w).state.log = h.state.log ∧ (h.finishRecord r w).state.save = h.state.save ∧
    (h.finishRecord r w).state.transit = h.state.transit ∧ (h.finishRecord r w).state.down = h.state.down ∧
    (h.finishRecord r w).state.notice = h.state.notice ∧ (h.finishRecord r w).state.pins = h.state.pins ∧
    (h.finishRecord r w).state.links = h.state.links ∧ (h.finishRecord r w).state.now = h.state.now ∧
    (h.finishRecord r w).state.choices = h.state.choices ∧ (h.finishRecord r w).state.pending = h.state.pending := by
  simp [Happening.finishRecord]

@[simp] theorem Happening.headerArrived_keeps (h : Happening) (b : Line) :
    (h.headerArrived b).state.marks = h.state.marks ∧ (h.headerArrived b).state.windows = h.state.windows ∧
    (h.headerArrived b).state.log = h.state.log ∧ (h.headerArrived b).state.save = h.state.save ∧
    (h.headerArrived b).state.transit = h.state.transit ∧ (h.headerArrived b).state.down = h.state.down ∧
    (h.headerArrived b).state.notice = h.state.notice ∧ (h.headerArrived b).state.pins = h.state.pins ∧
    (h.headerArrived b).state.links = h.state.links ∧ (h.headerArrived b).state.now = h.state.now ∧
    (h.headerArrived b).state.choices = h.state.choices ∧ (h.headerArrived b).state.pending = h.state.pending := by
  unfold Happening.headerArrived
  try dsimp only
  (repeat' split) <;> simp

@[simp] theorem Happening.checkData_keeps (h : Happening) (r : CurrentRecord) :
    (h.checkData r).state.marks = h.state.marks ∧ (h.checkData r).state.windows = h.state.windows ∧
    (h.checkData r).state.log = h.state.log ∧ (h.checkData r).state.save = h.state.save ∧
    (h.checkData r).state.transit = h.state.transit ∧ (h.checkData r).state.down = h.state.down ∧
    (h.checkData r).state.notice = h.state.notice ∧ (h.checkData r).state.pins = h.state.pins ∧
    (h.checkData r).state.links = h.state.links ∧ (h.checkData r).state.now = h.state.now ∧
    (h.checkData r).state.choices = h.state.choices ∧ (h.checkData r).state.pending = h.state.pending := by
  unfold Happening.checkData
  try dsimp only
  (repeat' split) <;> simp

@[simp] theorem Happening.restored_keeps (h : Happening) (r : CurrentRecord) :
    (h.restored r).state.marks = h.state.marks ∧ (h.restored r).state.log = h.state.log ∧
    (h.restored r).state.save = h.state.save ∧ (h.restored r).state.transit = h.state.transit ∧
    (h.restored r).state.down = h.state.down ∧ (h.restored r).state.pins = h.state.pins ∧
    (h.restored r).state.links = h.state.links ∧ (h.restored r).state.now = h.state.now ∧
    (h.restored r).state.choices = h.state.choices ∧ (h.restored r).state.pending = h.state.pending := by
  simp [Happening.restored]

@[simp] theorem Happening.recordRequestEnded_keeps (h : Happening) (r : CurrentRecord) (j : Nat) (b : Bool) (x : Result) :
    (h.recordRequestEnded r j b x).state.marks = h.state.marks ∧
    (h.recordRequestEnded r j b x).state.log = h.state.log ∧
    (h.recordRequestEnded r j b x).state.save = h.state.save ∧
    (h.recordRequestEnded r j b x).state.transit = h.state.transit ∧
    (h.recordRequestEnded r j b x).state.down = h.state.down ∧
    (h.recordRequestEnded r j b x).state.pins = h.state.pins ∧
    (h.recordRequestEnded r j b x).state.links = h.state.links ∧
    (h.recordRequestEnded r j b x).state.now = h.state.now ∧
    (h.recordRequestEnded r j b x).state.choices = h.state.choices ∧
    (h.recordRequestEnded r j b x).state.pending = h.state.pending := by
  unfold Happening.recordRequestEnded
  try dsimp only
  (repeat' split) <;> simp

@[simp] theorem Happening.restoreResult_keeps (h : Happening) (st : RestoreStep) (x : Result) :
    (h.restoreResult st x).state.marks = h.state.marks ∧ (h.restoreResult st x).state.log = h.state.log ∧
    (h.restoreResult st x).state.save = h.state.save ∧ (h.restoreResult st x).state.transit = h.state.transit ∧
    (h.restoreResult st x).state.down = h.state.down ∧ (h.restoreResult st x).state.pins = h.state.pins ∧
    (h.restoreResult st x).state.links = h.state.links ∧ (h.restoreResult st x).state.now = h.state.now ∧
    (h.restoreResult st x).state.choices = h.state.choices ∧ (h.restoreResult st x).state.pending = h.state.pending := by
  unfold Happening.restoreResult
  try dsimp only
  (repeat' split) <;> simp

@[simp] theorem Happening.requestEnd_keeps (h : Happening) (q : EndRequest) :
    (h.requestEnd q).state.marks = h.state.marks ∧ (h.requestEnd q).state.windows = h.state.windows ∧
    (h.requestEnd q).state.log = h.state.log ∧ (h.requestEnd q).state.save = h.state.save ∧
    (h.requestEnd q).state.transit = h.state.transit ∧ (h.requestEnd q).state.down = h.state.down ∧
    (h.requestEnd q).state.notice = h.state.notice ∧ (h.requestEnd q).state.pins = h.state.pins ∧
    (h.requestEnd q).state.links = h.state.links ∧ (h.requestEnd q).state.now = h.state.now ∧
    (h.requestEnd q).state.choices = h.state.choices ∧ (h.requestEnd q).state.pending = h.state.pending := by
  unfold Happening.requestEnd
  try dsimp only
  (repeat' split) <;> simp

@[simp] theorem Happening.abandonCheck_keeps (h : Happening) :
    h.abandonCheck.state.marks = h.state.marks ∧ h.abandonCheck.state.windows = h.state.windows ∧
    h.abandonCheck.state.log = h.state.log ∧ h.abandonCheck.state.save = h.state.save ∧
    h.abandonCheck.state.transit = h.state.transit ∧ h.abandonCheck.state.down = h.state.down ∧
    h.abandonCheck.state.notice = h.state.notice ∧ h.abandonCheck.state.pins = h.state.pins ∧
    h.abandonCheck.state.links = h.state.links ∧ h.abandonCheck.state.now = h.state.now ∧
    h.abandonCheck.state.choices = h.state.choices ∧ h.abandonCheck.state.pending = h.state.pending := by
  unfold Happening.abandonCheck
  try dsimp only
  (repeat' split) <;> simp

@[simp] theorem Happening.endWalkForReset_keeps (h : Happening) :
    h.endWalkForReset.state.marks = h.state.marks ∧ h.endWalkForReset.state.windows = h.state.windows ∧
    h.endWalkForReset.state.log = h.state.log ∧ h.endWalkForReset.state.save = h.state.save ∧
    h.endWalkForReset.state.transit = h.state.transit ∧ h.endWalkForReset.state.down = h.state.down ∧
    h.endWalkForReset.state.notice = h.state.notice ∧ h.endWalkForReset.state.pins = h.state.pins ∧
    h.endWalkForReset.state.links = h.state.links ∧ h.endWalkForReset.state.now = h.state.now ∧
    h.endWalkForReset.state.choices = h.state.choices ∧ h.endWalkForReset.state.pending = h.state.pending := by
  unfold Happening.endWalkForReset
  try dsimp only
  (repeat' split) <;> simp

@[simp] theorem State.slotFreed_keeps (s : State) :
    s.slotFreed.marks = s.marks ∧ s.slotFreed.windows = s.windows ∧ s.slotFreed.log = s.log ∧
    s.slotFreed.save = s.save ∧ s.slotFreed.transit = s.transit ∧ s.slotFreed.down = s.down ∧
    s.slotFreed.notice = s.notice ∧ s.slotFreed.mgmt = s.mgmt ∧ s.slotFreed.pins = s.pins ∧
    s.slotFreed.links = s.links ∧ s.slotFreed.now = s.now ∧ s.slotFreed.choices = s.choices ∧
    s.slotFreed.pending = s.pending := by
  unfold State.slotFreed
  try dsimp only
  (repeat' split) <;> simp

/-! ### The mark controller -/

@[simp] theorem State.updateMarks_keeps (s : State) (f : MarkController → MarkController) :
    (s.updateMarks f).windows = s.windows ∧ (s.updateMarks f).log = s.log ∧ (s.updateMarks f).save = s.save ∧
    (s.updateMarks f).transit = s.transit ∧ (s.updateMarks f).down = s.down ∧
    (s.updateMarks f).restore = s.restore ∧ (s.updateMarks f).notice = s.notice ∧ (s.updateMarks f).mgmt = s.mgmt ∧
    (s.updateMarks f).pins = s.pins ∧ (s.updateMarks f).links = s.links ∧ (s.updateMarks f).now = s.now ∧
    (s.updateMarks f).choices = s.choices ∧ (s.updateMarks f).pending = s.pending := by
  simp [State.updateMarks]

@[simp] theorem State.startDrain_keeps (s : State) (a : PendingAction) :
    (s.startDrain a).windows = s.windows ∧ (s.startDrain a).log = s.log ∧ (s.startDrain a).save = s.save ∧
    (s.startDrain a).down = s.down ∧ (s.startDrain a).restore = s.restore ∧ (s.startDrain a).notice = s.notice ∧
    (s.startDrain a).mgmt = s.mgmt ∧ (s.startDrain a).pins = s.pins ∧ (s.startDrain a).links = s.links ∧
    (s.startDrain a).now = s.now ∧ (s.startDrain a).choices = s.choices ∧ (s.startDrain a).pending = s.pending := by
  simp [State.startDrain]

@[simp] theorem Happening.ignoreLine_keeps (h : Happening) (r : IgnoreReason) :
    (h.ignoreLine r).state.marks = h.state.marks ∧ (h.ignoreLine r).state.windows = h.state.windows ∧
    (h.ignoreLine r).state.log = h.state.log ∧ (h.ignoreLine r).state.save = h.state.save ∧
    (h.ignoreLine r).state.transit = h.state.transit ∧ (h.ignoreLine r).state.down = h.state.down ∧
    (h.ignoreLine r).state.restore = h.state.restore ∧ (h.ignoreLine r).state.notice = h.state.notice ∧
    (h.ignoreLine r).state.mgmt = h.state.mgmt ∧ (h.ignoreLine r).state.pins = h.state.pins ∧
    (h.ignoreLine r).state.links = h.state.links ∧ (h.ignoreLine r).state.now = h.state.now ∧
    (h.ignoreLine r).state.choices = h.state.choices ∧ (h.ignoreLine r).state.pending = h.state.pending := by
  simp [Happening.ignoreLine]

@[simp] theorem Happening.lineRequest_keeps (h : Happening) :
    h.lineRequest.state.windows = h.state.windows ∧ h.lineRequest.state.log = h.state.log ∧
    h.lineRequest.state.save = h.state.save ∧ h.lineRequest.state.down = h.state.down ∧
    h.lineRequest.state.notice = h.state.notice ∧ h.lineRequest.state.pins = h.state.pins ∧
    h.lineRequest.state.links = h.state.links ∧ h.lineRequest.state.now = h.state.now ∧
    h.lineRequest.state.choices = h.state.choices ∧ h.lineRequest.state.pending = h.state.pending := by
  unfold Happening.lineRequest
  try dsimp only
  (repeat' split) <;> simp

@[simp] theorem Happening.evaluateLatch_keeps (h : Happening) :
    h.evaluateLatch.state.windows = h.state.windows ∧ h.evaluateLatch.state.log = h.state.log ∧
    h.evaluateLatch.state.save = h.state.save ∧ h.evaluateLatch.state.down = h.state.down ∧
    h.evaluateLatch.state.notice = h.state.notice ∧ h.evaluateLatch.state.pins = h.state.pins ∧
    h.evaluateLatch.state.links = h.state.links ∧ h.evaluateLatch.state.now = h.state.now ∧
    h.evaluateLatch.state.choices = h.state.choices ∧ h.evaluateLatch.state.pending = h.state.pending := by
  unfold Happening.evaluateLatch
  try dsimp only
  (repeat' split) <;> simp

@[simp] theorem Happening.settle_keeps (h : Happening) :
    h.settle.state.windows = h.state.windows ∧ h.settle.state.log = h.state.log ∧
    h.settle.state.down = h.state.down ∧ h.settle.state.pins = h.state.pins ∧ h.settle.state.links = h.state.links ∧
    h.settle.state.now = h.state.now ∧ h.settle.state.choices = h.state.choices ∧
    h.settle.state.pending = h.state.pending := by
  simp [Happening.settle]

@[simp] theorem State.enterBroken_keeps (s : State) (r : BrokenReason) :
    (s.enterBroken r).windows = s.windows ∧ (s.enterBroken r).log = s.log ∧ (s.enterBroken r).down = s.down ∧
    (s.enterBroken r).restore = s.restore ∧ (s.enterBroken r).notice = s.notice ∧ (s.enterBroken r).mgmt = s.mgmt ∧
    (s.enterBroken r).pins = s.pins ∧ (s.enterBroken r).links = s.links ∧ (s.enterBroken r).now = s.now ∧
    (s.enterBroken r).choices = s.choices ∧ (s.enterBroken r).pending = s.pending := by
  simp [State.enterBroken]

@[simp] theorem Happening.breakReport_keeps (h : Happening) (r : BrokenReason) :
    (h.breakReport r).state.windows = h.state.windows ∧ (h.breakReport r).state.log = h.state.log ∧
    (h.breakReport r).state.down = h.state.down ∧ (h.breakReport r).state.pins = h.state.pins ∧
    (h.breakReport r).state.links = h.state.links ∧ (h.breakReport r).state.now = h.state.now ∧
    (h.breakReport r).state.choices = h.state.choices ∧ (h.breakReport r).state.pending = h.state.pending := by
  unfold Happening.breakReport
  try dsimp only
  (repeat' split) <;> simp

@[simp] theorem State.pushMark_keeps (s : State) (l : Label) :
    (s.pushMark l).windows = s.windows ∧ (s.pushMark l).log = s.log ∧ (s.pushMark l).save = s.save ∧
    (s.pushMark l).down = s.down ∧ (s.pushMark l).restore = s.restore ∧ (s.pushMark l).notice = s.notice ∧
    (s.pushMark l).mgmt = s.mgmt ∧ (s.pushMark l).pins = s.pins ∧ (s.pushMark l).links = s.links ∧
    (s.pushMark l).now = s.now ∧ (s.pushMark l).choices = s.choices ∧ (s.pushMark l).pending = s.pending := by
  simp [State.pushMark]

@[simp] theorem State.popMark_keeps (s : State) :
    s.popMark.windows = s.windows ∧ s.popMark.log = s.log ∧ s.popMark.save = s.save ∧ s.popMark.down = s.down ∧
    s.popMark.restore = s.restore ∧ s.popMark.notice = s.notice ∧ s.popMark.mgmt = s.mgmt ∧
    s.popMark.pins = s.pins ∧ s.popMark.links = s.links ∧ s.popMark.now = s.now ∧ s.popMark.choices = s.choices ∧
    s.popMark.pending = s.pending := by
  simp [State.popMark]

@[simp] theorem State.commitMarks_keeps (s : State) :
    s.commitMarks.windows = s.windows ∧ s.commitMarks.save = s.save ∧ s.commitMarks.down = s.down ∧
    s.commitMarks.restore = s.restore ∧ s.commitMarks.notice = s.notice ∧ s.commitMarks.mgmt = s.mgmt ∧
    s.commitMarks.pins = s.pins ∧ s.commitMarks.links = s.links ∧ s.commitMarks.now = s.now ∧
    s.commitMarks.choices = s.choices ∧ s.commitMarks.pending = s.pending := by
  simp [State.commitMarks]

@[simp] theorem Happening.beginRollback_keeps (h : Happening) (k : Nat) (o : Origin) (m : MarkRecord) :
    (h.beginRollback k o m).state.windows = h.state.windows ∧ (h.beginRollback k o m).state.log = h.state.log ∧
    (h.beginRollback k o m).state.save = h.state.save ∧ (h.beginRollback k o m).state.down = h.state.down ∧
    (h.beginRollback k o m).state.notice = h.state.notice ∧ (h.beginRollback k o m).state.pins = h.state.pins ∧
    (h.beginRollback k o m).state.links = h.state.links ∧ (h.beginRollback k o m).state.now = h.state.now ∧
    (h.beginRollback k o m).state.choices = h.state.choices ∧
    (h.beginRollback k o m).state.pending = h.state.pending := by
  simp [Happening.beginRollback]

@[simp] theorem Happening.rollbackDone_keeps (h : Happening) (o : WalkOutcome) (m : MarkRecord) :
    (h.rollbackDone o m).state.windows = h.state.windows ∧ (h.rollbackDone o m).state.down = h.state.down ∧
    (h.rollbackDone o m).state.pins = h.state.pins ∧ (h.rollbackDone o m).state.links = h.state.links ∧
    (h.rollbackDone o m).state.now = h.state.now ∧ (h.rollbackDone o m).state.choices = h.state.choices ∧
    (h.rollbackDone o m).state.pending = h.state.pending := by
  simp [Happening.rollbackDone]

@[simp] theorem Happening.rollbackIncomplete_keeps (h : Happening) (o : WalkOutcome) :
    (h.rollbackIncomplete o).state.windows = h.state.windows ∧ (h.rollbackIncomplete o).state.log = h.state.log ∧
    (h.rollbackIncomplete o).state.down = h.state.down ∧ (h.rollbackIncomplete o).state.pins = h.state.pins ∧
    (h.rollbackIncomplete o).state.links = h.state.links ∧ (h.rollbackIncomplete o).state.now = h.state.now ∧
    (h.rollbackIncomplete o).state.choices = h.state.choices ∧
    (h.rollbackIncomplete o).state.pending = h.state.pending := by
  simp [Happening.rollbackIncomplete]

/-! ### The save engine -/

@[simp] theorem State.popWaiting_keeps (s : State) :
    s.popWaiting.marks = s.marks ∧ s.popWaiting.windows = s.windows ∧ s.popWaiting.log = s.log ∧
    s.popWaiting.transit = s.transit ∧ s.popWaiting.down = s.down ∧ s.popWaiting.restore = s.restore ∧
    s.popWaiting.notice = s.notice ∧ s.popWaiting.mgmt = s.mgmt ∧ s.popWaiting.pins = s.pins ∧
    s.popWaiting.links = s.links ∧ s.popWaiting.now = s.now ∧ s.popWaiting.choices = s.choices ∧
    s.popWaiting.pending = s.pending := by
  simp [State.popWaiting]

@[simp] theorem Happening.grantSave_keeps (h : Happening) (e : TransitEntry) (w : WindowNo) (i : Nat) (g : Granule) (c : ContextNo) :
    (h.grantSave e w i g c).state.marks = h.state.marks ∧ (h.grantSave e w i g c).state.windows = h.state.windows ∧
    (h.grantSave e w i g c).state.down = h.state.down ∧ (h.grantSave e w i g c).state.restore = h.state.restore ∧
    (h.grantSave e w i g c).state.notice = h.state.notice ∧ (h.grantSave e w i g c).state.mgmt = h.state.mgmt ∧
    (h.grantSave e w i g c).state.pins = h.state.pins ∧ (h.grantSave e w i g c).state.links = h.state.links ∧
    (h.grantSave e w i g c).state.now = h.state.now ∧ (h.grantSave e w i g c).state.choices = h.state.choices ∧
    (h.grantSave e w i g c).state.pending = h.state.pending := by
  simp [Happening.grantSave]

@[simp] theorem Happening.refuseSave_keeps (h : Happening) (e : TransitEntry) (w : WindowNo) :
    (h.refuseSave e w).state.marks = h.state.marks ∧ (h.refuseSave e w).state.windows = h.state.windows ∧
    (h.refuseSave e w).state.log = h.state.log ∧ (h.refuseSave e w).state.down = h.state.down ∧
    (h.refuseSave e w).state.restore = h.state.restore ∧ (h.refuseSave e w).state.mgmt = h.state.mgmt ∧
    (h.refuseSave e w).state.pins = h.state.pins ∧ (h.refuseSave e w).state.now = h.state.now ∧
    (h.refuseSave e w).state.choices = h.state.choices ∧ (h.refuseSave e w).state.pending = h.state.pending := by
  simp [Happening.refuseSave]

@[simp] theorem Happening.allocateSave_keeps (h : Happening) :
    h.allocateSave.state.windows = h.state.windows ∧ h.allocateSave.state.down = h.state.down ∧
    h.allocateSave.state.pins = h.state.pins ∧ h.allocateSave.state.now = h.state.now ∧
    h.allocateSave.state.choices = h.state.choices ∧ h.allocateSave.state.pending = h.state.pending := by
  unfold Happening.allocateSave
  try dsimp only
  (repeat' split) <;> simp

@[simp] theorem State.freeContext_keeps (s : State) (c : ContextNo) :
    (s.freeContext c).marks = s.marks ∧ (s.freeContext c).windows = s.windows ∧ (s.freeContext c).log = s.log ∧
    (s.freeContext c).transit = s.transit ∧ (s.freeContext c).down = s.down ∧ (s.freeContext c).notice = s.notice ∧
    (s.freeContext c).mgmt = s.mgmt ∧ (s.freeContext c).pins = s.pins ∧ (s.freeContext c).links = s.links ∧
    (s.freeContext c).now = s.now ∧ (s.freeContext c).choices = s.choices ∧ (s.freeContext c).pending = s.pending := by
  simp [State.freeContext]

@[simp] theorem State.saveCompleted_keeps (s : State) (c : ContextNo) (x : SaveContext) :
    (s.saveCompleted c x).marks = s.marks ∧ (s.saveCompleted c x).log = s.log ∧
    (s.saveCompleted c x).down = s.down ∧ (s.saveCompleted c x).mgmt = s.mgmt ∧
    (s.saveCompleted c x).pins = s.pins ∧ (s.saveCompleted c x).links = s.links ∧
    (s.saveCompleted c x).now = s.now ∧ (s.saveCompleted c x).choices = s.choices ∧
    (s.saveCompleted c x).pending = s.pending := by
  simp [State.saveCompleted]

@[simp] theorem State.answerMemError_keeps (s : State) (o : Nat) :
    (s.answerMemError o).marks = s.marks ∧ (s.answerMemError o).windows = s.windows ∧
    (s.answerMemError o).log = s.log ∧ (s.answerMemError o).down = s.down ∧
    (s.answerMemError o).restore = s.restore ∧ (s.answerMemError o).mgmt = s.mgmt ∧
    (s.answerMemError o).pins = s.pins ∧ (s.answerMemError o).now = s.now ∧
    (s.answerMemError o).choices = s.choices ∧ (s.answerMemError o).pending = s.pending := by
  unfold State.answerMemError
  try dsimp only
  (repeat' split) <;> simp

@[simp] theorem Happening.voidCompleted_keeps (h : Happening) (c : ContextNo) (x : SaveContext) :
    (h.voidCompleted c x).state.marks = h.state.marks ∧ (h.voidCompleted c x).state.windows = h.state.windows ∧
    (h.voidCompleted c x).state.log = h.state.log ∧ (h.voidCompleted c x).state.down = h.state.down ∧
    (h.voidCompleted c x).state.mgmt = h.state.mgmt ∧ (h.voidCompleted c x).state.pins = h.state.pins ∧
    (h.voidCompleted c x).state.now = h.state.now ∧ (h.voidCompleted c x).state.choices = h.state.choices ∧
    (h.voidCompleted c x).state.pending = h.state.pending := by
  by_cases hm : h.state.marks.state = .opened ∨ h.state.marks.state = .draining <;>
    simp [Happening.voidCompleted, hm]

@[simp] theorem State.settleContext_keeps (s : State) (c : ContextNo) :
    (s.settleContext c).marks = s.marks ∧ (s.settleContext c).windows = s.windows ∧
    (s.settleContext c).log = s.log ∧ (s.settleContext c).down = s.down ∧ (s.settleContext c).notice = s.notice ∧
    (s.settleContext c).mgmt = s.mgmt ∧ (s.settleContext c).pins = s.pins ∧ (s.settleContext c).links = s.links ∧
    (s.settleContext c).now = s.now ∧ (s.settleContext c).choices = s.choices ∧
    (s.settleContext c).pending = s.pending := by
  unfold State.settleContext
  try dsimp only
  (repeat' split) <;> simp

@[simp] theorem State.freeReportFirst_keeps (s : State) (x : SaveContext) :
    (s.freeReportFirst x).marks = s.marks ∧ (s.freeReportFirst x).windows = s.windows ∧
    (s.freeReportFirst x).log = s.log ∧ (s.freeReportFirst x).save = s.save ∧
    (s.freeReportFirst x).transit = s.transit ∧ (s.freeReportFirst x).down = s.down ∧
    (s.freeReportFirst x).notice = s.notice ∧ (s.freeReportFirst x).mgmt = s.mgmt ∧
    (s.freeReportFirst x).pins = s.pins ∧ (s.freeReportFirst x).links = s.links ∧
    (s.freeReportFirst x).now = s.now ∧ (s.freeReportFirst x).pending = s.pending := by
  unfold State.freeReportFirst State.nextChoice
  dsimp only
  (repeat' split) <;> simp

/-- Only a check is told of a FREE report before it is abandoned (R148). -/
theorem State.freeReportFirst_of_not_checking {s : State} (x : SaveContext)
    (hc : s.restore.state ≠ .checking) : s.freeReportFirst x = s := by
  simp [State.freeReportFirst, hc]

@[simp] theorem Happening.logWriteFailed_keeps (h : Happening) (c : ContextNo) (x : SaveContext) (r : Result) :
    (h.logWriteFailed c x r).state.windows = h.state.windows ∧ (h.logWriteFailed c x r).state.log = h.state.log ∧
    (h.logWriteFailed c x r).state.down = h.state.down ∧ (h.logWriteFailed c x r).state.pins = h.state.pins ∧
    (h.logWriteFailed c x r).state.links = h.state.links ∧ (h.logWriteFailed c x r).state.now = h.state.now ∧
    (h.logWriteFailed c x r).state.pending = h.state.pending := by
  unfold Happening.logWriteFailed
  try dsimp only
  (repeat' split) <;> simp

@[simp] theorem Happening.saveResult_keeps (h : Happening) (c : ContextNo) (st : SaveStep) (r : Result) :
    (h.saveResult c st r).state.log = h.state.log ∧ (h.saveResult c st r).state.down = h.state.down ∧
    (h.saveResult c st r).state.pins = h.state.pins ∧ (h.saveResult c st r).state.now = h.state.now ∧
    (h.saveResult c st r).state.pending = h.state.pending := by
  unfold Happening.saveResult
  try dsimp only
  (repeat' split) <;> simp

/-! ### The downstream port -/

@[simp] theorem State.tellIssued_keeps (s : State) (o : Offer) :
    (s.tellIssued o).marks = s.marks ∧ (s.tellIssued o).windows = s.windows ∧ (s.tellIssued o).log = s.log ∧
    (s.tellIssued o).down = s.down ∧ (s.tellIssued o).mgmt = s.mgmt ∧ (s.tellIssued o).pins = s.pins ∧
    (s.tellIssued o).links = s.links ∧ (s.tellIssued o).now = s.now ∧ (s.tellIssued o).choices = s.choices ∧
    (s.tellIssued o).pending = s.pending := by
  unfold State.tellIssued
  try dsimp only
  (repeat' split) <;> simp

@[simp] theorem State.issue_keeps (s : State) (src : Source) (o : Offer) (t : TagNo) :
    (s.issue src o t).marks = s.marks ∧ (s.issue src o t).windows = s.windows ∧ (s.issue src o t).log = s.log ∧
    (s.issue src o t).mgmt = s.mgmt ∧ (s.issue src o t).pins = s.pins ∧ (s.issue src o t).now = s.now ∧
    (s.issue src o t).choices = s.choices ∧ (s.issue src o t).pending = s.pending := by
  simp [State.issue]

@[simp] theorem State.grant_keeps (s : State) :
    s.grant.marks = s.marks ∧ s.grant.windows = s.windows ∧ s.grant.log = s.log ∧ s.grant.mgmt = s.mgmt ∧
    s.grant.pins = s.pins ∧ s.grant.now = s.now ∧ s.grant.choices = s.choices ∧ s.grant.pending = s.pending := by
  unfold State.grant
  try dsimp only
  (repeat' split) <;> simp

@[simp] theorem State.creditReturned_keeps (s : State) :
    s.creditReturned.marks = s.marks ∧ s.creditReturned.windows = s.windows ∧ s.creditReturned.log = s.log ∧
    s.creditReturned.save = s.save ∧ s.creditReturned.transit = s.transit ∧ s.creditReturned.restore = s.restore ∧
    s.creditReturned.notice = s.notice ∧ s.creditReturned.mgmt = s.mgmt ∧ s.creditReturned.pins = s.pins ∧
    s.creditReturned.links = s.links ∧ s.creditReturned.now = s.now ∧ s.creditReturned.choices = s.choices ∧
    s.creditReturned.pending = s.pending := by
  unfold State.creditReturned
  try dsimp only
  (repeat' split) <;> simp

@[simp] theorem Happening.deliverOk_keeps (h : Happening) (d : Option (List Byte)) (o : TagOrigin) :
    (h.deliverOk d o).state.log = h.state.log ∧ (h.deliverOk d o).state.down = h.state.down ∧
    (h.deliverOk d o).state.pins = h.state.pins ∧ (h.deliverOk d o).state.now = h.state.now ∧
    (h.deliverOk d o).state.pending = h.state.pending := by
  unfold Happening.deliverOk
  try dsimp only
  (repeat' split) <;> simp

@[simp] theorem Happening.deliverFailure_keeps (h : Happening) (x : Result) (o : TagOrigin) :
    (h.deliverFailure x o).state.log = h.state.log ∧ (h.deliverFailure x o).state.down = h.state.down ∧
    (h.deliverFailure x o).state.pins = h.state.pins ∧ (h.deliverFailure x o).state.now = h.state.now ∧
    (h.deliverFailure x o).state.pending = h.state.pending := by
  unfold Happening.deliverFailure
  try dsimp only
  (repeat' split) <;> simp

@[simp] theorem Happening.response_keeps (h : Happening) (t : TagNo) (st : LinkStatus) (d : Option (List Byte)) :
    (h.response t st d).state.log = h.state.log ∧ (h.response t st d).state.pins = h.state.pins ∧
    (h.response t st d).state.now = h.state.now ∧
    (h.response t st d).state.pending = h.state.pending := by
  unfold Happening.response
  try dsimp only
  (repeat' split) <;> simp

@[simp] theorem Happening.timeOut_keeps (h : Happening) (t : TagNo) :
    (h.timeOut t).state.log = h.state.log ∧ (h.timeOut t).state.pins = h.state.pins ∧
    (h.timeOut t).state.now = h.state.now ∧
    (h.timeOut t).state.pending = h.state.pending := by
  unfold Happening.timeOut
  try dsimp only
  (repeat' split) <;> simp

@[simp] theorem State.expireStale_keeps (s : State) (t : TagNo) :
    (s.expireStale t).marks = s.marks ∧ (s.expireStale t).windows = s.windows ∧ (s.expireStale t).log = s.log ∧
    (s.expireStale t).save = s.save ∧ (s.expireStale t).transit = s.transit ∧
    (s.expireStale t).restore = s.restore ∧ (s.expireStale t).notice = s.notice ∧ (s.expireStale t).mgmt = s.mgmt ∧
    (s.expireStale t).pins = s.pins ∧ (s.expireStale t).links = s.links ∧ (s.expireStale t).now = s.now ∧
    (s.expireStale t).choices = s.choices ∧ (s.expireStale t).pending = s.pending := by
  unfold State.expireStale
  try dsimp only
  (repeat' split) <;> simp

/-! ### Mark actions and walks taking effect -/

@[simp] theorem Happening.openEffect_keeps (h : Happening) :
    h.openEffect.state.windows = h.state.windows ∧ h.openEffect.state.log = h.state.log ∧
    h.openEffect.state.down = h.state.down ∧ h.openEffect.state.pins = h.state.pins ∧
    h.openEffect.state.links = h.state.links ∧ h.openEffect.state.now = h.state.now ∧
    h.openEffect.state.choices = h.state.choices ∧ h.openEffect.state.pending = h.state.pending := by
  unfold Happening.openEffect
  try dsimp only
  (repeat' split) <;> simp

@[simp] theorem Happening.releaseEffect_keeps (h : Happening) :
    h.releaseEffect.state.windows = h.state.windows ∧ h.releaseEffect.state.down = h.state.down ∧
    h.releaseEffect.state.pins = h.state.pins ∧ h.releaseEffect.state.links = h.state.links ∧
    h.releaseEffect.state.now = h.state.now ∧ h.releaseEffect.state.choices = h.state.choices ∧
    h.releaseEffect.state.pending = h.state.pending := by
  unfold Happening.releaseEffect
  split
  · split
    · simp only [Happening.settle_keeps, Happening.step_state]; split <;> simp
    · simp
  · simp

@[simp] theorem Happening.commitEffect_keeps (h : Happening) :
    h.commitEffect.state.windows = h.state.windows ∧ h.commitEffect.state.down = h.state.down ∧
    h.commitEffect.state.pins = h.state.pins ∧ h.commitEffect.state.links = h.state.links ∧
    h.commitEffect.state.now = h.state.now ∧ h.commitEffect.state.choices = h.state.choices ∧
    h.commitEffect.state.pending = h.state.pending := by
  unfold Happening.commitEffect
  try dsimp only
  (repeat' split) <;> simp

@[simp] theorem Happening.rollbackEffect_keeps (h : Happening) :
    h.rollbackEffect.state.windows = h.state.windows ∧ h.rollbackEffect.state.log = h.state.log ∧
    h.rollbackEffect.state.save = h.state.save ∧ h.rollbackEffect.state.down = h.state.down ∧
    h.rollbackEffect.state.notice = h.state.notice ∧ h.rollbackEffect.state.pins = h.state.pins ∧
    h.rollbackEffect.state.links = h.state.links ∧ h.rollbackEffect.state.now = h.state.now ∧
    h.rollbackEffect.state.choices = h.state.choices ∧ h.rollbackEffect.state.pending = h.state.pending := by
  unfold Happening.rollbackEffect
  try dsimp only
  (repeat' split) <;> simp

@[simp] theorem Happening.takeOutcome_keeps (h : Happening) :
    h.takeOutcome.state.windows = h.state.windows ∧ h.takeOutcome.state.down = h.state.down ∧
    h.takeOutcome.state.pins = h.state.pins ∧ h.takeOutcome.state.links = h.state.links ∧
    h.takeOutcome.state.now = h.state.now ∧ h.takeOutcome.state.choices = h.state.choices ∧
    h.takeOutcome.state.pending = h.state.pending := by
  unfold Happening.takeOutcome
  try dsimp only
  (repeat' split) <;> simp

@[simp] theorem Happening.endCheck_keeps (h : Happening) :
    h.endCheck.state.marks = h.state.marks ∧ h.endCheck.state.windows = h.state.windows ∧
    h.endCheck.state.log = h.state.log ∧ h.endCheck.state.save = h.state.save ∧
    h.endCheck.state.transit = h.state.transit ∧ h.endCheck.state.down = h.state.down ∧
    h.endCheck.state.notice = h.state.notice ∧ h.endCheck.state.mgmt = h.state.mgmt ∧
    h.endCheck.state.pins = h.state.pins ∧ h.endCheck.state.links = h.state.links ∧
    h.endCheck.state.now = h.state.now ∧ h.endCheck.state.choices = h.state.choices ∧
    h.endCheck.state.pending = h.state.pending := by
  unfold Happening.endCheck
  try dsimp only
  (repeat' split) <;> simp

end Sys2Proof.Machine
end

