-- ==== Sys2Proof/Laws/Tables.lean ====
section
/-! SUPPORT. Reading and writing the part's tables: the granule map, the windows, the save contexts, the tags and the
transit entries. -/

namespace Sys2Proof.Machine

/-! ### The granule map (R39, R41) -/

theorem mapRead_of_lt {low i : Nat} {m : GranuleMap} (hw : mapWfFrom low m = true) (hi : i < low) :
    mapRead m i = 0 := by
  induction m generalizing low with
  | nil => rfl
  | cons p m ih =>
    obtain ⟨j, v⟩ := p
    simp only [mapWfFrom, Bool.and_eq_true, decide_eq_true_eq] at hw
    simp only [mapRead]
    rw [if_neg (by omega), ih hw.2 (by omega)]

/-- A read after a write to the same index gives the value written. -/
theorem mapRead_mapWrite_same {m : GranuleMap} (hw : mapWf m = true) (i v : Nat) : mapRead (mapWrite m i v) i = v := by
  unfold mapWf at hw
  generalize 0 = low at hw
  induction m generalizing low with
  | nil => by_cases hv : v = 0 <;> simp [mapWrite, mapRead, hv]
  | cons p m ih =>
    obtain ⟨j, w⟩ := p
    simp only [mapWfFrom, Bool.and_eq_true, decide_eq_true_eq] at hw
    simp only [mapWrite]
    split
    · by_cases hv : v = 0
      · simp only [hv, if_true, mapRead]
        rw [if_neg (by omega), mapRead_of_lt hw.2 (by omega)]
      · simp [hv, mapRead]
    · split
      · by_cases hv : v = 0
        · simp only [hv, if_true]
          exact mapRead_of_lt hw.2 (by omega)
        · simp_all [mapRead]
      · rename_i h1 h2
        simp [mapRead, h2, ih _ hw.2]

/-- A write leaves every other index as it was. -/
theorem mapRead_mapWrite_other {m : GranuleMap} {i j : Nat} (h : j ≠ i) (v : Nat) :
    mapRead (mapWrite m i v) j = mapRead m j := by
  induction m with
  | nil => by_cases hv : v = 0 <;> simp [mapWrite, mapRead, hv, h]
  | cons p m ih =>
    obtain ⟨k, w⟩ := p
    simp only [mapWrite]
    split
    · by_cases hv : v = 0 <;> simp [mapRead, hv, h]
    · split
      · by_cases hv : v = 0 <;> simp_all [mapRead]
      · simp [mapRead, ih]

theorem mapWfFrom_mapWrite {low : Nat} {m : GranuleMap} (hw : mapWfFrom low m = true) {i : Nat} (hi : low ≤ i)
    (v : Nat) : mapWfFrom low (mapWrite m i v) = true := by
  induction m generalizing low with
  | nil => by_cases hv : v = 0 <;> simp [mapWrite, mapWfFrom, hv, hi]
  | cons p m ih =>
    obtain ⟨j, w⟩ := p
    simp only [mapWfFrom, Bool.and_eq_true, decide_eq_true_eq] at hw
    obtain ⟨⟨h1, h2⟩, h3⟩ := hw
    have h4 : mapWfFrom (i + 1) m = true → mapWfFrom low m = true := by
      intro h
      cases m with
      | nil => rfl
      | cons q m =>
        simp only [mapWfFrom, Bool.and_eq_true, decide_eq_true_eq] at h ⊢
        exact ⟨⟨by omega, h.1.2⟩, h.2⟩
    simp only [mapWrite]
    split
    · by_cases hv : v = 0
      · simp_all [mapWfFrom]
      · simp only [hv, if_false, mapWfFrom, Bool.and_eq_true, decide_eq_true_eq, bne_iff_ne, ne_eq, not_false_eq_true]
        exact ⟨⟨hi, trivial⟩, ⟨⟨by omega, by simpa using h2⟩, h3⟩⟩
    · split
      · by_cases hv : v = 0
        · simp only [hv, if_true]
          apply h4
          simp_all
        · simp_all [mapWfFrom]
      · simp only [mapWfFrom, Bool.and_eq_true, decide_eq_true_eq]
        exact ⟨⟨h1, h2⟩, ih h3 (by omega)⟩

/-- A write keeps the canonical form. -/
theorem mapWf_mapWrite {m : GranuleMap} (hw : mapWf m = true) (i v : Nat) : mapWf (mapWrite m i v) = true :=
  mapWfFrom_mapWrite hw (Nat.zero_le i) v

/-- The map at reset has the canonical form. -/
theorem mapWf_reset : mapWf State.reset.windows.map = true := rfl

/-- A write puts in no entry but its own. -/
theorem mem_mapWrite {m : GranuleMap} {i v : Nat} {p : Nat × Nat} (h : p ∈ mapWrite m i v) : p ∈ m ∨ p = (i, v) := by
  induction m with
  | nil =>
    by_cases hv : v = 0
    · simp [mapWrite, hv] at h
    · simp [mapWrite, hv] at h; exact .inr h
  | cons q m ih =>
    obtain ⟨j, w⟩ := q
    simp only [mapWrite] at h
    split at h
    · by_cases hv : v = 0
      · simp [hv] at h; rcases h with h | h <;> simp [h]
      · simp [hv] at h; rcases h with h | h | h <;> simp [h]
    · split at h
      · by_cases hv : v = 0
        · simp [hv] at h; simp [h]
        · rename_i h1 h2
          simp [hv] at h
          rcases h with h | h
          · right; simp [h, h2]
          · simp [h]
      · rcases List.mem_cons.mp h with h | h
        · simp [h]
        · rcases ih h with h | h <;> simp [h]

/-! ### Windows -/

@[simp] theorem State.window_setWindow_same (s : State) (w : WindowNo) (r : WindowRecord) :
    (s.setWindow w r).window w = r := by
  simp [State.window, State.setWindow]

theorem State.window_setWindow_other (s : State) {v w : WindowNo} (h : v ≠ w) (r : WindowRecord) :
    (s.setWindow w r).window v = s.window v := by
  simp only [State.window, State.setWindow, State.setWindows_windows]
  exact Vector.getElem_set_ne _ _ (fun e => h (Fin.ext e.symm))

/-! ### Save contexts (R64) -/

/-- A context is busy in every state other than FREE (R64). -/
theorem SaveContext.busy?_eq_some {x y : SaveContext} : x.busy? = some y ↔ x.state ≠ .free ∧ x = y := by
  by_cases h : x.state = .free <;> simp [SaveContext.busy?, h]

theorem SaveContext.busy?_eq_none {x : SaveContext} : x.busy? = none ↔ x.state = .free := by
  simp [SaveContext.busy?]

theorem SaveContext.busy?_of_busy {x : SaveContext} (h : x.state ≠ .free) : x.busy? = some x := by
  simp [SaveContext.busy?, h]

@[simp] theorem SaveContext.busy?_reset : SaveContext.reset.busy? = none := rfl

/-- The fields of a busy context, and that it is busy. -/
theorem State.context?_eq_some {s : State} {c : ContextNo} {x : SaveContext} :
    s.context? c = some x ↔ x.state ≠ .free ∧ s.save.contexts[c] = x := by
  rw [State.context?, SaveContext.busy?_eq_some]
  constructor <;> (rintro ⟨h, rfl⟩; exact ⟨h, rfl⟩)

theorem State.context?_eq_none {s : State} {c : ContextNo} :
    s.context? c = none ↔ s.save.contexts[c].state = .free := SaveContext.busy?_eq_none

@[simp] theorem State.context?_putContext_same (s : State) (c : ContextNo) (x : SaveContext) :
    (s.putContext c x).context? c = x.busy? := by
  simp [State.context?, State.putContext]

theorem State.context?_putContext_other (s : State) {c d : ContextNo} (h : d ≠ c) (x : SaveContext) :
    (s.putContext c x).context? d = s.context? d := by
  simp only [State.context?, State.putContext, State.setSave_save]
  exact congrArg SaveContext.busy? (Vector.getElem_set_ne _ _ (fun e => h (Fin.ext e.symm)))

/-- Every context is FREE when none is busy (R12, R185). -/
theorem State.allContextsFree_iff (s : State) : s.allContextsFree = true ↔ ∀ c, s.context? c = none := by
  simp only [State.allContextsFree, List.all_eq_true, Vector.mem_toList_iff, State.context?_eq_none, decide_eq_true_eq]
  constructor
  · intro h c
    exact h _ (Vector.getElem_mem c.isLt)
  · intro h x hx
    obtain ⟨i, hi, rfl⟩ := Vector.mem_iff_getElem.mp hx
    exact h ⟨i, hi⟩

/-- The lowest-numbered FREE context (R67). -/
theorem State.freeContext?_eq_some {s : State} {c : ContextNo} (h : s.freeContext? = some c) :
    s.context? c = none ∧ ∀ d, d < c → s.context? d ≠ none := by
  unfold State.freeContext? at h
  have h1 := List.find?_some h
  refine ⟨by simpa using h1, fun d hd hn => ?_⟩
  obtain ⟨_, as, bs, he, ha⟩ := List.find?_eq_some_iff_append.mp h
  have hs : (List.finRange 4).Pairwise (· < ·) := List.pairwise_lt_finRange 4
  rw [he] at hs
  have hm : d ∈ as ++ c :: bs := he ▸ List.mem_finRange d
  rcases List.mem_append.mp hm with h2 | h2
  · have := ha d h2
    simp [hn] at this
  · rcases List.mem_cons.mp h2 with h3 | h3
    · exact absurd hd (by simp [h3])
    · have := (List.pairwise_cons.mp (List.pairwise_append.mp hs).2.1).1 d h3
      exact absurd (lt_trans hd this) (lt_irrefl _)

theorem State.freeContext?_of_lowest {s : State} {c : ContextNo} (h : s.context? c = none)
    (hl : ∀ d, d < c → s.context? d ≠ none) : s.freeContext? = some c := by
  cases hc : s.freeContext? with
  | none =>
    have := List.find?_eq_none.mp hc c (List.mem_finRange c)
    simp [h] at this
  | some d =>
    obtain ⟨h1, h2⟩ := State.freeContext?_eq_some hc
    rcases lt_trichotomy c d with h3 | h3 | h3
    · exact absurd h (h2 c h3)
    · rw [h3]
    · exact absurd h1 (hl d h3)

/-! ### Tags (R110, R112) -/

@[simp] theorem State.tag_setTag_same (s : State) (t : TagNo) (x : TagEntry) : (s.setTag t x).tag t = x := by
  simp [State.tag, State.setTag]

theorem State.tag_setTag_other (s : State) {t u : TagNo} (h : u ≠ t) (x : TagEntry) : (s.setTag t x).tag u = s.tag u := by
  simp only [State.tag, State.setTag, State.setDown_down]
  exact Vector.getElem_set_ne _ _ (fun e => h (Fin.ext e.symm))

/-- The lowest-numbered FREE tag (R112). -/
theorem State.freeTag?_eq_some {s : State} {t : TagNo} (h : s.freeTag? = some t) :
    s.tag t = .free ∧ ∀ u, u < t → s.tag u ≠ .free := by
  unfold State.freeTag? at h
  have h1 := List.find?_some h
  have free : ∀ x : TagEntry, x.isFree = true ↔ x = .free := by intro x; cases x <;> simp [TagEntry.isFree]
  refine ⟨(free _).mp h1, fun d hd hn => ?_⟩
  obtain ⟨_, as, bs, he, ha⟩ := List.find?_eq_some_iff_append.mp h
  have hs : (List.finRange 64).Pairwise (· < ·) := List.pairwise_lt_finRange 64
  rw [he] at hs
  have hm : d ∈ as ++ t :: bs := he ▸ List.mem_finRange d
  rcases List.mem_append.mp hm with h2 | h2
  · have := ha d h2
    simp [hn, TagEntry.isFree] at this
  · rcases List.mem_cons.mp h2 with h3 | h3
    · exact absurd hd (by simp [h3])
    · have := (List.pairwise_cons.mp (List.pairwise_append.mp hs).2.1).1 d h3
      exact absurd (lt_trans hd this) (lt_irrefl _)

theorem State.freeTag?_of_lowest {s : State} {t : TagNo} (h : s.tag t = .free) (hl : ∀ u, u < t → s.tag u ≠ .free) :
    s.freeTag? = some t := by
  cases hc : s.freeTag? with
  | none =>
    have := List.find?_eq_none.mp hc t (List.mem_finRange t)
    simp [h, TagEntry.isFree] at this
  | some u =>
    obtain ⟨h1, h2⟩ := State.freeTag?_eq_some hc
    rcases lt_trichotomy t u with h3 | h3 | h3
    · exact absurd h (h2 t h3)
    · rw [h3]
    · exact absurd h1 (hl u h3)

/-- Setting a tag moves a count by what the tag was and what it becomes. -/
theorem State.tagCount_setTag (s : State) (t : TagNo) (x : TagEntry) (p : TagEntry → Bool) :
    (s.setTag t x).tagCount p + (if p (s.tag t) then 1 else 0) = s.tagCount p + (if p x then 1 else 0) := by
  have hlen : t.val < s.down.tags.toList.length := by simp
  have hget : s.tag t = s.down.tags.toList[t.val] := by simp [State.tag]
  have hle : (if p s.down.tags.toList[t.val] = true then 1 else 0) ≤ s.down.tags.toList.countP p := by
    split
    · rename_i hp
      exact List.countP_pos_iff.mpr ⟨_, List.getElem_mem hlen, hp⟩
    · exact Nat.zero_le _
  have hset : (s.setTag t x).tagCount p = (s.down.tags.toList.set t.val x).countP p := by
    simp [State.tagCount, State.setTag, Vector.toList_set]
  have hcount : s.tagCount p = s.down.tags.toList.countP p := rfl
  rw [hset, hcount, List.countP_set hlen]
  simp only [hget]
  omega

/-! ### Transit entries (R86) -/

/-- The entry of an arrival order, where orders rise. -/
theorem State.entry?_of_mem {s : State} {e : TransitEntry} (hm : e ∈ s.transit.entries)
    (hp : s.transit.entries.Pairwise fun a b => a.order < b.order) : s.entry? e.order = some e := by
  unfold State.entry?
  generalize s.transit.entries = es at hm hp
  induction es with
  | nil => simp at hm
  | cons a es ih =>
    obtain ⟨h1, h2⟩ := List.pairwise_cons.mp hp
    rcases List.mem_cons.mp hm with h | h
    · simp [h]
    · have := h1 e h
      rw [List.find?_cons_of_neg (by simp; omega), ih h h2]

theorem State.entry?_mem {s : State} {o : Nat} {e : TransitEntry} (h : s.entry? o = some e) :
    e ∈ s.transit.entries ∧ e.order = o :=
  ⟨List.mem_of_find?_eq_some h, by simpa using List.find?_some h⟩

end Sys2Proof.Machine
end

