-- ==== Sys2Proof/Laws/Saves.lean ====
section
/-! SUPPORT. The save engine's tables: the next allocation (R67), the engine's offer (R77), line buffers (R69), and the
requests of a context that are outstanding (R73). -/

namespace Sys2Proof.Machine

/-- R49: a granule has a line for each 64 bytes. -/
theorem Granule.lines_eq (g : Granule) : g.lines = g.bytes / 64 := by cases g <;> rfl

/-! ### Contexts stay busy (R65) -/

@[simp] theorem SaveContext.updateLine_state (x : SaveContext) (j : Nat) (f : LineBuffer → LineBuffer) :
    (x.updateLine j f).state = x.state := rfl

@[simp] theorem SaveContext.issued_state (x : SaveContext) (step : SaveStep) : (x.issued step).state = x.state := by
  cases step <;> rfl

@[simp] theorem SaveContext.retire_state (x : SaveContext) : x.retire.state = x.state := rfl

@[simp] theorem foldLines_state (n : Nat) (x : SaveContext) : (foldLines n x).state = x.state := by
  induction n generalizing x with
  | zero => rfl
  | succ n ih =>
    unfold foldLines
    split
    · rw [ih]; rfl
    · rfl

@[simp] theorem SaveContext.lineArrived_state (x : SaveContext) (j : Nat) (data : Line) :
    (x.lineArrived j data).state = x.state := by
  simp [SaveContext.lineArrived]

@[simp] theorem SaveContext.readFailed_state (x : SaveContext) (kind : ErrorKind) :
    (x.readFailed kind).state = x.state := rfl

/-- R71: an acknowledged data write leaves the context busy. -/
theorem SaveContext.lineWritten_busy {x : SaveContext} (j : Nat) (h : x.state ≠ .free) :
    (x.lineWritten j).state ≠ .free := by
  unfold SaveContext.lineWritten
  dsimp only
  split
  · simp
  · simpa using h

/-- R67: the front of the waiting list is allocated where the conditions hold. -/
theorem State.nextAllocation_eq_some {s : State} {o : Nat} {rest : List Nat} {e : TransitEntry} {w : WindowNo} {i : Nat}
    {g : Granule} {c : ContextNo} (hs : s.marks.state = .opened ∨ s.marks.state = .draining)
    (hb : s.save.fullBar = false) (hw : s.save.waiting = o :: rest) (he : s.entry? o = some e)
    (hc : e.cls = .window w i) (hg : Granule.ofCode (s.window w).code = some g) (hf : s.freeContext? = some c) :
    s.nextAllocation = some (e, w, i, g, c) := by
  have h : ((s.marks.state == .opened || s.marks.state == .draining) && !s.save.fullBar) = true := by
    rcases hs with h | h <;> simp [h, hb]
  unfold State.nextAllocation
  rw [if_pos h]
  simp [hw, he, hc, hg, hf]

/-- R77: the oldest-allocated context that has a step ready is the one that is offered. -/
theorem State.offerOf_save {s : State} {older younger : List ContextNo} {c : ContextNo} {x : SaveContext}
    {step : SaveStep} (ha : s.save.allocation = older ++ c :: younger)
    (ho : ∀ d ∈ older, ∀ y, s.context? d = some y → y.offer = none) (hc : s.context? c = some x)
    (hx : x.offer = some step) : s.offerOf .save = some (.save c x step) := by
  have hn : (older.findSome? fun c => (s.context? c).bind fun x => x.offer.map fun step => (c, step)) = none := by
    rw [List.findSome?_eq_none_iff]
    intro d hd
    cases h : s.context? d with
    | none => rfl
    | some y => simp [ho d hd y h]
  have hs : s.saveOffer = some (c, step) := by simp [State.saveOffer, ha, List.findSome?_append, hn, hc, hx]
  simp [State.offerOf, hs, hc]

/-- R77: the lowest line whose data has arrived and has not been written. -/
theorem SaveContext.lineToWrite_of_lowest {x : SaveContext} {bs as : List LineBuffer} {j : Nat} {data : Line} {f : Bool}
    (hx : x.lines = bs ++ ⟨j, some data, .notIssued, f⟩ :: as)
    (h : ∀ b ∈ bs ++ as, b.data ≠ none → b.write = .notIssued → j < b.line) : x.lineToWrite = some j := by
  have low : ∀ b ∈ bs ++ as, b.data.isSome = true → b.write = .notIssued → j ≤ b.line := by
    intro b hb h1 h2
    exact Nat.le_of_lt (h b hb (by intro hn; simp [hn] at h1) h2)
  unfold SaveContext.lineToWrite
  rw [List.min?_eq_some_iff, hx]
  refine ⟨by simp, fun n hn => ?_⟩
  simp at hn
  rcases hn with ⟨a, ha, ⟨h1, h2⟩, rfl⟩ | rfl | ⟨a, ha, ⟨h1, h2⟩, rfl⟩
  · exact low a (by simp [ha]) h1 h2
  · exact Nat.le_refl _
  · exact low a (by simp [ha]) h1 h2

/-- Changing one line buffer among lines that differ changes that buffer alone. -/
theorem map_line_mid (bs as : List LineBuffer) (b : LineBuffer) (f : LineBuffer → LineBuffer)
    (h : ∀ a ∈ bs ++ as, a.line ≠ b.line) :
    ((bs ++ b :: as).map fun x => if x.line = b.line then f x else x) = bs ++ f b :: as := by
  have same : ∀ l : List LineBuffer, (∀ a ∈ l, a.line ≠ b.line) →
      (l.map fun x => if x.line = b.line then f x else x) = l := by
    intro l hl
    conv_rhs => rw [← List.map_id l]
    exact List.map_congr_left fun a ha => by simp [hl a ha]
  simp [same bs fun a ha => h a (by simp [ha]), same as fun a ha => h a (by simp [ha])]

/-- A line's buffer is found by its line number. -/
theorem find_line_mid (bs as : List LineBuffer) (b : LineBuffer) (h : ∀ a ∈ bs ++ as, a.line ≠ b.line) :
    (bs ++ b :: as).find? (fun x => x.line == b.line) = some b := by
  have hn : bs.find? (fun x => x.line == b.line) = none := by
    rw [List.find?_eq_none]
    intro x hx
    simpa using h x (by simp [hx])
  simp [List.find?_append, hn]

/-- R73: once a tag is FREE, a context has no request outstanding exactly when no other tag is IN_USE for it. -/
theorem State.outstandingOf_setTag_free (s : State) (t : TagNo) (c : ContextNo) :
    (s.setTag t .free).outstandingOf c = 0 ↔ ∀ u, u ≠ t → (s.tag u).outstandingFor c = false := by
  simp only [State.outstandingOf, State.tagCount, List.countP_eq_zero, Vector.mem_toList_iff]
  constructor
  · intro h u hu
    have := h ((s.setTag t .free).tag u) (Vector.getElem_mem u.isLt)
    rw [State.tag_setTag_other _ hu] at this
    simpa using this
  · intro h x hx
    obtain ⟨i, hi, rfl⟩ := Vector.mem_iff_getElem.mp hx
    have ht : (s.setTag t .free).down.tags[i] = (s.setTag t .free).tag ⟨i, hi⟩ := rfl
    rw [ht]
    by_cases hu : (⟨i, hi⟩ : TagNo) = t
    · rw [hu, State.tag_setTag_same]
      simp [TagEntry.outstandingFor]
    · rw [State.tag_setTag_other _ hu]
      simp [h _ hu]

@[simp] theorem State.context?_setTag (s : State) (t : TagNo) (x : TagEntry) (c : ContextNo) :
    (s.setTag t x).context? c = s.context? c := rfl

end Sys2Proof.Machine
end

