-- ==== Sys2Proof/Laws/Arbiter.lean ====
section
/-! SUPPORT. One grant of the arbiter (R112 to R116). -/

namespace Sys2Proof.Machine

/-- R112: a FREE tag is found exactly when there is one. -/
theorem State.freeTag?_isSome_iff (s : State) : s.freeTag?.isSome = true ↔ ∃ t, s.tag t = .free := by
  constructor
  · intro h
    obtain ⟨t, ht⟩ := Option.isSome_iff_exists.mp h
    exact ⟨t, (State.freeTag?_eq_some ht).1⟩
  · rintro ⟨t, ht⟩
    cases h : s.freeTag? with
    | none =>
      have := List.find?_eq_none.mp h t (List.mem_finRange t)
      simp [ht, TagEntry.isFree] at this
    | some _ => rfl

/-- R115: the served source moves to the bottom of a rotation that names it once. -/
theorem rotate_mid {above below : List Source} {source : Source} (h : (above ++ source :: below).Nodup) :
    rotate (above ++ source :: below) source = above ++ below ++ [source] := by
  have h1 := List.nodup_append.mp h
  have h2 := List.nodup_cons.mp h1.2.1
  have ha : above.filter (· != source) = above := by
    rw [List.filter_eq_self]
    intro a ha
    simpa using fun he => h1.2.2 a ha source (by simp) he
  have hb : below.filter (· != source) = below := by
    rw [List.filter_eq_self]
    intro x hx
    simp only [bne_iff_ne]
    rintro rfl
    exact h2.1 hx
  simp [rotate, ha, hb]

end Sys2Proof.Machine

namespace Sys2Proof.Safety

open Machine

/-- What a grant does, for whichever source it goes to: the request is issued and the source is told (R116). -/
theorem grant_of_goes {s : State} {source : Source} {t : TagNo} {rest : List Source} {offer : Offer}
    (h : GrantGoesTo s source t rest) (hp : source = .passThrough → s.passThroughCount < 56)
    (ho : s.offerOf source = some offer) :
    exec .arbiterGrant s = .next ((issuedAs s source t offer.origin (s.requestOf t offer) rest).tellIssued offer) := by
  obtain ⟨hr, hc, ht, hlow, hnd, above, below, hrot, hrest, hab⟩ := h
  have hcan : s.canServe source = true := by
    have hf := (State.freeTag?_isSome_iff s).mpr ⟨t, ht⟩
    by_cases hs : source = .passThrough
    · simp [State.canServe, ho, hc, hf, hp hs, Config.passThroughTags]
    · simp [State.canServe, ho, hc, hf, hs]
  have hg : s.grantee = some source := by
    have hn : above.find? s.canServe = none := by
      rw [List.find?_eq_none]
      intro x hx
      simp [hab x hx]
    simp [State.grantee, hrot, List.find?_append, hn, hcan]
  have hft := State.freeTag?_of_lowest ht hlow
  have hrt : rotate s.down.rotation source = rest ++ [source] := by
    rw [hrot] at hnd ⊢
    rw [rotate_mid hnd, hrest]
  simp only [exec, execArbiterGrant]
  rw [show s.running State.grant = s.grant by simp [State.running, show s.pins.resetLow = false from hr]]
  simp [State.grant, hg, ho, hft, State.issue, issuedAs, State.setTag, State.send, hrt]
  rfl

end Sys2Proof.Safety
end

