-- ==== Sys2Proof/Laws/Notices.lean ====
section
/-! SUPPORT. What a post does, and what a happening with no post or with posts of the mark controller comes to. -/

namespace Sys2Proof.Machine

/-- An accepted post (R160). -/
theorem takePost_accepted (s : State) (k : NoticeKind) (v : Nat) (h : s.notice.queue.length < 32) :
    takePost s k v = (s.setNotice { s.notice with
      queue := s.notice.queue ++ [⟨k, s.notice.nextSequence, s.notice.loss, v⟩]
      nextSequence := (s.notice.nextSequence + 1) % 65536
      loss := 0
      quietStart := s.now }).updateLine := by
  simp [takePost, h, Config.noticeRecords]

/-- A dropped post (R161). -/
theorem takePost_dropped (s : State) (k : NoticeKind) (v : Nat) (h : 32 ≤ s.notice.queue.length) :
    takePost s k v =
      s.setNotice { s.notice with loss := if s.notice.loss < 255 then s.notice.loss + 1 else 255 } := by
  simp [takePost, Nat.not_lt.mpr h, Config.noticeRecords]

/-- A happening in which nothing is posted. -/
theorem happening_of_no_post (s : State) (f : Happening → Happening) (h : (f (Happening.start s)).posts = []) :
    happening s f = (f (Happening.start s)).state := by
  simp [happening, Happening.finish, h, takePosts]

/-- A happening with one post carries the level it has reached, if its block is the mark controller or the level has
not changed. -/
theorem happening_of_one_post (s : State) (f : Happening → Happening) (b : Block) (k : NoticeKind)
    (h : (f (Happening.start s)).posts = [⟨b, k⟩])
    (hl : b = .markController ∨ s.level = (f (Happening.start s)).state.level) :
    happening s f = takePost (f (Happening.start s)).state k (f (Happening.start s)).state.level := by
  rcases hl with hl | hl <;> simp [happening, Happening.finish, h, takePosts, takeable, choosePost, chooseLevel, hl]

/-- A happening with two posts of the mark controller. -/
theorem happening_of_two_posts (s : State) (f : Happening → Happening) (k₁ k₂ : NoticeKind)
    (h : (f (Happening.start s)).posts = [⟨.markController, k₁⟩, ⟨.markController, k₂⟩]) :
    happening s f = takePost (takePost (f (Happening.start s)).state k₁ (f (Happening.start s)).state.level) k₂
      (f (Happening.start s)).state.level := by
  simp [happening, Happening.finish, h, takePosts, takeable, choosePost, chooseLevel, State.level]

/-- While RESET_N is high a happening reaches the part (R191). -/
theorem State.running_of_high (s : State) (f : State → State) (h : s.pins.resetLow = false) : s.running f = f s := by
  simp [State.running, h]

/-- While RESET_N is low nothing reaches the part (R191). -/
theorem State.running_of_low (s : State) (f : State → State) (h : s.pins.resetLow = true) : s.running f = s := by
  simp [State.running, h]

end Sys2Proof.Machine
end

