-- ==== Sys2Proof/Laws/Together.lean ====
section
/-! SUPPORT. How the posts of one happening are taken: those of the mark controller alone, and those of the mark
controller with one of another block (R154, R158). -/

namespace Sys2Proof.Safety

open Machine

/-- A post's effect does not depend on how many free choices have been taken. -/
@[simp] theorem takePost_setChoices (s : State) (k : NoticeKind) (v n : Nat) :
    takePost (s.setChoices n) k v = (takePost s k v).setChoices n := by
  unfold takePost
  by_cases h : s.notice.queue.length < Config.noticeRecords
  · rw [if_pos h, if_pos (by exact h)]; rfl
  · rw [if_neg h, if_neg (by exact h)]; rfl

@[simp] theorem takeAll_setChoices (posts : List NoticeKind) (s : State) (v n : Nat) :
    takeAll (s.setChoices n) posts v = (takeAll s posts v).setChoices n := by
  induction posts generalizing s with
  | nil => rfl
  | cons k ks ih =>
    show takeAll (takePost (s.setChoices n) k v) ks v = _
    rw [takePost_setChoices, ih]; rfl

@[simp] theorem setChoices_setChoices (s : State) (m n : Nat) : (s.setChoices m).setChoices n = s.setChoices n := rfl

@[simp] theorem level_setChoices (s : State) (n : Nat) : (s.setChoices n).level = s.level := rfl

@[simp] theorem level_takePost (s : State) (k : NoticeKind) (v : Nat) : (takePost s k v).level = s.level := by
  simp [State.level]

theorem setChoices_self (s : State) : s.setChoices s.choices = s := rfl

@[simp] theorem takeAll_nil (s : State) (v : Nat) : takeAll s [] v = s := rfl

@[simp] theorem takeAll_cons (s : State) (k : NoticeKind) (ks : List NoticeKind) (v : Nat) :
    takeAll s (k :: ks) v = takeAll (takePost s k v) ks v := rfl

theorem takeAll_append (s : State) (ks ls : List NoticeKind) (v : Nat) :
    takeAll s (ks ++ ls) v = takeAll (takeAll s ks v) ls v := by
  simp [takeAll, List.foldl_append]

@[simp] theorem takeAll_marks (s : State) (ks : List NoticeKind) (v : Nat) : (takeAll s ks v).marks = s.marks := by
  induction ks generalizing s with
  | nil => rfl
  | cons k ks ih => simp [ih]

/-- Only the first post of the mark controller can be taken next (R158). -/
theorem takeable_own (k : NoticeKind) (own : List NoticeKind) (rest : List Post)
    (h : ∀ p ∈ rest, p.block ≠ .markController) :
    takeable (⟨.markController, k⟩ :: (own.map (Post.mk .markController) ++ rest)) =
      ⟨.markController, k⟩ :: takeable rest := by
  have hf : ∀ l : List Post, (∀ p ∈ l, p.block ≠ .markController) →
      l.filter (fun q => q.block != .markController) = l := by
    intro l hl
    exact List.filter_eq_self.mpr fun p hp => by simpa using hl p hp
  have sub : ∀ l : List Post, ∀ p ∈ takeable l, p ∈ l := by
    intro l
    induction l with
    | nil => simp [takeable]
    | cons q l ih =>
      intro p hp
      simp only [takeable, List.mem_cons, List.mem_filter] at hp ⊢
      rcases hp with hp | ⟨hp, -⟩
      · exact .inl hp
      · exact .inr (ih p hp)
  have hr : ∀ own : List NoticeKind, (takeable (own.map (Post.mk .markController) ++ rest)).filter
      (fun q => q.block != .markController) = takeable rest := by
    intro own
    induction own with
    | nil => exact hf _ fun p hp => h p (sub rest p hp)
    | cons l ls ih =>
      simp only [List.map_cons, List.cons_append, takeable, List.filter_cons]
      rw [if_neg (by simp), List.filter_filter]
      simpa using ih
  show _ :: List.filter _ _ = _
  rw [hr own]

/-- The mark controller's posts are taken in order, at the level its rule has reached (R154, R158). -/
theorem takePosts_own (own : List NoticeKind) (n old : Nat) (mayBeOld : Bool) (s : State) (h : own.length ≤ n) :
    takePosts n old mayBeOld (own.map (Post.mk .markController)) s = takeAll s own s.level := by
  induction own generalizing n mayBeOld s with
  | nil => cases n <;> simp [takePosts, takeable]
  | cons k ks ih =>
    obtain ⟨n, rfl⟩ := Nat.exists_eq_add_of_le' (show 1 ≤ n by simp at h; omega)
    have ht := takeable_own k ks [] (by simp)
    simp only [List.append_nil] at ht
    simp only [takePosts, List.map_cons, ht, takeable, choosePost, chooseLevel, decide_true, Bool.true_or, ↓reduceIte,
      List.erase_cons_head]
    rw [ih _ _ _ (by simp at h; omega)]
    simp [State.level]

/-- The level another block's post carries: the one reached, which the later ones then carry too, or the old one while
that may be (R154). -/
theorem chooseLevel_cases (b : Block) (hb : b ≠ .markController) (old : Nat) (mayBeOld : Bool) (s : State) :
    ∃ level stays choices, chooseLevel b old mayBeOld s = (level, stays, s.setChoices choices) ∧
      ((level = s.level ∧ stays = false) ∨ (level = old ∧ mayBeOld = true)) := by
  by_cases hm : mayBeOld = false
  · exact ⟨s.level, false, s.choices, by simp [chooseLevel, hm], .inl ⟨rfl, rfl⟩⟩
  · have h1 : mayBeOld = true := by simpa using hm
    by_cases h2 : old = s.level
    · exact ⟨s.level, true, s.choices, by simp [chooseLevel, hb, h1, h2], .inr ⟨h2.symm, h1⟩⟩
    by_cases hq : Config.freeChoice s.choices % 2 = 0
    · exact ⟨old, true, s.choices + 1, by simp [chooseLevel, hb, h1, h2, State.nextChoice, hq], .inr ⟨rfl, h1⟩⟩
    · exact ⟨s.level, false, s.choices + 1, by simp [chooseLevel, hb, h1, h2, State.nextChoice, hq], .inl ⟨rfl, rfl⟩⟩

/-- The posts of the mark controller among these. -/
def ownPosts (posts : List Post) : List NoticeKind :=
  (posts.filter (·.block == .markController)).map (·.kind)

theorem takeable_subset (posts : List Post) : ∀ p ∈ takeable posts, p ∈ posts := by
  induction posts with
  | nil => simp [takeable]
  | cons q l ih =>
    intro p hp
    simp only [takeable, List.mem_cons, List.mem_filter] at hp ⊢
    exact hp.imp id fun h => ih p h.1

/-- R158: a post that can be taken next is the first of its block. -/
theorem ownPosts_takeable {posts : List Post} {p : Post} (h : p ∈ takeable posts) (hb : p.block = .markController) :
    ownPosts posts = p.kind :: ownPosts (posts.erase p) := by
  induction posts with
  | nil => simp [takeable] at h
  | cons q l ih =>
    simp only [takeable, List.mem_cons, List.mem_filter, bne_iff_ne] at h
    rcases h with rfl | ⟨h, hq⟩
    · simp [ownPosts, hb]
    · have hne : q ≠ p := fun e => hq (by rw [e])
      have hqb : q.block ≠ .markController := fun e => hq (by rw [hb, e])
      rw [List.erase_cons_tail (by simpa using hne)]
      simpa [ownPosts, hqb] using ih h

theorem ownPosts_erase {posts : List Post} {p : Post} (hb : p.block ≠ .markController) :
    ownPosts (posts.erase p) = ownPosts posts := by
  induction posts with
  | nil => rfl
  | cons q l ih =>
    by_cases h : q = p
    · subst h; simp [ownPosts, hb]
    · rw [List.erase_cons_tail (by simpa using h)]
      simp only [ownPosts, List.filter_cons] at ih ⊢
      split <;> simp [ih]

/-- One of the posts that can be taken next is taken, at some count of choices. -/
theorem choosePost_mem (first : Post) (others : List Post) (s : State) :
    ∃ p choices, choosePost first others s = (p, s.setChoices choices) ∧ p ∈ first :: others := by
  cases others with
  | nil => exact ⟨first, s.choices, rfl, by simp⟩
  | cons q l =>
    refine ⟨_, _, rfl, ?_⟩
    rw [List.getD_eq_getElem?_getD]
    cases h : (first :: q :: l)[Config.freeChoice s.choices % ((q :: l).length + 1)]? with
    | none => simp
    | some x => exact List.mem_of_getElem? h

/-- R154, R158: the posts of a happening, in the words the claims use. -/
theorem takePosts_any (n old : Nat) (mayBeOld : Bool) (posts : List Post) (s : State) (hn : posts.length ≤ n) :
    ∃ before after choices, (before ++ after).Perm (posts.map (·.kind)) ∧ (ownPosts posts).Sublist after ∧
      (mayBeOld = false → before = []) ∧
      takePosts n old mayBeOld posts s = (takeAll (takeAll s before old) after s.level).setChoices choices := by
  induction n generalizing mayBeOld posts s with
  | zero =>
    obtain rfl := List.length_eq_zero_iff.mp (Nat.le_zero.mp hn)
    exact ⟨[], [], s.choices, by simp, by simp [ownPosts], fun _ => rfl, rfl⟩
  | succ n ih =>
    cases posts with
    | nil => exact ⟨[], [], s.choices, by simp, by simp [ownPosts], fun _ => rfl, rfl⟩
    | cons q l =>
      have ht : ∃ others, takeable (q :: l) = q :: others := ⟨_, rfl⟩
      obtain ⟨others, ht⟩ := ht
      obtain ⟨p, c₁, hp, hm⟩ := choosePost_mem q others s
      rw [← ht] at hm
      have hmem := takeable_subset _ p hm
      have hperm : (p :: (q :: l).erase p).Perm (q :: l) := (List.perm_cons_erase hmem).symm
      have hlen : ((q :: l).erase p).length ≤ n := by
        rw [List.length_erase_of_mem hmem]; simp at hn ⊢; omega
      unfold takePosts
      simp only [ht, hp]
      by_cases hb : p.block = .markController
      · have hc : chooseLevel p.block old mayBeOld (s.setChoices c₁) = (s.level, false, s.setChoices c₁) := by
          simp [chooseLevel, hb]
        rw [hc]
        obtain ⟨before, after, c, h1, h2, h3, h4⟩ :=
          ih false ((q :: l).erase p) (takePost (s.setChoices c₁) p.kind s.level) hlen
        obtain rfl := h3 rfl
        refine ⟨[], p.kind :: after, c, ?_, ?_, fun _ => rfl, ?_⟩
        · simpa using (h1.cons p.kind).trans (by simpa using hperm.map (·.kind))
        · rw [ownPosts_takeable hm hb]; exact h2.cons_cons _
        · simpa using h4
      · obtain ⟨level, stays, c₂, hl, hcase⟩ := chooseLevel_cases p.block hb old mayBeOld (s.setChoices c₁)
        rw [hl]
        obtain ⟨before, after, c, h1, h2, h3, h4⟩ :=
          ih stays ((q :: l).erase p) (takePost ((s.setChoices c₁).setChoices c₂) p.kind level) hlen
        rw [ownPosts_erase hb] at h2
        have hk : (p.kind :: (before ++ after)).Perm ((q :: l).map (·.kind)) :=
          (h1.cons p.kind).trans (by simpa using hperm.map (·.kind))
        by_cases hold : level = old ∧ mayBeOld = true
        · refine ⟨p.kind :: before, after, c, hk, h2, fun h => by simp [hold.2] at h, ?_⟩
          simpa [hold.1] using h4
        · obtain ⟨rfl, rfl⟩ := hcase.resolve_right hold
          obtain rfl := h3 rfl
          refine ⟨[], p.kind :: after, c, hk, h2.trans (List.sublist_cons_self _ _), fun _ => rfl, ?_⟩
          simpa using h4

@[simp] theorem takePost_choices (s : State) (k : NoticeKind) (v : Nat) : (takePost s k v).choices = s.choices := by
  unfold takePost
  split <;> rfl

@[simp] theorem takeAll_choices (s : State) (ks : List NoticeKind) (v : Nat) : (takeAll s ks v).choices = s.choices := by
  induction ks generalizing s with
  | nil => rfl
  | cons k ks ih => simp [ih]

/-- Posts of one block alone are taken in order, and no choice is taken. -/
theorem takenTogether_own (s : State) (own : List NoticeKind) (old : Nat) :
    TakenTogether s (takeAll s own s.level) own [] old s.level :=
  ⟨[], own, s.choices, by simp, List.Sublist.refl _, fun _ => rfl, by
    conv_lhs => rw [← setChoices_self (takeAll s own s.level)]
    rw [takeAll_choices]
    rfl⟩

/-- A happening without posts is its state. -/
theorem finish_of_no_posts {h : Happening} (hp : h.posts = []) (old : Nat) : h.finish old = h.state := by
  simp [Happening.finish, hp, takePosts]

/-- A happening with one post, made at the level it began with. -/
theorem finish_of_one_post {h : Happening} {b : Block} {k : NoticeKind} (hp : h.posts = [⟨b, k⟩]) :
    h.finish h.state.level = takePost h.state k h.state.level := by
  simp [Happening.finish, hp, takePosts, takeable, choosePost, chooseLevel]

theorem ownPosts_split (own : List NoticeKind) {rest : List Post} (hr : ∀ p ∈ rest, p.block ≠ .markController) :
    ownPosts (own.map (Post.mk .markController) ++ rest) = own := by
  have h1 : (own.map (Post.mk .markController)).filter (·.block == .markController) =
      own.map (Post.mk .markController) := List.filter_eq_self.mpr (by simp)
  have h2 : rest.filter (·.block == .markController) = [] := List.filter_eq_nil_iff.mpr fun p hp => by simpa using hr p hp
  rw [ownPosts, List.filter_append, h1, h2, List.append_nil, List.map_map]
  exact List.map_id own

/-- A happening with posts of the mark controller, and then posts of other blocks (R154, R158). -/
theorem finish_together (h : Happening) (own : List NoticeKind) (rest : List Post) (old : Nat)
    (hr : ∀ p ∈ rest, p.block ≠ .markController) (hp : h.posts = own.map (Post.mk .markController) ++ rest) :
    TakenTogether h.state (h.finish old) own (rest.map (·.kind)) old h.state.level := by
  have hk : h.posts.map (·.kind) = own ++ rest.map (·.kind) := by
    rw [hp, List.map_append, List.map_map]
    congr 1
    exact List.map_id own
  by_cases hn : rest = []
  · subst hn
    have : h.finish old = takeAll h.state own h.state.level := by
      rw [Happening.finish, hp, List.append_nil, takePosts_own _ _ _ _ _ (by simp)]
    rw [this]
    exact takenTogether_own _ _ _
  by_cases h1 : (own ++ rest.map (·.kind)).length ≤ 1 ∧ old = h.state.level
  · obtain ⟨h1, rfl⟩ := h1
    obtain ⟨p, l, rfl⟩ := List.exists_cons_of_ne_nil hn
    simp only [List.length_append, List.map_cons, List.length_cons] at h1
    obtain rfl : own = [] := List.length_eq_zero_iff.mp (by omega)
    obtain rfl : l = [] := by
      have : (l.map (·.kind)).length = 0 := by simp at h1 ⊢; omega
      simpa using this
    rw [finish_of_one_post (b := p.block) (k := p.kind) (by simpa using hp)]
    refine ⟨[], [p.kind], h.state.choices, by simp, by simp, fun _ => rfl, ?_⟩
    conv_lhs => rw [← setChoices_self (takePost _ _ _)]
    rw [takePost_choices]
    rfl
  · obtain ⟨before, after, c, h2, h3, -, h4⟩ := takePosts_any h.posts.length old true h.posts h.state (Nat.le_refl _)
    rw [hk] at h2
    rw [hp, ownPosts_split own hr] at h3
    exact ⟨before, after, c, h2, h3, fun hc => absurd hc (not_or.mpr ⟨by simpa using hn, h1⟩), h4⟩

/-- A happening whose level stays, with one post of a block and then posts of others (R158). -/
theorem finish_beside (h : Happening) (own others : List NoticeKind) (ho : own.length ≤ 1) (hn : own ++ others ≠ [])
    (hk : h.posts.map (·.kind) = own ++ others) :
    TakenTogether h.state (h.finish h.state.level) own others h.state.level h.state.level := by
  by_cases h1 : (own ++ others).length ≤ 1
  · obtain ⟨k, hone⟩ : ∃ k, own ++ others = [k] := List.length_eq_one_iff.mp (by
      have := List.length_pos_iff.mpr hn
      omega)
    obtain ⟨p, hp⟩ : ∃ p, h.posts = [p] := List.length_eq_one_iff.mp (by
      have := congrArg List.length hk
      simpa [hone] using this)
    rw [finish_of_one_post (b := p.block) (k := p.kind) hp]
    have hpk : p.kind = k := by simpa [hp, hone] using hk
    refine ⟨[], [k], h.state.choices, by simp [hone], ?_, fun _ => rfl, ?_⟩
    · rw [← hone]
      exact List.sublist_append_left _ _
    · rw [hpk]
      conv_lhs => rw [← setChoices_self (takePost _ _ _)]
      rw [takePost_choices]
      rfl
  · obtain ⟨before, after, c, h2, -, -, h4⟩ := takePosts_any h.posts.length h.state.level true h.posts h.state
      (Nat.le_refl _)
    rw [hk] at h2
    refine ⟨[], before ++ after, c, h2, ?_, fun hc => ?_, ?_⟩
    · match own, ho with
      | [], _ => exact List.nil_sublist _
      | [k], _ => exact List.singleton_sublist.mpr (h2.mem_iff.mpr (by simp))
    · rcases hc with rfl | hc
      · simp at h1 hn ho
        omega
      · exact absurd hc.1 h1
    · rw [← takeAll_append] at h4
      exact h4

/-! ### Happenings in the words the claims use -/

/-- A happening whose posts are all the mark controller's. -/
theorem happening_own (s : State) (f : Happening → Happening) (own : List NoticeKind)
    (h : (f (Happening.start s)).posts = own.map (Post.mk .markController)) :
    happening s f = takeAll (f (Happening.start s)).state own (f (Happening.start s)).state.level := by
  rw [happening, Happening.finish, h, takePosts_own _ _ _ _ _ (by simp)]

end Sys2Proof.Safety
end

