-- ==== Sys2Proof/Laws/Transit.lean ====
section
/-! SUPPORT. The transit buffer's entries by arrival order, and what evaluating a head, passing a turn and leaving come
to (R88, R93, R94). -/

namespace Sys2Proof.Machine

/-- Changing the entry of one arrival order, in a buffer that keeps arrival order, changes that entry alone. -/
theorem map_update_mid (front back : List TransitEntry) (d : TransitEntry) (f : TransitEntry → TransitEntry)
    (h : (front ++ d :: back).Pairwise fun a b => a.order < b.order) :
    ((front ++ d :: back).map fun x => if x.order = d.order then f x else x) = front ++ f d :: back := by
  have ⟨_, h2, h3⟩ := List.pairwise_append.mp h
  have h4 := List.pairwise_cons.mp h2
  have same : ∀ l : List TransitEntry, (∀ a ∈ l, a.order ≠ d.order) →
      (l.map fun x => if x.order = d.order then f x else x) = l := by
    intro l hl
    conv_rhs => rw [← List.map_id l]
    exact List.map_congr_left fun a ha => by simp [hl a ha]
  simp only [List.map_append, List.map_cons, if_true]
  rw [same front fun a ha => by have := h3 a ha d (by simp); omega,
    same back fun a ha => by have := h4.1 a ha; omega]

/-- Removing the entry of one arrival order, in a buffer that keeps arrival order, removes that entry alone. -/
theorem eraseP_mid (front back : List TransitEntry) (d : TransitEntry)
    (h : (front ++ d :: back).Pairwise fun a b => a.order < b.order) :
    (front ++ d :: back).eraseP (·.order == d.order) = front ++ back := by
  have ⟨_, _, h3⟩ := List.pairwise_append.mp h
  rw [List.eraseP_append_right]
  · simp
  · intro a ha
    have := h3 a ha d (by simp)
    simp
    omega

/-- The entry that has just arrived is found by its order. -/
theorem find_arrived (es : List TransitEntry) (e : TransitEntry) (h : ∀ x ∈ es, x.order < e.order) :
    (es ++ [e]).find? (·.order == e.order) = some e := by
  have hn : es.find? (·.order == e.order) = none := by
    rw [List.find?_eq_none]
    intro x hx
    have := h x hx
    simp
    omega
  simp [List.find?_append, hn]

/-- R91, test 1. -/
theorem State.holdsArrivals_iff (s : State) : s.holdsArrivals = true ↔ s.marks.state = .draining ∨
    s.marks.state = .rollingBack ∨ s.marks.state = .resetting ∧ s.restore.state = .restoring := by
  simp [State.holdsArrivals, or_assoc]

/-- R93: a head is held for a save or made FORWARDABLE. -/
theorem State.evaluateHead_of_entry {s : State} {o : Nat} {e : TransitEntry} {w : WindowNo} {i : Nat}
    (h : s.entry? o = some e) (hc : e.cls = .window w i) :
    s.evaluateHead o =
      if s.saveNeeded e i then s.enterWaitSave o else s.updateEntry o fun e => { e with state := .forwardable } := by
  simp [State.evaluateHead, h, hc]

/-- R94: nothing follows where the map index has no entry left. -/
theorem State.passTurn_of_none {s : State} {i : Nat} (h : s.headOf i = none) : s.passTurn i = s := by
  simp [State.passTurn, h]

/-- R94: the next entry takes its turn out of WAIT_ORDER alone. -/
theorem State.passTurn_of_head {s : State} {i : Nat} {e : TransitEntry} (h : s.headOf i = some e) :
    s.passTurn i = if e.state = .waitOrder then s.evaluateHead e.order else s := by
  simp [State.passTurn, h]

/-- R97: entries without a pre-drain mark are left as they are. -/
theorem State.clearPreDrain_of_clear {s : State} (h : ∀ e ∈ s.transit.entries, e.preDrain = false) :
    s.clearPreDrain = s := by
  have hm : (s.transit.entries.map fun e => ({ e with preDrain := false } : TransitEntry)) = s.transit.entries := by
    conv_rhs => rw [← List.map_id s.transit.entries]
    refine List.map_congr_left fun a ha => ?_
    have := h a ha
    cases a
    simp_all
  simp [State.clearPreDrain, State.updateEntries, State.setEntries, hm, State.setTransit]

end Sys2Proof.Machine
end

