-- ==== Sys2Proof/Laws/Walks.lean ====
section
/-! SUPPORT. Drains, the latch, and the course of a walk: each shared operation in the cases the rules tell apart. -/

namespace Sys2Proof.Machine

/-! ### Walks (R130, R151 to R153) -/

/-- Without an end request a walk goes on. -/
theorem Happening.endByRequest_of_none {h : Happening} (he : h.state.restore.endRequest = .noRequest) :
    h.endByRequest = h := by
  simp [Happening.endByRequest, he]

/-- R130 to R132: a walk without an end request stops at its walk position. -/
theorem Happening.stopWalk_of_none {h : Happening} (he : h.state.restore.endRequest = .noRequest) :
    h.stopWalk = h.step (·.updateEngine fun e =>
      { e with step := .noStep, outcome := { e.outcome with stopped := true, stopOffset := some e.position } }) := by
  simp [Happening.stopWalk, Happening.endByRequest, Happening.step, State.updateEngine, he]

/-- R130: at the lower bound with no record left the walk has ended complete. -/
theorem Happening.boundaryTest_at_end {h : Happening} (he : h.state.restore.endRequest = .noRequest)
    (hp : h.state.restore.position = h.state.restore.lowerBound) (hr : h.state.restore.remaining = 0) :
    h.boundaryTest = h := by
  simp [Happening.boundaryTest, hp, hr, Happening.endByRequest_of_none he]

/-- R130: a bound and a count that disagree stop the walk. -/
theorem Happening.boundaryTest_mismatch {h : Happening}
    (hd : (h.state.restore.position = h.state.restore.lowerBound ∧ h.state.restore.remaining ≠ 0) ∨
      (h.state.restore.position ≠ h.state.restore.lowerBound ∧ h.state.restore.remaining = 0)) :
    h.boundaryTest = h.stopWalk := by
  rcases hd with ⟨h1, h2⟩ | ⟨h1, h2⟩ <;> simp [Happening.boundaryTest, h1, h2]

/-- R130, R131: above the lower bound with records left the engine begins the next record. -/
theorem Happening.boundaryTest_next {h : Happening} (he : h.state.restore.endRequest = .noRequest)
    (hp : h.state.restore.position ≠ h.state.restore.lowerBound) (hr : h.state.restore.remaining ≠ 0) :
    h.boundaryTest = h.step State.beginRecord := by
  simp [Happening.boundaryTest, hp, hr, he]

/-- R151: without a running check there is nothing to abandon. -/
theorem Happening.abandonCheck_of_not_checking {h : Happening} (hc : h.state.restore.state ≠ .checking) :
    h.abandonCheck = h := by
  simp [Happening.abandonCheck, hc]

/-- R148: a busy context holds the slot that ends at an offset. -/
theorem State.slotBusyAt_iff (s : State) (offset : Nat) :
    s.slotBusyAt offset = true ↔ ∃ c x, s.context? c = some x ∧ x.offset + x.granule.recordSize = offset := by
  simp only [State.slotBusyAt, List.any_eq_true, Vector.mem_toList_iff, State.context?_eq_some, Bool.and_eq_true,
    bne_iff_ne, beq_iff_eq]
  constructor
  · rintro ⟨x, hx, hb, ho⟩
    obtain ⟨i, hi, rfl⟩ := Vector.mem_iff_getElem.mp hx
    exact ⟨⟨i, hi⟩, _, ⟨hb, rfl⟩, ho⟩
  · rintro ⟨c, x, ⟨hb, rfl⟩, ho⟩
    exact ⟨_, Vector.getElem_mem c.isLt, hb, ho⟩

/-! ### The latch (R17, R25) -/

/-- Without a latched request the second step of R17 does nothing. -/
theorem Happening.evaluateLatch_of_clear {h : Happening} (hl : h.state.marks.latch = false) : h.evaluateLatch = h := by
  simp [Happening.evaluateLatch, hl]

/-- R17: re-classification leaves the marks as they are. -/
theorem Happening.settle_of_clear {h : Happening} (hl : h.state.marks.latch = false) :
    h.settle = h.step State.reclassifyAll := by
  have : (h.step State.reclassifyAll).state.marks.latch = false := by simp [hl]
  simp [Happening.settle, Happening.evaluateLatch_of_clear this]

/-! ### Breaks (R20, R21) -/

/-- R20: a break report in OPEN while no check runs. -/
theorem Happening.breakReport_of_opened {h : Happening} (reason : BrokenReason) (hs : h.state.marks.state = .opened)
    (hc : h.state.restore.state ≠ .checking) :
    h.breakReport reason =
      (h.step (·.enterBroken reason)).post .markController (.logBroken reason h.state.log.tail) := by
  simp [Happening.breakReport, hs, Happening.abandonCheck, hc]

/-- R21: a break report in any state but OPEN and DRAINING changes nothing. -/
theorem Happening.breakReport_of_other {h : Happening} (reason : BrokenReason) (h1 : h.state.marks.state ≠ .opened)
    (h2 : h.state.marks.state ≠ .draining) : h.breakReport reason = h := by
  unfold Happening.breakReport
  dsimp only
  split <;> simp_all

end Sys2Proof.Machine

namespace Sys2Proof.Safety

open Machine

/-- R12: the drain of an OPEN, RELEASE or COMMIT has ended. -/
theorem drained_of_clear {s : State} (h : DrainClear s) (ha : ∀ k o, s.marks.action ≠ .rollback k o) :
    s.drained = true := by
  obtain ⟨h1, h2, h3⟩ := h
  have hf := s.allContextsFree_iff.mpr h3
  have he : s.transit.entries.all (fun e => !e.preDrain) = true := by simpa using h2
  cases hact : s.marks.action with
  | rollback k o => exact absurd hact (ha k o)
  | _ => simp [State.drained, State.drainDone, hf, h1, he, hact]

/-- R12: the drain of a ROLLBACK has ended. -/
theorem drained_of_rollback_clear {s : State} {k : Nat} {origin : Origin} (h : RollbackDrainClear s origin)
    (ha : s.marks.action = .rollback k origin) : s.drained = true := by
  obtain ⟨⟨h1, h2, h3⟩, h4, h5⟩ := h
  have hf := s.allContextsFree_iff.mpr h3
  have he : s.transit.entries.all (fun e => !e.preDrain) = true := by simpa using h2
  have ht : s.down.tags.toList.all (fun t => !t.carriesWindowWrite) = true := by
    rw [List.all_eq_true]
    intro x hx
    obtain ⟨i, hi, rfl⟩ := Vector.mem_iff_getElem.mp (Vector.mem_toList_iff.mp hx)
    have : s.down.tags[i].carriesWindowWrite = false := h4 ⟨i, hi⟩
    simp [this]
  have ho : (origin == .command || s.restore.state == .idle) = true := by
    cases origin
    · rfl
    · simpa using h5 rfl
  simp only [State.drained, State.drainDone, hf, h1, he, ha, ht, ho]
  rfl

/-- R130 to R132: a walk that is over waits for its end to be taken. -/
theorem walkEnded_of_over {e : RestoreEngine} (h : WalkOver e) : e.walkEnded = true := by
  obtain ⟨h1, h2⟩ := h
  simpa [RestoreEngine.walkEnded, h1] using h2

end Sys2Proof.Safety
end

