-- ==== Sys2Proof/Laws/Ends.lean ====
section
/-! SUPPORT. The ends of walks and records, breaks, and the latch: what each shared operation comes to once its posts are
taken, in the words the claims use (R17, R20, R25, R130, R139, R151 to R153). -/

namespace Sys2Proof.Safety

open Machine

/-! ### Requests to end a check (R151) -/

theorem endsAtOnce_iff (e : RestoreEngine) : e.endsAtOnce = true ↔ EndsAtOnce e := by
  simp [RestoreEngine.endsAtOnce, EndsAtOnce, or_assoc]

theorem not_endsAtOnce_of_goesOn {e : RestoreEngine} (h : GoesOn e) : e.endsAtOnce = false := by
  rcases h with ⟨h1, h2⟩ | h1 | ⟨-, h1⟩ <;> simp [RestoreEngine.endsAtOnce, *]

/-- Without a running check, or under a request already, there is nothing to abandon. -/
theorem abandonCheck_none {h : Happening}
    (hc : h.state.restore.state ≠ .checking ∨ h.state.restore.endRequest ≠ .noRequest) : h.abandonCheck = h := by
  rcases hc with hc | hc <;> simp [Happening.abandonCheck, hc]

/-- A check with no read of its record issued is abandoned at once. -/
theorem abandonCheck_ends {h : Happening} (hc : h.state.restore.state = .checking)
    (hn : h.state.restore.endRequest = .noRequest) (he : EndsAtOnce h.state.restore) :
    h.abandonCheck =
      ⟨h.state.setRestore (idleEngine { h.state.restore with endRequest := .abandon }),
        h.posts ++ [⟨.restoreEngine, .checkDone h.state.restore.outcome .abandoned⟩]⟩ := by
  simp [Happening.abandonCheck, hc, hn, Happening.requestEnd, (endsAtOnce_iff _).mpr he, Happening.endByRequest,
    Happening.step, Happening.post, State.updateEngine, RestoreEngine.toIdle, idleEngine]

/-- A check whose record has a read issued goes on under its request. -/
theorem abandonCheck_goesOn {h : Happening} (hc : h.state.restore.state = .checking)
    (hn : h.state.restore.endRequest = .noRequest) (he : GoesOn h.state.restore) :
    h.abandonCheck = ⟨h.state.setRestore { h.state.restore with endRequest := .abandon }, h.posts⟩ := by
  simp [Happening.abandonCheck, hc, hn, Happening.requestEnd, not_endsAtOnce_of_goesOn he, Happening.step,
    State.updateEngine]

/-! ### Ends of a walk (R130, R139, R151 to R153) -/

/-- A relation on what a happening leaves holds of this one, whose posts are at most one. -/
def LeavesOne (leaves : State → List NoticeKind → List NoticeKind → Prop) (h : Happening) : Prop :=
  ∀ own : List NoticeKind, own.length ≤ 1 → h.posts.map (·.kind) = own → leaves h.state own []

/-- A walk that ends takes its end request. -/
theorem endByRequest_ends {leaves : State → List NoticeKind → List NoticeKind → Prop} (h : Happening) (hp : h.posts = [])
    (hl : LeavesOne leaves h.endByRequest) : WalkEnds h.state h.state.restore leaves := by
  have run : ∀ own v, own.length ≤ 1 → h.endByRequest.posts.map (·.kind) = own → h.endByRequest.state = v →
      leaves v own [] := fun own v h1 h2 h3 => h3 ▸ hl own h1 h2
  refine ⟨fun hr => ?_, fun hr => ?_, fun hr => ?_, fun hr => ?_⟩ <;> apply run <;>
    simp [Happening.endByRequest, hr, hp, State.updateEngine, RestoreEngine.toIdle, idleEngine] <;> rfl

/-- A walk that stops takes its end request with the stop in its outcome. -/
theorem stopWalk_ends {leaves : State → List NoticeKind → List NoticeKind → Prop} (h : Happening) (hp : h.posts = [])
    (hl : LeavesOne leaves h.stopWalk) : WalkEnds h.state (stoppedEngine h.state.restore) leaves :=
  endByRequest_ends (h.step (·.updateEngine stoppedEngine)) hp hl

/-- The boundary test ends or stops the walk, or begins the next record (R130, R148). -/
theorem boundaryTest_cases {leaves : State → List NoticeKind → List NoticeKind → Prop} (h : Happening)
    (hp : h.posts = []) (hl : LeavesOne leaves h.boundaryTest) :
    (h.state.restore.position = h.state.restore.lowerBound → h.state.restore.remaining = 0 →
      WalkEnds h.state h.state.restore leaves) ∧
    (h.state.restore.position = h.state.restore.lowerBound → h.state.restore.remaining ≠ 0 →
      WalkEnds h.state (stoppedEngine h.state.restore) leaves) ∧
    (h.state.restore.position ≠ h.state.restore.lowerBound → h.state.restore.remaining = 0 →
      WalkEnds h.state (stoppedEngine h.state.restore) leaves) ∧
    (h.state.restore.position ≠ h.state.restore.lowerBound → h.state.restore.remaining ≠ 0 →
      (h.state.restore.endRequest ≠ .noRequest → WalkEnds h.state h.state.restore leaves) ∧
      (h.state.restore.endRequest = .noRequest → ∀ step,
        (h.state.restore.state = .checking ∧ h.state.slotBusyAt h.state.restore.position = true ∧
            step = RecordStep.waitSlot) ∨
          (¬ (h.state.restore.state = .checking ∧ h.state.slotBusyAt h.state.restore.position = true) ∧
            step = .header) →
        leaves (h.state.setRestore { h.state.restore with
          step := step
          headerIssued := false, current := none, buffer := [], linesIssued := 0, linesEnded := 0
          recordFailed := false }) [] [])) := by
  refine ⟨fun h1 h2 => endByRequest_ends h hp ?_, fun h1 h2 => stopWalk_ends h hp ?_, fun h1 h2 => stopWalk_ends h hp ?_,
    fun h1 h2 => ⟨fun h3 => endByRequest_ends h hp ?_, fun h3 step hs => ?_⟩⟩
  · simpa [Happening.boundaryTest, h1, h2] using hl
  · simpa [Happening.boundaryTest, h1, h2] using hl
  · simpa [Happening.boundaryTest, h1, h2] using hl
  · simpa [Happening.boundaryTest, h1, h2, h3] using hl
  · have hb : h.boundaryTest = h.step State.beginRecord := by simp [Happening.boundaryTest, h1, h2, h3]
    have he : (if h.state.restore.state = .checking && h.state.slotBusyAt h.state.restore.position then
        RecordStep.waitSlot else .header) = step := by
      rcases hs with ⟨h4, h5, h6⟩ | ⟨h4, h5⟩
      · simp [h4, h5, h6]
      · simpa [h5] using h4
    rw [hb] at hl
    rw [← he]
    exact hl [] (by simp) (by simp [hp])

@[simp] theorem slotBusyAt_setRestore (s : State) (e : RestoreEngine) (offset : Nat) :
    (s.setRestore e).slotBusyAt offset = s.slotBusyAt offset := rfl

/-- A record that is finished steps the walk on, or ends or stops it (R139). -/
theorem finishRecord_finished {leaves : State → List NoticeKind → List NoticeKind → Prop} (h : Happening)
    (r : CurrentRecord) (how : RecordEnd) (hp : h.posts = []) (hl : LeavesOne leaves (h.finishRecord r how)) :
    RecordFinished h.state h.state.restore r.start (h.state.restore.outcome.count r.start how) leaves := by
  obtain ⟨h1, h2, h3, h4⟩ := boundaryTest_cases (h.step (·.updateEngine fun e => { e with
    outcome := e.outcome.count r.start how, position := r.start, remaining := e.remaining - 1
    expected := e.expected - 1, step := .noStep, headerIssued := false, current := none, buffer := [] })) hp hl
  refine ⟨_, rfl, h1, h2, h3, fun h5 h6 => ⟨(h4 h5 h6).1, fun h7 next hnext => ?_⟩⟩
  subst hnext
  have h8 := (h4 h5 h6).2 h7
  simp only [Happening.step_state, State.updateEngine, State.setRestore_restore, slotBusyAt_setRestore] at h8
  refine ⟨fun h9 h10 => h8 .waitSlot (.inl ⟨h9, (State.slotBusyAt_iff h.state r.start).mpr h10, rfl⟩),
    fun h9 => h8 .header (.inr ⟨?_, rfl⟩)⟩
  rintro ⟨h10, h11⟩
  obtain ⟨c, x, h12, h13⟩ := (State.slotBusyAt_iff h.state r.start).mp h11
  exact h9.elim (fun h => h h10) fun h => h c x h12 h13

/-! ### Breaks (R20) -/

/-- Entry to BROKEN, in the words the claims use. -/
theorem enterBroken_eq (s : State) (reason : BrokenReason) : s.enterBroken reason = brokenAs s reason := by
  have he : (s.enterBroken reason).transit.entries = (brokenAs s reason).transit.entries := by
    simp only [State.enterBroken, State.releaseWaiting, State.clearMarkNumbers, State.clearPreDrain,
      State.updateEntries, State.setEntries, State.updateMarks, State.setTransit_transit, State.setMarks_transit,
      State.setSave_transit, List.map_map, brokenAs]
    refine List.map_congr_left fun e _ => ?_
    by_cases h : e.state = .waitSave <;> cases hc : e.hasContext <;> simp [h, hc]
  have hr : s.enterBroken reason = { brokenAs s reason with
      transit := { s.transit with entries := (s.enterBroken reason).transit.entries } } := rfl
  rw [hr, he]
  rfl

@[simp] theorem reclassify_setRestore (s : State) (e : RestoreEngine) (x : TransitEntry) :
    (s.setRestore e).reclassify x = (s.reclassify x).setRestore e := by
  unfold State.reclassify
  split
  · rename_i w i _
    dsimp only
    by_cases h : ((s.updateEntry x.order fun e => { e with markNumber := s.classificationMark }).hasEarlier x.order i) = true
    · rw [if_pos h, if_pos (by exact h)]; rfl
    · rw [if_neg h, if_neg (by exact h)]
      simp only [State.evaluateHead]
      have : ∀ o, ((s.setRestore e).updateEntry x.order fun e' => { e' with
          markNumber := (s.setRestore e).classificationMark }).entry? o =
          (s.updateEntry x.order fun e' => { e' with markNumber := s.classificationMark }).entry? o := fun _ => rfl
      rw [this]
      split
      · rfl
      · split
        · rename_i y _ _ w' j _
          by_cases hn : ((s.updateEntry x.order fun e' => { e' with
              markNumber := s.classificationMark }).saveNeeded y j) = true
          · rw [if_pos hn, if_pos (by exact hn)]; rfl
          · rw [if_neg hn, if_neg (by exact hn)]; rfl
        · rfl
  · rfl

/-- Re-classification and the restore engine do not touch each other. -/
@[simp] theorem reclassifyAll_setRestore (s : State) (e : RestoreEngine) :
    (s.setRestore e).reclassifyAll = s.reclassifyAll.setRestore e := by
  have : ∀ l : List TransitEntry, ∀ s : State,
      l.foldl State.reclassify (s.setRestore e) = (l.foldl State.reclassify s).setRestore e := by
    intro l
    induction l with
    | nil => intro s; rfl
    | cons x xs ih => intro s; simp [ih]
  exact this _ s

/-- The posts of a break report, as its happening hands them over. -/
theorem breakReport_draining (h : Happening) (reason : BrokenReason) (hs : h.state.marks.state = .draining)
    (hp : h.posts = []) :
    h.breakReport reason = (Happening.mk (brokenAs { h.state with marks := { h.state.marks with latch := false } } reason)
      ((breakPosts h.state reason).map (Post.mk .markController))).abandonCheck.step State.reclassifyAll := by
  have key : ∀ g : Happening, g.state.marks.latch = false → g.abandonCheck.settle =
      g.abandonCheck.step State.reclassifyAll := by
    intro g hg
    exact Happening.settle_of_clear (by simp [hg])
  unfold Happening.breakReport
  simp only [hs]
  rw [key]
  · congr 2
    cases ha : h.state.marks.action <;> cases hl : h.state.marks.latch <;>
      simp [ha, hl, hp, hs, PendingAction.dropped, Happening.post, Happening.step, Happening.ignoreLine, breakPosts,
        enterBroken_eq, State.updateMarks] <;> first | rfl | simp [brokenAs, hl]
  · cases ha : h.state.marks.action <;> cases hl : h.state.marks.latch <;>
      simp [hl, PendingAction.dropped, Happening.post, Happening.step, Happening.ignoreLine, State.updateMarks,
        State.enterBroken, State.clearPreDrain, State.clearMarkNumbers, State.updateEntries, State.setEntries]

/-- A break report taken in OPEN or DRAINING (R20). -/
theorem breakReport_taken (h : Happening) (reason : BrokenReason)
    (hs : h.state.marks.state = .opened ∨ h.state.marks.state = .draining) (hp : h.posts = []) :
    ∃ g : Happening, g.state = brokenFrom h.state reason ∧
      g.posts = (breakPosts h.state reason).map (Post.mk .markController) ∧
      ((h.state.restore.state ≠ .checking ∨ h.state.restore.endRequest ≠ .noRequest) → h.breakReport reason = g) ∧
      (h.state.restore.state = .checking → h.state.restore.endRequest = .noRequest →
        (EndsAtOnce h.state.restore → h.breakReport reason =
          ⟨g.state.setRestore (idleEngine { h.state.restore with endRequest := .abandon }),
            g.posts ++ [⟨.restoreEngine, .checkDone h.state.restore.outcome .abandoned⟩]⟩) ∧
        (GoesOn h.state.restore → h.breakReport reason =
          ⟨g.state.setRestore { h.state.restore with endRequest := .abandon }, g.posts⟩)) := by
  refine ⟨⟨brokenFrom h.state reason, (breakPosts h.state reason).map (Post.mk .markController)⟩, rfl, rfl, ?_⟩
  rcases hs with hs | hs
  · have hb : h.breakReport reason = (Happening.mk (brokenAs h.state reason)
        ((breakPosts h.state reason).map (Post.mk .markController))).abandonCheck := by
      simp [Happening.breakReport, hs, breakPosts, Happening.step, Happening.post, hp, enterBroken_eq]
    have hf : brokenFrom h.state reason = brokenAs h.state reason := by simp [brokenFrom, hs]
    rw [hb, hf]
    refine ⟨fun hc => abandonCheck_none hc, fun hc hn => ⟨fun he => ?_, fun he => ?_⟩⟩
    · exact abandonCheck_ends (h := ⟨brokenAs h.state reason, _⟩) hc hn he
    · exact abandonCheck_goesOn (h := ⟨brokenAs h.state reason, _⟩) hc hn he
  · rw [breakReport_draining h reason hs hp]
    have hf : brokenFrom h.state reason = State.reclassifyAll
        (brokenAs { h.state with marks := { h.state.marks with latch := false } } reason) := by simp [brokenFrom, hs]
    rw [hf]
    have hr : (brokenAs { h.state with marks := { h.state.marks with latch := false } } reason).restore =
      h.state.restore := rfl
    generalize brokenAs { h.state with marks := { h.state.marks with latch := false } } reason = b at hr ⊢
    rw [← hr]
    refine ⟨fun hc => ?_, fun hc hn => ⟨fun he => ?_, fun he => ?_⟩⟩
    · rw [abandonCheck_none (h := ⟨b, _⟩) hc]; rfl
    · rw [abandonCheck_ends (h := ⟨b, _⟩) hc hn he]
      simp only [Happening.step, reclassifyAll_setRestore]
    · rw [abandonCheck_goesOn (h := ⟨b, _⟩) hc hn he]
      simp only [Happening.step, reclassifyAll_setRestore]

/-- After a break the stack is empty. -/
theorem level_brokenFrom (s : State) (reason : BrokenReason) : (brokenFrom s reason).level = 0 := by
  unfold brokenFrom
  split <;> simp [State.level, brokenAs]

/-- A relation on what a happening leaves holds of this one, with the mark controller's posts and others. -/
def LeavesBreak (leaves : State → List NoticeKind → List NoticeKind → Prop) (h : Happening) : Prop :=
  ∀ (own : List NoticeKind) (rest : List Post), h.posts = own.map (Post.mk .markController) ++ rest →
    (∀ p ∈ rest, p.block = .restoreEngine) → leaves h.state own (rest.map (·.kind))

/-- A break report in OPEN or DRAINING (R20, R151). -/
theorem breakReport_leaves {leaves : State → List NoticeKind → List NoticeKind → Prop} (h : Happening)
    (reason : BrokenReason) (hs : h.state.marks.state = .opened ∨ h.state.marks.state = .draining) (hp : h.posts = [])
    (hl : LeavesBreak leaves (h.breakReport reason)) : BreakTaken h.state reason leaves := by
  obtain ⟨g, hg, hgp, h1, h2⟩ := breakReport_taken h reason hs hp
  have run : ∀ (k : Happening) (own : List NoticeKind) (rest : List Post), h.breakReport reason = k →
      k.posts = own.map (Post.mk .markController) ++ rest → (∀ p ∈ rest, p.block = .restoreEngine) →
      leaves k.state own (rest.map (·.kind)) := fun k own rest h3 h4 h5 => h3 ▸ hl own rest (h3 ▸ h4) h5
  unfold BreakTaken
  rw [← hg]
  exact ⟨fun hc => run _ _ [] (h1 hc) (by simp [hgp]) (by simp), fun hc hn =>
    ⟨fun he => run _ (breakPosts h.state reason) [⟨.restoreEngine, .checkDone h.state.restore.outcome .abandoned⟩]
      ((h2 hc hn).1 he) (by simp [hgp]) (by simp),
      fun he => run _ (breakPosts h.state reason) [] ((h2 hc hn).2 he) (by simp [hgp]) (by simp)⟩⟩

/-! ### The latch (R17, R25) -/

/-- The second step of R17, in the words the claims use. -/
theorem evaluateLatch_taken (s : State) (f : Happening → Happening) (g : Happening) (own : List NoticeKind)
    (hf : f (Happening.start s) = g.evaluateLatch) (hp : g.posts = own.map (Post.mk .markController)) :
    LatchTaken g.state (happening s f) own s.level := by
  have run : ∀ (k : Happening) (ks : List NoticeKind), g.evaluateLatch = k →
      k.posts = ks.map (Post.mk .markController) → happening s f = takeAll k.state ks k.state.level := by
    intro k ks hg hk
    rw [happening_own s f ks (by rw [hf, hg]; exact hk), hf, hg]
  have line : ∀ (reason : IgnoreReason) (x : State), g.evaluateLatch = (Happening.mk x g.posts).ignoreLine reason →
      happening s f = takeAll x (own ++ [.lineIgnored reason]) x.level := fun reason x hx =>
    run _ _ hx (by simp [Happening.ignoreLine, hp])
  rintro clear drains rfl rfl
  let c : Happening := g.step (·.updateMarks fun m => { m with latch := false })
  refine ⟨fun hl => ?_, fun hl => ⟨fun hs => ?_, fun hs => ?_, fun hs => ?_⟩⟩
  · exact run g own (by simp [Happening.evaluateLatch, hl]) hp
  · have he : g.evaluateLatch = c.ignoreLine .noMark := by simp [Happening.evaluateLatch, hl, hs, c]
    exact line _ _ he
  · have he : g.evaluateLatch = c.ignoreLine .broken := by simp [Happening.evaluateLatch, hl, hs, c]
    exact line _ _ he
  · have he : g.evaluateLatch = c.lineRequest := by simp [Happening.evaluateLatch, hl, hs, c]
    have hcs : c.state.marks.state = .opened := hs
    refine ⟨fun h1 => ?_, fun h1 h2 => ?_, fun h1 h2 => ?_⟩
    · have h4 : c.lineRequest = c.ignoreLine .disabled := by
        simp [Happening.lineRequest, hcs, show c.state.mgmt.lineRollback.enable = false from h1]
      exact line _ _ (he.trans h4)
    · have h4 : c.lineRequest = c.ignoreLine .level := by
        simp [Happening.lineRequest, hcs, show c.state.mgmt.lineRollback.enable = true from h1,
          show c.state.level < c.state.mgmt.lineRollback.target from h2]
      exact line _ _ (he.trans h4)
    · have h4 : c.lineRequest =
          (c.step (·.startDrain (.rollback c.state.mgmt.lineRollback.target .line))).abandonCheck := by
        simp [Happening.lineRequest, hcs, show c.state.mgmt.lineRollback.enable = true from h1,
          Nat.not_lt.mpr (show c.state.mgmt.lineRollback.target ≤ c.state.level from h2)]
      have hd := he.trans h4
      refine ⟨fun hc => ?_, fun hc hn => ⟨fun hq => ?_, fun hq => ?_⟩⟩
      · exact run _ own (hd.trans (abandonCheck_none hc)) hp
      · have hx := hd.trans (abandonCheck_ends hc hn hq)
        have ht := finish_together (f (Happening.start s)) own
          [⟨.restoreEngine, .checkDone g.state.restore.outcome .abandoned⟩] s.level (by simp) (by rw [hf, hx, ← hp]; rfl)
        rw [hf, hx] at ht
        rw [happening, hf, hx]
        exact ht
      · exact run _ own (hd.trans (abandonCheck_goesOn hc hn hq)) hp

/-- The two steps of R17, in the words the claims use. -/
theorem settle_taken (s : State) (f : Happening → Happening) (h : Happening) (own : List NoticeKind)
    (hf : f (Happening.start s) = h.settle) (hp : h.posts = own.map (Post.mk .markController)) :
    LatchTaken h.state.reclassifyAll (happening s f) own s.level :=
  evaluateLatch_taken s f (h.step State.reclassifyAll) own hf hp

end Sys2Proof.Safety
end

