-- ==== Sys2Proof/Laws/Breaks.lean ====
section
/-! SUPPORT. A break report in the happening in which the context that failed settles (R75, R76): the end of that context
and the entry to BROKEN do not touch each other. -/

namespace Sys2Proof.Safety

open Machine

/-! ### Re-classification in BROKEN (R99, R100) -/

/-- No entry has a classification mark number, as in BROKEN (R100). -/
def NoMarkNumbers (s : State) : Prop := ∀ e ∈ s.transit.entries, e.markNumber = none

/-- Sets the transit state of the entries of one arrival order. -/
def mapState (s : State) (order : Nat) (g : TransitState → TransitState) : State :=
  s.updateEntry order fun e => { e with state := g e.state }

theorem mapState_noMarkNumbers {s : State} (h : NoMarkNumbers s) (o : Nat) (g : TransitState → TransitState) :
    NoMarkNumbers (mapState s o g) := by
  intro e he
  simp only [mapState, State.updateEntry, State.setEntries, State.setTransit_transit, List.mem_map] at he
  obtain ⟨a, ha, rfl⟩ := he
  split <;> exact h a ha

theorem release_noMarkNumbers {s : State} (h : NoMarkNumbers s) (o : Nat) : NoMarkNumbers (s.release o) := by
  intro e he
  simp only [State.release, State.updateEntry, State.setEntries, State.setTransit_transit, List.mem_map] at he
  obtain ⟨a, ha, rfl⟩ := he
  split <;> exact h a ha

theorem mapState_id (s : State) (o : Nat) : mapState s o id = s := by
  have : (s.transit.entries.map fun e => if e.order = o then ({ e with state := id e.state } : TransitEntry) else e) =
      s.transit.entries := by
    conv_rhs => rw [← List.map_id s.transit.entries]
    exact List.map_congr_left fun e _ => by split <;> rfl
  simp only [mapState, State.updateEntry, this]
  rfl

/-- An entry was found, of class WINDOW. -/
def windowClass : Option EntryClass → Bool
  | some (.window _ _) => true
  | _ => false

/-- In BROKEN, classifying an entry afresh sets transit states alone, and which ones rests on arrival orders and classes
alone. -/
theorem reclassify_broken {s : State} (hb : s.marks.state = .broken) (hn : NoMarkNumbers s) (x : TransitEntry) :
    ∃ g : TransitState → TransitState, s.reclassify x = mapState s x.order g ∧
      ∀ u : State, u.marks.state = .broken → NoMarkNumbers u →
        u.transit.entries.map (fun e => (e.order, e.cls)) = s.transit.entries.map (fun e => (e.order, e.cls)) →
        u.reclassify x = mapState u x.order g := by
  have hupd : ∀ u : State, u.marks.state = .broken → NoMarkNumbers u →
      (u.updateEntry x.order fun e => { e with markNumber := u.classificationMark }) = u := by
    intro u hu hun
    have hc : u.classificationMark = none := by simp [State.classificationMark, hu]
    have : (u.transit.entries.map fun e => if e.order = x.order then ({ e with markNumber := none } : TransitEntry)
        else e) = u.transit.entries := by
      conv_rhs => rw [← List.map_id u.transit.entries]
      refine List.map_congr_left fun e he => ?_
      have := hun e he
      split
      · cases e
        simp_all
      · rfl
    rw [hc]
    simp only [State.updateEntry, this]
    rfl
  cases hc : x.cls with
  | pass =>
    have : ∀ u : State, u.reclassify x = u := fun u => by unfold State.reclassify; simp only [hc]
    exact ⟨id, by rw [this, mapState_id], fun u _ _ _ => by rw [this, mapState_id]⟩
  | logRead =>
    have : ∀ u : State, u.reclassify x = u := fun u => by unfold State.reclassify; simp only [hc]
    exact ⟨id, by rw [this, mapState_id], fun u _ _ _ => by rw [this, mapState_id]⟩
  | window w i =>
    have hE : ∀ u : State, u.transit.entries.map (fun e => (e.order, e.cls)) =
        s.transit.entries.map (fun e => (e.order, e.cls)) → u.hasEarlier x.order i = s.hasEarlier x.order i := by
      have key : ∀ u : State, u.hasEarlier x.order i = (u.transit.entries.map (fun e => (e.order, e.cls))).any
          fun p => p.1 < x.order && (match p.2 with
            | .window _ j => some j
            | _ => none) == some i := fun u => by rw [List.any_map]; rfl
      intro u hu
      rw [key, key, hu]
    have hF : ∀ u : State, u.transit.entries.map (fun e => (e.order, e.cls)) =
        s.transit.entries.map (fun e => (e.order, e.cls)) →
        (u.entry? x.order).map (·.cls) = (s.entry? x.order).map (·.cls) := by
      have key : ∀ u : State, (u.entry? x.order).map (·.cls) =
          ((u.transit.entries.map (fun e => (e.order, e.cls))).find? fun p => p.1 == x.order).map (·.2) := fun u => by
        rw [List.find?_map, Option.map_map]; rfl
      intro u hu
      rw [key, key, hu]
    have hH : ∀ u : State, u.marks.state = .broken → u.evaluateHead x.order =
        if windowClass ((u.entry? x.order).map (·.cls)) then mapState u x.order fun _ => .forwardable else u := by
      intro u hu
      unfold State.evaluateHead mapState
      cases h : u.entry? x.order with
      | none => rfl
      | some e => cases h2 : e.cls <;> simp [h2, State.saveNeeded, hu, windowClass]
    have run : ∀ u : State, u.marks.state = .broken → NoMarkNumbers u →
        u.transit.entries.map (fun e => (e.order, e.cls)) = s.transit.entries.map (fun e => (e.order, e.cls)) →
        u.reclassify x = if s.hasEarlier x.order i then mapState u x.order fun _ => .waitOrder
          else if windowClass ((s.entry? x.order).map (·.cls)) then mapState u x.order fun _ => .forwardable else u := by
      intro u hu hun hent
      unfold State.reclassify
      simp only [hc, hupd u hu hun, hE u hent, hH u hu, hF u hent]
      rfl
    by_cases hh : s.hasEarlier x.order i = true
    · exact ⟨fun _ => .waitOrder, by rw [run s hb hn rfl, if_pos hh],
        fun u hu hun he => by rw [run u hu hun he, if_pos hh]⟩
    · by_cases hq : windowClass ((s.entry? x.order).map (·.cls)) = true
      · exact ⟨fun _ => .forwardable, by rw [run s hb hn rfl, if_neg hh, if_pos hq],
          fun u hu hun he => by rw [run u hu hun he, if_neg hh, if_pos hq]⟩
      · exact ⟨id, by rw [run s hb hn rfl, if_neg hh, if_neg hq, mapState_id],
          fun u hu hun he => by rw [run u hu hun he, if_neg hh, if_neg hq, mapState_id]⟩

theorem release_mapState_same (s : State) (o : Nat) (g : TransitState → TransitState) :
    (mapState s o g).release o = s.release o := by
  apply State.eq_of_fields
  simp [mapState, State.release, State.updateEntry, State.setEntries]
  intro a _
  by_cases h : a.order = o <;> simp [h]

theorem release_mapState_other (s : State) {o p : Nat} (h : p ≠ o) (g : TransitState → TransitState) :
    (mapState s p g).release o = mapState (s.release o) p g := by
  apply State.eq_of_fields
  simp [mapState, State.release, State.updateEntry, State.setEntries]
  intro a _
  by_cases h1 : a.order = o
  · simp [h1, Ne.symm h]
  · by_cases h2 : a.order = p <;> simp [h1, h2, h]

theorem reclassify_foldl_release (o : Nat) (l : List TransitEntry) (s : State) (hb : s.marks.state = .broken)
    (hn : NoMarkNumbers s) :
    (l.filter (·.order ≠ o)).foldl State.reclassify (s.release o) = (l.foldl State.reclassify s).release o := by
  induction l generalizing s with
  | nil => rfl
  | cons x xs ih =>
    obtain ⟨g, h1, h2⟩ := reclassify_broken hb hn x
    have hu := h2 (s.release o) hb (release_noMarkNumbers hn o) (by
      simp only [State.release, State.updateEntry, State.setEntries, State.setTransit_transit, List.map_map]
      exact List.map_congr_left fun a _ => by simp only [Function.comp]; split <;> rfl)
    have hs := ih (mapState s x.order g) hb (mapState_noMarkNumbers hn _ _)
    by_cases hx : x.order = o
    · rw [List.filter_cons_of_neg (by simp [hx]), List.foldl_cons, h1, ← hs, hx, release_mapState_same]
    · rw [List.filter_cons_of_pos (by simp [hx]), List.foldl_cons, List.foldl_cons, hu, h1, ← hs,
        release_mapState_other s hx]

/-- In BROKEN a held write can be released before the other entries are re-classified or after. -/
theorem reclassifyAll_release (o : Nat) {s : State} (hb : s.marks.state = .broken) (hn : NoMarkNumbers s) :
    (s.release o).reclassifyAll = s.reclassifyAll.release o := by
  have he : (s.release o).transit.entries.filter (·.state == .waitMark) =
      (s.transit.entries.filter (·.state == .waitMark)).filter (·.order ≠ o) := by
    simp only [State.release, State.updateEntry, State.setEntries, State.setTransit_transit]
    induction s.transit.entries with
    | nil => rfl
    | cons e es ih =>
      simp only [ne_eq, decide_not] at ih
      by_cases h : e.order = o <;> by_cases h2 : e.state = .waitMark <;> simp [h, h2, ih]
  unfold State.reclassifyAll
  rw [he, reclassify_foldl_release o _ s hb hn]

theorem reclassify_foldl_save (l : List TransitEntry) (s : State) (hb : s.marks.state = .broken) (hn : NoMarkNumbers s)
    (e : SaveEngine) :
    l.foldl State.reclassify (s.setSave e) = (l.foldl State.reclassify s).setSave e ∧
      (l.foldl State.reclassify s).save = s.save := by
  induction l generalizing s with
  | nil => exact ⟨rfl, rfl⟩
  | cons x xs ih =>
    obtain ⟨g, h1, h2⟩ := reclassify_broken hb hn x
    simp only [List.foldl_cons]
    rw [h2 (s.setSave e) hb hn rfl, h1]
    exact ih (mapState s x.order g) hb (mapState_noMarkNumbers hn _ _)

/-! ### The end of a context that failed a log write (R75) -/

/-- `s` once a context that failed a log write has settled, where no check waits for its slot: FREE with its held write
FORWARDABLE when it was the last of its requests, unchanged else. -/
def settled (s : State) (c : ContextNo) (held : Nat) (last : Bool) : State :=
  if last then
    (s.setSave { s.save with
      contexts := s.save.contexts.set c SaveContext.reset, allocation := s.save.allocation.erase c }).release held
  else s

@[simp] theorem settled_keeps (s : State) (c : ContextNo) (held : Nat) (last : Bool) :
    (settled s c held last).marks = s.marks ∧ (settled s c held last).restore = s.restore ∧
      (settled s c held last).log = s.log := by
  unfold settled
  split <;> exact ⟨rfl, rfl, rfl⟩

theorem slotFreed_of_no_wait {s : State} (h : s.restore.state ≠ .checking ∨ s.restore.step ≠ .waitSlot) :
    s.slotFreed = s := by
  unfold State.slotFreed
  rw [if_neg]
  rcases h with h | h <;> simp [h]

/-- R75: a context that failed a log write settles. -/
theorem settleContext_eq {s : State} {c : ContextNo} {x : SaveContext} {last : Bool} (hc : s.context? c = some x)
    (hw : x.error.isWrite = true) (hl : last = true ↔ s.outstandingOf c = 0)
    (hr : s.restore.state ≠ .checking ∨ s.restore.step ≠ .waitSlot ∨ last = false) :
    s.settleContext c = settled s c x.held last := by
  unfold State.settleContext settled
  cases last with
  | true =>
    simp only [hc, hl.mp rfl, hw, bne_self_eq_false, Bool.false_eq_true, if_false, if_true, State.freeContext]
    rw [slotFreed_of_no_wait (by simpa using hr)]
    rfl
  | false =>
    have : s.outstandingOf c ≠ 0 := fun h => Bool.noConfusion (hl.mpr h)
    simp [hc, this]

theorem settled_setRestore (s : State) (c : ContextNo) (held : Nat) (last : Bool) (e : RestoreEngine) :
    settled (s.setRestore e) c held last = (settled s c held last).setRestore e := by
  unfold settled
  split <;> rfl

theorem settled_brokenAs (s : State) (c : ContextNo) (held : Nat) (last : Bool) (reason : BrokenReason) :
    settled (brokenAs s reason) c held last = brokenAs (settled s c held last) reason := by
  cases last with
  | false => rfl
  | true =>
    apply State.eq_of_fields
    simp [settled, State.release, State.updateEntry, State.setEntries, brokenAs]
    intro a _
    by_cases h : a.order = held <;> simp [h]

theorem noMarkNumbers_brokenAs (s : State) (reason : BrokenReason) : NoMarkNumbers (brokenAs s reason) := by
  intro e he
  simp only [brokenAs, List.mem_map] at he
  obtain ⟨a, _, rfl⟩ := he
  rfl

theorem settled_reclassifyAll {s : State} (c : ContextNo) (held : Nat) (last : Bool) (hb : s.marks.state = .broken)
    (hn : NoMarkNumbers s) : settled s.reclassifyAll c held last = (settled s c held last).reclassifyAll := by
  cases last with
  | false => rfl
  | true =>
    have h := reclassify_foldl_save (s.transit.entries.filter (·.state == .waitMark)) s hb hn { s.save with
      contexts := s.save.contexts.set c SaveContext.reset, allocation := s.save.allocation.erase c }
    have hr := reclassifyAll_release (s := s.setSave { s.save with
      contexts := s.save.contexts.set c SaveContext.reset, allocation := s.save.allocation.erase c }) held hb hn
    have hs : s.reclassifyAll.save = s.save := h.2
    simp only [settled, if_true]
    rw [hr, hs]
    exact congrArg (State.release · held) h.1.symm

/-- The end of the context and the entry to BROKEN do not touch each other. -/
theorem settled_brokenFrom (s : State) (c : ContextNo) (held : Nat) (last : Bool) (reason : BrokenReason) :
    settled (brokenFrom s reason) c held last = brokenFrom (settled s c held last) reason := by
  unfold brokenFrom
  rw [(settled_keeps s c held last).1]
  split
  · rw [settled_reclassifyAll c held last rfl (noMarkNumbers_brokenAs _ _), settled_brokenAs]
    congr 2
    unfold settled
    split <;> rfl
  · rw [settled_brokenAs]

theorem brokenFrom_setRestore (s : State) (reason : BrokenReason) (e : RestoreEngine) :
    brokenFrom (s.setRestore e) reason = (brokenFrom s reason).setRestore e := by
  unfold brokenFrom
  have h : (brokenAs { s with marks := { s.marks with latch := false } } reason).setRestore e =
      brokenAs { s.setRestore e with marks := { s.marks with latch := false } } reason := rfl
  by_cases hd : s.marks.state = .draining
  · rw [if_pos hd, if_pos (by exact hd), ← reclassifyAll_setRestore, h]; rfl
  · rw [if_neg hd, if_neg (by exact hd)]; rfl

/-- What a break keeps. -/
theorem brokenFrom_keeps (s : State) (reason : BrokenReason) : (brokenFrom s reason).down = s.down ∧
    (brokenFrom s reason).restore = s.restore ∧ ∀ c, (brokenFrom s reason).context? c = s.context? c := by
  unfold brokenFrom
  split
  · have hs := (reclassify_foldl_save ((brokenAs { s with marks := { s.marks with latch := false } }
      reason).transit.entries.filter (·.state == .waitMark))
      (brokenAs { s with marks := { s.marks with latch := false } } reason) rfl (noMarkNumbers_brokenAs _ _) s.save).2
    refine ⟨by simp [brokenAs], by simp [brokenAs], fun c => ?_⟩
    unfold State.context? State.reclassifyAll
    rw [hs]
    rfl
  · exact ⟨rfl, rfl, fun _ => rfl⟩

/-- A break report, after which the context that failed settles, is the break of the state in which it has settled
(R20, R75, R76, R151). -/
theorem breakTaken_settled {leaves : State → List NoticeKind → List NoticeKind → Prop} (s : State)
    (reason : BrokenReason) {c : ContextNo} {x : SaveContext} {last : Bool} (hc : s.context? c = some x)
    (hw : x.error.isWrite = true) (hla : last = true ↔ s.outstandingOf c = 0)
    (hr : s.restore.state ≠ .checking ∨ s.restore.step ≠ .waitSlot ∨ s.restore.endRequest = .noRequest ∨ last = false)
    (h : BreakTaken s reason fun v => leaves (v.settleContext c)) :
    BreakTaken (settled s c x.held last) reason leaves := by
  obtain ⟨kd, kr, kc⟩ := brokenFrom_keeps s reason
  obtain ⟨sm, sr, sl⟩ := settled_keeps s c x.held last
  have hbp : breakPosts (settled s c x.held last) reason = breakPosts s reason := by simp [breakPosts]
  have settles : ∀ e : RestoreEngine, (e.state ≠ .checking ∨ e.step ≠ .waitSlot ∨ last = false) →
      ((brokenFrom s reason).setRestore e).settleContext c =
        (brokenFrom (settled s c x.held last) reason).setRestore e := by
    intro e he
    have ho : ((brokenFrom s reason).setRestore e).outstandingOf c = s.outstandingOf c := by
      simp [State.outstandingOf, State.tagCount, kd]
    have hcc : ((brokenFrom s reason).setRestore e).context? c = some x := by
      show (brokenFrom s reason).context? c = _
      rw [kc, hc]
    rw [settleContext_eq hcc hw (ho ▸ hla) he, settled_setRestore, settled_brokenFrom]
  obtain ⟨h1, h2⟩ := h
  unfold BreakTaken
  rw [hbp, sr]
  refine ⟨fun hcc => ?_, fun hcc hn => ⟨fun he => ?_, fun he => ?_⟩⟩
  · have hd := settles s.restore (by
      rcases hr with hr | hr | hr | hr
      · exact .inl hr
      · exact .inr (.inl hr)
      · exact .inl (hcc.resolve_right fun q => q hr)
      · exact .inr (.inr hr))
    have e1 : (brokenFrom s reason).setRestore s.restore = brokenFrom s reason := by rw [← kr]; rfl
    have e2 : (brokenFrom (settled s c x.held last) reason).setRestore s.restore =
        brokenFrom (settled s c x.held last) reason := by
      rw [← sr, ← (brokenFrom_keeps (settled s c x.held last) reason).2.1]; rfl
    rw [e1, e2] at hd
    exact Eq.mp (congrArg (fun v => leaves v _ _) hd) (h1 hcc)
  · have hd := settles (idleEngine { s.restore with endRequest := .abandon }) (.inl (by simp [idleEngine]))
    exact Eq.mp (congrArg (fun v => leaves v _ _) hd) ((h2 hcc hn).1 he)
  · have hd := settles { s.restore with endRequest := .abandon } (by
      rcases he with ⟨he, -⟩ | he | ⟨-, he⟩ <;> simp [he])
    exact Eq.mp (congrArg (fun v => leaves v _ _) hd) ((h2 hcc hn).2 he)

/-- A context that failed a log write settles with the restore engine told of it (R75, R148). -/
theorem settleContext_reported {s : State} {c : ContextNo} {x : SaveContext} {last : Bool} {engine : RestoreEngine}
    (hc : s.context? c = some x) (hw : x.error.isWrite = true) (hl : last = true ↔ s.outstandingOf c = 0)
    (he : last = true → FreeReported s c engine) :
    s.settleContext c = if last then contextFreed s c x.held engine else s := by
  cases last with
  | false =>
    have : s.outstandingOf c ≠ 0 := fun h => Bool.noConfusion (hl.mpr h)
    simp [State.settleContext, hc, this]
  | true =>
    have ho : s.outstandingOf c = 0 := hl.mp rfl
    have hfree := he rfl
    let f : State := (s.putContext c SaveContext.reset).setSave { (s.putContext c SaveContext.reset).save with
      allocation := (s.putContext c SaveContext.reset).save.allocation.erase c }
    have hs : s.settleContext c = f.slotFreed.release x.held := by
      simp [State.settleContext, hc, ho, hw, State.freeContext, f]
    have hf : f.slotFreed = f.setRestore engine := by
      have hbusy : f.slotBusyAt s.restore.position = true ↔
          ∃ d z, d ≠ c ∧ s.context? d = some z ∧ z.offset + z.granule.recordSize = s.restore.position := by
        rw [State.slotBusyAt_iff]
        have hd : ∀ d, f.context? d = if d = c then none else s.context? d := by
          intro d
          by_cases h : d = c
          · subst h
            rw [if_pos rfl]
            exact (State.context?_putContext_same s d SaveContext.reset).trans rfl
          · rw [if_neg h]
            exact State.context?_putContext_other s h _
        constructor
        · rintro ⟨d, z, h1, h2⟩
          rw [hd] at h1
          by_cases h : d = c
          · simp [h] at h1
          · exact ⟨d, z, h, by simpa [h] using h1, h2⟩
        · rintro ⟨d, z, h, h1, h2⟩
          exact ⟨d, z, by rw [hd, if_neg h]; exact h1, h2⟩
      have hfr : f.restore = s.restore := rfl
      unfold State.slotFreed
      rcases hfree with ⟨rfl, hno⟩ | ⟨rfl, h1, h2, h3⟩
      · rw [if_neg]
        · rfl
        · rw [hfr]
          rcases hno with hno | hno | hno
          · simp [hno]
          · simp [hno]
          · simp [hbusy.mpr hno]
      · rw [if_pos]
        · rfl
        · have : f.slotBusyAt s.restore.position = false := by
            rw [← Bool.not_eq_true, hbusy]
            rintro ⟨d, z, h, h4, h5⟩
            exact h3 d z h h4 h5
          simp [hfr, h1, h2, this]
    rw [hs, hf]
    rfl

/-- What a FREE report tells the restore engine rests on the engine and the other contexts alone (R148). -/
theorem freeReported_congr {s u : State} {c : ContextNo} {engine : RestoreEngine} (hr : u.restore = s.restore)
    (hc : ∀ d, d ≠ c → u.context? d = s.context? d) (h : FreeReported s c engine) : FreeReported u c engine := by
  unfold FreeReported
  rw [hr]
  rcases h with ⟨h1, h2⟩ | ⟨h1, h2, h3, h4⟩
  · refine .inl ⟨h1, h2.imp id (Or.imp id ?_)⟩
    rintro ⟨d, z, hd, hz, hp⟩
    exact ⟨d, z, hd, (hc d hd).trans hz, hp⟩
  · exact .inr ⟨h1, h2, h3, fun d z hd hz => h4 d z hd ((hc d hd).symm.trans hz)⟩

/-- Under an end request that is set already, a break report does not touch the check, which is told of the FREE report once
the context that failed settles (R20, R75, R148, R151). -/
theorem breakTaken_told {leaves : State → List NoticeKind → List NoticeKind → Prop} (s : State)
    (reason : BrokenReason) {c : ContextNo} {x : SaveContext} {last : Bool} {engine : RestoreEngine}
    (hc : s.context? c = some x) (hw : x.error.isWrite = true) (hla : last = true ↔ s.outstandingOf c = 0)
    (he : if last then FreeReported s c engine else engine = s.restore) (hn : s.restore.endRequest ≠ .noRequest)
    (h : BreakTaken s reason fun v => leaves (v.settleContext c)) :
    BreakTaken (settled (s.setRestore engine) c x.held last) reason leaves := by
  obtain ⟨kd, kr, kc⟩ := brokenFrom_keeps s reason
  have hout : (brokenFrom s reason).outstandingOf c = s.outstandingOf c := by
    simp [State.outstandingOf, State.tagCount, kd]
  have hre : engine.endRequest = s.restore.endRequest := by
    split at he
    · rcases he with ⟨he, -⟩ | ⟨he, -⟩ <;> rw [he]
    · rw [he]
  have hse := settleContext_reported (engine := engine) ((kc c).trans hc) hw (hout ▸ hla) fun hl => by
    rw [if_pos hl] at he
    exact freeReported_congr kr (fun d _ => kc d) he
  have hfin : (if last then contextFreed (brokenFrom s reason) c x.held engine else brokenFrom s reason) =
      brokenFrom (settled (s.setRestore engine) c x.held last) reason := by
    rw [settled_setRestore, brokenFrom_setRestore, ← settled_brokenFrom]
    cases last with
    | true => rfl
    | false =>
      rw [if_neg Bool.false_ne_true] at he
      show brokenFrom s reason = (brokenFrom s reason).setRestore engine
      rw [he, ← kr]
      rfl
  have hbp : breakPosts (settled (s.setRestore engine) c x.held last) reason = breakPosts s reason := by
    simp [breakPosts]
  refine ⟨fun _ => ?_, fun _ hcon => ?_⟩
  · rw [hbp]
    exact Eq.mp (congrArg (fun v => leaves v _ _) (hse.trans hfin)) (h.1 (.inr hn))
  · rw [(settled_keeps _ c x.held last).2.1] at hcon
    exact absurd (hre.symm.trans hcon) hn

/-- The failure of a record data write or a header write (R75, R76, R148), in the words the claims use. -/
theorem logWriteFailed_leaves {leaves : State → List NoticeKind → List NoticeKind → Prop} (h : Happening)
    (hp : h.posts = []) {c : ContextNo} {x : SaveContext} {last : Bool} (result : Result)
    (hc : h.state.context? c = some x) (he : x.error.isWrite = false) (hla : last = true ↔ h.state.outstandingOf c = 0)
    (hl : LeavesBreak leaves (h.logWriteFailed c x result)) :
    LogWriteFails h.state h.state c x (if result = .timeout then .writeTimeout else .writeError)
      (if result = .timeout then .logWriteTimeout else .logWriteError) last leaves := by
  intro settledAs told hset htold
  have hw : ∀ r : Result, (if r = .timeout then ErrorKind.writeTimeout else .writeError).isWrite = true := by
    intro r; split <;> rfl
  generalize hkind : (if result = .timeout then ErrorKind.writeTimeout else .writeError) = kind at hset
  generalize hreason : (if result = .timeout then BrokenReason.logWriteTimeout else .logWriteError) = reason
  have hk : kind.isWrite = true := hkind ▸ hw result
  obtain ⟨hfree, hx⟩ := State.context?_eq_some.mp hc
  let y : SaveContext := { x with error := kind }
  let b : State := h.state.putContext c y
  have hb : b.context? c = some y := State.context?_eq_some.mpr ⟨hfree, by simp [b, State.putContext]⟩
  have hbo : b.outstandingOf c = h.state.outstandingOf c := rfl
  have heq : h.logWriteFailed c x result =
      (((⟨b.freeReportFirst x, []⟩ : Happening).breakReport reason).step (·.settleContext c)) := by
    simp [Happening.logWriteFailed, he, hkind, hreason, Happening.step, hp, b, y]
  rw [heq] at hl
  -- What the statement calls settled is the end of the context once its error kind is set.
  have hfreed : ∀ e, contextFreed b c x.held e = contextFreed h.state c x.held e := by
    intro e
    simp [contextFreed, b, State.putContext, State.setSave, Vector.set_set]
  have hset' : ∀ e, settledAs e = settled (b.setRestore e) c x.held last := by
    intro e
    subst hset
    cases last with
    | true => exact (hfreed e).symm
    | false => rfl
  have hother : ∀ d, d ≠ c → b.context? d = h.state.context? d := fun d hd => State.context?_putContext_other _ hd y
  have settles : ∀ (v : State) (own : List NoticeKind) (rest : List Post), v = b.freeReportFirst x →
      LeavesBreak (fun v => leaves (v.settleContext c)) ((⟨v, []⟩ : Happening).breakReport reason) := by
    rintro v - - rfl own rest h1 h2
    exact hl own rest h1 h2
  have hlast : ∀ n, last = true ↔ (b.setChoices n).outstandingOf c = 0 := fun _ => hla
  -- Where the choice is not asked, the break report is taken of the context's state itself.
  have plain : h.state.marks.state = .opened ∨ h.state.marks.state = .draining →
      ¬ (h.state.restore.state = .checking ∧ h.state.restore.step = .waitSlot ∧
        h.state.restore.endRequest = .noRequest ∧ x.offset + x.granule.recordSize = h.state.restore.position) →
      BreakTaken b reason fun v => leaves (v.settleContext c) := by
    intro hs hn
    refine breakReport_leaves ⟨b, []⟩ reason hs rfl (settles b [] [] ?_)
    unfold State.freeReportFirst
    rw [if_neg]
    intro hcon
    simp only [Bool.and_eq_true, decide_eq_true_eq] at hcon
    obtain ⟨⟨⟨⟨-, g1⟩, g2⟩, g3⟩, g4⟩ := hcon
    exact hn ⟨g1, g2, g3, g4⟩
  have abandoned : ∀ n, BreakTaken (b.setChoices n) reason (fun v => leaves (v.settleContext c)) →
      h.state.restore.endRequest = .noRequest →
      BreakTaken { settledAs h.state.restore with choices := n } reason leaves := by
    intro n hb1 hq
    have hb2 := breakTaken_settled (b.setChoices n) reason hb hk (hlast n) (.inr (.inr (.inl hq))) hb1
    rw [hset']
    cases last <;> exact hb2
  refine ⟨fun hs => ⟨fun h1 h2 h3 => ⟨fun h5 => ?_, fun h5 => ?_⟩, fun hr engine he => ?_⟩, fun hs engine he => ?_⟩
  · refine ⟨b.choices + 1, ?_⟩
    have hcond : ((b.marks.state = .opened || b.marks.state = .draining) && b.restore.state = .checking &&
        b.restore.step = .waitSlot && b.restore.endRequest = .noRequest &&
        x.offset + x.granule.recordSize = b.restore.position) = true := by
      have g1 : b.restore.state = .checking := h1
      have g2 : b.restore.step = .waitSlot := h2
      have g3 : b.restore.endRequest = .noRequest := h3
      have g5 : x.offset + x.granule.recordSize = b.restore.position := h5
      have gs : b.marks.state = .opened ∨ b.marks.state = .draining := hs
      rcases gs with gs | gs <;> simp [gs, g1, g2, g3, g5]
    have hf : b.freeReportFirst x = if Config.freeChoice b.choices % 2 = 0 then b.setChoices (b.choices + 1)
        else (b.setChoices (b.choices + 1)).updateEngine fun e => { e with endRequest := .abandon } := by
      unfold State.freeReportFirst
      rw [if_pos hcond]
      rfl
    rcases Nat.mod_two_eq_zero_or_one (Config.freeChoice b.choices) with hp2 | hp2
    · left
      rw [hp2, if_pos rfl] at hf
      exact abandoned _ (breakReport_leaves ⟨b.setChoices (b.choices + 1), []⟩ reason hs rfl (settles _ [] [] hf.symm)) h3
    · right
      rw [hp2, if_neg (by decide)] at hf
      intro engine he
      let b' : State := (b.setChoices (b.choices + 1)).updateEngine fun e => { e with endRequest := .abandon }
      have hb1 := breakReport_leaves ⟨b', []⟩ reason hs rfl (settles b' [] [] hf.symm)
      have hb2 := breakTaken_told (engine := engine) b' reason hb hk (hlast (b.choices + 1)) (by
        subst htold
        cases last with
        | true => exact freeReported_congr (s := { h.state with restore := b'.restore }) (u := b') rfl hother he
        | false => exact he) (by show EndRequest.abandon ≠ .noRequest; decide) hb1
      rw [hset']
      cases last <;> exact hb2
  · have hb1 := plain hs fun hcon => h5 hcon.2.2.2
    have := abandoned b.choices hb1 h3
    rw [hset'] at this ⊢
    cases last <;> exact this
  · have hb1 := plain hs fun hcon => by
      rcases hr with hr | hr | hr
      · exact hr hcon.1
      · exact hr hcon.2.1
      · exact hr hcon.2.2.1
    have ht : if last then FreeReported b c engine else engine = b.restore := by
      subst htold
      cases last with
      | true => exact freeReported_congr (s := h.state) (u := b) rfl hother he
      | false => exact he
    rw [hset']
    by_cases hq : h.state.restore.endRequest = .noRequest
    · have hr' : h.state.restore.state ≠ .checking ∨ h.state.restore.step ≠ .waitSlot :=
        hr.imp id fun g => g.resolve_right fun g => g hq
      have heq : engine = h.state.restore := by
        cases last with
        | false => exact ht
        | true =>
          rcases ht with ⟨g, -⟩ | ⟨-, g1, g2, -⟩
          · exact g
          · rcases hr' with g | g
            · exact absurd g1 g
            · exact absurd g2 g
      subst heq
      exact breakTaken_settled (x := y) b reason hb hk hla (hr'.imp id .inl) hb1
    · exact breakTaken_told (x := y) b reason hb hk hla ht hq hb1
  · have hn1 : b.marks.state ≠ .opened := by rcases hs with hs | hs <;> simp [b, State.putContext, hs]
    have hn2 : b.marks.state ≠ .draining := by rcases hs with hs | hs <;> simp [b, State.putContext, hs]
    have hnf : b.freeReportFirst x = b := by
      unfold State.freeReportFirst
      rw [if_neg (by simp [hn1, hn2])]
    have hbr : (⟨b, []⟩ : Happening).breakReport reason = ⟨b, []⟩ := Happening.breakReport_of_other reason hn1 hn2
    have hx := settles b [] [] hnf.symm [] [] (by rw [hbr]; rfl) (by simp)
    rw [hbr] at hx
    have hse := settleContext_reported (engine := engine) hb hk hla fun hl => by
      subst htold
      rw [if_pos hl] at he
      exact freeReported_congr (s := h.state) (u := b) rfl hother he
    have hfin : (if last then contextFreed b c y.held engine else b) = settledAs engine := by
      rw [hset']
      cases last with
      | true => rfl
      | false =>
        subst htold
        rw [if_neg Bool.false_ne_true] at he
        subst he
        rfl
    exact Eq.mp (congrArg (fun v => leaves v _ _) (hse.trans hfin)) hx

end Sys2Proof.Safety
end

