-- ==== Sys2Proof/Laws/Bytes.lean ====
section
/-! SUPPORT. Little-endian fields: writing a number and reading it back (R192). -/

namespace Sys2Proof.Machine

@[simp] theorem leBytes_length (n v : Nat) : (leBytes n v).length = n := by
  induction n generalizing v with
  | zero => rfl
  | succ n ih => simp [leBytes, ih]

/-- A field of `n` bytes holds its number modulo 256^n. -/
@[simp] theorem leValue_leBytes (n v : Nat) : leValue (leBytes n v) = v % 256 ^ n := by
  induction n generalizing v with
  | zero => simp [leBytes, leValue, Nat.mod_one]
  | succ n ih =>
    rw [leBytes, leValue, ih, BitVec.toNat_ofNat, show (256 : Nat) ^ (n + 1) = 256 * 256 ^ n by omega, Nat.mod_mul]

/-- The field at the end of a known front, with a tail behind it. -/
theorem leField_append (front tail : List Byte) (n v a : Nat) (h : front.length = a) :
    leField (front ++ leBytes n v ++ tail) a n = v % 256 ^ n := by
  subst h
  simp [leField]

/-- A field that lies behind a front is read from what follows the front. -/
theorem leField_skip (front rest : List Byte) (a n : Nat) (h : front.length ≤ a) :
    leField (front ++ rest) a n = leField rest (a - front.length) n := by
  simp [leField, List.drop_append, List.drop_of_length_le h]

/-- A byte that lies behind a front is read from what follows the front. -/
theorem byteAt_skip (front rest : List Byte) (a : Nat) (h : front.length ≤ a) :
    byteAt (front ++ rest) a = byteAt rest (a - front.length) := by
  simp [byteAt, List.getElem?_append_right h]

/-- Shaping gives exactly the length asked for (R118). -/
@[simp] theorem shapeTo_length (n : Nat) (bytes : List Byte) : (shapeTo n bytes).length = n := by
  simp [shapeTo]; omega

/-- A run of the right length is left as it is. -/
theorem shapeTo_of_length {n : Nat} {bytes : List Byte} (h : bytes.length = n) : shapeTo n bytes = bytes := by
  subst h; simp [shapeTo]

/-- A run of bytes is sent as eight bits for each (R171). -/
@[simp] theorem bitsOfBytes_length (bytes : List Byte) : (bitsOfBytes bytes).length = 8 * bytes.length := by
  induction bytes with
  | nil => rfl
  | cons b bs ih =>
    show (bitsOfByte b ++ bitsOfBytes bs).length = _
    rw [List.length_append, ih, List.length_cons, show (bitsOfByte b).length = 8 from rfl]
    omega

/-- R171: bytes sent most significant bit first are read back as they were, and the bits of a byte left incomplete behind
them are ignored. -/
theorem bytesOfBits_bitsOfBytes (bytes : List Byte) (loose : List Bool) (h : loose.length < 8) :
    bytesOfBits (bitsOfBytes bytes ++ loose) = bytes := by
  induction bytes with
  | nil =>
    show bytesOfBits loose = []
    unfold bytesOfBits
    split
    · exact absurd h (by simp only [List.length_cons]; omega)
    · rfl
  | cons b bs ih =>
    have hb : byteOfBits (bitsOfByte b) = b := by revert b; decide +kernel
    show byteOfBits (bitsOfByte b) :: bytesOfBits (bitsOfBytes bs ++ loose) = b :: bs
    rw [hb, ih]

/-- Bit `k` of byte `i` as it is sent, the most significant first; behind the bytes, zeros (R171, R172). -/
theorem bitsOfBytes_getD (bytes : List Byte) (i k : Nat) (h : k < 8) :
    (bitsOfBytes bytes).getD (8 * i + k) false = (byteAt bytes i).getLsbD (7 - k) := by
  induction bytes generalizing i with
  | nil => simp [bitsOfBytes, byteAt]
  | cons b bs ih =>
    show (bitsOfByte b ++ bitsOfBytes bs).getD (8 * i + k) false = _
    match i with
    | 0 =>
      have : k = 0 ∨ k = 1 ∨ k = 2 ∨ k = 3 ∨ k = 4 ∨ k = 5 ∨ k = 6 ∨ k = 7 := by omega
      rcases this with rfl | rfl | rfl | rfl | rfl | rfl | rfl | rfl <;> rfl
    | i + 1 =>
      have hl : (bitsOfByte b).length = 8 := rfl
      rw [List.getD_append_right _ _ _ _ (by omega), hl, show 8 * (i + 1) + k - 8 = 8 * i + k by omega, ih]
      simp [byteAt]

end Sys2Proof.Machine
end

