-- ==== Sys2Proof/Laws/Frames.lean ====
section
/-! SUPPORT. What taking a command frame comes to (R171 to R176), once for every command. -/

namespace Sys2Proof.Machine

/-- A period that fell into power-on reset is ignored whole (R171). -/
theorem takeFrame_ignored (s : State) (f : Frame) (i n : Nat) (any : Bool) (owner : State → Answer)
    (h : s.pins.resetLow = true ∨ f.beganInReset = true) : takeFrame s f i n any owner = s := by
  simp [takeFrame, h]

/-- A frame that passes every test is answered by its owner (R175). -/
theorem takeFrame_taken (s : State) (f : Frame) (i n : Nat) (any : Bool) (owner : State → Answer)
    (hr : s.pins.resetLow = false) (hb : f.beganInReset = false) (hn : i + f.payload.length = n) (hm : n ≤ 48)
    (hs : s.notReady = false ∨ any = true) :
    takeFrame s f i n any owner =
      (owner (s.driveCommandPeriod (f.clocks n))).state.reply f.request
        (owner (s.driveCommandPeriod (f.clocks n))).status
        (owner (s.driveCommandPeriod (f.clocks n))).payload := by
  have hx : (s.driveCommandPeriod (f.clocks n)).notReady = s.notReady := rfl
  have hd : ¬ Config.maxPayload < n := by simp only [Config.maxPayload]; omega
  rcases hs with hs | hs <;> simp [takeFrame, hr, hb, hn, State.frameRefusal, hx, hs, hd]

/-- In STARTING and RESETTING a frame of any command but GET_STATUS is answered NOT_READY (R175). -/
theorem takeFrame_not_ready (s : State) (f : Frame) (i n : Nat) (owner : State → Answer)
    (hr : s.pins.resetLow = false) (hb : f.beganInReset = false) (hm : i + f.payload.length ≤ 48)
    (hs : s.notReady = true) :
    takeFrame s f i n false owner =
      (s.driveCommandPeriod (f.clocks (i + f.payload.length))).reply f.request .notReady [] := by
  have hx : (s.driveCommandPeriod (f.clocks (i + f.payload.length))).notReady = true := hs
  simp [takeFrame, hr, hb, State.frameRefusal, hx, Nat.not_lt.mpr hm, Config.maxPayload]

/-- A ready part answers a frame of the wrong payload length REFUSED_RANGE (R175). -/
theorem takeFrame_wrong_length (s : State) (f : Frame) (i n : Nat) (any : Bool) (owner : State → Answer)
    (hr : s.pins.resetLow = false) (hb : f.beganInReset = false) (hm : i + f.payload.length ≤ 48)
    (hs : s.notReady = false ∨ any = true) (hn : i + f.payload.length ≠ n) :
    takeFrame s f i n any owner =
      (s.driveCommandPeriod (f.clocks (i + f.payload.length))).reply f.request .refusedRange [] := by
  have hx : (s.driveCommandPeriod (f.clocks (i + f.payload.length))).notReady = s.notReady := rfl
  rcases hs with hs | hs <;>
    simp [takeFrame, hr, hb, State.frameRefusal, hx, hs, hn, Nat.not_lt.mpr hm, Config.maxPayload]

end Sys2Proof.Machine

namespace Sys2Proof.Safety

open Machine

/-- A delivered frame is answered by its owner, on the state with SPI_MISO driven (R175, R176). -/
theorem takeFrame_delivered (s : State) (f : Frame) (i k : Nat) (any : Bool) (owner : State → Answer)
    (h : Delivered s f k) (hm : i + k ≤ 48) :
    takeFrame s f i (i + k) any owner =
      (owner (s.setPins { s.pins with miso := misoOf [s.readyByte] (f.clocks (i + k)) })).state.reply
        f.request
        (owner (s.setPins { s.pins with miso := misoOf [s.readyByte] (f.clocks (i + k)) })).status
        (owner (s.setPins { s.pins with miso := misoOf [s.readyByte] (f.clocks (i + k)) })).payload := by
  obtain ⟨hr, ⟨h1, h2⟩, hb, hl⟩ := h
  rw [takeFrame_taken s f i (i + k) any owner hr hb (by omega) hm (by simp [State.notReady, h1, h2])]
  rfl

end Sys2Proof.Safety
end

