-- ==== Sys2Proof/Laws/Quiesce.lean ====
section
/-! SUPPORT. The end of the soft reset quiesce (R185 to R188): when it is due, what it keeps, and what the happenings
that can complete it come to. -/

namespace Sys2Proof.Machine

/-- R185: both conditions of the ENGINES phase. -/
theorem State.enginesDone_iff (s : State) :
    s.enginesDone = true ↔ (∀ c, s.context? c = none) ∧ s.restore.state = .idle := by
  simp [State.enginesDone, State.allContextsFree_iff]

theorem State.quiesceDue_iff (s : State) :
    s.quiesceDue = true ↔ s.marks.state = .resetting ∧ (∀ c, s.context? c = none) ∧ s.restore.state = .idle := by
  simp [State.quiesceDue, State.enginesDone_iff]

/-- R188: what the end of the quiesce keeps. -/
@[simp] theorem State.quiesceStep_keeps (s : State) :
    s.quiesceStep.marks = ⟨.idle, [], s.marks.nextNumber, .noAction, false, .noReason⟩ ∧
    s.quiesceStep.windows = s.windows.resetStep ∧ s.quiesceStep.log = SaveLog.reset ∧
    s.quiesceStep.save = SaveEngine.reset ∧ s.quiesceStep.transit = s.releaseStep.transit ∧
    s.quiesceStep.down = s.down ∧
    s.quiesceStep.restore = { s.restore with state := .idle, step := .noStep, outstanding := 0 } ∧
    s.quiesceStep.notice = NoticeUnit.resetAt s.now ∧ s.quiesceStep.mgmt = s.mgmt.resetStep ∧
    s.quiesceStep.pins = s.pins ∧ s.quiesceStep.links = s.links ∧ s.quiesceStep.now = s.now ∧
    s.quiesceStep.choices = s.choices ∧ s.quiesceStep.pending = s.pending := by
  simp [State.quiesceStep, State.resetStep, MarkController.reset]

/-- R185: the quiesce completes where it is due. -/
theorem State.quiesceComplete_of_due {s : State} (h : s.quiesceDue = true) : s.quiesceComplete = s.quiesceStep := by
  simp [State.quiesceComplete, h]

theorem State.quiesceComplete_of_not_due {s : State} (h : s.quiesceDue = false) : s.quiesceComplete = s := by
  simp [State.quiesceComplete, h]

/-- Outside RESETTING no quiesce is due (R184). -/
theorem State.quiesceDue_of_not_resetting {s : State} (h : s.marks.state ≠ .resetting) : s.quiesceDue = false := by
  simp [State.quiesceDue, h]

/-- R185: a happening completes the quiesce where the engines had not both ended before it. -/
theorem State.reported_of_busy {s t : State} (h : s.enginesDone = false) : s.reported t = t.quiesceComplete := by
  simp [State.reported, State.completesQuiesce, State.quiesceComplete, h]

/-- A happening in which no engine ends completes no quiesce. -/
theorem State.reported_of_same {s t : State} (h : t.enginesDone = s.enginesDone) : s.reported t = t := by
  cases hs : s.enginesDone <;> simp [State.reported, State.completesQuiesce, State.quiesceDue, h, hs]

/-- Outside RESETTING a happening completes no quiesce. -/
theorem State.reported_of_not_resetting {s t : State} (h : t.marks.state ≠ .resetting) : s.reported t = t := by
  simp [State.reported, State.completesQuiesce, State.quiesceDue_of_not_resetting h]

/-- A happening leaves its own state, or that state with the quiesce completed. -/
theorem State.reported_cases (s t : State) :
    (s.reported t = t) ∨ (s.completesQuiesce t = true ∧ s.reported t = t.quiesceStep) := by
  unfold State.reported
  split
  · exact .inr ⟨‹_›, rfl⟩
  · exact .inl rfl

/-- A timeout that does not complete the quiesce is its happening alone (R123). -/
theorem State.timeOutTag_of_not_due {s : State} {tag : TagNo}
    (h : s.completesQuiesce (happening s fun h => h.timeOut tag) = false) :
    s.timeOutTag tag = happening s fun h => h.timeOut tag := by
  simp [State.timeOutTag, h]

/-- What a timeout that completes the quiesce leaves is the reset step's state, alone or with the notices of the timeout
taken after it (R163). -/
theorem State.quiesceAmidTimeout_cases (t : State) (post : NoticeKind) :
    ∃ u, u = (t.setChoices (t.choices + 1)).quiesceStep ∧
      (t.quiesceAmidTimeout post = u ∨ t.quiesceAmidTimeout post = takePost u post u.level ∨
        t.quiesceAmidTimeout post = takePost u.countResponseTimedOut post u.level) := by
  refine ⟨_, rfl, ?_⟩
  unfold State.quiesceAmidTimeout State.nextChoice
  dsimp only
  split <;> simp

end Sys2Proof.Machine
end

