-- ==== Sys2Proof/Laws/Leaves.lean ====
section
/-! SUPPORT. What a response and a timeout leave, in the words the claims use: the posts taken, the timeout counted, and
the quiesce completed where their report completes it (R118, R123, R163, R185). -/

namespace Sys2Proof.Safety

open Machine

/-- In RESETTING re-classification does not touch the notice unit, nor the count of choices. -/
theorem reclassify_resetting_notice (s : State) (hr : s.marks.state = .resetting) (n : NoticeUnit) (m : Nat)
    (x : TransitEntry) :
    ((s.setNotice n).setChoices m).reclassify x = ((s.reclassify x).setNotice n).setChoices m := by
  unfold State.reclassify
  split
  · rename_i w i _
    dsimp only
    by_cases h : ((s.updateEntry x.order fun e => { e with markNumber := s.classificationMark }).hasEarlier x.order i) = true
    · rw [if_pos h, if_pos (by exact h)]; rfl
    · rw [if_neg h, if_neg (by exact h)]
      have hn : s.classificationMark = none := by simp [State.classificationMark, hr]
      have hs : ∀ y j, (s.updateEntry x.order fun e => { e with markNumber := s.classificationMark }).saveNeeded y j =
          false := by
        intro y j
        simp [State.saveNeeded, hr]
      have hs' : ∀ y j, (((s.setNotice n).setChoices m).updateEntry x.order fun e => { e with
          markNumber := ((s.setNotice n).setChoices m).classificationMark }).saveNeeded y j = false := hs
      simp only [State.evaluateHead]
      have : ∀ o, (((s.setNotice n).setChoices m).updateEntry x.order fun e' => { e' with
          markNumber := ((s.setNotice n).setChoices m).classificationMark }).entry? o =
          (s.updateEntry x.order fun e' => { e' with markNumber := s.classificationMark }).entry? o := fun _ => rfl
      rw [this]
      split
      · rfl
      · split
        · simp only [hs, hs', Bool.false_eq_true, if_false]
          rfl
        · rfl
  · rfl

/-- The reset step does not depend on the notice unit. -/
theorem quiesceStep_notice (s : State) (hr : s.marks.state = .resetting) (n : NoticeUnit) (m : Nat) :
    ((s.setNotice n).setChoices m).quiesceStep = s.quiesceStep.setChoices m := by
  have fold : ∀ (l : List TransitEntry) (s : State), s.marks.state = .resetting →
      l.foldl State.reclassify ((s.setNotice n).setChoices m) =
        ((l.foldl State.reclassify s).setNotice n).setChoices m := by
    intro l
    induction l with
    | nil => intro s _; rfl
    | cons x xs ih =>
      intro s hs
      rw [List.foldl_cons, reclassify_resetting_notice s hs, ih _ (by simpa using hs), List.foldl_cons]
  have hrel : ((s.setNotice n).setChoices m).releaseStep = (s.releaseStep.setNotice n).setChoices m :=
    fold _ s.releaseWaiting (by simpa [State.releaseWaiting] using hr)
  unfold State.quiesceStep
  rw [hrel]
  rfl
/-! ### Posts -/

/-- Taking posts changes the notice unit alone. -/
theorem takeAll_keeps (s : State) (ks : List NoticeKind) (v : Nat) : ∃ n, takeAll s ks v = s.setNotice n := by
  induction ks generalizing s with
  | nil => exact ⟨s.notice, rfl⟩
  | cons k ks ih =>
    obtain ⟨n, hn⟩ := ih (takePost s k v)
    have hk : takePost s k v = s.setNotice (takePost s k v).notice := by
      unfold takePost
      split <;> rfl
    exact ⟨n, by rw [takeAll_cons, hn, hk]; rfl⟩

/-- The posts of a happening change the notice unit and the count of choices alone. -/
theorem taken_keeps {s t : State} {own others : List NoticeKind} {old new : Nat}
    (h : TakenTogether s t own others old new) : ∃ n, t = (s.setNotice n).setChoices t.choices := by
  obtain ⟨before, after, c, -, -, -, rfl⟩ := h
  obtain ⟨m, hm⟩ := takeAll_keeps s before old
  obtain ⟨n, hn⟩ := takeAll_keeps (takeAll s before old) after new
  exact ⟨n, by rw [hn, hm]; rfl⟩

/-! ### Responses and timeouts -/

theorem running_exec {s : State} (hr : Running s) (f : State → State) : s.running f = f s := by
  simp [State.running, show s.pins.resetLow = false from hr]

/-- A response whose origin's engine had not ended, in the words the claims use (R118, R185). -/
theorem responseLeaves_of {s v u : State} {t : TagNo} {status : LinkStatus} {data : Option (List Byte)}
    {own others : List NoticeKind} (hr : Running s) (hd : s.enginesDone = false)
    (hu : happening s (fun h => h.response t status data) = u) (hru : Running u)
    (hm : s.marks.state ≠ .resetting → u.marks.state ≠ .resetting)
    (ht : TakenTogether v u own others s.level v.level) : ResponseLeaves s t status data v own others := by
  subst hu
  have he : exec (.downstreamResponse t status data) s =
      .next (happening s fun h => h.response t status data).quiesceComplete := by
    show Host.Outcome.next (s.running _) = _
    rw [running_exec hr, State.reported_of_busy hd]
  refine ⟨_, ht, fun hn => ?_, ?_⟩
  · rw [he, State.quiesceComplete_of_not_due (State.quiesceDue_of_not_resetting (hm hn))]
  · rw [he]
    show _ = Host.Outcome.next (State.running _ _)
    rw [running_exec hru]
/-- A timeout of a request of the save engine or the restore engine, in the words the claims use (R123, R163, R185). -/
theorem timeoutLeaves_of {s : State} {t : TagNo} {r : TagRecord} (hr : Running s) (ht : s.tag t = .inUse r)
    (h0 : r.timeout ≠ 0) (hto : r.timeout ≤ s.now - r.issueTime) (hd : s.enginesDone = false) (k : Happening)
    (hk : (⟨s.setTag t (.stale r), []⟩ : Happening).deliverFailure .timeout r.origin = k)
    (hkm : k.state.marks.state = .resetting ↔ s.marks.state = .resetting) (hkp : k.state.pins = s.pins)
    (hlv : s.marks.state = .resetting → s.level = k.state.level) (own others : List NoticeKind)
    (htog : ∀ h : Happening, h.state = k.state.countResponseTimedOut →
      h.posts = k.posts ++ [⟨.downstreamPort, .responseTimeout r.origin.source r.address⟩] →
      TakenTogether h.state (h.finish s.level) own (others ++ [.responseTimeout r.origin.source r.address]) s.level
        k.state.level) :
    TimeoutLeaves s t r.origin.source r.address k.state own others := by
  rintro counted rfl
  have hhap : happening s (fun h => h.timeOut t) =
      ((k.step State.countResponseTimedOut).post .downstreamPort (.responseTimeout r.origin.source r.address)).finish
        s.level := by
    have h1 : (Happening.start s).timeOut t =
        (k.step State.countResponseTimedOut).post .downstreamPort (.responseTimeout r.origin.source r.address) := by
      subst hk
      simp [Happening.timeOut, Happening.start, ht, TagRecord.timedOut, h0, hto, Happening.step]
    show Happening.finish _ _ = _
    rw [← h1]
  have htk := htog ((k.step State.countResponseTimedOut).post .downstreamPort
    (.responseTimeout r.origin.source r.address)) rfl rfl
  rw [← hhap] at htk
  generalize hw : happening s (fun h => h.timeOut t) = w at htk hhap
  have hx : exec (.tagTimeout t) s = .next (s.timeOutTag t) := by
    show Host.Outcome.next (s.running _) = _
    rw [running_exec hr]
  obtain ⟨n, hn⟩ := taken_keeps htk
  have hdue : s.completesQuiesce w = true ↔
      s.marks.state = .resetting ∧ (∀ c, k.state.context? c = none) ∧ k.state.restore.state = .idle := by
    simp only [State.completesQuiesce, hd, Bool.not_false, Bool.true_and, State.quiesceDue_iff]
    rw [hn, ← hkm]
    rfl
  refine ⟨fun hq => ⟨w, ?_, htk⟩, fun hres hf hi ho1 ho2 => ?_⟩
  · rw [hx, State.timeOutTag_of_not_due, hw]
    rw [hw, ← Bool.not_eq_true, hdue]
    exact hq
  · have hc : s.completesQuiesce w = true := hdue.mpr ⟨hres, hf, hi⟩
    have hto' : s.timeOutTag t = w.quiesceAmidTimeout (.responseTimeout r.origin.source r.address) := by
      simp [State.timeOutTag, hw, hc, ht]
    obtain ⟨u, hu, hcases⟩ := State.quiesceAmidTimeout_cases w (.responseTimeout r.origin.source r.address)
    have hch : w.choices = k.state.choices := by
      obtain ⟨before, after, c, -, -, hcc, he⟩ := htk
      rw [he]
      exact hcc (.inr ⟨by simp [ho1, ho2], hlv hres⟩)
    have hkr : k.state.marks.state = .resetting := hkm.mpr hres
    have hus : u = ({ k.state with choices := k.state.choices + 1 } : State).quiesceStep := by
      rw [hu, hn, hch]
      exact (quiesceStep_notice k.state hkr n _).trans
        (quiesceStep_notice k.state hkr k.state.notice (k.state.choices + 1)).symm
    have hul : u.level = 0 := by rw [hus]; simp [State.level]
    refine ⟨u, _, ?_, hx.trans (congrArg _ hto'), ?_⟩
    · have hrun : Running ({ k.state with choices := k.state.choices + 1 } : State) := by
        show k.state.pins.resetLow = false
        rw [hkp]
        exact hr
      show Host.Outcome.next (State.running _ _) = _
      rw [running_exec hrun, State.quiesceComplete_of_due, hus]
      exact (State.quiesceDue_iff _).mpr ⟨hkr, hf, hi⟩
    · rw [hul] at hcases
      exact hcases

end Sys2Proof.Safety
end

