-- ==== Sys2Proof/Laws/PerInstr.lean ====
section
/-! SUPPORT. One family of statements made row by row: the shape of the chip-select period a command comes in. -/

namespace Sys2Proof.Laws.PeriodShape

open Machine

/-- R172, R173: a well-formed command that comes in a chip-select period comes in one of at least one byte, whose first
byte is 00 exactly when the command is a read period, or in the empty period, which is in the row of a frame cut short
(log 29). -/
def Statement (c : Instr) : Prop :=
  c.wellFormed = true → ∀ p : Period, encodePeriod c = some p →
    (p.bytes = [] → c = .commandFrameCutShort p) ∧
    (p.bytes ≠ [] → (byteAt p.bytes 0 = 0#8 ↔ ∃ n b, c = .readPeriod n b))

/-- A command that comes in no period. -/
theorem of_none {c : Instr} (h : encodePeriod c = none) : Statement c := by
  intro _ p he
  simp [h] at he

/-- A frame row: the period begins with the row's command code. -/
theorem of_frame {c : Instr} {code request : Byte} {payload : List Byte} {extra : Nat} {bits : Fin 8} {began : Bool}
    (h : encodePeriod c = some ⟨frameBytes code request payload extra, bits, began⟩) (hc : code ≠ 0#8)
    (hr : ∀ n b, c ≠ .readPeriod n b) : Statement c := by
  intro _ p he
  rw [h] at he
  obtain rfl := Option.some.inj he
  refine ⟨by simp [frameBytes], fun _ => ⟨fun h0 => absurd h0 hc, ?_⟩⟩
  rintro ⟨n, b, hn⟩
  exact absurd hn (hr n b)

theorem powerOnReset : Statement .powerOnReset := of_none rfl

theorem powerOnResetEnd : Statement .powerOnResetEnd := of_none rfl

theorem mapSweepComplete : Statement .mapSweepComplete := of_none rfl

theorem rollbackReqRisingEdge : Statement .rollbackReqRisingEdge := of_none rfl

theorem upstreamRequest (r : UpstreamRequest) : Statement (.upstreamRequest r) := of_none rfl

theorem saveAllocation : Statement .saveAllocation := of_none rfl

theorem arbiterGrant : Statement .arbiterGrant := of_none rfl

theorem downstreamCreditReturn : Statement .downstreamCreditReturn := of_none rfl

theorem downstreamResponse (tag : TagNo) (status : LinkStatus) (data : Option (List Byte)) :
    Statement (.downstreamResponse tag status data) :=
  of_none rfl

theorem tagTimeout (tag : TagNo) : Statement (.tagTimeout tag) := of_none rfl

theorem stalePeriodExpiry (tag : TagNo) : Statement (.stalePeriodExpiry tag) := of_none rfl

theorem openTakesEffect : Statement .openTakesEffect := of_none rfl

theorem releaseTakesEffect : Statement .releaseTakesEffect := of_none rfl

theorem commitTakesEffect : Statement .commitTakesEffect := of_none rfl

theorem rollbackTakesEffect : Statement .rollbackTakesEffect := of_none rfl

theorem rollbackOutcome : Statement .rollbackOutcome := of_none rfl

theorem checkEnd : Statement .checkEnd := of_none rfl

theorem quietTimerExpiry : Statement .quietTimerExpiry := of_none rfl

theorem readPeriod (clocks : Nat) (beganInReset : Bool) : Statement (.readPeriod clocks beganInReset) := by
  intro hw p he
  obtain rfl := Option.some.inj he
  obtain ⟨n, hn⟩ : ∃ n, clocks / 8 = n + 1 := ⟨clocks / 8 - 1, by simp [Instr.wellFormed] at hw; omega⟩
  dsimp only
  rw [hn]
  exact ⟨by simp [List.replicate_succ], fun _ => ⟨fun _ => ⟨_, _, rfl⟩, fun _ => by simp [List.replicate_succ, byteAt]⟩⟩

theorem replyReady : Statement .replyReady := of_none rfl

theorem commandFrameCutShort (p : Period) : Statement (.commandFrameCutShort p) := by
  intro hw q he
  obtain rfl := Option.some.inj he
  have hw : p.cutShort = true := hw
  refine ⟨fun _ => rfl, fun hn => ⟨fun h => ?_, fun ⟨_, _, h⟩ => by simp at h⟩⟩
  unfold Period.cutShort at hw
  split at hw <;> simp_all [byteAt]

theorem unknownCommand (code : Byte) (f : Frame) : Statement (.unknownCommand code f) := by
  intro hw
  refine of_frame rfl ?_ (by simp) hw
  rintro rfl
  simp [Instr.wellFormed] at hw

theorem getStatus (f : Frame) : Statement (.getStatus f) := of_frame rfl (by decide) (by simp)

theorem getMarks (f : Frame) : Statement (.getMarks f) := of_frame rfl (by decide) (by simp)

theorem readConfig (f : Frame) : Statement (.readConfig f) := of_frame rfl (by decide) (by simp)

theorem writeConfigLogBase (f : Frame) : Statement (.writeConfigLogBase f) := of_frame rfl (by decide) (by simp)

theorem writeConfigLogSize (f : Frame) : Statement (.writeConfigLogSize f) := of_frame rfl (by decide) (by simp)

theorem writeConfigLogThreshold (f : Frame) : Statement (.writeConfigLogThreshold f) :=
  of_frame rfl (by decide) (by simp)

theorem writeConfigLogFullPolicy (f : Frame) : Statement (.writeConfigLogFullPolicy f) :=
  of_frame rfl (by decide) (by simp)

theorem writeConfigLogReader (f : Frame) : Statement (.writeConfigLogReader f) := of_frame rfl (by decide) (by simp)

theorem writeConfigPartRequesterId (f : Frame) : Statement (.writeConfigPartRequesterId f) :=
  of_frame rfl (by decide) (by simp)

theorem writeConfigResponseTimeout (f : Frame) : Statement (.writeConfigResponseTimeout f) :=
  of_frame rfl (by decide) (by simp)

theorem writeConfigNoticeTrigger (f : Frame) : Statement (.writeConfigNoticeTrigger f) :=
  of_frame rfl (by decide) (by simp)

theorem writeConfigNoticeQuiet (f : Frame) : Statement (.writeConfigNoticeQuiet f) := of_frame rfl (by decide) (by simp)

theorem writeConfigLineRollback (f : Frame) : Statement (.writeConfigLineRollback f) :=
  of_frame rfl (by decide) (by simp)

theorem setWindow (f : Frame) : Statement (.setWindow f) := of_frame rfl (by decide) (by simp)

theorem getWindow (f : Frame) : Statement (.getWindow f) := of_frame rfl (by decide) (by simp)

theorem enableWindow (f : Frame) : Statement (.enableWindow f) := of_frame rfl (by decide) (by simp)

theorem disableWindow (f : Frame) : Statement (.disableWindow f) := of_frame rfl (by decide) (by simp)

theorem readMap (f : Frame) : Statement (.readMap f) := of_frame rfl (by decide) (by simp)

theorem openMark (f : Frame) : Statement (.openMark f) := of_frame rfl (by decide) (by simp)

theorem releaseMark (f : Frame) : Statement (.releaseMark f) := of_frame rfl (by decide) (by simp)

theorem commit (f : Frame) : Statement (.commit f) := of_frame rfl (by decide) (by simp)

theorem rollback (f : Frame) : Statement (.rollback f) := of_frame rfl (by decide) (by simp)

theorem checkLog (f : Frame) : Statement (.checkLog f) := of_frame rfl (by decide) (by simp)

theorem discard (f : Frame) : Statement (.discard f) := of_frame rfl (by decide) (by simp)

theorem readNotice (f : Frame) : Statement (.readNotice f) := of_frame rfl (by decide) (by simp)

theorem readCounters (f : Frame) : Statement (.readCounters f) := of_frame rfl (by decide) (by simp)

theorem clearCounters (f : Frame) : Statement (.clearCounters f) := of_frame rfl (by decide) (by simp)

theorem softReset (f : Frame) : Statement (.softReset f) := of_frame rfl (by decide) (by simp)

theorem softResetQuiesceComplete : Statement .softResetQuiesceComplete := of_none rfl

theorem checkFailedFrame (p : Period) : Statement (.checkFailedFrame p) := by
  intro hw q he
  obtain rfl := Option.some.inj he
  have hw : p.checkFailed = true := hw
  refine ⟨fun h => by simp [Period.checkFailed, h] at hw, fun _ => ⟨fun h => ?_, fun ⟨_, _, h⟩ => by simp at h⟩⟩
  unfold Period.checkFailed at hw
  split at hw <;> simp_all [byteAt]

theorem writeConfigUnknownItem (f : Frame) : Statement (.writeConfigUnknownItem f) := of_frame rfl (by decide) (by simp)

theorem rollbackReqFallingEdge : Statement .rollbackReqFallingEdge := of_none rfl

end Sys2Proof.Laws.PeriodShape
end

