-- ==== Sys2Proof/Laws/Reclassify.lean ====
section
/-! SUPPORT. Re-classification and the release step (R99, R105, R186): what each does to the entry at one place of a
buffer that keeps arrival order. -/

namespace Sys2Proof.Machine

/-- A buffer in arrival order (R86). -/
def InOrder (es : List TransitEntry) : Prop := es.Pairwise fun a b => a.order < b.order

theorem TransitEntry.cls_of_index {e : TransitEntry} {i : Nat} (h : e.index? = some i) : ∃ w, e.cls = .window w i := by
  unfold TransitEntry.index? at h
  split at h <;> simp_all

/-- An entry of no map index is left as it is. -/
theorem State.reclassify_of_no_index (s : State) {e : TransitEntry} (h : e.index? = none) : s.reclassify e = s := by
  unfold State.reclassify
  unfold TransitEntry.index? at h
  split at h <;> simp_all

/-- An entry replaced by one of the same arrival order leaves the order as it is. -/
theorem InOrder.replace {front back : List TransitEntry} {e d : TransitEntry} (ho : d.order = e.order)
    (hp : InOrder (front ++ e :: back)) : InOrder (front ++ d :: back) := by
  unfold InOrder at *
  rw [List.pairwise_append, List.pairwise_cons] at hp ⊢
  refine ⟨hp.1, ⟨fun a ha => ho ▸ hp.2.1.1 a ha, hp.2.1.2⟩, fun a ha b hb => ?_⟩
  rcases List.mem_cons.mp hb with rfl | hb
  · exact ho ▸ hp.2.2 a ha e (by simp)
  · exact hp.2.2 a ha b (by simp [hb])

/-- R99: an earlier entry of a map index lies in front. -/
theorem State.hasEarlier_iff {s : State} {front back : List TransitEntry} {e : TransitEntry}
    (he : s.transit.entries = front ++ e :: back) (hp : InOrder s.transit.entries) (i : Nat) :
    s.hasEarlier e.order i = true ↔ ∃ d ∈ front, d.index? = some i := by
  rw [InOrder, he] at hp
  obtain ⟨-, h2, h3⟩ := List.pairwise_append.mp hp
  have h4 := (List.pairwise_cons.mp h2).1
  simp only [State.hasEarlier, he, List.any_append, List.any_cons, Bool.or_eq_true, List.any_eq_true, Bool.and_eq_true,
    decide_eq_true_eq, beq_iff_eq]
  constructor
  · rintro (⟨d, hd, -, h⟩ | ⟨h, -⟩ | ⟨d, hd, h, -⟩)
    · exact ⟨d, hd, h⟩
    · omega
    · have := h4 d hd
      omega
  · rintro ⟨d, hd, h⟩
    exact .inl ⟨d, hd, h3 d hd e (by simp), h⟩

/-- R99: one WINDOW entry classified afresh, in its place. -/
theorem State.reclassify_eq {s : State} {front back : List TransitEntry} {e : TransitEntry}
    (he : s.transit.entries = front ++ e :: back) (hp : InOrder s.transit.entries) {w : WindowNo} {i : Nat}
    (hc : e.cls = .window w i) :
    s.reclassify e =
      if ∃ d ∈ front, d.index? = some i then
        s.setEntries (front ++ { e with markNumber := s.classificationMark, state := .waitOrder } :: back)
      else if s.saveNeeded { e with markNumber := s.classificationMark } i then
        ((s.setEntries (front ++
          { e with markNumber := s.classificationMark, state := .waitSave, hasContext := false } :: back)).setSave
          { s.save with waiting := insertOrder s.save.waiting e.order }).countWriteHeld
      else s.setEntries (front ++ { e with markNumber := s.classificationMark, state := .forwardable } :: back) := by
  obtain ⟨o, r, cls, mark, state, held, pre⟩ := e
  dsimp only at hc
  subst hc
  have h1 : s.updateEntry o (fun e => { e with markNumber := s.classificationMark }) =
      s.setEntries (front ++ ⟨o, r, .window w i, s.classificationMark, state, held, pre⟩ :: back) := by
    unfold State.updateEntry
    rw [he]
    exact congrArg s.setEntries (map_update_mid front back ⟨o, r, .window w i, mark, state, held, pre⟩
      (fun e => { e with markNumber := s.classificationMark }) (he ▸ hp))
  have hp₁ : InOrder (front ++ ⟨o, r, .window w i, s.classificationMark, state, held, pre⟩ :: back) :=
    InOrder.replace (e := ⟨o, r, .window w i, mark, state, held, pre⟩) rfl (he ▸ hp)
  generalize hs₁ : s.setEntries (front ++ ⟨o, r, .window w i, s.classificationMark, state, held, pre⟩ :: back) = s₁ at h1
  have he₁ : s₁.transit.entries = front ++ ⟨o, r, .window w i, s.classificationMark, state, held, pre⟩ :: back := by
    rw [← hs₁]; rfl
  have hE := State.hasEarlier_iff he₁ (he₁ ▸ hp₁) i
  have hent : s₁.entry? o = some ⟨o, r, .window w i, s.classificationMark, state, held, pre⟩ :=
    State.entry?_of_mem (e := ⟨o, r, .window w i, s.classificationMark, state, held, pre⟩) (by simp [he₁]) (he₁ ▸ hp₁)
  have hupd : ∀ f : TransitEntry → TransitEntry, s₁.updateEntry o f =
      s₁.setEntries (front ++ f ⟨o, r, .window w i, s.classificationMark, state, held, pre⟩ :: back) := by
    intro f
    unfold State.updateEntry
    rw [he₁, map_update_mid front back ⟨o, r, .window w i, s.classificationMark, state, held, pre⟩ f hp₁]
  have hneed : ∀ x, s₁.saveNeeded x i = s.saveNeeded x i := fun _ => by rw [← hs₁]; rfl
  unfold State.reclassify
  simp only [h1]
  by_cases hh : ∃ d ∈ front, d.index? = some i
  · rw [if_pos hh, if_pos (hE.mpr hh), hupd, ← hs₁]
    rfl
  · rw [if_neg hh, if_neg fun h => hh (hE.mp h), State.evaluateHead_of_entry hent rfl, hneed]
    subst hs₁
    simp only [State.enterWaitSave, hupd]
    rfl

/-- R99: classifying one entry afresh changes that entry alone, and leaves none of a map index in WAIT_MARK. -/
theorem State.reclassify_entries {s : State} {front back : List TransitEntry} {e : TransitEntry}
    (he : s.transit.entries = front ++ e :: back) (hp : InOrder s.transit.entries) :
    ∃ d, (s.reclassify e).transit.entries = front ++ d :: back ∧ d.order = e.order ∧ d.cls = e.cls ∧
      (e.index? ≠ none → d.state ≠ .waitMark) ∧ (e.index? = none → d = e) := by
  cases h : e.index? with
  | none => exact ⟨e, by rw [State.reclassify_of_no_index s h, he], rfl, rfl, by simp, by simp⟩
  | some i =>
    obtain ⟨w, hc⟩ := TransitEntry.cls_of_index h
    rw [State.reclassify_eq he hp hc]
    split
    · exact ⟨_, rfl, rfl, rfl, by simp, by simp⟩
    · split <;> exact ⟨_, rfl, rfl, rfl, by simp, by simp⟩

/-! ### All of them, one at a time in arrival order -/

/-- What the entries of one place come to when a list of entries in arrival order is classified afresh. -/
theorem reclassify_foldl_entry (l : List TransitEntry) (s : State) (hs : InOrder s.transit.entries) (hl : InOrder l)
    (hm : ∀ x ∈ l, x ∈ s.transit.entries) (k : Nat) (e : TransitEntry) (h : s.transit.entries[k]? = some e) :
    ∃ d, (l.foldl State.reclassify s).transit.entries[k]? = some d ∧ (e ∉ l → d = e) ∧
      (e ∈ l → e.index? ≠ none → d.state ≠ .waitMark) := by
  induction l generalizing s e with
  | nil => exact ⟨e, h, by simp, by simp⟩
  | cons x xs ih =>
    obtain ⟨front, back, he⟩ := List.append_of_mem (hm x (by simp))
    obtain ⟨d, h1, h2, -, h4, -⟩ := State.reclassify_entries he hs
    have hs₁ : InOrder (s.reclassify x).transit.entries := h1 ▸ InOrder.replace h2 (he ▸ hs)
    obtain ⟨hx, hxs⟩ := List.pairwise_cons.mp hl
    have hf := (List.pairwise_append.mp (he ▸ hs)).2
    have hb := (List.pairwise_cons.mp hf.1).1
    have hm₁ : ∀ y ∈ xs, y ∈ (s.reclassify x).transit.entries := by
      intro y hy
      have hy₁ := hm y (by simp [hy])
      have hne : y ≠ x := by rintro rfl; exact absurd (hx y hy) (Nat.lt_irrefl _)
      rw [he] at hy₁
      rw [h1]
      simp only [List.mem_append, List.mem_cons] at hy₁ ⊢
      tauto
    rcases Nat.lt_trichotomy k front.length with hk | rfl | hk
    · rw [he, List.getElem?_append_left hk] at h
      have hne : e ≠ x := by
        rintro rfl
        exact absurd (hf.2 e (List.mem_of_getElem? h) e (by simp)) (Nat.lt_irrefl _)
      obtain ⟨d', ha, hn, hi⟩ := ih _ hs₁ hxs hm₁ e (by rw [h1, List.getElem?_append_left hk, h])
      exact ⟨d', ha, fun hq => hn fun hc => hq (by simp [hc]), fun hq => hi ((List.mem_cons.mp hq).resolve_left hne)⟩
    · obtain rfl : x = e := by rw [he] at h; simpa using h
      obtain ⟨d', ha, hn, -⟩ := ih _ hs₁ hxs hm₁ d (by simp [h1])
      have hd : d ∉ xs := fun hc => by have := hx d hc; omega
      obtain rfl := hn hd
      exact ⟨d', ha, by simp, fun _ => h4⟩
    · rw [he, List.getElem?_append_right (by omega), List.getElem?_cons, if_neg (by omega)] at h
      have hne : e ≠ x := by
        rintro rfl
        exact absurd (hb e (List.mem_of_getElem? h)) (Nat.lt_irrefl _)
      obtain ⟨d', ha, hn, hi⟩ := ih _ hs₁ hxs hm₁ e
        (by rw [h1, List.getElem?_append_right (by omega), List.getElem?_cons, if_neg (by omega), h])
      exact ⟨d', ha, fun hq => hn fun hc => hq (by simp [hc]), fun hq => hi ((List.mem_cons.mp hq).resolve_left hne)⟩

/-- R99: re-classification leaves the entries that were not in WAIT_MARK as they were, and takes the others of a map
index out of it. -/
theorem State.reclassifyAll_entry {s : State} (hs : InOrder s.transit.entries) (k : Nat) (e : TransitEntry)
    (h : s.transit.entries[k]? = some e) :
    ∃ d, s.reclassifyAll.transit.entries[k]? = some d ∧ (e.state ≠ .waitMark → d = e) ∧
      (e.state = .waitMark → e.index? ≠ none → d.state ≠ .waitMark) := by
  obtain ⟨d, h1, h2, h3⟩ := reclassify_foldl_entry (s.transit.entries.filter (·.state == .waitMark)) s hs
    (List.Pairwise.filter _ hs) (fun x hx => (List.mem_filter.mp hx).1) k e h
  exact ⟨d, h1, fun hn => h2 (by simp [hn]), fun hw => h3 (by simp [hw, List.mem_of_getElem? h])⟩

/-! ### The release step (R105, R186) -/

/-- The entry a WAIT_MARK entry behind `front` becomes at the release step. -/
def releasedFrom (front : List TransitEntry) (e : TransitEntry) : TransitEntry :=
  { e with
    markNumber := none
    state := if ∃ d ∈ front, d.index? = e.index? then .waitOrder else .forwardable }

/-- In RESETTING an entry is classified without a mark number and held for no save (R99, R104). -/
theorem State.reclassify_resetting {s : State} (hr : s.marks.state = .resetting) {front back : List TransitEntry}
    {e : TransitEntry} (he : s.transit.entries = front ++ e :: back) (hp : InOrder s.transit.entries) :
    s.reclassify e = s.setEntries (front ++ (if e.index? = none then e else releasedFrom front e) :: back) := by
  cases h : e.index? with
  | none =>
    rw [State.reclassify_of_no_index s h, if_pos rfl, ← he]
    rfl
  | some i =>
    obtain ⟨w, hc⟩ := TransitEntry.cls_of_index h
    have hn : s.classificationMark = none := by simp [State.classificationMark, hr]
    have hs : s.saveNeeded { e with markNumber := none } i = false := by simp [State.saveNeeded]
    rw [State.reclassify_eq he hp hc]
    by_cases hh : ∃ d ∈ front, d.index? = some i
    · simp only [hn, if_pos hh, releasedFrom, h]
      rfl
    · simp only [hn, if_neg hh, hs, releasedFrom, h]
      rfl

theorem exists_index_iff {f g : List TransitEntry} (h : f.map (·.index?) = g.map (·.index?)) (o : Option Nat) :
    (∃ d ∈ f, d.index? = o) ↔ ∃ d ∈ g, d.index? = o := by
  have key : ∀ l : List TransitEntry, (∃ d ∈ l, d.index? = o) ↔ o ∈ l.map (·.index?) := fun l => by simp
  rw [key, key, h]

theorem releasedFrom_congr {f g : List TransitEntry} (h : f.map (·.index?) = g.map (·.index?)) (e : TransitEntry) :
    releasedFrom f e = releasedFrom g e := by
  simp only [releasedFrom, exists_index_iff h]

/-- What a list of entries in arrival order comes to when it is classified afresh in RESETTING. -/
theorem reclassify_foldl_resetting (l : List TransitEntry) (s : State) (hr : s.marks.state = .resetting)
    (hs : InOrder s.transit.entries) (hl : InOrder l) (hm : ∀ x ∈ l, x ∈ s.transit.entries) :
    (l.foldl State.reclassify s).transit.entries.length = s.transit.entries.length ∧
    (l.foldl State.reclassify s).transit.credits = s.transit.credits ∧
    ∀ front e back, s.transit.entries = front ++ e :: back →
      (l.foldl State.reclassify s).transit.entries[front.length]? =
        some (if e ∈ l ∧ e.index? ≠ none then releasedFrom front e else e) := by
  induction l generalizing s with
  | nil => exact ⟨rfl, rfl, fun front e back h => by simp [h]⟩
  | cons x xs ih =>
    obtain ⟨f, b, he⟩ := List.append_of_mem (hm x (by simp))
    obtain ⟨d, hd⟩ : ∃ d, d = if x.index? = none then x else releasedFrom f x := ⟨_, rfl⟩
    have h0 := State.reclassify_resetting hr he hs
    rw [← hd] at h0
    have hdo : d.order = x.order := by rw [hd]; split <;> rfl
    have hdi : d.index? = x.index? := by rw [hd]; split <;> rfl
    have h1 : (s.reclassify x).transit.entries = f ++ d :: b := by rw [h0]; rfl
    have hs₁ : InOrder (s.reclassify x).transit.entries := h1 ▸ InOrder.replace hdo (he ▸ hs)
    obtain ⟨hx, hxs⟩ := List.pairwise_cons.mp hl
    have hf := (List.pairwise_append.mp (he ▸ hs)).2
    have hb := (List.pairwise_cons.mp hf.1).1
    have hdx : d ∉ xs := fun hc => by have := hx d hc; omega
    have hm₁ : ∀ y ∈ xs, y ∈ (s.reclassify x).transit.entries := by
      intro y hy
      have hy₁ := hm y (by simp [hy])
      have hne : y ≠ x := by rintro rfl; exact absurd (hx y hy) (Nat.lt_irrefl _)
      rw [he] at hy₁
      rw [h1]
      simp only [List.mem_append, List.mem_cons] at hy₁ ⊢
      tauto
    obtain ⟨ha, hc, hk⟩ := ih _ (by rw [h0]; exact hr) hs₁ hxs hm₁
    simp only [List.foldl_cons]
    refine ⟨by rw [ha, h1, he]; simp, by rw [hc, h0]; rfl, fun front e back h => ?_⟩
    have own : ∀ g c, f = g → x = e → b = c → (xs.foldl State.reclassify (s.reclassify x)).transit.entries[g.length]? =
        some (if e ∈ x :: xs ∧ e.index? ≠ none then releasedFrom g e else e) := by
      rintro g c rfl rfl rfl
      rw [hk f d b h1, if_neg (by simp [hdx]), hd]
      cases hi : x.index? <;> simp
    rcases List.append_eq_append_iff.mp (h.symm.trans he) with ⟨m, h2, h3⟩ | ⟨m, h2, h3⟩
    · cases m with
      | nil =>
        simp only [List.append_nil, List.nil_append, List.cons.injEq] at h2 h3
        exact own front back h2 h3.1.symm h3.2.symm
      | cons m₀ m =>
        simp only [List.cons_append, List.cons.injEq] at h3
        obtain ⟨rfl, rfl⟩ := h3
        have hne : e ≠ x := by
          rintro rfl
          exact absurd (hf.2 e (by simp [h2]) e (by simp)) (Nat.lt_irrefl _)
        rw [hk front e (m ++ d :: b) (by rw [h1, h2]; simp)]
        simp [hne]
    · cases m with
      | nil =>
        simp only [List.append_nil, List.nil_append, List.cons.injEq] at h2 h3
        exact own front back h2.symm h3.1 h3.2
      | cons m₀ m =>
        simp only [List.cons_append, List.cons.injEq] at h3
        obtain ⟨rfl, h3⟩ := h3
        have hne : e ≠ x := by
          rintro rfl
          exact absurd (hb e (by simp [h3])) (Nat.lt_irrefl _)
        have h4 := hk (f ++ d :: m) e back (by rw [h1, h3]; simp)
        rw [show (f ++ d :: m).length = front.length by simp [h2],
          releasedFrom_congr (g := front) (by simp [h2, hdi]) e] at h4
        rw [h4]
        simp [hne]

end Sys2Proof.Machine
end

