-- ==== Sys2Proof/Laws/Windows.lean ====
section
/-! SUPPORT. Window numbers, overlaps and the map's owner (R29, R34, R43). -/

namespace Sys2Proof.Machine

/-- R29: a number above 15 is refused before any other test. -/
theorem withWindow_of_ge (s : State) {n : Nat} (k : WindowNo → Answer) (h : 16 ≤ n) :
    withWindow s n k = s.refuse .refusedRange := by
  simp [withWindow, Nat.not_lt.mpr h]

/-- R29: a window's own number reaches the window. -/
@[simp] theorem withWindow_val (s : State) (w : WindowNo) (k : WindowNo → Answer) : withWindow s w.val k = k w := by
  simp [withWindow]

/-- R34: two half-open ranges share a value. -/
theorem rangesShare_iff (a b c d : Nat) : rangesShare a b c d = true ↔ max a c < min b d := by simp [rangesShare]

/-- R34: an enabled window lies in a proposed log area. -/
theorem State.logAreaOverlaps_iff (s : State) (base size : Nat) :
    s.logAreaOverlaps base size = true ↔ size ≠ 0 ∧ ∃ w, (s.window w).enabled = true ∧
      max (s.window w).base.toNat base < min (s.window w).rangeEnd (base + size) := by
  simp only [State.logAreaOverlaps, WindowRecord.logOverlap, List.any_eq_true, Bool.and_eq_true, rangesShare_iff, bne_iff_ne]
  constructor
  · rintro ⟨w, _, h1, h2, h3⟩
    exact ⟨h2, w, h1, h3⟩
  · rintro ⟨h2, w, h1, h3⟩
    exact ⟨w, List.mem_finRange w, h1, h2, h3⟩

/-- R43: the owner of an index is enabled and its map range holds the index. -/
theorem State.ownerOf_eq_some {s : State} {i : Nat} {w : WindowNo} (h : s.ownerOf i = some w) :
    (s.window w).enabled = true ∧ (s.window w).mapOffset ≤ i ∧ i < (s.window w).mapOffset + (s.window w).count := by
  have := List.find?_some h
  simpa [and_assoc] using this

/-- R43: an index without an owner lies in no enabled window's map range. -/
theorem State.ownerOf_eq_none {s : State} {i : Nat} : s.ownerOf i = none ↔
    ∀ w, (s.window w).enabled = true → i < (s.window w).mapOffset ∨ (s.window w).mapOffset + (s.window w).count ≤ i := by
  simp only [State.ownerOf, List.find?_eq_none, Bool.and_eq_true, decide_eq_true_eq]
  constructor
  · intro h w he
    by_contra hc
    exact h w (List.mem_finRange w) ⟨⟨he, by omega⟩, by omega⟩
  · rintro h w _ ⟨⟨he, h1⟩, h2⟩
    have := h w he
    omega

end Sys2Proof.Machine
end

