-- ==== Sys2Proof/Tests/Slice0.lean ====
section
/-! SUPPORT. Small tests of the model against values the manual writes out, one refused term for each well-formedness
check, and for each statement with hypotheses a concrete state and operands that meet them. -/

namespace Sys2Proof.Tests

/- One theorem at a time: a kernel evaluation waits for every declaration before it, and many that wait together would each
hold a thread. -/
set_option Elab.async false

open Machine Safety

/-! ### Small states -/

/-- The state a command leaves. -/
def after (c : Instr) (s : State) : State :=
  match exec c s with
  | .next t => t
  | .fault _ => s
  | .refused _ => s

/-- A frame with request number 7 and this payload. -/
def frame (payload : List Byte) : Frame := ⟨7, payload, 0, 0, false⟩

/-- The part with a controller state. -/
def inState (x : ControllerState) (s : State) : State := s.setMarks { s.marks with state := x }

/-- IDLE, with nothing configured. -/
def idle : State := inState .idle State.reset

/-- The two windows of chapter 2's example. -/
def windowA : WindowRecord := ⟨true, 0x10000000#40, 1, 4096, 0, 0, 0⟩
def windowB : WindowRecord := ⟨true, 0x20000000#40, 3, 256, 4096, 0, 0⟩

/-- Chapter 2's example: the two windows, the log area and the log reader, in IDLE. -/
def configured : State :=
  { idle with
    windows := ⟨((Vector.replicate 16 WindowRecord.reset).set 0 windowA).set 1 windowB, [], ⟨true, 7, 0x3F⟩⟩
    log := { SaveLog.reset with base := 0x80000000#40, size := 0x100000 } }

/-- The same with mark 1 open at level 1. -/
def opened : State :=
  { configured with marks := { idle.marks with state := .opened, stack := [⟨1, 1, 0xAB, 0, 0⟩], nextNumber := 2 } }

/-- A request of requester 2. -/
def request (body : RequestBody) (address length : Nat) : UpstreamRequest :=
  ⟨2, 33, body, BitVec.ofNat 40 address, length⟩

/-- A WRITE of one byte to the first granule of window 0. -/
def write0 : UpstreamRequest := request (.write [0xAA] [true]) 0x10000040 1

def readPass : UpstreamRequest := request .read 0x4000100 8

/-- A WINDOW entry of map index 0, a WRITE under mark number 1. -/
def entry0 (order : Nat) (state : TransitState) : TransitEntry :=
  ⟨order, write0, .window 0 0, some 1, state, false, false⟩

def withEntries (entries : List TransitEntry) (s : State) : State :=
  s.setTransit ⟨entries, entries.length, 24 - entries.length⟩

def withCredits (n : Nat) (s : State) : State := s.setDown { s.down with credits := n }

/-- One write waiting for its save. -/
def waiting : State := (withEntries [entry0 0 .waitSave] opened).setSave { SaveEngine.reset with waiting := [0] }

/-- A context that copies the granule of index 0 for the entry of order 0. -/
def copying (issued acknowledged folded : Nat) (lines : List LineBuffer) : SaveContext where
  state := .copying
  held := 0
  window := 0
  index := 0
  granuleAddress := 0x10000000#40
  granule := .g256
  markNumber := 1
  level := 1
  offset := 0
  sequence := 0
  requester := 2
  linesIssued := issued
  linesAcknowledged := acknowledged
  linesFolded := folded
  lines := lines
  crc := crc32Start
  error := .noError
  headerIssued := false

/-- `opened` with the write of order 0 held by context 0. -/
def saving (x : SaveContext) : State :=
  { withEntries [{ entry0 0 .waitSave with hasContext := true }] opened with
    save := { SaveEngine.reset with contexts := SaveEngine.reset.contexts.set 0 x, allocation := [0] }
    log := { opened.log with tail := 320, nextSequence := 1 } }

/-- A state with tag 0 IN_USE. -/
def issued (origin : TagOrigin) (address timeout : Nat) (s : State) : State :=
  s.setDown { s.down with tags := s.down.tags.set 0 (.inUse ⟨origin, BitVec.ofNat 40 address, 0, timeout⟩) }

def passTag (kind : RequestKind) (length : Nat) : TagOrigin := .passThrough 4 33 kind false length

def line64 (b : Byte) : Line := List.replicate 64 b

/-- An engine on a rollback walk to level 1 over one G256 record at offset 0. -/
def walking (step : RecordStep) : RestoreEngine :=
  { RestoreEngine.reset with
    state := .restoring, targetLevel := 1, lowerMark := 1, lastIssued := 1, upperBound := 320, position := 320
    remaining := 1, step := step, outcome := ⟨1, .command, 0, 0, 0, none, false, none⟩ }

def record0 : CurrentRecord := ⟨0, .g256, .saved, 0, 0x10000000#40, 0, 0⟩

/-- The part on that walk. -/
def rolling (e : RestoreEngine) : State :=
  { inState .rollingBack opened with restore := e, log := { opened.log with tail := 320, nextSequence := 1 } }

/-- A walk that has ended complete at its lower bound. -/
def walkDone : RestoreEngine := { walking .noStep with position := 0, remaining := 0 }

/-- The drain's state for a pending action, its conditions met. -/
def drained (action : PendingAction) (s : State) : State :=
  s.setMarks { s.marks with state := .draining, action := action }

def latched (s : State) : State := s.setMarks { s.marks with latch := true }

def lineRollback (target : Nat) (s : State) : State := s.setMgmt { s.mgmt with lineRollback := ⟨true, target⟩ }

/-- A log check at level 1 over the record of `rolling`, at a record step. -/
def checkingAt (step : RecordStep) (issued : Bool) : State :=
  inState .opened (rolling { walking step with state := .checking, headerIssued := issued })

/-- A check that waits for the slot of context 0, the newest record's. -/
def awaitingSlot (s : State) : State := s.setRestore { walking .waitSlot with state := .checking }

/-- `s` with context 1 busy as well, over the slot that ends at `offset`. -/
def withOther (offset : Nat) (s : State) : State :=
  s.setSave { s.save with
    contexts := s.save.contexts.set 1 { copying 0 0 0 [] with held := 9, offset := offset - 320 }
    allocation := s.save.allocation ++ [1] }

/-- A notice queue of `n` records. -/
def withNotices (n : Nat) (s : State) : State :=
  s.setNotice { s.notice with
    queue := (List.range n).map fun i => ⟨.lateResponse 0, i, 0, 0⟩, nextSequence := n }

/-! ### Check values and periods -/

/-- R54: the check value the manual gives for the CRC-32. -/
theorem test_crc32_check_value : crc32 [0x31, 0x32, 0x33, 0x34, 0x35, 0x36, 0x37, 0x38, 0x39] = 0xCBF43926 := by
  decide +kernel

/-- R174: the check value the manual gives for the CRC-8. -/
theorem test_crc8_check_value : crc8 [0x31, 0x32, 0x33, 0x34, 0x35, 0x36, 0x37, 0x38, 0x39] = 0xF4 := by decide +kernel

/-- The command of a period of whole bytes that began after power-on reset. -/
def decoded (bytes : List Byte) : Instr := decodePeriod ⟨bytes, 0, false⟩

/-- 10.3: the ROLLBACK(2) frame of the example, byte for byte. -/
theorem test_decode_rollback :
    decoded [0x0D, 0x05, 0x01, 0x02, 0x25] = .rollback ⟨5, [0x02], 0, 0, false⟩ := by decide +kernel

/-- 10.3: the same frame with byte 3 corrupted to 0x07. -/
theorem test_decode_corrupted :
    decoded [0x0D, 0x05, 0x01, 0x07, 0x25] = .checkFailedFrame ⟨[0x0D, 0x05, 0x01, 0x07, 0x25], 0, false⟩ := by
  decide +kernel

/-- R171: bytes are sent most significant bit first; of an incomplete byte only the number of bits is kept. -/
theorem test_decode_bits :
    decodePeriodBits ([false, false, false, false, false, false, false, false] ++ [true, true]) false =
      .readPeriod 10 false ∧
    decodePeriodBits [false, true, true] false = .commandFrameCutShort ⟨[], 3, false⟩ := by decide +kernel

/-- R171, R172: each byte goes out most significant bit first, the next bit from each falling edge of SPI_SCK on, and
SPI_MISO is high-impedance once SPI_CS_N is high: periods of no clock, of a byte, and of a byte and three bits. -/
theorem test_miso_bits :
    misoOf [0xA5] 0 = [.high, .highImpedance] ∧
    misoOf [0xA5] 8 = [.high, .low, .high, .low, .low, .high, .low, .high, .low, .highImpedance] ∧
    misoOf [0xA5, 0x50] 11 =
      [.high, .low, .high, .low, .low, .high, .low, .high, .low, .high, .low, .high, .highImpedance] := by decide +kernel

/-- R172, R173: a read period, a period cut short before its length byte, a length byte above 48, and an empty period. -/
theorem test_decode_other_periods :
    decoded [0x00, 0xFF, 0x12] = .readPeriod 24 false ∧
    decoded [0x01, 0x07] = .commandFrameCutShort ⟨[0x01, 0x07], 0, false⟩ ∧
    decoded [0x01, 0x07, 49] = .checkFailedFrame ⟨[0x01, 0x07, 49], 0, false⟩ ∧
    decoded [] = .commandFrameCutShort ⟨[], 0, false⟩ := by decide +kernel

/-- R194, R195: codes and item identifiers of the table, with checks made by the CRC-8 of R174. -/
theorem test_decode_families :
    decoded (frameBytes 0x01 7 [] 0) = .getStatus (frame []) ∧
    decoded (frameBytes 0x04 7 [0x06, 9, 0, 0, 0, 0, 0, 0, 0] 2) =
      .writeConfigPartRequesterId ⟨7, [9, 0, 0, 0, 0, 0, 0, 0], 2, 0, false⟩ ∧
    decoded (frameBytes 0x04 7 [0x0B, 9, 0, 0, 0, 0, 0, 0, 0] 0) =
      .writeConfigUnknownItem (frame [0x0B, 9, 0, 0, 0, 0, 0, 0, 0]) ∧
    decoded (frameBytes 0x07 7 [2] 0) = .enableWindow (frame [2]) ∧
    decoded (frameBytes 0x0A 7 [0xAB, 0, 0, 0] 0) = .openMark (frame [0xAB, 0, 0, 0]) ∧
    decoded (frameBytes 0x10 7 [] 0) = .readNotice (frame []) ∧
    decodePeriod ⟨frameBytes 0x13 7 [] 0, 5, true⟩ = .softReset ⟨7, [], 0, 5, true⟩ ∧
    decoded (frameBytes 0x14 7 [1] 0) = .unknownCommand 0x14 (frame [1]) := by decide +kernel

/-! ### Terms that are not well formed -/

theorem test_refuses_long_request : (Instr.upstreamRequest (request .read 0 65)).wellFormed = false := by decide
theorem test_refuses_write_data : (Instr.upstreamRequest (request (.write [] [true]) 0 1)).wellFormed = false := by decide
theorem test_refuses_write_enables : (Instr.upstreamRequest (request (.write [1] []) 0 1)).wellFormed = false := by decide
theorem test_refuses_long_payload : (Instr.getStatus (frame (List.replicate 49 0))).wellFormed = false := by decide
theorem test_refuses_long_item : (Instr.writeConfigLogBase (frame (List.replicate 48 0))).wellFormed = false := by decide
theorem test_refuses_whole_frame_cut_short :
    (Instr.commandFrameCutShort ⟨[0x0D, 0x05, 0x01, 0x02, 0x25], 0, false⟩).wellFormed = false := by decide
theorem test_refuses_empty_failed_check : (Instr.checkFailedFrame ⟨[], 0, false⟩).wellFormed = false := by decide
theorem test_refuses_read_cut_short : (Instr.commandFrameCutShort ⟨[0x00], 0, false⟩).wellFormed = false := by decide
theorem test_refuses_right_check :
    (Instr.checkFailedFrame ⟨[0x0D, 0x05, 0x01, 0x02, 0x25], 0, false⟩).wellFormed = false := by decide +kernel
theorem test_refuses_empty_read_period : (Instr.readPeriod 7 false).wellFormed = false := by decide
theorem test_refuses_defined_code : (Instr.unknownCommand 0x13 (frame [])).wellFormed = false := by decide
theorem test_refuses_named_item : (Instr.writeConfigUnknownItem (frame [0x05])).wellFormed = false := by decide

/-! ### Values the manual's examples give -/

/-- Chapter 2's table of classes. -/
theorem test_classes :
    configured.classify ⟨5, 0, .read, 0x10000040#40, 8⟩ = .taken (.window 0 0) ∧
    configured.classify (request (.write [] []) 0x10001234 8) = .taken (.window 0 18) ∧
    configured.classify (request (.write [] []) 0x20003000 64) = .taken (.window 1 4099) ∧
    configured.classify (request (.write [] []) 0x20003FF8 16) = .denied .lineCrossing ∧
    configured.classify ⟨7, 0, .read, 0x80000140#40, 64⟩ = .taken .logRead ∧
    configured.classify ⟨7, 0, .write [] [], 0x80000140#40, 4⟩ = .denied .logArea ∧
    configured.classify ⟨9, 0, .read, 0x80000140#40, 4⟩ = .denied .logArea ∧
    configured.classify ⟨5, 0, .read, 0x10100000#40, 4⟩ = .taken .pass := by decide +kernel

/-- Chapter 2: window 2 set three ways and offered to ENABLE_WINDOW; the reply's status. -/
def enabling (w : WindowRecord) : ResponseBuffer :=
  (after (.enableWindow (frame [2]))
    { configured with windows := { configured.windows with records := configured.windows.records.set 2 w } }).mgmt.buffer

theorem test_enable_window :
    enabling ⟨false, 0x10080000#40, 2, 16, 8192, 0, 0⟩ = .forming ⟨7, .refusedOverlap, []⟩ ∧
    enabling ⟨false, 0x30000000#40, 2, 200, 4200, 0, 0⟩ = .forming ⟨7, .refusedOverlap, []⟩ ∧
    enabling ⟨false, 0x30000000#40, 2, 200, 4352, 0, 0⟩ = .forming ⟨7, .ok, []⟩ := by decide +kernel

/-- Chapter 3's example, step 5: 62,400 + 4,160 is more than 65,536 and the write is answered DENIED under REFUSE. -/
theorem test_log_full_refused :
    let s : State := { withEntries [⟨0, request (.write [0] [true]) 0x20000000 1, .window 1 4096, some 1, .waitSave,
        false, false⟩] opened with
      log := { opened.log with size := 65536, policy := .refuse, tail := 62400, nextSequence := 15 }
      save := { SaveEngine.reset with waiting := [0] } }
    (after .saveAllocation s).log.tail = 62400 ∧ (after .saveAllocation s).links.upstream = [⟨2, 33, .denied, none⟩] ∧
      (after .saveAllocation s).notice.counters.requestsDenied = 1 := by decide +kernel

/-- Chapter 4's G256 example, its first step with the slot at offset 320: context 0, tail 640, next sequence 2. -/
theorem test_save_allocated :
    let s := after .saveAllocation { waiting with log := { waiting.log with tail := 320, nextSequence := 1 } };
    (s.context? 0).map (fun x => (x.offset, x.sequence, x.granuleAddress)) = some (320, 1, 0x10000000#40) ∧
      s.log.tail = 640 ∧ s.log.nextSequence = 2 := by decide +kernel

/-- Chapter 4's G256 example: line 2's data goes to LOG_BASE + 448. -/
theorem test_save_data_write_address :
    ((after .arbiterGrant (withCredits 1 (saving { copying 4 0 0 [⟨2, some (line64 0), .notIssued, false⟩] with
      offset := 320 }))).links.downstream.map (·.address)) = [0x800001C0#40] := by decide +kernel

/-- Chapter 6's timeout example: tag 0's READ of requester 4, tag 33, times out at 1,000 µs. -/
theorem test_tag_timeout :
    let s := after (.tagTimeout 0) { issued (passTag .read 8) 0x4000100 1000 idle with now := 1000 };
    s.links.upstream = [⟨4, 33, .memError, none⟩] ∧
      s.notice.queue.map (·.kind) = [.responseTimeout .passThrough 0x4000100#40] ∧
      s.notice.counters.responsesTimedOut = 1 := by decide +kernel

/-- Chapter 8's example: with NOTICE_TRIGGER 4 the fourth record asserts NOTICE_N, after sequence 65,535 comes 0. -/
theorem test_notice_trigger_and_wrap :
    let s := (withNotices 3 idle).setMgmt { idle.mgmt with noticeTrigger := 4 };
    (takePost s (.lateResponse 1) 0).notice.asserted = true ∧
    (takePost (s.setNotice { s.notice with nextSequence := 65535 }) (.lateResponse 1) 0).notice.nextSequence = 0 := by
  decide +kernel

/-- 10.3: the reply to ROLLBACK(2) read back, and the refusal of k = 7. -/
theorem test_rollback_reply :
    let s : State := { opened with marks := { opened.marks with
      stack := [⟨1, 1, 0, 0, 0⟩, ⟨2, 2, 0, 0, 0⟩, ⟨3, 3, 0, 0, 0⟩], nextNumber := 4 } };
    (after (.readPeriod 42 false) (after .replyReady (after (.rollback ⟨5, [2], 0, 0, false⟩) s))).pins.miso =
      misoOf [0xA5, 0x05, 0x01, 0x00, 0xD5] 42 ∧
    (after (.rollback ⟨5, [7], 0, 0, false⟩) s).mgmt.buffer = .forming ⟨5, .refusedRange, []⟩ := by decide +kernel

/-- 10.4: READ_CONFIG before any write. -/
theorem test_read_config_reset :
    idle.configPayload = List.replicate 40 0 ++ leBytes 8 63 ++ leBytes 8 1000 ++ leBytes 8 1 ++ leBytes 8 0 ++
      [0, 1, 0, 0, 0, 0, 0, 0] := by decide +kernel

/-! ### Witnesses

One theorem per statement with hypotheses: concrete states and operands that meet the hypotheses of each clause, at the
boundary where the clause has one. Hypotheses that only give a name to a state or a function are met by that state or
function and are not repeated. -/

theorem witness_TimePassesOnlyWhenIdle :
    exec .replyReady idle = .next idle ∧ State.reset.pending = [] := ⟨rfl, rfl⟩

def heldInReset : State := after .powerOnReset opened

theorem witness_PowerOnResetHoldsThePart :
    heldInReset.pins.resetLow = true ∧ Instr.arbiterGrant ≠ .powerOnReset ∧ Instr.arbiterGrant ≠ .powerOnResetEnd ∧
      Instr.arbiterGrant ≠ .rollbackReqRisingEdge ∧ Instr.arbiterGrant ≠ .rollbackReqFallingEdge := by decide +kernel

theorem witness_PeriodsDecodeToTheirCommands :
    (Instr.rollback ⟨5, [2], 0, 0, false⟩).wellFormed = true ∧
    encodePeriod (.rollback ⟨5, [2], 0, 0, false⟩) = some ⟨[0x0D, 0x05, 0x01, 0x02, 0x25], 0, false⟩ ∧
    (Instr.setWindow ⟨5, List.replicate 48 1, 3, 7, true⟩).wellFormed = true ∧
    (encodePeriod (.setWindow ⟨5, List.replicate 48 1, 3, 7, true⟩)).isSome = true ∧
    (Instr.readPeriod 8 false).wellFormed = true ∧
    encodePeriod (.readPeriod 15 true) = some ⟨[0], 7, true⟩ ∧
    [true, false, true].length = (3 : Fin 8).val ∧ (Instr.commandFrameCutShort ⟨[], 3, false⟩).wellFormed = true ∧
    encodePeriod (.commandFrameCutShort ⟨[], 3, false⟩) = some ⟨[], 3, false⟩ := by decide +kernel

theorem witness_ResetEndAndSweepComplete :
    (heldInReset.pins.resetLow = true ∧ heldInReset.marks.state = .starting) ∧
    (Running State.reset ∧ State.reset.marks.state = .starting) := by
  unfold Running; decide +kernel

theorem witness_RollbackReqEdges :
    (Running State.reset ∧ ¬ Ready State.reset) ∧
    (Running (after .rollbackReqRisingEdge idle) ∧ (after .rollbackReqRisingEdge idle).pins.rollbackReq = true) ∧
    (Running idle ∧ Ready idle ∧ idle.pins.rollbackReq = false ∧ idle.mgmt.lineRollback.enable = false) ∧
    (∀ s ∈ [lineRollback 1 idle, lineRollback 1 (inState .broken idle), lineRollback 2 opened, lineRollback 1 opened,
        lineRollback 1 (inState .draining opened), lineRollback 1 (inState .rollingBack opened)],
      Running s ∧ Ready s ∧ s.pins.rollbackReq = false ∧ s.mgmt.lineRollback.enable = true) ∧
    (lineRollback 1 idle).marks.state = .idle ∧ (lineRollback 1 (inState .broken idle)).marks.state = .broken ∧
    ((lineRollback 2 opened).marks.state = .opened ∧
      (lineRollback 2 opened).level < (lineRollback 2 opened).mgmt.lineRollback.target) ∧
    ((lineRollback 1 opened).marks.state = .opened ∧
      (lineRollback 1 opened).mgmt.lineRollback.target ≤ (lineRollback 1 opened).level ∧
      (lineRollback 1 opened).restore.state ≠ .checking) ∧
    (lineRollback 1 (inState .draining opened)).marks.state = .draining ∧
    (lineRollback 1 (inState .rollingBack opened)).marks.state = .rollingBack ∧
    (∀ s ∈ [lineRollback 1 (checkingAt .header false), lineRollback 1 (checkingAt .header true)],
      Running s ∧ Ready s ∧ s.pins.rollbackReq = false ∧ s.mgmt.lineRollback.enable = true ∧ s.marks.state = .opened ∧
        s.mgmt.lineRollback.target ≤ s.level ∧ s.restore.state = .checking ∧ s.restore.endRequest = .noRequest) ∧
    EndsAtOnce (checkingAt .header false).restore ∧ GoesOn (checkingAt .header true).restore := by
  unfold Running Ready EndsAtOnce GoesOn; decide +kernel

theorem witness_NoticePostAcceptedOrDropped :
    (withNotices 31 idle).notice.queue.length < 32 ∧ 32 ≤ (withNotices 32 idle).notice.queue.length := by
  decide +kernel

theorem witness_SoftResetEntersResetting :
    (∀ s ∈ [idle, rolling (walking .noStep), rolling (walking .header),
        rolling { walking .header with headerIssued := true }, rolling (walking .data), rolling (walking .writeBack),
        checkingAt .noStep false, checkingAt .waitSlot false, checkingAt .header false, checkingAt .header true,
        checkingAt .data true], Delivered s (frame []) 0) ∧
    idle.restore.state = .idle ∧
    (∀ s ∈ [rolling (walking .noStep), rolling (walking .header)],
      s.restore.state = .restoring ∧ EndsAtOnce s.restore) ∧
    (∀ s ∈ [rolling { walking .header with headerIssued := true }, rolling (walking .data), rolling (walking .writeBack)],
      s.restore.state = .restoring ∧ GoesOn s.restore) ∧
    (∀ s ∈ [checkingAt .noStep false, checkingAt .waitSlot false, checkingAt .header false],
      s.restore.state = .checking ∧ EndsAtOnce s.restore) ∧
    (∀ s ∈ [checkingAt .header true, checkingAt .data true], s.restore.state = .checking ∧ GoesOn s.restore) := by
  unfold Delivered Running Ready EndsAtOnce GoesOn; decide +kernel

/-- RESETTING with a stopped walk's offset handed over, and without. -/
def resettingWith (p : Option Nat) : State :=
  (inState .resetting idle).setMgmt { idle.mgmt with resetPhase := .engines, stoppedWalk := p }

theorem witness_QuiesceCompletesWithResetStep :
    (∀ s ∈ [resettingWith none, resettingWith (some 640),
        inState .resetting (withEntries [entry0 0 .waitSave, entry0 1 .waitMark, entry0 2 .waitOrder] opened),
        inState .resetting (withEntries [entry0 0 .waitMark, entry0 1 .waitMark] opened)],
      Running s ∧ s.marks.state = .resetting ∧ s.transit.entries.Pairwise (fun a b => a.order < b.order) ∧
        (∀ c, s.context? c = none) ∧ s.restore.state = .idle) ∧
    (resettingWith (some 640)).mgmt.stoppedWalk = some 640 ∧ (resettingWith none).mgmt.stoppedWalk = none ∧
    (let s := inState .resetting (saving (copying 0 0 0 []));
      Running s ∧ s.marks.state = .resetting ∧ s.transit.entries.Pairwise (fun a b => a.order < b.order) ∧
        s.context? 0 ≠ none) ∧
    (let s := inState .resetting (rolling (walking .data));
      Running s ∧ s.marks.state = .resetting ∧ s.transit.entries.Pairwise (fun a b => a.order < b.order) ∧
        s.restore.state ≠ .idle) := by
  unfold Running; decide +kernel

/-- R35's tests at their edges: the ends of the line, of the log area and of window 0. -/
theorem witness_ClassificationByFirstTest :
    (64 < (request .read 0x10000041 64).address.toNat % 64 + (request .read 0x10000041 64).length) ∧
    (request .read 0x10000040 0).length = 0 ∧
    (∀ a ∈ [0x80000000, 0x800FFFC0], ∀ r ∈ [request .read a 64, ⟨7, 0, .read, BitVec.ofNat 40 a, 64⟩],
      r.address.toNat % 64 + r.length ≤ 64 ∧ 1 ≤ r.length ∧ configured.log.size ≠ 0 ∧
      configured.log.base.toNat ≤ r.address.toNat ∧
      r.address.toNat < configured.log.base.toNat + configured.log.size) ∧
    (configured.windows.reader.enable = true ∧
      (7 : RequesterId) &&& configured.windows.reader.reqMask =
        configured.windows.reader.reqMatch &&& configured.windows.reader.reqMask ∧
      (2 : RequesterId) &&& configured.windows.reader.reqMask ≠
        configured.windows.reader.reqMatch &&& configured.windows.reader.reqMask) ∧
    (∀ a ∈ [0x10000000, 0x100FFFC0],
      a < configured.log.base.toNat ∧ (configured.window 0).enabled = true ∧
      Granule.ofCode (configured.window 0).code = some .g256 ∧ (configured.window 0).base.toNat ≤ a ∧
      a < (configured.window 0).base.toNat + (configured.window 0).count * Granule.g256.bytes ∧
      (2 : RequesterId) &&& (configured.window 0).reqMask =
        (configured.window 0).reqMatch &&& (configured.window 0).reqMask ∧
      ∀ v, v ≠ 0 → configured.hits v (request .read a 64) = false) ∧
    (configured.log.base.toNat + configured.log.size ≤ 0x80100000 ∧
      ∀ w, configured.hits w (request .read 0x80100000 64) = false) := by decide +kernel

theorem witness_DeniedAndPassRequests :
    (let s := withEntries ((List.range 24).map fun o => entry0 o .waitOrder) opened;
      Running s ∧ 24 ≤ s.transit.entries.length) ∧
    (let s := withEntries ((List.range 23).map fun o => entry0 o .waitOrder) opened;
      Running s ∧ s.transit.entries.length < 24 ∧ s.classify (request .read 0x10000041 64) = .denied .lineCrossing ∧
      s.classify (request .read 0x80000000 64) = .denied .logArea ∧ s.classify readPass = .taken .pass ∧
      s.classify ⟨7, 0, .read, 0x80000000#40, 64⟩ = .taken .logRead) := by
  unfold Running; decide +kernel

/-- A request for the first granule of window 0 finds `s`. -/
def FindsWindow0 (s : State) (r : UpstreamRequest) : Prop :=
  Running s ∧ s.transit.entries.length < 24 ∧ s.classify r = .taken (.window 0 0) ∧
    ∀ e ∈ s.transit.entries, e.order < s.transit.nextOrder

/-- The map entry of index 0 set to 1, the current mark number. -/
def savedUnder1 (s : State) : State := s.setWindows { s.windows with map := [(0, 1)] }

theorem witness_WindowRequestTransitState :
    (∀ x ∈ [ControllerState.draining, .rollingBack], FindsWindow0 (inState x opened) write0) ∧
    (FindsWindow0 (inState .resetting (rolling (walking .data))) write0 ∧
      (inState .resetting (rolling (walking .data))).restore.state = .restoring) ∧
    (FindsWindow0 (withEntries [entry0 0 .waitSave] opened) write0 ∧ (entry0 0 .waitSave).index? = some 0) ∧
    (FindsWindow0 opened write0 ∧ opened.transit.entries = [] ∧ write0.kind ≠ .read ∧ opened.currentMark = some 1 ∧
      mapRead opened.windows.map 0 < 1) ∧
    (FindsWindow0 opened (request .read 0x10000000 64) ∧ (request .read 0x10000000 64).kind = .read) ∧
    (FindsWindow0 (savedUnder1 opened) write0 ∧ 1 ≤ mapRead (savedUnder1 opened).windows.map 0) ∧
    (FindsWindow0 configured write0 ∧ configured.marks.state ≠ .opened) := by
  unfold FindsWindow0 Running; decide +kernel

/-- What SAVE_ALLOCATION finds in these states. -/
def Allocates (s : State) : Prop :=
  Running s ∧ s.save.fullBar = false ∧ s.save.waiting = [0] ∧ s.entry? 0 = some (entry0 0 .waitSave) ∧
    (entry0 0 .waitSave).cls = .window 0 0 ∧ (entry0 0 .waitSave).markNumber = some 1 ∧
    Granule.ofCode (s.window 0).code = some .g256 ∧ s.context? 0 = none

def withLog (size tail threshold : Nat) (policy : FullPolicy) (s : State) : State :=
  s.setLog { s.log with size := size, tail := tail, threshold := threshold, policy := policy }

theorem witness_SaveAllocationGranted :
    (∀ s ∈ [withLog 640 320 640 .breakMarks waiting, withLog 640 320 0 .breakMarks waiting,
        withLog 640 320 0 .breakMarks (inState .draining waiting)],
      Allocates s ∧ (∀ d, d < (0 : ContextNo) → s.context? d ≠ none) ∧
        s.log.tail + (Granule.g256.bytes + 64) ≤ s.log.size) ∧
    waiting.marks.state = .opened ∧
    (let s := withLog 640 320 640 .breakMarks waiting;
      s.log.threshold ≠ 0 ∧ s.log.tail < s.log.threshold ∧
        s.log.threshold ≤ s.log.tail + (Granule.g256.bytes + 64) ∧ s.log.crossed = false) ∧
    (withLog 640 320 0 .breakMarks waiting).log.threshold = 0 := by
  unfold Allocates Running; decide +kernel

theorem witness_LogFullRefusesTheWrite :
    (let s := withLog 639 320 0 .refuse waiting;
      Allocates s ∧ s.marks.state = .opened ∧ s.log.size < s.log.tail + (Granule.g256.bytes + 64) ∧
        s.log.policy = .refuse) ∧
    (let s := inState .draining (withLog 639 320 0 .refuse waiting);
      Allocates s ∧ s.marks.state = .draining) := by
  unfold Allocates Running; decide +kernel

/-- OPEN without a check, with one that ends and one that goes on; DRAINING with a latched request. -/
theorem witness_LogFullBreaksTheMarks :
    ∀ s ∈ [waiting, waiting.setRestore (checkingAt .header false).restore,
        waiting.setRestore (checkingAt .header true).restore, latched (drained (.rollback 1 .command) waiting)],
      let s := withLog 639 320 0 .breakMarks s;
      Allocates s ∧ (s.marks.state = .opened ∨ s.marks.state = .draining) ∧
        s.log.size < s.log.tail + (Granule.g256.bytes + 64) ∧ s.log.policy = .breakMarks := by
  unfold Allocates Running; decide +kernel

/-- A state in which every source has an offer: a FORWARDABLE entry, a context with a read to issue and a walk with a
header read to issue. -/
def allOffer : State :=
  { (saving (copying 0 0 0 [])) with
    transit := ⟨[⟨0, readPass, .pass, none, .forwardable, false, false⟩], 1, 23⟩
    restore := walking .header
    down := { DownstreamPort.reset with credits := 1 } }

theorem witness_ArbiterServesAndWaits :
    (∀ x, State.reset.canServe x = false) ∧
    (Running allOffer ∧ allOffer.canServe .passThrough = true ∧ allOffer.canServe .save = true ∧
      allOffer.canServe .restore = true ∧ allOffer.down.rotation = .passThrough :: [.save, .restore] ∧
      Source.passThrough ∉ [Source.save, .restore]) := by
  refine ⟨fun x => by cases x <;> decide +kernel, ?_⟩
  unfold Running; decide +kernel

/-- A grant to the source at the top of the rotation, under tag 0. -/
theorem grant_of_top {s : State} {x : Source} {rest : List Source} (h : Running s) (c : 1 ≤ s.down.credits)
    (f : s.tag 0 = .free) (n : s.down.rotation.Nodup) (r : s.down.rotation = x :: rest) :
    GrantGoesTo s x 0 rest :=
  ⟨h, c, f, fun u hu => absurd hu (by simp), n, [], rest, r, rfl, fun _ hx => absurd hx (by simp)⟩

theorem witness_GrantIssuesPassThrough :
    GrantGoesTo allOffer .passThrough 0 [.save, .restore] ∧ allOffer.passThroughCount < 56 ∧
      allOffer.transit.entries = [] ++ ⟨0, readPass, .pass, none, .forwardable, false, false⟩ :: [] :=
  ⟨grant_of_top rfl (by decide) (by decide) (by decide) rfl, by decide +kernel, rfl⟩

theorem witness_LeavingEntryPassesItsTurn :
    (allOffer.transit.entries.Pairwise (fun a b => a.order < b.order) ∧ allOffer.transit.entries.length = 1 ∧
      allOffer.transit.entries.all (fun e => e.index? = none) = true) ∧
    (∀ s ∈ [withEntries [entry0 0 .forwardable, entry0 1 .waitOrder] opened,
        withEntries [entry0 0 .forwardable, entry0 1 .waitOrder] (savedUnder1 opened),
        withEntries [entry0 0 .forwardable, entry0 1 .waitMark] opened],
      s.transit.entries.Pairwise (fun a b => a.order < b.order)) ∧
    (entry0 0 .forwardable).index? = some 0 ∧ (entry0 1 .waitOrder).index? = some 0 ∧
    (entry0 1 .waitMark).state ≠ .waitOrder ∧
    ((entry0 1 .waitOrder).state = .waitOrder ∧ (entry0 1 .waitOrder).request.kind ≠ .read ∧
      (entry0 1 .waitOrder).markNumber = some 1 ∧ mapRead opened.windows.map 0 < 1 ∧
      opened.marks.state ≠ .broken ∧ opened.marks.state ≠ .resetting) ∧
    1 ≤ mapRead (savedUnder1 opened).windows.map 0 := by decide +kernel

/-- A state that gives its grants to the save engine. -/
def servesSave (x : SaveContext) : State :=
  (saving x).setDown { DownstreamPort.reset with credits := 1, rotation := [.save, .restore, .passThrough] }

theorem servesSave_grant (x : SaveContext) : GrantGoesTo (servesSave x) .save 0 [.restore, .passThrough] :=
  grant_of_top rfl (Nat.le_refl 1) (by show (Vector.replicate 64 TagEntry.free)[(0 : TagNo)] = .free; decide)
    (by show [Source.save, .restore, .passThrough].Nodup; decide) rfl

def finishing : SaveContext := { copying 4 4 4 [] with state := .finishing }
def voiding : SaveContext := { copying 1 0 0 [] with state := .voiding, error := .readTimeout }

theorem witness_GrantIssuesSaveStep :
    (∀ x, GrantGoesTo (servesSave x) .save 0 [.restore, .passThrough]) ∧
    (∀ x ∈ [copying 4 0 0 [⟨2, some (line64 0), .notIssued, false⟩], copying 0 0 0 [], finishing, voiding],
      (servesSave x).save.allocation = [] ++ 0 :: [] ∧ (servesSave x).context? 0 = some x) ∧
    ((copying 3 0 0 [⟨0, none, .notIssued, false⟩, ⟨1, none, .notIssued, false⟩, ⟨2, none, .notIssued, false⟩]).lines.all
        (fun b => b.data = none || b.write ≠ .notIssued) = true ∧
      (copying 3 0 0 []).linesIssued < (copying 3 0 0 []).granule.bytes / 64) ∧
    (finishing.state = .finishing ∧ finishing.error = .noError ∧ finishing.headerIssued = false) ∧
    (voiding.state = .voiding ∧ voiding.error ∈ [ErrorKind.readError, .readTimeout] ∧ voiding.headerIssued = false) :=
  ⟨servesSave_grant, by decide +kernel, by decide +kernel, by decide +kernel, by decide +kernel⟩

/-- A state that gives its grants to the restore engine. -/
def servesRestore (e : RestoreEngine) : State :=
  (rolling e).setDown { DownstreamPort.reset with credits := 1, rotation := [.restore, .passThrough, .save] }

def walkingData : RestoreEngine := { walking .data with current := some record0, linesIssued := 3, outstanding := 3 }

def walkingBack : RestoreEngine :=
  { walking .writeBack with current := some record0, linesIssued := 3, outstanding := 3, buffer := [(3, line64 0)] }

theorem witness_GrantIssuesRestoreStep :
    (∀ e, GrantGoesTo (servesRestore e) .restore 0 [.passThrough, .save]) ∧
    (∀ e ∈ [walking .header, walkingData, walkingBack], e.state ≠ .idle ∧ e.outstanding < 4 ∧ e.recordFailed = false) ∧
    ((walking .header).step = .header ∧ (walking .header).headerIssued = false) ∧
    (walkingData.step = .data ∧ walkingData.current = some record0 ∧
      walkingData.linesIssued < record0.granule.bytes / 64) ∧
    (walkingBack.step = .writeBack ∧ walkingBack.current = some record0 ∧
      walkingBack.linesIssued < record0.granule.bytes / 64 ∧ walkingBack.buffer.lookup 3 = some (line64 0)) := by
  refine ⟨fun e => grant_of_top rfl (Nat.le_refl 1) ?_ ?_ rfl, by decide +kernel, by decide +kernel,
    by decide +kernel, by decide +kernel⟩
  · show (Vector.replicate 64 TagEntry.free)[(0 : TagNo)] = .free
    decide
  · show [Source.restore, .passThrough, .save].Nodup
    decide

/-- Tag 0 STALE with timeout 1,000 from time 0, at time `now`. -/
def staleAt (now : Nat) : State :=
  { idle with
    now := now
    down := { DownstreamPort.reset with
      tags := DownstreamPort.reset.tags.set 0 (.stale ⟨passTag .read 8, 0x4000100#40, 0, 1000⟩) } }

theorem witness_CreditReturnAndStaleExpiry :
    (Running (withCredits 254 idle) ∧ (withCredits 254 idle).down.credits < 255) ∧
    (Running (withCredits 255 idle) ∧ 255 ≤ (withCredits 255 idle).down.credits) ∧
    (Running (staleAt 4000) ∧ (staleAt 4000).tag 0 = .stale ⟨passTag .read 8, 0x4000100#40, 0, 1000⟩ ∧
      4 * 1000 ≤ (staleAt 4000).now - 0) ∧
    (Running (staleAt 3999) ∧ (staleAt 3999).tag 0 = .stale ⟨passTag .read 8, 0x4000100#40, 0, 1000⟩ ∧
      (staleAt 3999).now - 0 < 4 * 1000) := by
  unfold Running; decide +kernel

theorem witness_PassThroughResponseAnswered :
    (∀ kind ∈ [RequestKind.read, .write, .atomic], Running (issued (passTag kind 8) 0 0 idle) ∧
      (issued (passTag kind 8) 0 0 idle).tag 0 = .inUse ⟨passTag kind 8, 0, 0, 0⟩) ∧
    8 ≤ (line64 0).length ∧ ([] : List Byte).length ≤ 8 := by
  unfold Running; decide +kernel

theorem witness_LateAndStrayResponses :
    (Running (staleAt 0) ∧ (staleAt 0).tag 0 = .stale ⟨passTag .read 8, 0x4000100#40, 0, 1000⟩) ∧
    (Running (staleAt 0) ∧ (staleAt 0).tag 63 = .free) := by
  unfold Running; decide +kernel

/-- A context in COPYING with its request of one step under tag 0. -/
def copyingFor (step : SaveStep) (x : SaveContext) : State := issued (.save 0 step) 0 0 (saving x)

def emptyLine (j : Nat) : LineBuffer := ⟨j, none, .notIssued, false⟩

/-- `s` with another request of context 0 under tag 1. -/
def alsoReading (s : State) : State :=
  s.setDown { s.down with tags := s.down.tags.set 1 (.inUse ⟨.save 0 (.granuleRead 1), 0, 0, 0⟩) }

/-- The step of tag 0's request times out now. -/
def timingOut (origin : TagOrigin) (s : State) : State := { issued origin 0 1000 s with now := 1000 }

theorem witness_TagTimeouts :
    (∀ origin ∈ [passTag .read 8, .save 0 (.granuleRead 0), .save 0 (.dataWrite 0), .save 0 .headerWrite,
        .restore .headerRead],
      (timingOut origin idle).tag 0 = .inUse ⟨origin, 0, 0, 1000⟩ ∧ 1000 ≤ (timingOut origin idle).now - 0) ∧
    (let s : State := { issued (passTag .read 8) 0x4000100 1000 idle with now := 999 };
      Running s ∧ s.tag 0 = .inUse ⟨passTag .read 8, 0x4000100, 0, 1000⟩ ∧ s.now - 0 < 1000) ∧
    (let s := issued (passTag .read 8) 0x4000100 0 idle;
      Running s ∧ s.tag 0 = .inUse ⟨passTag .read 8, 0x4000100, 0, 0⟩) ∧
    (let x := copying 2 0 0 [emptyLine 0, emptyLine 1];
      let s := timingOut (.save 0 (.granuleRead 0)) (saving x);
      Running s ∧ s.context? 0 = some x ∧ x.state = .copying ∧ x.error = .noError ∧
        (∀ u, u ≠ 0 → (s.tag u).outstandingFor 0 = false) ∧ ((alsoReading s).tag 1).outstandingFor 0 = true) ∧
    (∀ x ∈ [ControllerState.opened, .draining, .broken, .resetting],
      let s := inState x (timingOut (.save 0 .headerWrite) (saving finishing));
      Running s ∧ s.context? 0 = some finishing ∧ finishing.error = .noError ∧ s.restore.state = .idle ∧
        s.marks.state = x ∧ (∀ d, d ≠ 0 → s.context? d = none) ∧ (withOther 640 s).context? 1 ≠ none ∧
        (∀ u, u ≠ 0 → (s.tag u).outstandingFor 0 = false) ∧ ((alsoReading s).tag 1).outstandingFor 0 = true) ∧
    (∀ e ∈ [ErrorKind.readError, .readTimeout, .writeError, .writeTimeout], ∀ step ∈ [SaveStep.granuleRead 0, .dataWrite 0],
      let x := { copying 2 0 0 [emptyLine 0, emptyLine 1] with error := e };
      let s := timingOut (.save 0 step) (saving x);
      s.tag 0 = .inUse ⟨.save 0 step, 0, 0, 1000⟩ ∧ s.context? 0 = some x ∧ s.restore.state ≠ .checking) ∧
    (let s := awaitingSlot (timingOut (.save 0 .headerWrite) (saving finishing));
      s.marks.state = .opened ∧ s.restore.state = .checking ∧ s.restore.step = .waitSlot ∧
        s.restore.endRequest = .noRequest ∧ finishing.offset + (finishing.granule.bytes + 64) = s.restore.position) ∧
    (∀ request ∈ [EndRequest.noRequest, .stop, .abandon, .abandonSilent],
      let s := timingOut (.restore .headerRead) (rolling { walking .header with
        headerIssued := true, outstanding := 1, endRequest := request });
      Running s ∧ s.restore.state ≠ .idle ∧ s.restore.step = .header ∧ s.restore.endRequest = request) ∧
    (∀ outstanding ∈ [1, 2], let s := timingOut (.restore (.dataRead 3)) (rolling { walking .data with
        current := some record0, linesIssued := 4, outstanding := outstanding });
      s.restore.step = .data ∧ s.restore.current = some record0 ∧ s.restore.outstanding = outstanding) := by
  unfold Running; decide +kernel

/-- Line 1's data arrived before line 0's: its write not issued, and acknowledged. -/
def aheadOf (write : WriteProgress) : LineBuffer := ⟨1, some (line64 1), write, false⟩

theorem witness_SaveContextProgress :
    (∀ p ∈ [(SaveStep.granuleRead 0, copying 2 0 0 [emptyLine 0, emptyLine 1]),
        (.granuleRead 1, copying 2 0 0 [emptyLine 0, emptyLine 1]),
        (.granuleRead 0, copying 3 0 0 [emptyLine 0, aheadOf .notIssued, emptyLine 2]),
        (.granuleRead 0, copying 4 1 0 [emptyLine 0, aheadOf .acknowledged]),
        (.dataWrite 3, copying 4 3 4 [⟨3, some (line64 0), .issued, true⟩]),
        (.dataWrite 1, copying 4 2 1 [emptyLine 0, ⟨1, some (line64 0), .issued, false⟩]),
        (.granuleRead 0, copying 1 0 0 [emptyLine 0])],
      let s := copyingFor p.1 p.2;
      Running s ∧ s.tag 0 = .inUse ⟨.save 0 p.1, 0, 0, 0⟩ ∧ s.context? 0 = some p.2 ∧ p.2.state = .copying ∧
        p.2.error = .noError ∧ (p.2.lines.map (·.line)).Nodup ∧
        (∀ b ∈ p.2.lines, b.write = .acknowledged → b.folded = false) ∧
        (∀ u, u ≠ 0 → (s.tag u).outstandingFor 0 = false) ∧ ((alsoReading s).tag 1).outstandingFor 0 = true) ∧
    ((copying 2 0 0 []).linesFolded = 0 ∧ (emptyLine 1).line = 0 + 1 + ([] : List LineBuffer).length ∧
      (emptyLine 1).data = none) ∧
    (∀ b ∈ [aheadOf .notIssued, aheadOf .acknowledged], [b][0]? = some b ∧ b.line = 0 + 1 + 0 ∧ b.data ≠ none ∧
      b.folded = false) ∧
    ((copying 2 0 0 []).linesFolded < 1 ∧ (emptyLine 0).data = none) ∧
    ((copying 4 3 4 []).linesAcknowledged + 1 = (copying 4 3 4 []).granule.bytes / 64 ∧
      (copying 4 2 1 []).linesAcknowledged + 1 ≠ (copying 4 2 1 []).granule.bytes / 64) ∧
    (∀ e ∈ [ErrorKind.readError, .readTimeout],
      (copyingFor (.granuleRead 0) { copying 2 0 0 [emptyLine 0] with error := e }).context? 0 =
        some { copying 2 0 0 [emptyLine 0] with error := e }) ∧ (line64 0).length = 64 ∧
    (∀ e ∈ [ErrorKind.readError, .readTimeout], ∀ f ∈ [true, false],
      let x := { copying 2 0 0 [emptyLine 0, ⟨1, some (line64 0), .issued, f⟩] with error := e };
      let s := copyingFor (.dataWrite 1) x;
      Running s ∧ s.tag 0 = .inUse ⟨.save 0 (.dataWrite 1), 0, 0, 0⟩ ∧ s.context? 0 = some x ∧ x.state = .copying ∧
        (∀ u, u ≠ 0 → (s.tag u).outstandingFor 0 = false)) := by
  unfold Running; decide +kernel

theorem witness_AcknowledgedHeaderEndsTheSave :
    (∀ p ∈ [(ControllerState.opened, finishing), (.opened, voiding), (.draining, voiding), (.broken, voiding),
        (.resetting, voiding), (.resetting, finishing)],
      let s := inState p.1 (copyingFor .headerWrite p.2);
      Running s ∧ s.tag 0 = .inUse ⟨.save 0 .headerWrite, 0, 0, 0⟩ ∧ s.context? 0 = some p.2 ∧
        s.restore.state ≠ .checking ∧ s.marks.state = p.1 ∧
        s.entry? p.2.held = some { entry0 0 .waitSave with hasContext := true }) ∧
    (finishing.state = .finishing ∧ finishing.error = .noError) ∧
    (voiding.state = .voiding ∧ voiding.error = .readTimeout) ∧
    (let s := awaitingSlot (copyingFor .headerWrite finishing);
      Running s ∧ s.tag 0 = .inUse ⟨.save 0 .headerWrite, 0, 0, 0⟩ ∧ s.context? 0 = some finishing ∧
        s.restore.state = .checking ∧ s.restore.step = .waitSlot ∧ (∀ d, d ≠ 0 → s.context? d = none) ∧
        ((withOther 320 s).context? 1).map (·.offset + (Granule.g256.bytes + 64)) = some s.restore.position) := by
  unfold Running; decide +kernel

/-- R148, R75: a check whose abandon request comes behind the FREE report of the context it waits for goes on to the slot's
header when the context's last request ends, under its end request; before that it waits. -/
theorem test_free_report_first :
    let waits := (inState .broken (awaitingSlot (copyingFor (.dataWrite 0)
      { copying 4 0 0 [] with error := .writeError }))).updateEngine fun e => { e with endRequest := .abandon };
    ((after (.downstreamResponse 0 .ok none) waits).restore.step = .header ∧
      (after (.downstreamResponse 0 .ok none) waits).restore.endRequest = .abandon) ∧
    (after (.downstreamResponse 0 .ok none) (alsoReading waits)).restore.step = .waitSlot := by decide +kernel

theorem witness_LogWriteErrorBreaksTheMarks :
    (∀ x ∈ [ControllerState.opened, .draining, .broken, .resetting],
      let s := inState x (copyingFor .headerWrite finishing);
      Running s ∧ s.tag 0 = .inUse ⟨.save 0 .headerWrite, 0, 0, 0⟩ ∧ s.context? 0 = some finishing ∧
        s.restore.state ≠ .checking ∧ s.marks.state = x ∧ ∀ u, u ≠ 0 → (s.tag u).outstandingFor 0 = false) ∧
    finishing.error ∈ [ErrorKind.noError, .readError, .readTimeout] ∧
    (let x := copying 4 0 0 [⟨0, some (line64 0), .issued, true⟩, emptyLine 1];
      let s := alsoReading (copyingFor (.dataWrite 0) x);
      Running s ∧ s.tag 0 = .inUse ⟨.save 0 (.dataWrite 0), 0, 0, 0⟩ ∧ s.context? 0 = some x ∧
        (s.tag 1).outstandingFor 0 = true) ∧
    (let s := awaitingSlot (copyingFor .headerWrite finishing);
      s.marks.state = .opened ∧ s.restore.state = .checking ∧ s.restore.step = .waitSlot ∧
        s.restore.endRequest = .noRequest ∧ finishing.offset + (finishing.granule.bytes + 64) = s.restore.position ∧
        (∀ d, d ≠ 0 → s.context? d = none) ∧ 960 + (Granule.g256.bytes + 64) ≠ s.restore.position) ∧
    (let x := copying 4 0 0 [⟨0, some (line64 0), .issued, true⟩, emptyLine 1];
      let s := awaitingSlot (alsoReading (copyingFor (.dataWrite 0) x));
      s.restore.state = .checking ∧ s.restore.step = .waitSlot ∧ s.restore.endRequest = .noRequest ∧
        x.offset + (x.granule.bytes + 64) = s.restore.position ∧ (s.tag 1).outstandingFor 0 = true ∧
        (s.updateEngine fun e => { e with endRequest := .abandon }).restore.endRequest ≠ .noRequest) ∧
    (∀ e ∈ [ErrorKind.writeError, .writeTimeout],
      let s := inState .broken (copyingFor (.dataWrite 0) { copying 4 0 0 [emptyLine 1] with error := e });
      Running s ∧ s.tag 0 = .inUse ⟨.save 0 (.dataWrite 0), 0, 0, 0⟩ ∧
        s.context? 0 = some { copying 4 0 0 [emptyLine 1] with error := e } ∧ s.restore.state ≠ .checking) := by
  unfold Running; decide +kernel

/-- The walk of `rolling` with its header read under tag 0. -/
def readingHeader : State := issued (.restore .headerRead) 0 0
  (rolling { walking .header with headerIssued := true, outstanding := 1 })

theorem witness_HeaderVerification :
    Running readingHeader ∧ readingHeader.tag 0 = .inUse ⟨.restore .headerRead, 0, 0, 0⟩ ∧
      readingHeader.restore.state ≠ .idle ∧ readingHeader.restore.step = .header ∧ (line64 0).length = 64 ∧
      readingHeader.verifyHeader (line64 0) = none ∧
      (readingHeader.verifyHeader (headerBytes finishing)).map (·.kind) = some .saved ∧
      (readingHeader.verifyHeader (headerBytes voiding)).map (·.kind) = some .void ∧
      (headerBytes finishing).length = 64 ∧ (headerBytes voiding).length = 64 ∧
      (∀ request ∈ [EndRequest.stop, .abandon, .abandonSilent],
        let s := readingHeader.updateEngine fun e => { e with endRequest := request };
        Running s ∧ s.tag 0 = .inUse ⟨.restore .headerRead, 0, 0, 0⟩ ∧ s.restore.step = .header ∧
          s.restore.endRequest = request ∧ s.verifyHeader (line64 0) = none) := by
  unfold Running; decide +kernel

/-- A record of `rolling` whose data, 256 bytes of 0, has this data check. -/
def recordWith (check : Nat) : CurrentRecord := { record0 with dataCheck := check }

/-- A request of the record of `rolling` under tag 0, the walk in a record step with `ended` requests ended and
`outstanding` outstanding. -/
def recordRequest (step : RestoreStep) (recordStep : RecordStep) (check ended outstanding : Nat) : State :=
  issued (.restore step) 0 0 (rolling { walking recordStep with
    current := some (recordWith check), linesIssued := 4, linesEnded := ended, outstanding := outstanding
    buffer := (List.range ended).map fun j => (j, line64 0) })

/-- The last data read and the last write-back, another that is not the last, and a failed record. -/
theorem witness_RecordsAreReadRestoredAndFinished :
    (∀ ended ∈ [2, 3], ∀ outstanding ∈ [1, 2], ∀ s ∈ [recordRequest (.dataRead 3) .data 0 ended outstanding,
        inState .opened ((recordRequest (.dataRead 3) .data 0 ended outstanding).updateEngine
          fun e => { e with state := .checking })],
      Running s ∧ s.tag 0 = .inUse ⟨.restore (.dataRead 3), 0, 0, 0⟩ ∧ s.restore.state ≠ .idle ∧
        s.restore.current = some (recordWith 0) ∧ s.restore.step = .data ∧ s.restore.recordFailed = false ∧
        s.restore.linesEnded = ended ∧ s.restore.outstanding - 1 = outstanding - 1) ∧
    (let s := recordRequest (.writeBack 3) .writeBack 0 3 1;
      Running s ∧ s.tag 0 = .inUse ⟨.restore (.writeBack 3), 0, 0, 0⟩ ∧ s.restore.step = .writeBack ∧
        s.restore.recordFailed = false ∧ s.restore.linesEnded + 1 = Granule.g256.bytes / 64) ∧
    2 + 1 ≠ Granule.g256.bytes / 64 ∧ (line64 0).length = 64 ∧
    (∀ buffer, buffer = (recordRequest (.dataRead 3) .data 0 3 1).restore.buffer ++ [(3, line64 0)] →
      (List.range 4).flatMap (fun k => (buffer.lookup k).getD []) = List.replicate 256 0) ∧
    (∀ check ended, (recordRequest (.dataRead 3) .data check ended 1).restore.current = some (recordWith check)) ∧
    ∀ crc, crc = (recordWith crc).dataCheck ∧ crc ≠ (recordWith (crc + 1)).dataCheck := by
  unfold Running
  refine ⟨by decide +kernel, by decide +kernel, by decide +kernel, by decide +kernel, ?_, fun _ _ => rfl,
    fun crc => ⟨rfl, Nat.ne_of_lt (Nat.lt_succ_self crc)⟩⟩
  rintro buffer rfl
  decide +kernel

theorem witness_OpenTakesEffect :
    (∀ s ∈ [drained (.openMark 5) opened, latched (lineRollback 2 (drained (.openMark 5) opened))],
      Running s ∧ DrainClear s ∧ s.marks.action = .openMark 5 ∧ s.restore.state ≠ .checking) ∧
    (drained (.openMark 5) opened).marks.latch = false ∧
    (let s := latched (lineRollback 2 (drained (.openMark 5) opened));
      s.marks.latch = true ∧ s.mgmt.lineRollback.enable = true ∧ s.mgmt.lineRollback.target ≤ s.level + 1) := by
  unfold DrainClear Running; decide +kernel

/-- `opened` with a second mark. -/
def opened2 : State :=
  { opened with marks := { opened.marks with stack := opened.marks.stack ++ [⟨2, 2, 0, 0, 0⟩], nextNumber := 3 } }

theorem witness_ReleaseAndCommitTakeEffect :
    (∀ s ∈ [drained .releaseMark opened2, drained .releaseMark opened, drained .commit opened2,
        latched (drained .commit opened2)], Running s ∧ DrainClear s) ∧
    (2 ≤ (drained .releaseMark opened2).level ∧ (drained .releaseMark opened).level = 1) ∧
    (drained .commit opened2).marks.latch = false ∧ (latched (drained .commit opened2)).marks.latch = true := by
  unfold DrainClear Running; decide +kernel

theorem witness_HeldEntryReclassified :
    (∀ s ∈ [withEntries [entry0 0 .forwardable, entry0 1 .waitMark] opened, withEntries [entry0 0 .waitMark] opened,
        withEntries [entry0 0 .waitMark] (savedUnder1 opened)],
      s.transit.entries.Pairwise (fun a b => a.order < b.order)) ∧
    (entry0 0 .waitMark).cls = .window 0 0 ∧ (entry0 0 .forwardable).index? = some 0 ∧
    opened.currentMark = some 1 ∧ (entry0 0 .waitMark).request.kind ≠ .read ∧ mapRead opened.windows.map 0 < 1 ∧
    1 ≤ mapRead (savedUnder1 opened).windows.map 0 := by decide +kernel

theorem witness_RollbackTakesEffect :
    (∀ origin ∈ [Origin.command, .line], ∀ s ∈ [drained (.rollback 1 origin) opened,
        (drained (.rollback 1 origin) opened).setLog { opened.log with tail := 320, nextSequence := 1 }],
      Running s ∧ RollbackDrainClear s origin ∧ s.marks.action = .rollback 1 origin ∧
        s.marks.stack[1 - 1]? = some ⟨1, 1, 0xAB, 0, 0⟩) ∧
    (opened.log.tail = 0 ∧ opened.log.nextSequence = 0) := by
  unfold RollbackDrainClear DrainClear Running; decide +kernel

theorem witness_CompleteRollbackOutcome :
    let s := rolling walkDone;
    Running s ∧ s.marks.state = .rollingBack ∧ s.restore.state = .restoring ∧ WalkOver s.restore ∧
      s.restore.outcome.failed = 0 ∧ s.restore.outcome.stopped = false ∧ s.marks.latch = false ∧
      1 ≤ s.restore.outcome.level ∧ s.marks.stack[s.restore.outcome.level - 1]? = some ⟨1, 1, 0xAB, 0, 0⟩ := by
  unfold WalkOver Running; decide +kernel

/-- A walk that met one failed record, and one that stopped. -/
def walkFailed : RestoreEngine := { walkDone with outcome := ⟨1, .command, 0, 0, 1, some 0, false, none⟩ }
def walkStopped : RestoreEngine := { walking .noStep with outcome := ⟨1, .command, 0, 0, 0, none, true, some 320⟩ }

theorem witness_IncompleteRollbackOutcome :
    (∀ s ∈ [rolling walkFailed, rolling walkStopped, latched (rolling walkStopped)],
      Running s ∧ s.marks.state = .rollingBack ∧ s.restore.state = .restoring ∧ WalkOver s.restore ∧
        (s.restore.outcome.failed ≠ 0 ∨ s.restore.outcome.stopped = true)) ∧
    (rolling walkFailed).marks.latch = false ∧ (latched (rolling walkStopped)).marks.latch = true := by
  unfold WalkOver Running; decide +kernel

/-- A check over the record of `rolling`. -/
def checkWith (e : RestoreEngine) : State := inState .opened (rolling { e with state := .checking })

theorem witness_CheckEndPostsCheckDone :
    (∀ s ∈ [checkWith walkDone, checkWith walkStopped, checkWith (walking .header)],
      Running s ∧ s.restore.state = .checking ∧ s.restore.endRequest = .noRequest) ∧
    WalkOver (checkWith walkDone).restore ∧ WalkOver (checkWith walkStopped).restore ∧
    ¬ WalkOver (checkWith (walking .header)).restore := by
  unfold WalkOver Running; decide +kernel

theorem witness_FrameTestsComeFirst :
    frameRow (.rollback (frame [1])) = some (frame [1], 0, 1) ∧
    frameRow (.writeConfigLogBase (frame [1])) = some (frame [1], 1, 9) ∧ Running State.reset ∧ Running idle ∧
    (frame [1]).beganInReset = false ∧ (⟨7, [1], 0, 0, true⟩ : Frame).beganInReset = true ∧
    0 + (frame [1]).payload.length ≤ 48 ∧ ¬ Ready State.reset ∧ Instr.rollback (frame [1]) ≠ .getStatus (frame [1]) ∧
    Ready idle ∧ 1 + (frame [1]).payload.length ≠ 9 ∧
    frameRow (.getStatus (frame [1])) = some (frame [1], 0, 0) ∧ 0 + (frame [1]).payload.length ≠ 0 := by
  unfold Running Ready; decide +kernel

theorem witness_FramesThatAreNotTaken :
    (Running State.reset ∧ (frame (List.replicate 48 0)).payload.length ≤ 48) ∧
    Delivered idle (frame (List.replicate 9 0)) 9 ∧
    (⟨7, [1], 0, 0, true⟩ : Frame).beganInReset = true ∧ (⟨[1], 0, true⟩ : Period).beganInReset = true := by
  unfold Delivered Running Ready; decide +kernel

def replyOf (n : Nat) : Reply := ⟨7, .ok, List.replicate n 0⟩

theorem witness_PeriodsAndReplies :
    (∀ b ∈ [ResponseBuffer.ready (replyOf 4), .forming (replyOf 4), .empty],
      Running (idle.setMgmt { idle.mgmt with buffer := b })) ∧
    ∀ b ∈ [ResponseBuffer.forming (replyOf 4), .empty], ∀ r, b ≠ .ready r := by
  refine ⟨by unfold Running; decide +kernel, fun b hb r => ?_⟩
  simp at hb
  rcases hb with rfl | rfl <;> simp

theorem witness_StatusRepliesSpellTheState :
    (Running State.reset ∧ (frame []).beganInReset = false ∧ (frame []).payload.length = 0) ∧
    Delivered opened2 (frame []) 0 ∧ opened2.marks.stack[1]? = some ⟨2, 2, 0, 0, 0⟩ := by
  unfold Delivered Running Ready; decide +kernel

/-- An item's value as WRITE_CONFIG carries it. -/
def valueFrame (v : Nat) : Frame := frame (leBytes 8 v)

/-- LOG_BASE, LOG_SIZE and the value tested at the edges of R47's rows. -/
theorem witness_LogAreaItemsWritten :
    (∀ v ∈ [0, 65535, 65536, 69632, 1073741824, 1073745920, 0x10000000, 2 ^ 40 - 4096, 2 ^ 40],
      Delivered opened (valueFrame v) 8 ∧ Delivered configured (valueFrame v) 8 ∧ Delivered idle (valueFrame v) 8 ∧
        leField (valueFrame v).payload 0 8 = v) ∧
    opened.marks.state ≠ .idle ∧ configured.marks.state = .idle ∧ idle.marks.state = .idle ∧
    (configured.log.size ≠ 0 ∧ 2 ^ 40 < 2 ^ 40 - 4096 + configured.log.size) ∧ idle.log.size = 0 ∧
    ((configured.window 0).enabled = true ∧ max (configured.window 0).base.toNat 0x10000000 <
      min (configured.window 0).rangeEnd (0x10000000 + configured.log.size)) ∧
    (∀ w, (configured.window w).enabled = true → min (configured.window w).rangeEnd (65536 + configured.log.size) ≤
      max (configured.window w).base.toNat 65536) ∧
    (∀ w, (configured.window w).enabled = true →
      min (configured.window w).rangeEnd (configured.log.base.toNat + 65536) ≤
        max (configured.window w).base.toNat configured.log.base.toNat) ∧
    configured.log.threshold ≤ 65536 ∧
    65536 < ((configured.setLog { configured.log with threshold := 69632 })).log.threshold ∧
    (let s := configured.setLog { configured.log with base := 0x0FFF0000#40, size := 0 };
      (s.window 0).enabled = true ∧ max (s.window 0).base.toNat s.log.base.toNat <
        min (s.window 0).rangeEnd (s.log.base.toNat + 69632)) := by
  unfold Delivered Running Ready; decide +kernel

theorem witness_OtherItemsWritten :
    ∀ v ∈ [0, 1, 2, 15, 16, 63, 64, 4096, 4097, 65535, 65536],
      Delivered idle (valueFrame v) 8 ∧ Delivered opened (valueFrame v) 8 ∧ leField (valueFrame v).payload 0 8 = v := by
  unfold Delivered Running Ready; decide +kernel

/-- A SET_WINDOW payload for window `w`. -/
def windowFrame (w : Byte) : Frame := frame (w :: List.replicate 15 0)

theorem witness_SetWindowStoresItsFields :
    (∀ w ∈ [0, 15, 16], Delivered configured (windowFrame w) 16) ∧
    16 ≤ (byteAt (windowFrame 16).payload 0).toNat ∧ (byteAt (windowFrame 15).payload 0).toNat = (15 : WindowNo).val ∧
    (configured.window 0).enabled = true ∧ (configured.window 15).enabled = false := by
  unfold Delivered Running Ready; decide +kernel

/-- `configured` with window 2 as given. -/
def offering (r : WindowRecord) : State :=
  { configured with windows := { configured.windows with records := configured.windows.records.set 2 r } }

theorem windowValid_of {r : WindowRecord} (g : Granule) (h : Granule.ofCode r.code = some g)
    (rest : r.base.toNat % g.bytes = 0 ∧ 1 ≤ r.count ∧ r.count ≤ 65536 ∧ r.base.toNat + r.count * g.bytes ≤ 2 ^ 40 ∧
      r.mapOffset + r.count ≤ 65536) : WindowValid r := ⟨g, h, rest⟩

theorem witness_EnableWindowTests :
    (∀ s ∈ [opened, offering WindowRecord.reset], Delivered s (frame [2]) 1 ∧ Delivered s (frame [16]) 1) ∧
    opened.marks.state ≠ .idle ∧ configured.marks.state = .idle ∧
    (configured.window 0).enabled = true ∧
    Granule.ofCode ((offering WindowRecord.reset).window 2).code = none ∧
    (∀ r ∈ [(⟨false, 0x30000000#40, 2, 0, 4352, 0, 0⟩ : WindowRecord), ⟨false, 0x30000000#40, 2, 65537, 0, 0, 0⟩,
        ⟨false, 0x30000100#40, 2, 1, 0, 0, 0⟩, ⟨false, 0xFFFFFFFC00#40, 2, 2, 0, 0, 0⟩,
        ⟨false, 0x30000000#40, 2, 1, 65536, 0, 0⟩],
      Granule.ofCode ((offering r).window 2).code = some .g1k ∧ (r.count = 0 ∨ 65536 < r.count ∨
        r.base.toNat % Granule.g1k.bytes ≠ 0 ∨ 2 ^ 40 < r.base.toNat + r.count * Granule.g1k.bytes ∨
        65536 < r.mapOffset + r.count)) ∧
    (∀ r ∈ [(⟨false, 0x10080000#40, 2, 16, 8192, 0, 0⟩ : WindowRecord), ⟨false, 0x30000000#40, 2, 200, 4352, 0, 0⟩,
        ⟨false, 0x80000000#40, 2, 1, 8192, 0, 0⟩], WindowValid r) ∧
    (let w := (offering ⟨false, 0x10080000#40, 2, 16, 8192, 0, 0⟩).window 2;
      max w.base.toNat windowA.base.toNat < min w.rangeEnd windowA.rangeEnd) ∧
    (let w := (offering ⟨false, 0x80000000#40, 2, 1, 8192, 0, 0⟩).window 2;
      max w.base.toNat configured.log.base.toNat < min w.rangeEnd (configured.log.base.toNat + configured.log.size)) ∧
    (let s := offering ⟨false, 0x30000000#40, 2, 200, 4352, 0, 0⟩;
      (∀ v, v ≠ 2 → (s.window v).enabled = true →
        min (s.window 2).rangeEnd (s.window v).rangeEnd ≤ max (s.window 2).base.toNat (s.window v).base.toNat ∧
        min ((s.window 2).mapOffset + (s.window 2).count) ((s.window v).mapOffset + (s.window v).count) ≤
          max (s.window 2).mapOffset (s.window v).mapOffset) ∧
      min (s.window 2).rangeEnd (s.log.base.toNat + s.log.size) ≤ max (s.window 2).base.toNat s.log.base.toNat) := by
  refine ⟨?_, by decide +kernel, by decide +kernel, by decide +kernel, by decide +kernel, by decide +kernel, ?_,
    by decide +kernel, by decide +kernel, by decide +kernel⟩
  · unfold Delivered Running Ready; decide +kernel
  · intro r hr
    refine windowValid_of .g1k ?_ ?_ <;> revert r <;> decide +kernel

theorem witness_DisableGetWindowAndReadMap :
    (∀ w ∈ [0, 16], Delivered configured (frame [w]) 1 ∧ Delivered opened (frame [w]) 1) ∧
    (∀ i ∈ [4095, 4352, 65535, 65536], Delivered configured (frame (leBytes 4 i)) 4 ∧
      leField (frame (leBytes 4 i)).payload 0 4 = i) ∧
    ((configured.window 0).enabled = true ∧ (configured.window 0).mapOffset ≤ 4095 ∧
      4095 < (configured.window 0).mapOffset + (configured.window 0).count ∧
      ∀ v, v ≠ 0 → (configured.window v).enabled = true → 4095 < (configured.window v).mapOffset ∨
        (configured.window v).mapOffset + (configured.window v).count ≤ 4095) ∧
    (∀ w, (configured.window w).enabled = true → 4352 < (configured.window w).mapOffset ∨
      (configured.window w).mapOffset + (configured.window w).count ≤ 4352) := by
  unfold Delivered Running Ready
  refine ⟨?_, ?_, ?_, ?_⟩ <;> decide +kernel

/-- BROKEN with nothing busy. -/
def broken : State :=
  { configured with marks := { idle.marks with state := .broken, reason := .logFull, nextNumber := 2 } }

/-- Mark numbers down to the last one. -/
def lastNumber (s : State) : State := s.setMarks { s.marks with nextNumber := 4294967295 }

theorem witness_MarkCommandsTaken :
    (∀ s ∈ [lastNumber configured, opened, broken], ∀ n ∈ [0, 1, 4], Delivered s (frame (List.replicate n 1)) n) ∧
    ((lastNumber configured).marks.state = .idle ∧ (lastNumber configured).log.size ≠ 0 ∧
      (lastNumber configured).marks.nextNumber ≤ 4294967295) ∧
    (opened.marks.state = .opened ∧ opened.level ≠ 4 ∧ opened.marks.latch = false ∧
      opened.restore.state ≠ .checking) ∧
    (1 ≤ (byteAt (frame [1]).payload 0).toNat ∧ (byteAt (frame [1]).payload 0).toNat ≤ opened.level) ∧
    (broken.marks.state = .broken ∧ broken.marks.latch = false ∧ (∀ c, broken.context? c = none) ∧
      broken.restore.state = .idle) := by
  unfold Delivered Running Ready; decide +kernel

theorem witness_CheckLogTaken :
    (∀ s ∈ [opened, opened.setLog { opened.log with tail := 320, nextSequence := 1 }, saving (copying 0 0 0 [])],
      Delivered s (frame [1]) 1 ∧ s.marks.latch = false ∧ s.marks.state = .opened ∧ s.restore.state = .idle ∧
        s.marks.stack[1 - 1]? = some ⟨1, 1, 0xAB, 0, 0⟩) ∧
    (byteAt (frame [1]).payload 0).toNat = 1 ∧ (opened.log.tail = 0 ∧ opened.log.nextSequence = 0) ∧
    (∀ c, opened.context? c = none) ∧
    ((saving (copying 0 0 0 [])).context? 0 = some (copying 0 0 0 []) ∧
      (copying 0 0 0 []).offset + (copying 0 0 0 []).granule.recordSize = (saving (copying 0 0 0 [])).log.tail) := by
  unfold Delivered Running Ready; decide +kernel

/-- Four marks open. -/
def opened4 : State :=
  { opened with marks := { opened.marks with
    stack := [⟨1, 1, 0, 0, 0⟩, ⟨2, 2, 0, 0, 0⟩, ⟨3, 3, 0, 0, 0⟩, ⟨4, 4, 0, 0, 0⟩], nextNumber := 5 } }

def exhausted (s : State) : State := s.setMarks { s.marks with nextNumber := 4294967296 }

theorem witness_MarkCommandsRefused :
    (∀ s ∈ [inState .draining opened, inState .rollingBack opened, broken, idle, configured, opened, opened4,
        exhausted configured, exhausted opened, checkWith (walking .header), inState .opened (rolling (walking .header)),
        inState .broken (saving (copying 0 0 0 []))],
      ∀ n ∈ [0, 1, 4], Delivered s (frame (List.replicate n 0)) n ∧ s.marks.latch = false) ∧
    idle.log.size = 0 ∧ (opened4.log.size ≠ 0 ∧ opened4.marks.state = .opened ∧ opened4.level = 4) ∧
    ((exhausted opened).level ≠ 4 ∧ 4294967295 < (exhausted opened).marks.nextNumber ∧
      (exhausted configured).marks.state = .idle) ∧
    ((checkWith (walking .header)).marks.state = .opened ∧ (checkWith (walking .header)).restore.state = .checking ∧
      (checkWith (walking .header)).level = 1) ∧
    ((byteAt (frame [0]).payload 0).toNat < 1 ∧ opened.level < (byteAt (frame [2]).payload 0).toNat) ∧
    (inState .opened (rolling (walking .header))).restore.state = .restoring ∧
    ((inState .broken (saving (copying 0 0 0 []))).marks.state = .broken ∧
      (inState .broken (saving (copying 0 0 0 []))).context? 0 ≠ none) := by
  unfold Delivered Running Ready; decide +kernel

theorem witness_ReadNoticeTakesTheFrontRecord :
    (Delivered idle (frame []) 0 ∧ idle.notice.queue = []) ∧
    (Delivered (withNotices 1 idle) (frame []) 0 ∧ (withNotices 1 idle).notice.queue = ⟨.lateResponse 0, 0, 0, 0⟩ :: []) := by
  unfold Delivered Running Ready; decide +kernel

/-- One record held since time 0 with NOTICE_QUIET 16, at time `now`. -/
def quietAt (now : Nat) : State :=
  { withNotices 1 idle with mgmt := { idle.mgmt with noticeTrigger := 4, noticeQuiet := 16 }, now := now }

theorem witness_CountersAndQuietTimer :
    Delivered idle (frame []) 0 ∧
    (Running (quietAt 16) ∧ 1 ≤ (quietAt 16).notice.queue.length ∧ (quietAt 16).mgmt.noticeQuiet ≠ 0 ∧
      (quietAt 16).mgmt.noticeQuiet ≤ (quietAt 16).now - (quietAt 16).notice.quietStart) ∧
    (Running (quietAt 15) ∧ (quietAt 15).now - (quietAt 15).notice.quietStart < (quietAt 15).mgmt.noticeQuiet) ∧
    (idle.notice.queue = [] ∧ (withNotices 1 idle).mgmt.noticeQuiet = 0) := by
  unfold Delivered Running Ready; decide +kernel

/-! The invariants, in a state that no reset leaves: a mark open over one record, a save in progress with its write
held, a request of the save under tag 0, and a notice queued. -/

def busy : State :=
  withNotices 1 (savedUnder1 (withCredits 3 (copyingFor (.granuleRead 0) (copying 1 0 0 [emptyLine 0]))))

/-- `busy` with a command in front of its queue. -/
def busyStep : State := { busy with pending := [.downstreamResponse 0 .ok (some (line64 1))] }

theorem busyStep_steps : ∃ t, step busyStep = .next t := ⟨_, rfl⟩

theorem context_of {s : State} {p : SaveContext → Bool} (h : ∀ c, (s.context? c).all p = true) :
    ∀ c x, s.context? c = some x → p x = true := fun c x hx => by have := h c; rwa [hx] at this

theorem witness_StepsKeepTheNoticeUnit : NoticeUnitOk busyStep ∧ ∃ t, step busyStep = .next t := by
  refine ⟨⟨by decide +kernel, by decide +kernel, by decide +kernel, ?_, by decide +kernel⟩, busyStep_steps⟩
  intro i r h
  match i, h with
  | 0, h => cases h; decide +kernel
  | _ + 1, h => cases h

theorem witness_StepsKeepCreditsAndTags :
    TransitOk busyStep ∧ DownstreamOk busyStep ∧ ∃ t, step busyStep = .next t := by
  refine ⟨?_, ?_, busyStep_steps⟩
  · unfold TransitOk; decide +kernel
  · unfold DownstreamOk; decide +kernel

theorem busyStep_marksOk : MarksOk busyStep := by
  refine ⟨by decide +kernel, by decide +kernel, by decide +kernel, by decide +kernel, by decide +kernel, ?_,
    by decide +kernel, by decide +kernel, by decide +kernel, fun _ h => PendingAction.noConfusion h,
    by decide +kernel, by decide +kernel⟩
  intro i m h
  match i, h with
  | 0, h => cases h; rfl
  | _ + 1, h => cases h

theorem busyStep_logOk : LogOk busyStep := by unfold LogOk; decide +kernel

theorem witness_StepsKeepMarksAndLog :
    MarksOk busyStep ∧ ReasonAndLatchOk busyStep ∧ LogOk busyStep ∧ ∃ t, step busyStep = .next t := by
  refine ⟨busyStep_marksOk, ?_, busyStep_logOk, busyStep_steps⟩
  unfold ReasonAndLatchOk; decide +kernel

theorem witness_StepsKeepMapEntriesBelowNextNumber :
    MarksOk busyStep ∧ LogOk busyStep ∧ MapOk busyStep ∧ ∃ t, step busyStep = .next t := by
  refine ⟨busyStep_marksOk, busyStep_logOk, ⟨by decide +kernel, by decide +kernel, ?_, ?_⟩, busyStep_steps⟩
  · intro c x h
    exact of_decide_eq_true (context_of (p := fun x => decide (x.markNumber < busyStep.marks.nextNumber))
      (by decide +kernel) c x h)
  · intro e he n hn
    have : e = { entry0 0 .waitSave with hasContext := true } := List.mem_singleton.mp he
    subst this
    cases hn
    decide

theorem witness_StepsKeepWindowsAndItems :
    WindowsOk busyStep ∧ ItemsOk busyStep ∧ ∃ t, step busyStep = .next t := by
  refine ⟨⟨?_, by decide +kernel⟩, ?_, busyStep_steps⟩
  · intro w hw
    have enabled : ∀ w, (busyStep.window w).enabled = true → w = 0 ∨ w = 1 := by decide +kernel
    refine ⟨?_, ?_⟩
    · obtain rfl | rfl := enabled w hw
      · exact windowValid_of .g256 (by decide +kernel) (by decide +kernel)
      · exact windowValid_of .g4k (by decide +kernel) (by decide +kernel)
    · revert w; decide +kernel
  · unfold ItemsOk; decide +kernel

/-- RESETTING with one save left, whose last response is at the front of the queue. -/
def resettingStep : State :=
  { inState .resetting (copyingFor .headerWrite finishing) with
    mgmt := { ManagementPort.reset with resetPhase := .engines }
    pending := [.downstreamResponse 0 .ok none] }

theorem witness_StepsKeepTheEngineLimits :
    (EnginesOk busyStep ∧ ResetPhaseOk busyStep ∧ ∃ t, step busyStep = .next t) ∧
    EnginesOk resettingStep ∧ ResetPhaseOk resettingStep ∧
      ∃ t, step resettingStep = .next t ∧ t.marks.state = .idle := by
  have lines : ∀ s : State, (∀ c, (s.context? c).all
      (fun x => decide (x.lines.length ≤ 4 ∧ x.linesIssued ≤ x.granule.lines)) = true) →
      ∀ c x, s.context? c = some x → x.lines.length ≤ 4 ∧ x.linesIssued ≤ x.granule.lines :=
    fun _ h c x hx => of_decide_eq_true (context_of h c x hx)
  refine ⟨⟨⟨by decide +kernel, by decide +kernel, lines _ (by decide +kernel), by decide +kernel⟩, ?_, busyStep_steps⟩,
    ⟨by decide +kernel, by decide +kernel, lines _ (by decide +kernel), by decide +kernel⟩, ?_, ⟨_, rfl, by decide +kernel⟩⟩
  · unfold ResetPhaseOk; decide +kernel
  · unfold ResetPhaseOk; decide +kernel

theorem witness_OnlyTheirCommandsChangeThem :
    exec .replyReady idle = .next idle ∧
    (exec (.writeConfigNoticeQuiet (valueFrame 16)) idle = .next (after (.writeConfigNoticeQuiet (valueFrame 16)) idle) ∧
      isWriteConfig (.writeConfigNoticeQuiet (valueFrame 16)) = true) ∧
    exec .powerOnReset busy = .next (after .powerOnReset busy) ∧
    (exec .softResetQuiesceComplete (resettingWith none) = .next (after .softResetQuiesceComplete (resettingWith none)) ∧
      after .softResetQuiesceComplete (resettingWith none) ≠ resettingWith none) ∧
    (exec (.softReset (frame [])) configured = .next (after (.softReset (frame [])) configured) ∧
      Delivered configured (frame []) 0 ∧ (after (.softReset (frame [])) configured).marks.state = .idle) ∧
    (exec .openTakesEffect (drained (.openMark 5) opened) =
        .next (after .openTakesEffect (drained (.openMark 5) opened)) ∧
      (after .openTakesEffect (drained (.openMark 5) opened)).marks.nextNumber = 3) :=
  ⟨rfl, ⟨rfl, rfl⟩, rfl, ⟨rfl, by decide +kernel⟩,
    ⟨rfl, by unfold Delivered Running Ready; decide +kernel, by decide +kernel⟩, ⟨rfl, by decide +kernel⟩⟩

end Sys2Proof.Tests
end

