-- ==== Sys2Proof/Proofs/LineRequests.lean ====
section
/-! The mark at a level (R1), and a line request, row by row of the table of R24. -/

namespace Sys2Proof.Machine

/-- R1: levels count from 1. -/
theorem State.markAt_eq_some {s : State} {k : Nat} {m : MarkRecord} :
    s.markAt k = some m ↔ 1 ≤ k ∧ s.marks.stack[k - 1]? = some m := by
  by_cases hk : k = 0
  · simp [State.markAt, hk]
  · simp [State.markAt, hk, Nat.one_le_iff_ne_zero]

end Sys2Proof.Machine

namespace Sys2Proof.Safety

open Machine

/-- R4, R26: in STARTING and RESETTING a request is not detected. -/
theorem lineRequest_of_not_ready {h : Happening} (hs : ¬ Ready h.state) : h.lineRequest = h := by
  have hs : h.state.marks.state = .starting ∨ h.state.marks.state = .resetting := by
    simpa [Ready, or_iff_not_imp_left] using hs
  rcases hs with hs | hs <;> simp [Happening.lineRequest, hs]

/-- R24, first row. -/
theorem lineRequest_of_disabled {h : Happening} (hs : Ready h.state) (he : h.state.mgmt.lineRollback.enable = false) :
    h.lineRequest = h.ignoreLine .disabled := by
  obtain ⟨h1, h2⟩ := hs
  cases hm : h.state.marks.state <;> simp_all [Happening.lineRequest]

theorem lineRequest_of_idle {h : Happening} (he : h.state.mgmt.lineRollback.enable = true)
    (hs : h.state.marks.state = .idle) : h.lineRequest = h.ignoreLine .noMark := by
  simp [Happening.lineRequest, he, hs]

theorem lineRequest_of_broken {h : Happening} (he : h.state.mgmt.lineRollback.enable = true)
    (hs : h.state.marks.state = .broken) : h.lineRequest = h.ignoreLine .broken := by
  simp [Happening.lineRequest, he, hs]

theorem lineRequest_of_low_level {h : Happening} (he : h.state.mgmt.lineRollback.enable = true)
    (hs : h.state.marks.state = .opened) (hl : h.state.level < h.state.mgmt.lineRollback.target) :
    h.lineRequest = h.ignoreLine .level := by
  simp [Happening.lineRequest, he, hs, hl]

/-- R24: in OPEN, with the target level open, a line-origin drain starts. -/
theorem lineRequest_of_opened {h : Happening} (he : h.state.mgmt.lineRollback.enable = true)
    (hs : h.state.marks.state = .opened) (hl : h.state.mgmt.lineRollback.target ≤ h.state.level) :
    h.lineRequest = (h.step (·.startDrain (.rollback h.state.mgmt.lineRollback.target .line))).abandonCheck := by
  simp [Happening.lineRequest, he, hs, Nat.not_lt.mpr hl]

/-- R24: in DRAINING and ROLLING_BACK the request is latched. -/
theorem lineRequest_of_busy {h : Happening} (he : h.state.mgmt.lineRollback.enable = true)
    (hs : h.state.marks.state = .draining ∨ h.state.marks.state = .rollingBack) :
    h.lineRequest = h.step (·.updateMarks fun m => { m with latch := true }) := by
  rcases hs with hs | hs <;> simp [Happening.lineRequest, he, hs]

end Sys2Proof.Safety
end

