-- ==== Sys2Proof/Proofs/MarksAndLog.lean ====
section
/-! The invariant of the marks and the log (R1, R2, R3, R25, R48, R60) as one predicate on the mark controller, the save
log and the level of RESET_N, told apart by the controller state; and what each operation that changes one of them does
to it. -/

namespace Sys2Proof.Safety

open Machine

/-- R1, R13: a stack of marks under a next mark number and a tail. -/
structure StackOk (stack : List MarkRecord) (next tail : Nat) : Prop where
  atMostFour : stack.length ≤ 4
  rising : stack.Pairwise fun a b => a.number < b.number ∧ a.startOffset ≤ b.startOffset
  bounded : ∀ m ∈ stack, 1 ≤ m.number ∧ m.number < next ∧ m.startOffset ≤ tail
  leveled : ∀ i m, stack[i]? = some m → m.level = i + 1

/-- R60: the threshold-crossed flag as the threshold and the tail give it. -/
def CrossedOk (log : SaveLog) : Prop := log.crossed = true ↔ log.threshold ≠ 0 ∧ log.threshold ≤ log.tail

/-- The table of 1.2 with R3, R4, R25, R48: what holds in each controller state. -/
def StateOk (m : MarkController) (log : SaveLog) (low : Bool) : Prop :=
  match m.state with
  | .starting => m.stack = [] ∧ m.action = .noAction ∧ m.reason = .noReason ∧ m.latch = false ∧ m.nextNumber = 1 ∧
      log.tail = 0 ∧ log.nextSequence = 0
  | .idle => m.stack = [] ∧ m.action = .noAction ∧ m.reason = .noReason ∧ m.latch = false ∧ low = false ∧
      log.tail = 0 ∧ log.nextSequence = 0
  | .opened => m.stack ≠ [] ∧ m.action = .noAction ∧ m.reason = .noReason ∧ m.latch = false ∧ low = false
  | .draining => m.action ≠ .noAction ∧ m.reason = .noReason ∧ low = false ∧
      ∀ label, m.action = .openMark label → m.stack.length ≤ 3 ∧ m.nextNumber ≤ Config.max32
  | .rollingBack => m.stack ≠ [] ∧ m.action = .noAction ∧ m.reason = .noReason ∧ low = false
  | .broken => m.stack = [] ∧ m.action = .noAction ∧ m.reason ≠ .noReason ∧ m.latch = false ∧ low = false
  | .resetting => m.action = .noAction ∧ m.latch = false ∧ low = false

/-- The mark controller and the save log meet their invariants together. -/
structure Consistent (m : MarkController) (log : SaveLog) (low : Bool) : Prop where
  stack : StackOk m.stack m.nextNumber log.tail
  next : 1 ≤ m.nextNumber ∧ m.nextNumber ≤ Config.max32 + 1
  tail : log.tail ≤ log.size
  crossed : CrossedOk log
  state : StateOk m log low

/-- The invariant of a state's marks and log. -/
def MarksAndLogOk (s : State) : Prop := Consistent s.marks s.log s.pins.resetLow

/-- The three invariants the claims name are the one used here: each controller state has its own clause of them. -/
theorem marksAndLogOk_iff (s : State) : MarksAndLogOk s ↔ MarksOk s ∧ ReasonAndLatchOk s ∧ LogOk s := by
  constructor
  · rintro ⟨⟨h4, hp, hb, hl⟩, ⟨h1, h2⟩, ht, hc, hs⟩
    unfold StateOk at hs
    refine ⟨⟨h4, h1, h2, hp, hb, hl, ?_, ?_, ?_, ?_, ?_, ?_⟩, ⟨?_, ?_, ?_⟩, ht, ?_, hc⟩ <;>
      cases hm : s.marks.state <;> simp_all
  · rintro ⟨⟨h4, h1, h2, hp, hb, hl, hempty, hsome, ha, ho, hn, hr⟩, ⟨hb1, hb2, hlatch⟩, ht, htail, hc⟩
    refine ⟨⟨h4, hp, hb, hl⟩, ⟨h1, h2⟩, ht, hc, ?_⟩
    unfold StateOk
    cases hm : s.marks.state <;> simp_all

/-- Marks and log that stay, with RESET_N, stay consistent. -/
theorem MarksAndLogOk.congr {s t : State} (h : MarksAndLogOk s) (hm : t.marks = s.marks) (hl : t.log = s.log)
    (hp : t.pins.resetLow = s.pins.resetLow) : MarksAndLogOk t := by
  unfold MarksAndLogOk
  rw [hm, hl, hp]
  exact h

/-! ### The stack (R1, R13 to R15, R18) -/

theorem StackOk.nil (next tail : Nat) : StackOk [] next tail :=
  ⟨by simp, List.Pairwise.nil, by simp, by simp⟩

/-- A tail that rises keeps the marks below it. -/
theorem StackOk.raiseTail {stack : List MarkRecord} {next tail tail' : Nat} (h : StackOk stack next tail)
    (ht : tail ≤ tail') : StackOk stack next tail' where
  atMostFour := h.atMostFour
  rising := h.rising
  bounded m hm := by
    obtain ⟨h1, h2, h3⟩ := h.bounded m hm
    exact ⟨h1, h2, h3.trans ht⟩
  leveled := h.leveled

/-- R13: a new mark has the next level and number, and lies at the tail. -/
theorem StackOk.push {stack : List MarkRecord} {next tail : Nat} (h : StackOk stack next tail) (hn : 1 ≤ next)
    (h3 : stack.length ≤ 3) (label : Label) (sequence : Nat) :
    StackOk (stack ++ [⟨stack.length + 1, next, label, tail, sequence⟩]) (next + 1) tail where
  atMostFour := by simp; omega
  rising := List.pairwise_append.mpr ⟨h.rising, by simp, fun a ha b hb => by
    obtain rfl := List.mem_singleton.mp hb
    exact (h.bounded a ha).2⟩
  bounded m hm := by
    rcases List.mem_append.mp hm with hm | hm
    · obtain ⟨h1, h2, h4⟩ := h.bounded m hm
      exact ⟨h1, by omega, h4⟩
    · obtain rfl := List.mem_singleton.mp hm
      exact ⟨hn, Nat.lt_succ_self _, Nat.le_refl _⟩
  leveled i m hi := by
    rcases Nat.lt_trichotomy i stack.length with hlt | rfl | hgt
    · rw [List.getElem?_append_left hlt] at hi
      exact h.leveled i m hi
    · simp at hi
      simp [← hi]
    · rw [List.getElem?_append_right hgt.le, List.getElem?_eq_none (by simp; omega)] at hi
      cases hi

/-- R14, R18: the lowest marks stay, under any tail that none of them passes. -/
theorem StackOk.take {stack : List MarkRecord} {next tail tail' : Nat} (h : StackOk stack next tail) (k : Nat)
    (ht : ∀ m ∈ stack.take k, m.startOffset ≤ tail') : StackOk (stack.take k) next tail' where
  atMostFour := (List.length_take_le' k stack).trans h.atMostFour
  rising := h.rising.sublist (List.take_sublist k stack)
  bounded m hm := by
    obtain ⟨h1, h2, -⟩ := h.bounded m (List.mem_of_mem_take hm)
    exact ⟨h1, h2, ht m hm⟩
  leveled i m hi := by
    rw [List.getElem?_take] at hi
    split at hi
    · exact h.leveled i m hi
    · cases hi

/-- R1: start offsets do not fall, so none at or below mark `k` passes its start offset. -/
theorem StackOk.startOffset_le_of_take {stack : List MarkRecord} {next tail k : Nat} {m : MarkRecord}
    (h : StackOk stack next tail) (hk : 1 ≤ k) (hm : stack[k - 1]? = some m) :
    ∀ a ∈ stack.take k, a.startOffset ≤ m.startOffset := by
  intro a ha
  obtain ⟨i, hi, hia⟩ := List.getElem_of_mem ha
  obtain ⟨hlt, hkm⟩ := List.getElem?_eq_some_iff.mp hm
  simp only [List.length_take] at hi
  rw [List.getElem_take] at hia
  subst hia hkm
  rcases Nat.lt_or_ge i (k - 1) with hik | hik
  · exact (List.pairwise_iff_getElem.mp h.rising i (k - 1) (by omega) hlt hik).2
  · obtain rfl : i = k - 1 := by omega
    exact Nat.le_refl _

/-! ### The controller (R7, R8, R11, R24, R25) -/

theorem Consistent.of_idle {m : MarkController} {log : SaveLog} {low : Bool} (h : Consistent m log low)
    (hs : m.state = .idle) : m.stack = [] ∧ m.action = .noAction ∧ m.reason = .noReason ∧ m.latch = false ∧
      low = false ∧ log.tail = 0 ∧ log.nextSequence = 0 := by
  simpa [StateOk, hs] using h.state

theorem Consistent.of_opened {m : MarkController} {log : SaveLog} {low : Bool} (h : Consistent m log low)
    (hs : m.state = .opened) :
    m.stack ≠ [] ∧ m.action = .noAction ∧ m.reason = .noReason ∧ m.latch = false ∧ low = false := by
  simpa [StateOk, hs] using h.state

theorem Consistent.of_draining {m : MarkController} {log : SaveLog} {low : Bool} (h : Consistent m log low)
    (hs : m.state = .draining) : m.action ≠ .noAction ∧ m.reason = .noReason ∧ low = false ∧
      ∀ label, m.action = .openMark label → m.stack.length ≤ 3 ∧ m.nextNumber ≤ Config.max32 := by
  simpa [StateOk, hs] using h.state

theorem Consistent.of_rollingBack {m : MarkController} {log : SaveLog} {low : Bool} (h : Consistent m log low)
    (hs : m.state = .rollingBack) :
    m.stack ≠ [] ∧ m.action = .noAction ∧ m.reason = .noReason ∧ low = false := by
  simpa [StateOk, hs] using h.state

theorem Consistent.of_broken {m : MarkController} {log : SaveLog} {low : Bool} (h : Consistent m log low)
    (hs : m.state = .broken) : m.stack = [] ∧ m.action = .noAction ∧ m.reason ≠ .noReason ∧ m.latch = false ∧
      low = false := by
  simpa [StateOk, hs] using h.state

/-- R7, R8, R11: a drain begins in IDLE or OPEN; one of an OPEN only where a mark and a number are left. -/
theorem MarksAndLogOk.startDrain {s : State} (h : MarksAndLogOk s)
    (hs : s.marks.state = .idle ∨ s.marks.state = .opened) {action : PendingAction} (ha : action ≠ .noAction)
    (ho : ∀ label, action = .openMark label → s.marks.stack.length ≤ 3 ∧ s.marks.nextNumber ≤ Config.max32) :
    MarksAndLogOk (s.startDrain action) := by
  have hr : s.marks.reason = .noReason ∧ s.pins.resetLow = false := by
    rcases hs with hs | hs
    · obtain ⟨-, -, hr, -, hl, -⟩ := h.of_idle hs
      exact ⟨hr, hl⟩
    · obtain ⟨-, -, hr, -, hl⟩ := h.of_opened hs
      exact ⟨hr, hl⟩
  exact ⟨h.stack, h.next, h.tail, h.crossed, ha, hr.1, hr.2, ho⟩

/-- R24: a request is latched in DRAINING and ROLLING_BACK. -/
theorem MarksAndLogOk.setLatch {s : State} (h : MarksAndLogOk s)
    (hs : s.marks.state = .draining ∨ s.marks.state = .rollingBack) :
    MarksAndLogOk (s.updateMarks fun m => { m with latch := true }) := by
  refine ⟨h.stack, h.next, h.tail, h.crossed, ?_⟩
  rcases hs with hs | hs
  · simpa [StateOk, State.updateMarks, hs] using h.of_draining hs
  · simpa [StateOk, State.updateMarks, hs] using h.of_rollingBack hs

theorem marksAndLogOk_abandonCheck {h : Happening} (ok : MarksAndLogOk h.state) : MarksAndLogOk h.abandonCheck.state :=
  ok.congr (by simp) (by simp) (by simp)

/-- R24: one line request. -/
theorem marksAndLogOk_lineRequest {h : Happening} (ok : MarksAndLogOk h.state) : MarksAndLogOk h.lineRequest.state := by
  by_cases hready : Ready h.state
  case neg => rw [lineRequest_of_not_ready hready]; exact ok
  cases he : h.state.mgmt.lineRollback.enable with
  | false => rw [lineRequest_of_disabled hready he]; exact ok
  | true =>
    cases hs : h.state.marks.state with
    | starting => exact absurd hs hready.1
    | resetting => exact absurd hs hready.2
    | idle => rw [lineRequest_of_idle he hs]; exact ok
    | broken => rw [lineRequest_of_broken he hs]; exact ok
    | draining => rw [lineRequest_of_busy he (.inl hs)]; exact ok.setLatch (.inl hs)
    | rollingBack => rw [lineRequest_of_busy he (.inr hs)]; exact ok.setLatch (.inr hs)
    | opened =>
      by_cases hl : h.state.level < h.state.mgmt.lineRollback.target
      · rw [lineRequest_of_low_level he hs hl]
        exact ok
      · rw [lineRequest_of_opened he hs (Nat.not_lt.mp hl)]
        apply marksAndLogOk_abandonCheck
        exact ok.startDrain (.inr hs) (by simp) (by simp)

/-- Right after a mark action has taken effect: the invariant, but for a request still latched. -/
def Settling (s : State) : Prop :=
  (s.marks.state = .opened ∨ s.marks.state = .idle ∨ s.marks.state = .broken) ∧
  MarksAndLogOk (s.updateMarks fun m => { m with latch := false })

/-- R17, R25: the second step handles or drops the latched request. -/
theorem marksAndLogOk_evaluateLatch {h : Happening} (ok : Settling h.state) :
    MarksAndLogOk h.evaluateLatch.state := by
  obtain ⟨hs, ok⟩ := ok
  cases hl : h.state.marks.latch with
  | false =>
    rw [Happening.evaluateLatch_of_clear hl]
    exact ok.congr (by simp [State.updateMarks, ← hl]) rfl rfl
  | true =>
    rcases hs with hs | hs | hs
    · simpa [Happening.evaluateLatch, hl, hs] using
        marksAndLogOk_lineRequest (h := h.step (·.updateMarks fun m => { m with latch := false })) ok
    · simpa [Happening.evaluateLatch, hl, hs] using ok.congr (by simp) (by simp) (by simp)
    · simpa [Happening.evaluateLatch, hl, hs] using ok.congr (by simp) (by simp) (by simp)

/-- R17: the two steps after a mark action. -/
theorem marksAndLogOk_settle {h : Happening} (ok : Settling h.state) : MarksAndLogOk h.settle.state :=
  marksAndLogOk_evaluateLatch (h := h.step State.reclassifyAll)
    ⟨by simpa using ok.1, ok.2.congr (by simp [State.updateMarks]) (by simp) (by simp)⟩

/-! ### Mark actions taking effect (R13 to R16) -/

theorem draining_of_drained {s : State} (hd : s.drained = true) : s.marks.state = .draining := by
  simp only [State.drained, Bool.and_eq_true, beq_iff_eq] at hd
  exact hd.1

/-- R13: an OPEN takes effect. -/
theorem MarksAndLogOk.pushMark {s : State} {label : Label} (h : MarksAndLogOk s) (hs : s.marks.state = .draining)
    (ha : s.marks.action = .openMark label) : Settling (s.pushMark label) := by
  obtain ⟨-, hr, hl, ho⟩ := h.of_draining hs
  obtain ⟨h3, hn⟩ := ho label ha
  exact ⟨.inl rfl, h.stack.push h.next.1 h3 label s.log.nextSequence,
    ⟨Nat.le_succ_of_le h.next.1, Nat.succ_le_succ hn⟩, h.tail, h.crossed,
    List.append_ne_nil_of_right_ne_nil _ (List.cons_ne_nil _ _), rfl, hr, rfl, hl⟩

/-- R14: a RELEASE takes effect above level 1. -/
theorem MarksAndLogOk.popMark {s : State} (h : MarksAndLogOk s) (hs : s.marks.state = .draining) (h2 : 2 ≤ s.level) :
    Settling s.popMark := by
  obtain ⟨-, hr, hl, -⟩ := h.of_draining hs
  have ht : s.marks.stack.dropLast = s.marks.stack.take (s.level - 1) := List.dropLast_eq_take
  have hne : s.marks.stack.dropLast ≠ [] := by
    rw [← List.length_pos_iff, List.length_dropLast]
    exact Nat.sub_pos_of_lt h2
  have hk : StackOk s.marks.stack.dropLast s.marks.nextNumber s.log.tail := by
    rw [ht]
    refine h.stack.take _ fun m hm => ?_
    obtain ⟨-, -, hoffset⟩ := h.stack.bounded m (List.mem_of_mem_take hm)
    exact hoffset
  exact ⟨.inl rfl, hk, h.next, h.tail, h.crossed, hne, rfl, hr, rfl, hl⟩

/-- R60: an empty log has crossed no threshold. -/
theorem crossedOk_empty (log : SaveLog) : CrossedOk { log with tail := 0, nextSequence := 0, crossed := false } := by
  simp only [CrossedOk, Bool.false_eq_true, false_iff, not_and, Nat.le_zero]
  exact fun h => h

/-- R15, R62: a COMMIT takes effect. -/
theorem MarksAndLogOk.commitMarks {s : State} (h : MarksAndLogOk s) (hs : s.marks.state = .draining) :
    Settling s.commitMarks := by
  obtain ⟨-, hr, hl, -⟩ := h.of_draining hs
  exact ⟨.inr (.inl rfl), StackOk.nil _ _, h.next, Nat.zero_le _, crossedOk_empty s.log,
    rfl, rfl, hr, rfl, hl, rfl, rfl⟩

theorem marksAndLogOk_openEffect {h : Happening} (ok : MarksAndLogOk h.state) : MarksAndLogOk h.openEffect.state := by
  unfold Happening.openEffect
  split
  · rename_i label ha
    split
    · rename_i hd
      exact marksAndLogOk_settle (h := h.step (·.pushMark label)) (ok.pushMark (draining_of_drained hd) ha)
    · exact ok
  · exact ok

theorem marksAndLogOk_releaseEffect {h : Happening} (ok : MarksAndLogOk h.state) :
    MarksAndLogOk h.releaseEffect.state := by
  unfold Happening.releaseEffect
  split
  · split
    · rename_i hd
      refine marksAndLogOk_settle ?_
      rw [Happening.step_state]
      split
      · exact ok.popMark (draining_of_drained hd) ‹_›
      · exact ok.commitMarks (draining_of_drained hd)
    · exact ok
  · exact ok

theorem marksAndLogOk_commitEffect {h : Happening} (ok : MarksAndLogOk h.state) :
    MarksAndLogOk h.commitEffect.state := by
  unfold Happening.commitEffect
  split
  · split
    · rename_i hd
      exact marksAndLogOk_settle (h := h.step State.commitMarks) (ok.commitMarks (draining_of_drained hd))
    · exact ok
  · exact ok

theorem stack_ne_nil_of_markAt {s : State} {k : Nat} {m : MarkRecord} (hm : s.markAt k = some m) :
    s.marks.stack ≠ [] := by
  intro hnil
  obtain ⟨-, hm⟩ := State.markAt_eq_some.mp hm
  simp [hnil] at hm

/-- R16, R128: what a walk begins with leaves the marks and the log as they are. -/
theorem marksAndLogOk_beginWalk {h : Happening} (ok : MarksAndLogOk h.state) (st : EngineState) (o : Origin) (k : Nat)
    (m : MarkRecord) : MarksAndLogOk (h.beginWalk st o k m).state :=
  ok.congr (by simp) (by simp) (by simp)

/-- R16: a ROLLBACK takes effect. -/
theorem MarksAndLogOk.rollBack {s : State} (h : MarksAndLogOk s) (hs : s.marks.state = .draining)
    (hne : s.marks.stack ≠ []) :
    MarksAndLogOk (s.updateMarks fun m => { m with action := .noAction, state := .rollingBack }).clearPreDrain := by
  obtain ⟨-, hr, hl, -⟩ := h.of_draining hs
  exact ⟨h.stack, h.next, h.tail, h.crossed, hne, rfl, hr, hl⟩

theorem marksAndLogOk_rollbackEffect {h : Happening} (ok : MarksAndLogOk h.state) :
    MarksAndLogOk h.rollbackEffect.state := by
  unfold Happening.rollbackEffect
  split
  · split
    · rename_i hd hm
      exact marksAndLogOk_beginWalk (h := h.step fun s =>
        (s.updateMarks fun m => { m with action := .noAction, state := .rollingBack }).clearPreDrain)
        (ok.rollBack (draining_of_drained hd) (stack_ne_nil_of_markAt hm)) _ _ _ _
    · exact ok
  · exact ok

/-! ### BROKEN (R19 to R21) -/

/-- R19, R20: the controller enters BROKEN from OPEN, DRAINING and ROLLING_BACK. -/
theorem MarksAndLogOk.enterBroken {s : State} (h : MarksAndLogOk s)
    (hs : s.marks.state = .opened ∨ s.marks.state = .draining ∨ s.marks.state = .rollingBack) {reason : BrokenReason}
    (hr : reason ≠ .noReason) : Settling (s.enterBroken reason) := by
  have hl : s.pins.resetLow = false := by
    rcases hs with hs | hs | hs
    · obtain ⟨-, -, -, -, hl⟩ := h.of_opened hs
      exact hl
    · obtain ⟨-, -, hl, -⟩ := h.of_draining hs
      exact hl
    · obtain ⟨-, -, -, hl⟩ := h.of_rollingBack hs
      exact hl
  exact ⟨.inr (.inr rfl), StackOk.nil _ _, h.next, h.tail, h.crossed, rfl, rfl, hr, rfl, hl⟩

/-- Without a latched request the invariant holds right away. -/
theorem Settling.ok {s : State} (h : Settling s) (hl : s.marks.latch = false) : MarksAndLogOk s :=
  h.2.congr (by simp [State.updateMarks, ← hl]) rfl rfl

/-- R20, R21: a break report. -/
theorem marksAndLogOk_breakReport {h : Happening} (ok : MarksAndLogOk h.state) {reason : BrokenReason}
    (hr : reason ≠ .noReason) : MarksAndLogOk (h.breakReport reason).state := by
  cases hs : h.state.marks.state with
  | opened =>
    obtain ⟨-, -, -, hlatch, -⟩ := ok.of_opened hs
    have hb : MarksAndLogOk (h.state.enterBroken reason) := (ok.enterBroken (.inl hs) hr).ok hlatch
    simpa [Happening.breakReport, hs] using marksAndLogOk_abandonCheck
      (h := (h.step (·.enterBroken reason)).post .markController (.logBroken reason h.state.log.tail)) hb
  | draining =>
    have hb := ok.enterBroken (.inr (.inl hs)) hr
    unfold Happening.breakReport
    simp only [hs]
    apply marksAndLogOk_settle
    refine ⟨?_, hb.2.congr ?_ ?_ ?_⟩ <;> cases h.state.marks.action.dropped <;> cases h.state.marks.latch <;>
      simp [State.updateMarks, hb.1]
  | _ => rw [Happening.breakReport_of_other reason (by simp [hs]) (by simp [hs])]; exact ok

/-! ### The outcome of a rollback (R18, R19, R61) -/

/-- R61: truncation to an offset at most the tail. -/
theorem crossedOk_truncate {log : SaveLog} (h : CrossedOk log) {o : Nat} (ho : o ≤ log.tail) (q : Nat) :
    CrossedOk { log with tail := o, nextSequence := q, crossed := log.crossed && !(o < log.threshold) } := by
  unfold CrossedOk at h ⊢
  simp only [Bool.and_eq_true, h, Bool.not_eq_true', decide_eq_false_iff_not, Nat.not_lt]
  constructor
  · rintro ⟨⟨h1, -⟩, h2⟩
    exact ⟨h1, h2⟩
  · rintro ⟨h1, h2⟩
    exact ⟨⟨h1, h2.trans ho⟩, h2⟩

/-- R18, R61: the log truncated to mark `k`, with the marks up to it. -/
theorem MarksAndLogOk.keepMark {s : State} (h : MarksAndLogOk s) (hs : s.marks.state = .rollingBack) {k : Nat}
    {m : MarkRecord} (hk : 1 ≤ k) (hm : s.marks.stack[k - 1]? = some m) :
    Settling ((s.truncateLog m.startOffset m.firstSequence).updateMarks fun c =>
      { c with stack := c.stack.take k, state := .opened }) := by
  obtain ⟨hne, ha, hr, hl⟩ := h.of_rollingBack hs
  obtain ⟨-, -, ho⟩ := h.stack.bounded m (List.mem_of_getElem? hm)
  have hkeep : s.marks.stack.take k ≠ [] := by
    rw [Ne, List.take_eq_nil_iff]
    rintro (rfl | hnil)
    · cases hk
    · exact hne hnil
  exact ⟨.inl rfl, h.stack.take k (h.stack.startOffset_le_of_take hk hm), h.next, ho.trans h.tail,
    crossedOk_truncate h.crossed ho _, hkeep, ha, hr, rfl, hl⟩

theorem marksAndLogOk_rollbackDone {h : Happening} (ok : MarksAndLogOk h.state)
    (hs : h.state.marks.state = .rollingBack) {o : WalkOutcome} {m : MarkRecord}
    (hm : h.state.markAt o.level = some m) : MarksAndLogOk (h.rollbackDone o m).state := by
  obtain ⟨hk, hm⟩ := State.markAt_eq_some.mp hm
  apply marksAndLogOk_settle
  exact ok.keepMark hs hk hm

theorem marksAndLogOk_rollbackIncomplete {h : Happening} (ok : MarksAndLogOk h.state)
    (hs : h.state.marks.state = .rollingBack) (o : WalkOutcome) : MarksAndLogOk (h.rollbackIncomplete o).state := by
  apply marksAndLogOk_settle
  exact ok.enterBroken (.inr (.inr hs)) (by decide)

theorem marksAndLogOk_takeOutcome {h : Happening} (ok : MarksAndLogOk h.state) :
    MarksAndLogOk h.takeOutcome.state := by
  unfold Happening.takeOutcome
  split
  · rename_i hready
    have hs : h.state.marks.state = .rollingBack := by
      simp only [State.outcomeReady, Bool.and_eq_true, beq_iff_eq, and_assoc] at hready
      exact hready.1
    have hidle : MarksAndLogOk (h.state.updateEngine RestoreEngine.toIdle) := ok.congr (by simp) (by simp) (by simp)
    dsimp only
    split
    · split
      · rename_i m hm
        exact marksAndLogOk_rollbackDone (h := h.step (·.updateEngine RestoreEngine.toIdle)) hidle
          (by simpa using hs) hm
      · exact ok
    · exact marksAndLogOk_rollbackIncomplete (h := h.step (·.updateEngine RestoreEngine.toIdle)) hidle
        (by simpa using hs) _
  · exact ok

/-! ### Saves (R56 to R59, R67, R68, R75) -/

/-- R56, R60: a reservation. -/
theorem marksAndLogOk_reserve {h : Happening} (ok : MarksAndLogOk h.state) {g : Granule}
    (hs : h.state.marks.state = .opened ∨ h.state.marks.state = .draining) (hf : h.state.logFits g = true) :
    MarksAndLogOk (h.reserve g).state := by
  have hf : h.state.log.tail + g.recordSize ≤ h.state.log.size := by simpa [State.logFits] using hf
  have hst : ∀ log : SaveLog, StateOk h.state.marks log h.state.pins.resetLow := by
    intro log
    rcases hs with hs | hs
    · simpa [StateOk, hs] using ok.of_opened hs
    · simpa [StateOk, hs] using ok.of_draining hs
  have hc : h.state.log.crossed = true ↔ h.state.log.threshold ≠ 0 ∧ h.state.log.threshold ≤ h.state.log.tail :=
    ok.crossed
  unfold Happening.reserve
  dsimp only
  split
  · rename_i hcross
    simp only [Bool.and_eq_true, bne_iff_ne, decide_eq_true_eq, Bool.not_eq_true'] at hcross
    obtain ⟨⟨⟨h1, -⟩, h2⟩, -⟩ := hcross
    exact ⟨ok.stack.raiseTail (Nat.le_add_right _ _), ok.next, hf, by simp [CrossedOk, h1, h2], hst _⟩
  · rename_i hcross
    refine ⟨ok.stack.raiseTail (Nat.le_add_right _ _), ok.next, hf, ?_, hst _⟩
    simp only [Bool.and_eq_true, bne_iff_ne, decide_eq_true_eq, Bool.not_eq_true', not_and, Bool.not_eq_false] at hcross
    simp only [CrossedOk, Happening.step_state, State.setLog_log]
    constructor
    · intro h1
      obtain ⟨h2, h3⟩ := hc.mp h1
      exact ⟨h2, h3.trans (Nat.le_add_right _ _)⟩
    · rintro ⟨h1, h2⟩
      by_cases h3 : h.state.log.tail < h.state.log.threshold
      · exact hcross ⟨⟨h1, h3⟩, h2⟩
      · exact hc.mpr ⟨h1, Nat.not_lt.mp h3⟩

theorem saving_of_nextAllocation {s : State} {x : TransitEntry × WindowNo × Nat × Granule × ContextNo}
    (h : s.nextAllocation = some x) : s.marks.state = .opened ∨ s.marks.state = .draining := by
  unfold State.nextAllocation at h
  split at h
  · rename_i hs
    simp only [Bool.and_eq_true, Bool.or_eq_true, beq_iff_eq] at hs
    exact hs.1
  · cases h

theorem marksAndLogOk_allocateSave {h : Happening} (ok : MarksAndLogOk h.state) :
    MarksAndLogOk h.allocateSave.state := by
  unfold Happening.allocateSave
  split
  · exact ok
  · rename_i e w index g c ha
    split
    · rename_i hf
      refine (marksAndLogOk_reserve ok (saving_of_nextAllocation ha) hf).congr ?_ ?_ ?_ <;> simp [Happening.grantSave]
    · split
      · exact marksAndLogOk_breakReport (h := h.step _) (ok.congr rfl rfl rfl) (by decide)
      · exact ok.congr (by simp) (by simp) (by simp)

/-- R75, R76: a log write fails. -/
theorem marksAndLogOk_logWriteFailed {h : Happening} (ok : MarksAndLogOk h.state) (c : ContextNo) (x : SaveContext)
    (result : Result) : MarksAndLogOk (h.logWriteFailed c x result).state := by
  unfold Happening.logWriteFailed
  split
  · exact ok.congr (by simp) (by simp) (by simp)
  · refine (marksAndLogOk_breakReport (h := (h.step (·.putContext c { x with
      error := if result = .timeout then .writeTimeout else .writeError })).step (·.freeReportFirst x)) ?_
      (reason := if result = .timeout then .logWriteTimeout else .logWriteError) ?_).congr ?_ ?_ ?_
    · exact ok.congr (by simp) (by simp) (by simp)
    · split <;> decide
    all_goals simp

theorem marksAndLogOk_saveResult {h : Happening} (ok : MarksAndLogOk h.state) (c : ContextNo) (step : SaveStep)
    (result : Result) : MarksAndLogOk (h.saveResult c step result).state := by
  unfold Happening.saveResult
  split
  · exact ok
  · split
    · split <;> exact ok.congr (by simp) (by simp) (by simp)
    · split <;> exact ok.congr (by simp) (by simp) (by simp)
    · split <;> exact ok.congr (by simp) (by simp) (by simp)
    · split <;> exact ok.congr (by simp) (by simp) (by simp)
    · exact marksAndLogOk_logWriteFailed ok c _ _

/-! ### Responses, timeouts and the quiesce (R118, R123, R185 to R188) -/

theorem marksAndLogOk_deliverOk {h : Happening} (ok : MarksAndLogOk h.state) (data : Option (List Byte))
    (origin : TagOrigin) : MarksAndLogOk (h.deliverOk data origin).state := by
  cases origin with
  | passThrough requester tag kind windowWrite length =>
    exact ok.congr (by simp [Happening.deliverOk]) (by simp) (by simp)
  | save c step => exact marksAndLogOk_saveResult ok c step _
  | restore step => exact ok.congr (by simp [Happening.deliverOk]) (by simp) (by simp)

theorem marksAndLogOk_deliverFailure {h : Happening} (ok : MarksAndLogOk h.state) (failure : Result)
    (origin : TagOrigin) : MarksAndLogOk (h.deliverFailure failure origin).state := by
  cases origin with
  | passThrough requester tag kind windowWrite length =>
    exact ok.congr (by simp [Happening.deliverFailure]) (by simp) (by simp)
  | save c step => exact marksAndLogOk_saveResult ok c step _
  | restore step => exact ok.congr (by simp [Happening.deliverFailure]) (by simp) (by simp)

theorem marksAndLogOk_response {h : Happening} (ok : MarksAndLogOk h.state) (t : TagNo) (status : LinkStatus)
    (data : Option (List Byte)) : MarksAndLogOk (h.response t status data).state := by
  unfold Happening.response
  have hfreed : MarksAndLogOk (h.state.setTag t .free) := ok.congr (by simp) (by simp) (by simp)
  split
  · split
    · exact marksAndLogOk_deliverOk (h := h.step (·.setTag t .free)) hfreed _ _
    · exact marksAndLogOk_deliverFailure (h := h.step (·.setTag t .free)) hfreed _ _
  · exact hfreed
  · exact ok

theorem marksAndLogOk_timeOut {h : Happening} (ok : MarksAndLogOk h.state) (t : TagNo) :
    MarksAndLogOk (h.timeOut t).state := by
  unfold Happening.timeOut
  split
  · rename_i r _
    split
    · refine (marksAndLogOk_deliverFailure (h := h.step (·.setTag t (.stale r))) ?_ .timeout r.origin).congr ?_ ?_ ?_
      · exact ok.congr (by simp) (by simp) (by simp)
      all_goals simp
    · exact ok
  · exact ok

/-- A happening keeps the invariant where its steps do. -/
theorem marksAndLogOk_happening {s : State} {f : Happening → Happening}
    (ok : MarksAndLogOk (f (Happening.start s)).state) : MarksAndLogOk (happening s f) :=
  ok.congr (by simp) (by simp) (by simp)

theorem crossedOk_reset : CrossedOk SaveLog.reset := by simp [CrossedOk, SaveLog.reset]

/-- R188: the reset step leaves IDLE with an empty stack and an empty log. -/
theorem marksAndLogOk_quiesceStep {s : State} (ok : MarksAndLogOk s) (hl : s.pins.resetLow = false) :
    MarksAndLogOk s.quiesceStep := by
  have hc : Consistent ⟨.idle, [], s.marks.nextNumber, .noAction, false, .noReason⟩ SaveLog.reset false :=
    ⟨StackOk.nil _ _, ok.next, Nat.le_refl _, crossedOk_reset, rfl, rfl, rfl, rfl, rfl, rfl, rfl⟩
  simpa [MarksAndLogOk, hl] using hc

theorem marksAndLogOk_quiesceComplete {s : State} (ok : MarksAndLogOk s) (hl : s.pins.resetLow = false) :
    MarksAndLogOk s.quiesceComplete := by
  unfold State.quiesceComplete
  split
  · exact marksAndLogOk_quiesceStep ok hl
  · exact ok

theorem marksAndLogOk_reported {s t : State} (ok : MarksAndLogOk t) (hl : t.pins.resetLow = false) :
    MarksAndLogOk (s.reported t) := by
  rcases State.reported_cases s t with h | ⟨-, h⟩ <;> rw [h]
  · exact ok
  · exact marksAndLogOk_quiesceStep ok hl

theorem marksAndLogOk_timeOutTag {s : State} (ok : MarksAndLogOk s) (hl : s.pins.resetLow = false) (tag : TagNo) :
    MarksAndLogOk (s.timeOutTag tag) := by
  have ht : MarksAndLogOk (happening s fun h => h.timeOut tag) :=
    marksAndLogOk_happening (marksAndLogOk_timeOut (h := Happening.start s) ok tag)
  unfold State.timeOutTag
  dsimp only
  split
  · rename_i r _ _
    obtain ⟨u, rfl, hu⟩ := State.quiesceAmidTimeout_cases (happening s fun h => h.timeOut tag)
      (.responseTimeout r.origin.source r.address)
    have hq := marksAndLogOk_quiesceStep (ht.congr (t := (happening s fun h => h.timeOut tag).setChoices
      ((happening s fun h => h.timeOut tag).choices + 1)) rfl rfl rfl) (by simpa using hl)
    rcases hu with hu | hu | hu <;> rw [hu]
    · exact hq
    · exact hq.congr (by simp) (by simp) (by simp)
    · exact hq.congr (by simp) (by simp) (by simp)
  · exact ht

/-! ### Owners that leave the marks and the log as they are -/

/-- An answer that leaves the marks, the log and the pins as they are. -/
def Kept (s : State) (a : Answer) : Prop := a.state.marks = s.marks ∧ a.state.log = s.log ∧ a.state.pins = s.pins

/-- An owner whose every answer does. -/
def KeepsMarksAndLog (owner : State → Answer) : Prop := ∀ s, Kept s (owner s)

theorem kept_refuse (s : State) (status : Status) : Kept s (s.refuse status) := ⟨rfl, rfl, rfl⟩

theorem kept_withWindow {s : State} {n : Nat} {k : WindowNo → Answer} (h : ∀ w, Kept s (k w)) :
    Kept s (withWindow s n k) := by
  unfold withWindow
  split
  · exact h _
  · exact kept_refuse s _

theorem kept_setWindow (s : State) (w : WindowNo) (r : WindowRecord) : Kept s (s.setWindow w r).done := by
  simp [Kept, State.done]

theorem keeps_getStatus : KeepsMarksAndLog answerGetStatus := fun s => by
  simp [Kept, answerGetStatus, State.updateMgmt]

theorem keeps_getMarks : KeepsMarksAndLog answerGetMarks := fun _ => ⟨rfl, rfl, rfl⟩

theorem keeps_readConfig : KeepsMarksAndLog answerReadConfig := fun _ => ⟨rfl, rfl, rfl⟩

theorem keeps_writeLogReader (a b c : Nat) : KeepsMarksAndLog (answerWriteLogReader a b c) := fun s => by
  unfold answerWriteLogReader
  split <;> simp [Kept, State.refuse, State.done]

theorem keeps_writePartRequesterId (v : Nat) : KeepsMarksAndLog (answerWritePartRequesterId v) := fun s => by
  unfold answerWritePartRequesterId
  (repeat' split) <;> simp [Kept, State.refuse, State.done, State.updateMgmt]

theorem keeps_writeResponseTimeout (v : Nat) : KeepsMarksAndLog (answerWriteResponseTimeout v) := fun s => by
  unfold answerWriteResponseTimeout
  split <;> simp [Kept, State.refuse, State.done, State.updateMgmt]

theorem keeps_writeNoticeTrigger (v : Nat) : KeepsMarksAndLog (answerWriteNoticeTrigger v) := fun s => by
  unfold answerWriteNoticeTrigger
  split <;> simp [Kept, State.refuse, State.done, State.updateMgmt]

theorem keeps_writeNoticeQuiet (v : Nat) : KeepsMarksAndLog (answerWriteNoticeQuiet v) := fun s => by
  unfold answerWriteNoticeQuiet
  split <;> simp [Kept, State.refuse, State.done, State.updateMgmt]

theorem keeps_writeLineRollback (a b : Nat) : KeepsMarksAndLog (answerWriteLineRollback a b) := fun s => by
  unfold answerWriteLineRollback
  split <;> simp [Kept, State.refuse, State.done, State.updateMgmt]

theorem keeps_unknownItem : KeepsMarksAndLog answerUnknownItem := fun _ => ⟨rfl, rfl, rfl⟩

theorem keeps_setWindow (o : WindowOperands) : KeepsMarksAndLog (answerSetWindow o) := fun s =>
  kept_withWindow fun w => by
    split
    · exact kept_refuse s _
    · exact kept_setWindow s w _

theorem keeps_getWindow (n : Nat) : KeepsMarksAndLog (answerGetWindow n) := fun _ =>
  kept_withWindow fun _ => ⟨rfl, rfl, rfl⟩

theorem keeps_enableWindow (n : Nat) : KeepsMarksAndLog (answerEnableWindow n) := fun s =>
  kept_withWindow fun w => by
    split
    · exact kept_refuse s _
    · split
      · exact kept_refuse s _
      · split
        · exact kept_refuse s _
        · exact kept_setWindow s w _

theorem keeps_disableWindow (n : Nat) : KeepsMarksAndLog (answerDisableWindow n) := fun s =>
  kept_withWindow fun w => by
    split
    · exact kept_refuse s _
    · split
      · exact kept_setWindow s w _
      · exact ⟨rfl, rfl, rfl⟩

theorem keeps_readMap (i : Nat) : KeepsMarksAndLog (answerReadMap i) := fun s => by
  unfold answerReadMap
  split <;> simp [Kept, State.refuse]

theorem keeps_readNotice : KeepsMarksAndLog answerReadNotice := fun s => by
  unfold answerReadNotice
  split <;> simp [Kept]

theorem keeps_readCounters : KeepsMarksAndLog answerReadCounters := fun _ => ⟨rfl, rfl, rfl⟩

theorem keeps_clearCounters : KeepsMarksAndLog answerClearCounters := fun s => by
  simp [Kept, answerClearCounters, State.done]

/-! ### Owners that change them -/

/-- The owner's answer to a frame that passes the tests of R175 keeps the invariant. -/
def KeepsInvariant (anyState : Bool) (owner : State → Answer) : Prop :=
  ∀ s, MarksAndLogOk s → s.pins.resetLow = false → (anyState = false → s.notReady = false) →
    MarksAndLogOk (owner s).state

theorem KeepsMarksAndLog.invariant {owner : State → Answer} (h : KeepsMarksAndLog owner) (anyState : Bool) :
    KeepsInvariant anyState owner := by
  intro s ok _ _
  obtain ⟨hm, hl, hp⟩ := h s
  exact ok.congr hm hl (by rw [hp])

/-- R173, R175, R176: a frame keeps the invariant where its owner does. -/
theorem marksAndLogOk_takeFrame {s : State} (ok : MarksAndLogOk s) (f : Frame) (identifier expected : Nat)
    {anyState : Bool} {owner : State → Answer} (h : KeepsInvariant anyState owner) :
    MarksAndLogOk (takeFrame s f identifier expected anyState owner) := by
  unfold takeFrame
  split
  · exact ok
  · rename_i hlow
    have hl : s.pins.resetLow = false := by
      simp only [Bool.or_eq_true, not_or, Bool.not_eq_true] at hlow
      exact hlow.1
    have hd : MarksAndLogOk (s.driveCommandPeriod (f.clocks (identifier + f.payload.length))) :=
      ok.congr (by simp) (by simp) rfl
    dsimp only
    split
    · exact hd.congr (by simp) (by simp) (by simp)
    · rename_i hn
      refine (h _ hd hl fun ha => ?_).congr (by simp) (by simp) (by simp)
      simp only [State.frameRefusal, ha] at hn
      by_contra hc
      simp only [Bool.not_eq_false] at hc
      simp only [hc, Bool.not_false, Bool.and_self, if_true] at hn
      split at hn <;> cases hn

/-- R175: a part that is ready is in a state from IDLE to BROKEN. -/
theorem ready_of_notReady {s : State} (h : s.notReady = false) :
    s.marks.state ≠ .starting ∧ s.marks.state ≠ .resetting := by
  simpa [State.notReady] using h

theorem writeLogBase_invariant (v : Nat) : KeepsInvariant false (answerWriteLogBase v) := by
  intro s ok _ _
  unfold answerWriteLogBase
  (repeat' split) <;> try exact ok
  exact ⟨ok.stack, ok.next, ok.tail, ok.crossed, ok.state⟩

/-- R47: LOG_SIZE is written in IDLE, where the log is empty. -/
theorem writeLogSize_invariant (v : Nat) : KeepsInvariant false (answerWriteLogSize v) := by
  intro s ok _ _
  unfold answerWriteLogSize
  split
  · exact ok
  · rename_i hs
    obtain ⟨-, -, -, -, -, ht, -⟩ := ok.of_idle (by simpa using hs)
    (repeat' split) <;> try exact ok
    exact ⟨ok.stack, ok.next, ht ▸ Nat.zero_le v, ok.crossed, ok.state⟩

theorem crossedOk_threshold (log : SaveLog) (v : Nat) :
    CrossedOk { log with threshold := v, crossed := thresholdCrossed v log.tail } := by
  simp [CrossedOk, thresholdCrossed]

theorem writeLogThreshold_invariant (v : Nat) : KeepsInvariant false (answerWriteLogThreshold v) := by
  intro s ok _ _
  unfold answerWriteLogThreshold
  split
  · exact ok
  · exact ⟨ok.stack, ok.next, ok.tail, crossedOk_threshold s.log v, ok.state⟩

theorem writeLogFullPolicy_invariant (v : Nat) : KeepsInvariant false (answerWriteLogFullPolicy v) := by
  intro s ok _ _
  unfold answerWriteLogFullPolicy
  split
  · exact ⟨ok.stack, ok.next, ok.tail, ok.crossed, ok.state⟩
  · exact ⟨ok.stack, ok.next, ok.tail, ok.crossed, ok.state⟩
  · exact ok

/-- R6: with no refusal for the controller's state, a ready part is in IDLE or OPEN. -/
theorem idle_or_opened {s : State} (hr : s.notReady = false) (hb : s.markBusy = none) :
    s.marks.state = .idle ∨ s.marks.state = .opened := by
  obtain ⟨h1, h2⟩ := ready_of_notReady hr
  cases hs : s.marks.state <;> cases hl : s.marks.latch <;> simp_all [State.markBusy]

theorem openMark_invariant (label : Label) : KeepsInvariant false (answerOpenMark label) := by
  intro s ok _ hr
  unfold answerOpenMark
  split
  · exact ok
  · rename_i hb
    have hs := idle_or_opened (hr rfl) hb
    split
    · exact ok
    · split
      · exact ok
      · rename_i hfull
        split
        · exact ok
        · rename_i hex
          refine ok.startDrain hs (by simp) fun l hl => ⟨?_, by simpa [State.numbersExhausted] using hex⟩
          rcases hs with hs | hs
          · simp [(ok.of_idle hs).1]
          · have h4 : s.marks.stack.length ≤ 4 := ok.stack.atMostFour
            have hne : s.marks.stack.length ≠ 4 := fun h => hfull (by simp [hs, State.level, h, Config.markLevels])
            omega

theorem releaseMark_invariant : KeepsInvariant false answerReleaseMark := by
  intro s ok _ hr
  unfold answerReleaseMark
  split
  · exact ok
  · rename_i hb
    (repeat' split) <;> try exact ok
    exact ok.startDrain (idle_or_opened (hr rfl) hb) (by simp) (by simp)

theorem commit_invariant : KeepsInvariant false answerCommit := by
  intro s ok _ hr
  unfold answerCommit
  split
  · exact ok
  · rename_i hb
    (repeat' split) <;> try exact ok
    exact ok.startDrain (idle_or_opened (hr rfl) hb) (by simp) (by simp)

theorem rollback_invariant (k : Nat) : KeepsInvariant false (answerRollback k) := by
  intro s ok _ hr
  unfold answerRollback
  split
  · exact ok
  · rename_i hb
    (repeat' split) <;> try exact ok
    exact ok.startDrain (idle_or_opened (hr rfl) hb) (by simp) (by simp)

theorem checkLog_invariant (k : Nat) : KeepsInvariant false (answerCheckLog k) := by
  intro s ok _ _
  unfold answerCheckLog
  (repeat' split) <;> try exact ok
  exact marksAndLogOk_beginWalk (h := Happening.start s) ok _ _ _ _

/-- R10, R62: DISCARD empties the log and enters IDLE. -/
theorem discard_invariant : KeepsInvariant false answerDiscard := by
  intro s ok hl _
  unfold answerDiscard
  split
  · exact ok
  · rename_i hs
    split
    · exact ok
    · obtain ⟨hk, ha, -, hlatch, -⟩ := ok.of_broken (by simpa using hs)
      refine ⟨?_, ok.next, Nat.zero_le _, crossedOk_empty s.log, hk, ha, rfl, hlatch, hl, rfl, rfl⟩
      show StackOk s.marks.stack s.marks.nextNumber 0
      rw [hk]
      exact StackOk.nil _ _

/-- R26, R184: SOFT_RESET enters RESETTING, and completes the quiesce where it is due. -/
theorem softReset_invariant : KeepsInvariant false answerSoftReset := by
  intro s ok hl _
  unfold answerSoftReset
  have hentered : MarksAndLogOk (((s.updateMgmt fun m => { m with resetPhase := .engines }).setMarks
      { s.marks with state := .resetting, action := .noAction, latch := false }).clearMarkNumbers.clearPreDrain) :=
    ⟨ok.stack, ok.next, ok.tail, ok.crossed, rfl, rfl, hl⟩
  refine marksAndLogOk_quiesceComplete (hentered.congr ?_ ?_ ?_) ?_ <;> simp [State.updateMgmt, hl]

/-! ### The step -/

/-- While RESET_N is low nothing reaches the part (R191). -/
theorem marksAndLogOk_running {s : State} (ok : MarksAndLogOk s) {f : State → State}
    (h : s.pins.resetLow = false → MarksAndLogOk (f s)) : MarksAndLogOk (s.running f) := by
  cases hl : s.pins.resetLow with
  | false => rw [State.running_of_high s f hl]; exact h hl
  | true => rw [State.running_of_low s f hl]; exact ok

theorem marksAndLogOk_powerOn (s : State) : MarksAndLogOk s.powerOn :=
  ⟨StackOk.nil _ _, by simp [State.powerOn, MarkController.reset], Nat.le_refl _, crossedOk_reset,
    rfl, rfl, rfl, rfl, rfl, rfl, rfl⟩

/-- R191: RESET_N rises in STARTING. -/
theorem marksAndLogOk_powerOnEnd {s : State} (ok : MarksAndLogOk s) : MarksAndLogOk s.powerOnEnd := by
  unfold State.powerOnEnd
  split
  · rename_i hl
    have hs := ok.state
    have hstart : s.marks.state = .starting := by
      cases hm : s.marks.state <;> simp_all [StateOk]
    exact ⟨ok.stack, ok.next, ok.tail, ok.crossed, by simpa [StateOk, hstart] using hs⟩
  · exact ok

/-- R4, R42: the sweep's end enters IDLE. -/
theorem marksAndLogOk_sweepComplete {s : State} (ok : MarksAndLogOk s) (hl : s.pins.resetLow = false) :
    MarksAndLogOk s.sweepComplete := by
  unfold State.sweepComplete
  split
  · rename_i hs
    have hst := ok.state
    simp only [StateOk, hs] at hst
    obtain ⟨-, -, -, -, -, ht, hq⟩ := hst
    exact ⟨StackOk.nil _ _, by simp [MarkController.reset], ok.tail, ok.crossed, rfl, rfl, rfl, rfl, hl, ht, hq⟩
  · exact ok

theorem marksAndLogOk_risingEdge {s : State} (ok : MarksAndLogOk s) : MarksAndLogOk s.risingEdge := by
  have hp : MarksAndLogOk (s.setRollbackReq true) := ok.congr rfl rfl rfl
  unfold State.risingEdge
  (repeat' split)
  · exact ok
  · exact hp
  · exact marksAndLogOk_happening (marksAndLogOk_lineRequest (h := Happening.start _) hp)

theorem marksAndLogOk_quietExpiry {s : State} (ok : MarksAndLogOk s) : MarksAndLogOk s.quietExpiry := by
  unfold State.quietExpiry
  split
  · exact ok.congr (by simp) (by simp) (by simp)
  · exact ok

theorem marksAndLogOk_replyReady {s : State} (ok : MarksAndLogOk s) : MarksAndLogOk s.replyReady := by
  unfold State.replyReady
  split
  · exact ok.congr rfl rfl rfl
  · exact ok

theorem marksAndLogOk_readPeriod {s : State} (ok : MarksAndLogOk s) (clocks : Nat) (beganInReset : Bool) :
    MarksAndLogOk (s.readPeriod clocks beganInReset) := by
  unfold State.readPeriod
  split
  · exact ok
  · exact ok.congr rfl rfl rfl

theorem marksAndLogOk_cutShort {s : State} (ok : MarksAndLogOk s) (p : Period) : MarksAndLogOk (s.cutShort p) := by
  unfold State.cutShort
  split
  · exact ok
  · exact ok.congr rfl rfl rfl

theorem marksAndLogOk_checkFailed {s : State} (ok : MarksAndLogOk s) (p : Period) :
    MarksAndLogOk (s.checkFailed p) := by
  unfold State.checkFailed
  split
  · exact ok
  · exact ok.congr rfl rfl rfl

theorem marksAndLogOk_unknownCommand {s : State} (ok : MarksAndLogOk s) (f : Frame) :
    MarksAndLogOk (s.unknownCommand f) := by
  unfold State.unknownCommand
  split
  · exact ok
  · exact ok.congr rfl rfl rfl

/-- Every command answers a next state, which keeps the invariant. -/
theorem marksAndLogOk_exec {s : State} (ok : MarksAndLogOk s) (c : Instr) :
    ∃ t, exec c s = .next t ∧ MarksAndLogOk t := by
  cases c with
  | powerOnReset => exact ⟨_, rfl, marksAndLogOk_powerOn s⟩
  | powerOnResetEnd => exact ⟨_, rfl, marksAndLogOk_powerOnEnd ok⟩
  | mapSweepComplete => exact ⟨_, rfl, marksAndLogOk_running ok (marksAndLogOk_sweepComplete ok)⟩
  | rollbackReqRisingEdge => exact ⟨_, rfl, marksAndLogOk_risingEdge ok⟩
  | rollbackReqFallingEdge => exact ⟨_, rfl, ok.congr rfl rfl rfl⟩
  | upstreamRequest r => exact ⟨_, rfl, marksAndLogOk_running ok fun _ => ok.congr (by simp) (by simp) (by simp)⟩
  | saveAllocation =>
    exact ⟨_, rfl, marksAndLogOk_running ok fun _ =>
      marksAndLogOk_happening (marksAndLogOk_allocateSave (h := Happening.start s) ok)⟩
  | arbiterGrant => exact ⟨_, rfl, marksAndLogOk_running ok fun _ => ok.congr (by simp) (by simp) (by simp)⟩
  | downstreamCreditReturn => exact ⟨_, rfl, marksAndLogOk_running ok fun _ => ok.congr (by simp) (by simp) (by simp)⟩
  | checkEnd => exact ⟨_, rfl, marksAndLogOk_running ok fun _ => ok.congr (by simp) (by simp) (by simp)⟩
  | stalePeriodExpiry tag => exact ⟨_, rfl, marksAndLogOk_running ok fun _ => ok.congr (by simp) (by simp) (by simp)⟩
  | downstreamResponse tag status data =>
    exact ⟨_, rfl, marksAndLogOk_running ok fun hl =>
      marksAndLogOk_reported
        (marksAndLogOk_happening (marksAndLogOk_response (h := Happening.start s) ok tag status data))
        (by simpa using hl)⟩
  | tagTimeout tag => exact ⟨_, rfl, marksAndLogOk_running ok fun hl => marksAndLogOk_timeOutTag ok hl tag⟩
  | openTakesEffect =>
    exact ⟨_, rfl, marksAndLogOk_running ok fun _ =>
      marksAndLogOk_happening (marksAndLogOk_openEffect (h := Happening.start s) ok)⟩
  | releaseTakesEffect =>
    exact ⟨_, rfl, marksAndLogOk_running ok fun _ =>
      marksAndLogOk_happening (marksAndLogOk_releaseEffect (h := Happening.start s) ok)⟩
  | commitTakesEffect =>
    exact ⟨_, rfl, marksAndLogOk_running ok fun _ =>
      marksAndLogOk_happening (marksAndLogOk_commitEffect (h := Happening.start s) ok)⟩
  | rollbackTakesEffect =>
    exact ⟨_, rfl, marksAndLogOk_running ok fun _ =>
      marksAndLogOk_happening (marksAndLogOk_rollbackEffect (h := Happening.start s) ok)⟩
  | rollbackOutcome =>
    exact ⟨_, rfl, marksAndLogOk_running ok fun _ =>
      marksAndLogOk_happening (marksAndLogOk_takeOutcome (h := Happening.start s) ok)⟩
  | quietTimerExpiry => exact ⟨_, rfl, marksAndLogOk_running ok fun _ => marksAndLogOk_quietExpiry ok⟩
  | readPeriod clocks beganInReset => exact ⟨_, rfl, marksAndLogOk_readPeriod ok clocks beganInReset⟩
  | replyReady => exact ⟨_, rfl, marksAndLogOk_running ok fun _ => marksAndLogOk_replyReady ok⟩
  | commandFrameCutShort p => exact ⟨_, rfl, marksAndLogOk_cutShort ok p⟩
  | unknownCommand code f => exact ⟨_, rfl, marksAndLogOk_unknownCommand ok f⟩
  | checkFailedFrame p => exact ⟨_, rfl, marksAndLogOk_checkFailed ok p⟩
  | softResetQuiesceComplete => exact ⟨_, rfl, marksAndLogOk_running ok (marksAndLogOk_quiesceComplete ok)⟩
  | getStatus f => exact ⟨_, rfl, marksAndLogOk_takeFrame ok f _ _ (keeps_getStatus.invariant _)⟩
  | getMarks f => exact ⟨_, rfl, marksAndLogOk_takeFrame ok f _ _ (keeps_getMarks.invariant _)⟩
  | readConfig f => exact ⟨_, rfl, marksAndLogOk_takeFrame ok f _ _ (keeps_readConfig.invariant _)⟩
  | writeConfigLogReader f =>
    exact ⟨_, rfl, marksAndLogOk_takeFrame ok f _ _ ((keeps_writeLogReader _ _ _).invariant _)⟩
  | writeConfigPartRequesterId f =>
    exact ⟨_, rfl, marksAndLogOk_takeFrame ok f _ _ ((keeps_writePartRequesterId _).invariant _)⟩
  | writeConfigResponseTimeout f =>
    exact ⟨_, rfl, marksAndLogOk_takeFrame ok f _ _ ((keeps_writeResponseTimeout _).invariant _)⟩
  | writeConfigNoticeTrigger f =>
    exact ⟨_, rfl, marksAndLogOk_takeFrame ok f _ _ ((keeps_writeNoticeTrigger _).invariant _)⟩
  | writeConfigNoticeQuiet f =>
    exact ⟨_, rfl, marksAndLogOk_takeFrame ok f _ _ ((keeps_writeNoticeQuiet _).invariant _)⟩
  | writeConfigLineRollback f =>
    exact ⟨_, rfl, marksAndLogOk_takeFrame ok f _ _ ((keeps_writeLineRollback _ _).invariant _)⟩
  | writeConfigUnknownItem f => exact ⟨_, rfl, marksAndLogOk_takeFrame ok f _ _ (keeps_unknownItem.invariant _)⟩
  | setWindow f => exact ⟨_, rfl, marksAndLogOk_takeFrame ok f _ _ ((keeps_setWindow _).invariant _)⟩
  | getWindow f => exact ⟨_, rfl, marksAndLogOk_takeFrame ok f _ _ ((keeps_getWindow _).invariant _)⟩
  | enableWindow f => exact ⟨_, rfl, marksAndLogOk_takeFrame ok f _ _ ((keeps_enableWindow _).invariant _)⟩
  | disableWindow f => exact ⟨_, rfl, marksAndLogOk_takeFrame ok f _ _ ((keeps_disableWindow _).invariant _)⟩
  | readMap f => exact ⟨_, rfl, marksAndLogOk_takeFrame ok f _ _ ((keeps_readMap _).invariant _)⟩
  | readNotice f => exact ⟨_, rfl, marksAndLogOk_takeFrame ok f _ _ (keeps_readNotice.invariant _)⟩
  | readCounters f => exact ⟨_, rfl, marksAndLogOk_takeFrame ok f _ _ (keeps_readCounters.invariant _)⟩
  | clearCounters f => exact ⟨_, rfl, marksAndLogOk_takeFrame ok f _ _ (keeps_clearCounters.invariant _)⟩
  | writeConfigLogBase f => exact ⟨_, rfl, marksAndLogOk_takeFrame ok f _ _ (writeLogBase_invariant _)⟩
  | writeConfigLogSize f => exact ⟨_, rfl, marksAndLogOk_takeFrame ok f _ _ (writeLogSize_invariant _)⟩
  | writeConfigLogThreshold f => exact ⟨_, rfl, marksAndLogOk_takeFrame ok f _ _ (writeLogThreshold_invariant _)⟩
  | writeConfigLogFullPolicy f => exact ⟨_, rfl, marksAndLogOk_takeFrame ok f _ _ (writeLogFullPolicy_invariant _)⟩
  | openMark f => exact ⟨_, rfl, marksAndLogOk_takeFrame ok f _ _ (openMark_invariant _)⟩
  | releaseMark f => exact ⟨_, rfl, marksAndLogOk_takeFrame ok f _ _ releaseMark_invariant⟩
  | commit f => exact ⟨_, rfl, marksAndLogOk_takeFrame ok f _ _ commit_invariant⟩
  | rollback f => exact ⟨_, rfl, marksAndLogOk_takeFrame ok f _ _ (rollback_invariant _)⟩
  | checkLog f => exact ⟨_, rfl, marksAndLogOk_takeFrame ok f _ _ (checkLog_invariant _)⟩
  | discard f => exact ⟨_, rfl, marksAndLogOk_takeFrame ok f _ _ discard_invariant⟩
  | softReset f => exact ⟨_, rfl, marksAndLogOk_takeFrame ok f _ _ softReset_invariant⟩

theorem marksAndLogOk_step {s t : State} (ok : MarksAndLogOk s) (h : step s = .next t) : MarksAndLogOk t := by
  unfold step at h
  split at h
  · cases h
    exact ok.congr rfl rfl rfl
  · rename_i c rest _
    have hrest : MarksAndLogOk (s.setPending rest) := ok.congr rfl rfl rfl
    obtain ⟨u, hu, hok⟩ := marksAndLogOk_exec hrest c
    rw [hu] at h
    cases h
    exact hok

/-- Settles O55: the three invariants are one predicate on the marks, the log and RESET_N, which every command that
changes one of them keeps. -/
theorem stepsKeepMarksAndLog : Obligations.StepsKeepMarksAndLog := by
  intro s t hm hr hl hstep
  exact (marksAndLogOk_iff t).mp (marksAndLogOk_step ((marksAndLogOk_iff s).mpr ⟨hm, hr, hl⟩) hstep)

end Sys2Proof.Safety
end

