-- ==== Sys2Proof/Proofs/MarkActions.lean ====
section
/-! What a mark action leaves once its drain has ended (R13 to R16), what a rollback walk leaves once its outcome is
taken (R18, R19), and what an edge of ROLLBACK_REQ does (R24). -/

namespace Sys2Proof.Safety

open Machine

/-- While RESET_N is high a row's happening is taken (R191). -/
theorem next_running {s : State} (hr : Running s) (f : State → State) :
    (.next (s.running f) : Host.Outcome State Fault Refusal) = .next (f s) := by
  rw [running_exec hr]

/-! ### The drain's end (R12 to R16) -/

/-- R13: with no pre-drain entry left, the push changes the mark controller alone. -/
theorem pushMark_of_clear {s : State} (h : ∀ e ∈ s.transit.entries, e.preDrain = false) (label : Label) :
    s.pushMark label = { s with marks := { s.marks with
      state := .opened
      stack := s.marks.stack ++ [⟨s.level + 1, s.marks.nextNumber, label, s.log.tail, s.log.nextSequence⟩]
      nextNumber := s.marks.nextNumber + 1
      action := .noAction } } :=
  State.clearPreDrain_of_clear h

/-- R14: with no pre-drain entry left, the pop changes the mark controller alone. -/
theorem popMark_of_clear {s : State} (h : ∀ e ∈ s.transit.entries, e.preDrain = false) :
    s.popMark = { s with marks := { s.marks with
      state := .opened, stack := s.marks.stack.dropLast, action := .noAction } } :=
  State.clearPreDrain_of_clear h

/-- R15, R62: with no pre-drain entry left, only the mark controller and the log change. -/
theorem commitMarks_of_clear {s : State} (h : ∀ e ∈ s.transit.entries, e.preDrain = false) :
    s.commitMarks = { s with
      marks := { s.marks with state := .idle, stack := [], action := .noAction }
      log := { s.log with tail := 0, nextSequence := 0, crossed := false } } :=
  State.clearPreDrain_of_clear h

/-- R13, R17: the posts of an OPEN taking effect are the latch's alone. -/
theorem openEffect_taken {s : State} {label : Label} (hd : DrainClear s) (ha : s.marks.action = .openMark label) :
    LatchTaken (s.pushMark label).reclassifyAll (happening s Happening.openEffect) [] s.level :=
  settle_taken s Happening.openEffect ((Happening.start s).step (·.pushMark label)) []
    (by simp [Happening.openEffect, ha, drained_of_clear hd (by simp [ha])]) rfl

/-- R14, R15, R17: a RELEASE taking effect is a pop, or at level 1 a COMMIT. -/
theorem releaseEffect_taken {s : State} (hd : DrainClear s) (ha : s.marks.action = .releaseMark) :
    LatchTaken (if 2 ≤ s.level then s.popMark else s.commitMarks).reclassifyAll (happening s Happening.releaseEffect) []
      s.level :=
  settle_taken s Happening.releaseEffect
    ((Happening.start s).step fun s => if 2 ≤ s.level then s.popMark else s.commitMarks) []
    (by simp [Happening.releaseEffect, ha, drained_of_clear hd (by simp [ha])]) rfl

/-- R15, R17: a COMMIT taking effect. -/
theorem commitEffect_taken {s : State} (hd : DrainClear s) (ha : s.marks.action = .commit) :
    LatchTaken s.commitMarks.reclassifyAll (happening s Happening.commitEffect) [] s.level :=
  settle_taken s Happening.commitEffect ((Happening.start s).step State.commitMarks) []
    (by simp [Happening.commitEffect, ha, drained_of_clear hd (by simp [ha])]) rfl

/-- Settles O32: the push, then the two steps of R17. -/
theorem openTakesEffect : Obligations.OpenTakesEffect := by
  intro s label hr hd ha
  obtain ⟨-, hclear, -⟩ := id hd
  refine ⟨_, next_running hr _, ?_⟩
  rw [← pushMark_of_clear hclear label]
  exact openEffect_taken hd ha

/-- Settles O33: RELEASE tells level 1 from the levels above it. -/
theorem releaseAndCommitTakeEffect : Obligations.ReleaseAndCommitTakeEffect := by
  rintro s popped committed hr hd rfl rfl
  obtain ⟨-, hclear, -⟩ := id hd
  rw [← popMark_of_clear hclear, ← commitMarks_of_clear hclear]
  refine ⟨fun ha h2 => ⟨_, next_running hr _, ?_⟩, fun ha h1 => ⟨_, next_running hr _, ?_⟩,
    fun ha => ⟨_, next_running hr _, commitEffect_taken hd ha⟩⟩
  · simpa [h2] using releaseEffect_taken hd ha
  · simpa [h1] using releaseEffect_taken hd ha

/-! ### The beginning of a walk (R16, R129 to R131, R148) -/

/-- R130: a walk over an empty span has ended complete at once. -/
theorem beginWalk_of_empty (h : Happening) (st : EngineState) (o : Origin) (k : Nat) {m : MarkRecord}
    (ht : m.startOffset = h.state.log.tail) (hq : m.firstSequence = h.state.log.nextSequence) :
    h.beginWalk st o k m = h.step (·.setRestore (walkBegun h.state st o k m 0 .noStep)) := by
  unfold Happening.beginWalk
  rw [Happening.boundaryTest_at_end rfl ht.symm (by simp [hq])]
  simp [Happening.step, walkBegun, hq, WalkOutcome.reset, State.lastIssued]

/-- R130, R131, R148: a walk over records begins with the newest one: its header, or the wait for its slot. -/
theorem beginWalk_of_records (h : Happening) (st : EngineState) (o : Origin) (k : Nat) {m : MarkRecord}
    (ht : m.startOffset < h.state.log.tail) (hq : m.firstSequence < h.state.log.nextSequence) :
    h.beginWalk st o k m = h.step (·.setRestore (walkBegun h.state st o k m
      (h.state.log.nextSequence - m.firstSequence)
      (if st = .checking && h.state.slotBusyAt h.state.log.tail then .waitSlot else .header))) := by
  unfold Happening.beginWalk
  rw [Happening.boundaryTest_next rfl (Nat.ne_of_gt ht) (Nat.sub_ne_zero_of_lt hq)]
  rfl

/-- R16: the walk of a ROLLBACK begins in ROLLING_BACK. -/
theorem rollbackEffect_begins {s : State} {k : Nat} {origin : Origin} {m : MarkRecord}
    (hd : RollbackDrainClear s origin) (ha : s.marks.action = .rollback k origin) (hm : s.markAt k = some m) :
    (Happening.start s).rollbackEffect = (Happening.start { s with
      marks := { s.marks with state := .rollingBack, action := .noAction } }).beginWalk .restoring origin k m := by
  obtain ⟨⟨-, hclear, -⟩, -⟩ := id hd
  have hc := State.clearPreDrain_of_clear (s := s.updateMarks fun m =>
    { m with action := .noAction, state := .rollingBack }) hclear
  simp only [Happening.rollbackEffect, Happening.start_state, ha, drained_of_rollback_clear hd ha, hm,
    Happening.beginRollback, Happening.step, hc]
  rfl

/-- Settles O35: the happening posts nothing, and the walk begins as its span is empty or not. -/
theorem rollbackTakesEffect : Obligations.RollbackTakesEffect := by
  rintro s k origin m walking hr hd ha hk hm rfl
  have hbegin := rollbackEffect_begins hd ha (State.markAt_eq_some.mpr ⟨hk, hm⟩)
  have run : ∀ e : RestoreEngine, (Happening.start s).rollbackEffect = Happening.start { s with
      marks := { s.marks with state := .rollingBack, action := .noAction }, restore := e } →
      exec .rollbackTakesEffect s = .next { s with
        marks := { s.marks with state := .rollingBack, action := .noAction }, restore := e } := by
    intro e he
    refine (next_running hr _).trans (congrArg _ ?_)
    rw [happening_of_no_post _ _ (by rw [he]; rfl), he]
    rfl
  refine ⟨fun ht hq => run _ ?_, fun ht hq => run _ ?_⟩
  · rw [hbegin, beginWalk_of_empty _ _ _ _ ht hq]
    rfl
  · rw [hbegin, beginWalk_of_records _ _ _ _ ht hq]
    rfl

/-! ### The outcome of a rollback (R18, R19, R142) -/

theorem outcomeReady_of {s : State} (hs : s.marks.state = .rollingBack) (he : s.restore.state = .restoring)
    (hw : WalkOver s.restore) : s.outcomeReady = true := by
  simp [State.outcomeReady, hs, he, walkEnded_of_over hw]

/-- R18: a walk that ended complete with no failed record. -/
theorem takeOutcome_complete {s : State} {m : MarkRecord} (hready : s.outcomeReady = true)
    (hf : s.restore.outcome.failed = 0) (hst : s.restore.outcome.stopped = false)
    (hm : s.markAt s.restore.outcome.level = some m) :
    (Happening.start s).takeOutcome =
      ((Happening.start s).step (·.updateEngine RestoreEngine.toIdle)).rollbackDone s.restore.outcome m := by
  have hm' : (s.updateEngine RestoreEngine.toIdle).markAt s.restore.outcome.level = some m := hm
  simp [Happening.takeOutcome, hready, hf, hst, hm']

/-- R19: a walk that stopped or met a failed record. -/
theorem takeOutcome_incomplete {s : State} (hready : s.outcomeReady = true)
    (hf : s.restore.outcome.failed ≠ 0 ∨ s.restore.outcome.stopped = true) :
    (Happening.start s).takeOutcome =
      ((Happening.start s).step (·.updateEngine RestoreEngine.toIdle)).rollbackIncomplete s.restore.outcome := by
  rcases hf with hf | hf <;> simp [Happening.takeOutcome, hready, hf]

/-- Settles O36: one post of the mark controller, then the two steps of R17. -/
theorem completeRollbackOutcome : Obligations.CompleteRollbackOutcome := by
  intro s m hr hs he hw hf hst hk hm
  refine ⟨_, next_running hr _, ?_⟩
  exact settle_taken s Happening.takeOutcome _ [_]
    (takeOutcome_complete (outcomeReady_of hs he hw) hf hst (State.markAt_eq_some.mpr ⟨hk, hm⟩)) rfl

/-- Settles O37: entry to BROKEN with one post, then the two steps of R17. -/
theorem incompleteRollbackOutcome : Obligations.IncompleteRollbackOutcome := by
  intro s hr hs he hw hf
  refine ⟨_, next_running hr _, ?_⟩
  rw [← enterBroken_eq]
  exact settle_taken s Happening.takeOutcome _ [_] (takeOutcome_incomplete (outcomeReady_of hs he hw) hf) rfl

/-! ### The rollback line (R23, R24, R191) -/

/-- R191: a rising edge of a low line is one line request. -/
theorem exec_risingEdge {s : State} (hr : Running s) (hp : s.pins.rollbackReq = false) :
    exec .rollbackReqRisingEdge s = .next (happening (s.setRollbackReq true) Happening.lineRequest) := by
  show Host.Outcome.next s.risingEdge = _
  simp [State.risingEdge, hp, show s.pins.resetLow = false from hr]

/-- An edge that is ignored posts LINE_IGNORED at the level that stands. -/
theorem happening_of_ignored {s : State} {reason : IgnoreReason}
    (h : (Happening.start s).lineRequest = (Happening.start s).ignoreLine reason) :
    happening s Happening.lineRequest = takePost s (.lineIgnored reason) s.level := by
  rw [happening_of_one_post s _ .markController (.lineIgnored reason) (by rw [h]; rfl) (.inl rfl), h]
  rfl

/-- Settles O8: the rows of R24, each by what its line request comes to. -/
theorem rollbackReqEdges : Obligations.RollbackReqEdges := by
  refine ⟨fun s hr => ⟨rfl, fun hs => ?_, fun hp => ?_⟩, ?_⟩
  · cases hp : s.pins.rollbackReq with
    | false =>
      have hl := lineRequest_of_not_ready (h := Happening.start (s.setRollbackReq true)) hs
      rw [exec_risingEdge hr hp, happening_of_no_post _ _ (by rw [hl]; rfl), hl]
      rfl
    | true =>
      show Host.Outcome.next s.risingEdge = _
      rw [show s.risingEdge = s by simp [State.risingEdge, hp], ← hp]
  · show Host.Outcome.next s.risingEdge = _
    simp [State.risingEdge, hp]
  rintro s _ _ hr hready hp rfl rfl
  rw [exec_risingEdge hr hp]
  let high := Happening.start (s.setRollbackReq true)
  refine ⟨fun he => congrArg _ (happening_of_ignored (lineRequest_of_disabled (h := high) hready he)),
    fun he hs => congrArg _ (happening_of_ignored (lineRequest_of_idle (h := high) he hs)),
    fun he hs => congrArg _ (happening_of_ignored (lineRequest_of_broken (h := high) he hs)),
    fun he hs hl => congrArg _ (happening_of_ignored (lineRequest_of_low_level (h := high) he hs hl)),
    fun he hs hl => ⟨fun hc => ?_, fun hc hn => ⟨fun hq => ?_, fun hq => ?_⟩⟩, fun he hs => ?_⟩
  · have hd := (lineRequest_of_opened (h := high) he hs hl).trans (abandonCheck_none hc)
    rw [happening_of_no_post _ _ (by rw [hd]; rfl), hd]
    rfl
  · have hd := (lineRequest_of_opened (h := high) he hs hl).trans (abandonCheck_ends hc hn hq)
    rw [happening_of_one_post _ _ .restoreEngine (.checkDone s.restore.outcome .abandoned) (by rw [hd]; rfl)
      (.inr (by rw [hd]; rfl)), hd]
    rfl
  · have hd := (lineRequest_of_opened (h := high) he hs hl).trans (abandonCheck_goesOn hc hn hq)
    rw [happening_of_no_post _ _ (by rw [hd]; rfl), hd]
    rfl
  · have hd := lineRequest_of_busy (h := high) he hs
    rw [happening_of_no_post _ _ (by rw [hd]; rfl), hd]
    rfl

end Sys2Proof.Safety
end

