-- ==== Sys2Proof/Proofs/MarkCommands.lean ====
section
/-! The mark commands (R6 to R11): the refusals of R6 row by row, and what a command that is taken leaves. -/

namespace Sys2Proof.Safety

open Machine

/-! ### Frames that reach their owner (R175, R176) -/

/-- A delivered frame is answered as its owner answers it on the state with SPI_MISO driven: where that answer is the
state `t` with SPI_MISO driven, the reply stands in `t`. -/
theorem next_takeFrame {s t : State} {f : Frame} {i n : Nat} {anyState : Bool} {owner : State → Answer}
    {status : Status} {payload : List Byte} (h : Delivered s f n) (hm : i + n ≤ 48)
    (ho : owner (s.driveCommandPeriod (f.clocks (i + n))) =
      ⟨t.driveCommandPeriod (f.clocks (i + n)), status, payload⟩) :
    (.next (takeFrame s f i (i + n) anyState owner) : Host.Outcome State Fault Refusal) =
      .next (replied t f (i + n) status payload) := by
  obtain ⟨hr, ⟨h1, h2⟩, hb, hl⟩ := h
  rw [takeFrame_taken s f i (i + n) anyState owner hr hb (by rw [hl]) hm (by simp [State.notReady, h1, h2]), ho]
  rfl

@[simp] theorem level_driveCommandPeriod (s : State) (n : Nat) : (s.driveCommandPeriod n).level = s.level := rfl

@[simp] theorem context?_driveCommandPeriod (s : State) (n : Nat) (c : ContextNo) :
    (s.driveCommandPeriod n).context? c = s.context? c := rfl

@[simp] theorem markBusy_driveCommandPeriod (s : State) (n : Nat) :
    (s.driveCommandPeriod n).markBusy = s.markBusy := rfl

/-! ### The first rows of R6 -/

theorem markBusy_of_busy {s : State}
    (h : s.marks.state = .draining ∨ s.marks.state = .rollingBack ∨ s.marks.latch = true) :
    s.markBusy = some .busy := by
  rcases h with h | h | h <;> simp [State.markBusy, h]

theorem markBusy_of_broken {s : State} (hl : s.marks.latch = false) (hs : s.marks.state = .broken) :
    s.markBusy = some .refusedBroken := by
  simp [State.markBusy, hl, hs]

theorem markBusy_of_open {s : State} (hl : s.marks.latch = false)
    (hs : s.marks.state = .idle ∨ s.marks.state = .opened) : s.markBusy = none := by
  rcases hs with hs | hs <;> simp [State.markBusy, hl, hs]

/-- R6: a refusal for the controller's state holds for every mark command but DISCARD. -/
theorem markCommands_refused {s : State} {f : Frame} {status : Status} (h : s.markBusy = some status) :
    (Delivered s f 4 → exec (.openMark f) s = .next (replied s f 4 status [])) ∧
    (Delivered s f 0 → exec (.releaseMark f) s = .next (replied s f 0 status []) ∧
      exec (.commit f) s = .next (replied s f 0 status [])) ∧
    (Delivered s f 1 → exec (.rollback f) s = .next (replied s f 1 status []) ∧
      exec (.checkLog f) s = .next (replied s f 1 status [])) := by
  refine ⟨fun hd => next_takeFrame hd (by decide) ?_, fun hd => ⟨next_takeFrame hd (by decide) ?_,
    next_takeFrame hd (by decide) ?_⟩, fun hd => ⟨next_takeFrame hd (by decide) ?_, next_takeFrame hd (by decide) ?_⟩⟩
  · simp [answerOpenMark, h, State.refuse]
  · simp [answerReleaseMark, h, State.refuse]
  · simp [answerCommit, h, State.refuse]
  · simp [answerRollback, h, State.refuse]
  · simp [answerCheckLog, h, State.refuse]

/-! ### Each command's own rows -/

/-- R6: OPEN_MARK with no log, with four marks, and with no number left. -/
theorem answerOpenMark_eq {s : State} (hb : s.markBusy = none) (label : Label) :
    answerOpenMark label s =
      if s.log.size = 0 then s.refuse .refusedState
      else if s.marks.state = .opened ∧ s.level = 4 then s.refuse .levelLimit
      else if 4294967295 < s.marks.nextNumber then s.refuse .numbersExhausted
      else ⟨s.startDrain (.openMark label), .accepted, []⟩ := by
  simp [answerOpenMark, hb, State.numbersExhausted, Config.max32, Config.markLevels]

theorem answerReleaseMark_eq {s : State} (hb : s.markBusy = none) :
    answerReleaseMark s =
      if s.marks.state = .idle then s.refuse .refusedState
      else if s.restore.state = .checking ∧ s.level = 1 then s.refuse .busy
      else ⟨s.startDrain .releaseMark, .accepted, []⟩ := by
  simp [answerReleaseMark, hb, State.checkRunning]

theorem answerCommit_eq {s : State} (hb : s.markBusy = none) :
    answerCommit s =
      if s.marks.state = .idle then s.refuse .refusedState
      else if s.restore.state = .checking then s.refuse .busy
      else ⟨s.startDrain .commit, .accepted, []⟩ := by
  simp [answerCommit, hb, State.checkRunning]

theorem answerRollback_eq {s : State} (hb : s.markBusy = none) (k : Nat) :
    answerRollback k s =
      if s.marks.state = .idle then s.refuse .refusedState
      else if s.restore.state = .checking then s.refuse .busy
      else if k < 1 ∨ s.level < k then s.refuse .refusedRange
      else ⟨s.startDrain (.rollback k .command), .accepted, []⟩ := by
  simp [answerRollback, hb, State.checkRunning]

/-- R6: ROLLBACK to a level without a mark. -/
theorem answerRollback_out_of_range {s : State} (hb : s.markBusy = none) (hs : s.marks.state = .opened)
    (he : s.restore.state = .idle) {k : Nat} (hk : k < 1 ∨ s.level < k) :
    answerRollback k s = s.refuse .refusedRange := by
  rw [answerRollback_eq hb, if_neg (by simp [hs]), if_neg (by simp [he]), if_pos hk]

/-- R6: CHECK_LOG is refused in IDLE, and while the restore engine is busy. -/
theorem answerCheckLog_refused {s : State} (hb : s.markBusy = none) (k : Nat)
    (h : s.marks.state = .idle ∨ s.restore.state ≠ .idle) :
    answerCheckLog k s = s.refuse (if s.marks.state = .idle then .refusedState else .busy) := by
  by_cases hs : s.marks.state = .idle
  · simp [answerCheckLog, hb, hs]
  · simp [answerCheckLog, hb, hs, h.resolve_left hs]

/-- R6: CHECK_LOG of a level without a mark. -/
theorem answerCheckLog_out_of_range {s : State} (hb : s.markBusy = none) (hs : s.marks.state = .opened)
    (he : s.restore.state = .idle) {k : Nat} (hk : k < 1 ∨ s.level < k) :
    answerCheckLog k s = s.refuse .refusedRange := by
  have hm : s.markAt k = none := by
    rcases hk with hk | hk
    · simp [State.markAt, Nat.lt_one_iff.mp hk]
    · simp only [State.level] at hk
      simp only [State.markAt, ite_eq_left_iff]
      exact fun _ => List.getElem?_eq_none (by omega)
  simp [answerCheckLog, hb, hs, he, State.checkRunning, hm]

/-- R6, R10: DISCARD. -/
theorem answerDiscard_eq (s : State) :
    answerDiscard s =
      if s.marks.state ≠ .broken then s.refuse .refusedState
      else if ¬ ((∀ c, s.context? c = none) ∧ s.restore.state = .idle) then s.refuse .busy
      else ({ s with
        marks := { s.marks with state := .idle, reason := .noReason }
        log := { s.log with tail := 0, nextSequence := 0, crossed := false }
        save := { s.save with fullBar := false } } : State).done := by
  have hf : (!s.allContextsFree || s.restore.state != .idle) = true ↔
      ¬ ((∀ c, s.context? c = none) ∧ s.restore.state = .idle) := by
    simp [← State.allContextsFree_iff, or_iff_not_imp_left]
  simp only [answerDiscard, bne_iff_ne, hf]
  rfl

/-- Settles O50: each row by the owner's equation. -/
theorem markCommandsRefused : Obligations.MarkCommandsRefused := by
  rintro s f _ rfl
  refine ⟨fun h => markCommands_refused (markBusy_of_busy h),
    fun hl hs => markCommands_refused (markBusy_of_broken hl hs), fun hl hs => ?_, fun hl hs hd => ?_,
    fun hl hs hc => ?_, fun hl hs he hd hk => ?_, fun hl hs he hd => ?_, fun hd => ⟨fun hs => ?_, fun hs hbusy => ?_⟩⟩
  · have hb := markBusy_of_open hl (.inl hs)
    refine ⟨fun hd => ⟨next_takeFrame hd (by decide) ?_, next_takeFrame hd (by decide) ?_⟩,
      fun hd => ⟨next_takeFrame hd (by decide) ?_, next_takeFrame hd (by decide) ?_⟩⟩
    · simp [answerReleaseMark_eq, hb, hs, State.refuse]
    · simp [answerCommit_eq, hb, hs, State.refuse]
    · simp [answerRollback_eq, hb, hs, State.refuse]
    · simp [answerCheckLog_refused, hb, hs, State.refuse]
  · have hb := markBusy_of_open hl hs
    refine ⟨fun h0 => next_takeFrame hd (by decide) ?_, fun h0 ho h4 => next_takeFrame hd (by decide) ?_,
      fun h0 hn hx => next_takeFrame hd (by decide) ?_⟩
    · simp [answerOpenMark_eq, hb, h0, State.refuse]
    · simp [answerOpenMark_eq, hb, h0, ho, h4, State.refuse]
    · have hroom : ¬ (s.marks.state = .opened ∧ s.level = 4) := by
        rcases hn with hn | hn <;> simp [hn]
      simp [answerOpenMark_eq, hb, h0, hroom, hx, State.refuse]
  · have hb := markBusy_of_open hl (.inr hs)
    refine ⟨fun hd => ⟨fun h1 => next_takeFrame hd (by decide) ?_, next_takeFrame hd (by decide) ?_⟩,
      fun hd => ⟨next_takeFrame hd (by decide) ?_, next_takeFrame hd (by decide) ?_⟩⟩
    · simp [answerReleaseMark_eq, hb, hs, hc, h1, State.refuse]
    · simp [answerCommit_eq, hb, hs, hc, State.refuse]
    · simp [answerRollback_eq, hb, hs, hc, State.refuse]
    · simp [answerCheckLog_refused, hb, hs, hc, State.refuse]
  · have hb := markBusy_of_open hl (.inr hs)
    exact ⟨next_takeFrame hd (by decide) (answerRollback_out_of_range (s := s.driveCommandPeriod _) hb hs he hk),
      next_takeFrame hd (by decide) (answerCheckLog_out_of_range (s := s.driveCommandPeriod _) hb hs he hk)⟩
  · have hb := markBusy_of_open hl (.inr hs)
    exact next_takeFrame hd (by decide) (by simp [answerCheckLog_refused, hb, hs, he, State.refuse])
  · exact next_takeFrame hd (by decide) (by simp [answerDiscard_eq, hs, State.refuse])
  · have hn : ¬ ((∀ c, s.context? c = none) ∧ s.restore.state = .idle) := by simpa [or_iff_not_imp_left] using hbusy
    exact next_takeFrame hd (by decide) (by simp [answerDiscard_eq, hs, hn, State.refuse])

/-! ### Commands that are taken (R7 to R11) -/

theorem answerOpenMark_taken {s : State} (hb : s.markBusy = none) (h0 : s.log.size ≠ 0)
    (hroom : ¬ (s.marks.state = .opened ∧ s.level = 4)) (hn : s.marks.nextNumber ≤ 4294967295) (label : Label) :
    answerOpenMark label s = ⟨s.startDrain (.openMark label), .accepted, []⟩ := by
  rw [answerOpenMark_eq hb, if_neg h0, if_neg hroom, if_neg (Nat.not_lt.mpr hn)]

theorem answerReleaseMark_taken {s : State} (hb : s.markBusy = none) (hs : s.marks.state = .opened)
    (hc : s.restore.state ≠ .checking ∨ s.level ≠ 1) :
    answerReleaseMark s = ⟨s.startDrain .releaseMark, .accepted, []⟩ := by
  rw [answerReleaseMark_eq hb, if_neg (by simp [hs]), if_neg (not_and_or.mpr hc)]

theorem answerCommit_taken {s : State} (hb : s.markBusy = none) (hs : s.marks.state = .opened)
    (hc : s.restore.state ≠ .checking) : answerCommit s = ⟨s.startDrain .commit, .accepted, []⟩ := by
  rw [answerCommit_eq hb, if_neg (by simp [hs]), if_neg hc]

theorem answerRollback_taken {s : State} (hb : s.markBusy = none) (hs : s.marks.state = .opened)
    (hc : s.restore.state ≠ .checking) {k : Nat} (hk : 1 ≤ k) (hkl : k ≤ s.level) :
    answerRollback k s = ⟨s.startDrain (.rollback k .command), .accepted, []⟩ := by
  rw [answerRollback_eq hb, if_neg (by simp [hs]), if_neg hc, if_neg (by omega)]

theorem answerDiscard_taken {s : State} (hs : s.marks.state = .broken) (hfree : ∀ c, s.context? c = none)
    (he : s.restore.state = .idle) :
    answerDiscard s = ({ s with
      marks := { s.marks with state := .idle, reason := .noReason }
      log := { s.log with tail := 0, nextSequence := 0, crossed := false }
      save := { s.save with fullBar := false } } : State).done := by
  rw [answerDiscard_eq, if_neg (not_not.mpr hs), if_neg (not_not.mpr ⟨hfree, he⟩)]

/-- Settles O48: none of the owner's refusals applies. -/
theorem markCommandsTaken : Obligations.MarkCommandsTaken := by
  rintro s f _ rfl hl
  have hopen : s.marks.state = .opened → s.markBusy = none := fun hs => markBusy_of_open hl (.inr hs)
  refine ⟨fun hd hs h0 hn => next_takeFrame hd (by decide) ?_, fun hd hs hc => next_takeFrame hd (by decide) ?_,
    fun hd hs hc => next_takeFrame hd (by decide) ?_, fun hd hs hc hk hkl => next_takeFrame hd (by decide) ?_,
    fun hd hs hfree he => next_takeFrame hd (by decide) ?_⟩
  · have hb : s.markBusy = none := markBusy_of_open hl (hs.imp_right And.left)
    have hroom : ¬ (s.marks.state = .opened ∧ s.level = 4) := by
      rcases hs with hs | ⟨-, hs⟩ <;> simp [hs]
    exact answerOpenMark_taken (s := s.driveCommandPeriod _) hb h0 hroom hn _
  · exact answerReleaseMark_taken (s := s.driveCommandPeriod _) (hopen hs) hs hc
  · exact answerCommit_taken (s := s.driveCommandPeriod _) (hopen hs) hs hc
  · exact answerRollback_taken (s := s.driveCommandPeriod _) (hopen hs) hs hc hk hkl
  · exact answerDiscard_taken (s := s.driveCommandPeriod _) hs hfree he

/-- R6, R9: CHECK_LOG of a mark on the stack. -/
theorem answerCheckLog_taken {s : State} (hb : s.markBusy = none) (hs : s.marks.state = .opened)
    (he : s.restore.state = .idle) {k : Nat} {m : MarkRecord} (hm : s.markAt k = some m) :
    answerCheckLog k s = ⟨((Happening.start s).beginWalk .checking .command k m).state, .accepted, []⟩ := by
  simp [answerCheckLog, hb, hs, he, State.checkRunning, hm]

/-- Settles O49: the walk posts nothing, and begins as its span is empty, its slot free or its slot held. -/
theorem checkLogTaken : Obligations.CheckLogTaken := by
  rintro s f k m _ hd rfl hl hs he hk hm rfl
  have taken : ∀ e : RestoreEngine,
      (∀ n, (Happening.start (s.driveCommandPeriod n)).beginWalk .checking .command (byteAt f.payload 0).toNat m =
        (Happening.start (s.driveCommandPeriod n)).step (·.setRestore e)) →
      exec (.checkLog f) s = .next (replied { s with restore := e } f 1 .accepted []) := by
    intro e hwalk
    refine next_takeFrame hd (by decide) ?_
    refine (answerCheckLog_taken (s := s.driveCommandPeriod _) (markBusy_of_open hl (.inr hs)) hs he
      (State.markAt_eq_some.mpr ⟨hk, hm⟩)).trans ?_
    rw [hwalk]
    rfl
  refine ⟨fun ht hq => taken _ fun n => beginWalk_of_empty _ _ _ _ ht hq, fun ht hq => ⟨fun hfree => ?_,
    fun c x hx ho => ?_⟩⟩
  · have hslot : ∀ n, (s.driveCommandPeriod n).slotBusyAt s.log.tail = false := by
      intro n
      rw [← Bool.not_eq_true, State.slotBusyAt_iff]
      rintro ⟨c, x, hx, ho⟩
      exact hfree c x hx ho
    refine taken _ fun n => (beginWalk_of_records _ _ _ _ ht hq).trans ?_
    simp [hslot, walkBegun]
  · have hslot : ∀ n, (s.driveCommandPeriod n).slotBusyAt s.log.tail = true := fun n =>
      (State.slotBusyAt_iff _ _).mpr ⟨c, x, hx, ho⟩
    refine taken _ fun n => (beginWalk_of_records _ _ _ _ ht hq).trans ?_
    simp [hslot, walkBegun]

end Sys2Proof.Safety
end

