-- ==== Sys2Proof/Proofs/Items.lean ====
section
/-! The configuration items other than the log area's (R23, R57, R60, R122, R166, R182, R183): what their writes are
answered. -/

namespace Sys2Proof.Safety

open Machine

/-- A write that is stored where its value is one of the item's, and refused otherwise. -/
theorem next_takeFrame_ite {s t : State} {f : Frame} {i n : Nat} {anyState : Bool} {owner : State → Answer} {P : Prop}
    [Decidable P] (h : Delivered s f n) (hm : i + n ≤ 48)
    (ho : owner (s.driveCommandPeriod (f.clocks (i + n))) =
      if P then (t.driveCommandPeriod (f.clocks (i + n))).done
      else (s.driveCommandPeriod (f.clocks (i + n))).refuse .refusedRange) :
    if P then (.next (takeFrame s f i (i + n) anyState owner) : Host.Outcome State Fault Refusal) =
      .next (replied t f (i + n) .ok [])
    else (.next (takeFrame s f i (i + n) anyState owner) : Host.Outcome State Fault Refusal) =
      .next (replied s f (i + n) .refusedRange []) := by
  split
  · exact next_takeFrame h hm (ho.trans (if_pos ‹_›))
  · exact next_takeFrame h hm (ho.trans (if_neg ‹_›))

/-! ### What each item's owner answers -/

/-- R60: the threshold with its flag. -/
theorem answerWriteLogThreshold_eq (v : Nat) (s : State) :
    answerWriteLogThreshold v s =
      if v % 4096 = 0 ∧ v ≤ s.log.size then ({ s with
        log := { s.log with threshold := v, crossed := decide (v ≠ 0 ∧ v ≤ s.log.tail) } } : State).done
      else s.refuse .refusedRange := by
  have hc : thresholdCrossed v s.log.tail = decide (v ≠ 0 ∧ v ≤ s.log.tail) := by
    rw [Bool.eq_iff_iff]
    simp [thresholdCrossed]
  unfold answerWriteLogThreshold
  rw [hc]
  by_cases h : v % 4096 = 0 ∧ v ≤ s.log.size
  · rw [if_neg (by simpa using h), if_pos h]
    rfl
  · rw [if_pos (by simpa [imp_iff_not_or] using h), if_neg h]

/-- R37, R182. -/
theorem answerWriteLogReader_eq (enable reqMatch reqMask : Nat) (s : State) :
    answerWriteLogReader enable reqMatch reqMask s =
      if enable ≤ 1 ∧ reqMatch ≤ 63 ∧ reqMask ≤ 63 then ({ s with
        windows := { s.windows with
          reader := ⟨decide (enable = 1), BitVec.ofNat 6 reqMatch, BitVec.ofNat 6 reqMask⟩ } } : State).done
      else s.refuse .refusedRange := by
  unfold answerWriteLogReader
  by_cases h : enable ≤ 1 ∧ reqMatch ≤ 63 ∧ reqMask ≤ 63
  · rw [if_neg (by simpa [and_assoc] using h), if_pos h]
    rfl
  · rw [if_pos (by simp only [Bool.or_eq_true, decide_eq_true_eq]; omega), if_neg h]

/-- R122. -/
theorem answerWriteResponseTimeout_eq (v : Nat) (s : State) :
    answerWriteResponseTimeout v s =
      if v ≤ 65535 then ({ s with mgmt := { s.mgmt with responseTimeout := v } } : State).done
      else s.refuse .refusedRange := by
  unfold answerWriteResponseTimeout
  by_cases h : v ≤ 65535
  · rw [if_neg (Nat.not_lt.mpr h), if_pos h]
    rfl
  · rw [if_pos (Nat.not_le.mp h), if_neg h]

/-- R183: PART_REQUESTER_ID in IDLE. -/
theorem answerWritePartRequesterId_of_idle (v : Nat) {s : State} (hs : s.marks.state = .idle) :
    answerWritePartRequesterId v s =
      if v ≤ 63 then ({ s with mgmt := { s.mgmt with partRequesterId := BitVec.ofNat 6 v } } : State).done
      else s.refuse .refusedRange := by
  unfold answerWritePartRequesterId
  rw [if_neg (by simp [hs])]
  by_cases h : v ≤ 63
  · rw [if_neg (Nat.not_lt.mpr h), if_pos h]
    rfl
  · rw [if_pos (Nat.not_le.mp h), if_neg h]

/-- R164: NOTICE_N brought up to date. -/
theorem updateLine_eq (s : State) :
    s.updateLine = { s with notice := { s.notice with asserted := decide (s.mgmt.noticeTrigger ≤ s.notice.queue.length ∨
      (1 ≤ s.notice.queue.length ∧ s.mgmt.noticeQuiet ≠ 0 ∧ s.mgmt.noticeQuiet ≤ s.now - s.notice.quietStart)) } } := by
  have hd : s.noticeDue = decide (s.mgmt.noticeTrigger ≤ s.notice.queue.length ∨
      (1 ≤ s.notice.queue.length ∧ s.mgmt.noticeQuiet ≠ 0 ∧
        s.mgmt.noticeQuiet ≤ s.now - s.notice.quietStart)) := by
    rw [Bool.eq_iff_iff]
    simp [State.noticeDue, and_assoc]
  unfold State.updateLine
  rw [hd]
  rfl

/-- R164, R166. -/
theorem answerWriteNoticeTrigger_eq (v : Nat) (s : State) :
    answerWriteNoticeTrigger v s =
      if v ∈ [1, 4, 8, 16] then ({ s with mgmt := { s.mgmt with noticeTrigger := v } } : State).updateLine.done
      else s.refuse .refusedRange := by
  unfold answerWriteNoticeTrigger
  by_cases h : v ∈ [1, 4, 8, 16]
  · rw [if_neg (by simpa [imp_iff_not_or, or_assoc] using h), if_pos h]
    rfl
  · rw [if_pos (by simpa [and_assoc] using h), if_neg h]

/-- R164, R166. -/
theorem answerWriteNoticeQuiet_eq (v : Nat) (s : State) :
    answerWriteNoticeQuiet v s =
      if v = 0 ∨ (16 ≤ v ∧ v ≤ 4096) then ({ s with mgmt := { s.mgmt with noticeQuiet := v } } : State).updateLine.done
      else s.refuse .refusedRange := by
  unfold answerWriteNoticeQuiet
  by_cases h : v = 0 ∨ (16 ≤ v ∧ v ≤ 4096)
  · rw [if_neg (by simpa [imp_iff_not_or] using h), if_pos h]
    rfl
  · rw [if_pos (by simpa [imp_iff_not_or] using h), if_neg h]

/-- R23, R183. -/
theorem answerWriteLineRollback_eq (enable target : Nat) (s : State) :
    answerWriteLineRollback enable target s =
      if enable ≤ 1 ∧ 1 ≤ target ∧ target ≤ 4 then ({ s with
        mgmt := { s.mgmt with lineRollback := ⟨decide (enable = 1), target⟩ } } : State).done
      else s.refuse .refusedRange := by
  unfold answerWriteLineRollback
  by_cases h : enable ≤ 1 ∧ 1 ≤ target ∧ target ≤ 4
  · rw [if_neg (by simp only [Bool.or_eq_true, decide_eq_true_eq]; omega), if_pos h]
    rfl
  · rw [if_pos (by simp only [Bool.or_eq_true, decide_eq_true_eq]; omega), if_neg h]

/-- R57. -/
theorem answerWriteLogFullPolicy_eq (v : Nat) (s : State) :
    answerWriteLogFullPolicy v s =
      if v = 0 then ({ s with log := { s.log with policy := .breakMarks } } : State).done
      else if v = 1 then ({ s with log := { s.log with policy := .refuse } } : State).done
      else s.refuse .refusedRange := by
  match v with
  | 0 => rfl
  | 1 => rfl
  | v + 2 => rfl

/-- Settles O44: each item by its owner's equation. -/
theorem otherItemsWritten : Obligations.OtherItemsWritten := by
  rintro s f _ _ _ _ _ _ hd rfl rfl rfl rfl rfl rfl
  refine ⟨next_takeFrame_ite hd (by decide) (answerWriteLogThreshold_eq _ _), ?_,
    next_takeFrame_ite hd (by decide) (answerWriteLogReader_eq _ _ _ _), ?_,
    next_takeFrame_ite hd (by decide) (answerWriteResponseTimeout_eq _ _), ?_, ?_,
    next_takeFrame_ite hd (by decide) (answerWriteLineRollback_eq _ _ _)⟩
  · have hp := answerWriteLogFullPolicy_eq (itemValue f) (s.driveCommandPeriod (f.clocks (1 + 8)))
    by_cases h0 : leField f.payload 0 8 = 0
    · rw [if_pos h0]
      exact next_takeFrame hd (by decide) (hp.trans (if_pos h0))
    · rw [if_neg h0]
      exact next_takeFrame_ite hd (by decide) (hp.trans (if_neg h0))
  · by_cases hs : s.marks.state = .idle
    · rw [if_neg (not_not.mpr hs)]
      exact next_takeFrame_ite hd (by decide) (answerWritePartRequesterId_of_idle _ hs)
    · rw [if_pos hs]
      exact next_takeFrame hd (by decide) (by simp [answerWritePartRequesterId, hs, State.refuse])
  · have ht := answerWriteNoticeTrigger_eq (itemValue f) (s.driveCommandPeriod (f.clocks (1 + 8)))
    rw [updateLine_eq] at ht
    exact next_takeFrame_ite hd (by decide) ht
  · have hq := answerWriteNoticeQuiet_eq (itemValue f) (s.driveCommandPeriod (f.clocks (1 + 8)))
    rw [updateLine_eq] at hq
    exact next_takeFrame_ite hd (by decide) hq

end Sys2Proof.Safety
end

