-- ==== Sys2Proof/Proofs/ResetState.lean ====
section
/-! The reset state: the values the manual gives it, and the invariants it meets (R1, R27, R48, R64, R105, R126, R127,
R159, R190). -/

namespace Sys2Proof.Safety

open Machine

/-! ### The tables at reset (R27, R64, R126) -/

@[simp] theorem window_reset (w : WindowNo) : State.reset.window w = WindowRecord.reset := by
  simp [State.window, State.reset, WindowUnit.reset]

theorem contexts_reset (c : ContextNo) : State.reset.save.contexts[c] = SaveContext.reset := by
  simp [State.reset, SaveEngine.reset]

@[simp] theorem context?_reset (c : ContextNo) : State.reset.context? c = none := by
  simp [State.context?, State.reset, SaveEngine.reset]

@[simp] theorem tag_reset (t : TagNo) : State.reset.tag t = .free := by
  simp [State.tag, State.reset, DownstreamPort.reset]

theorem passThroughCount_reset : State.reset.passThroughCount = 0 := by
  simp [State.passThroughCount, State.tagCount, State.reset, DownstreamPort.reset, TagEntry.isPassThrough,
    TagEntry.record?]

/-- R64, R79. -/
theorem contextCleared_reset (c : ContextNo) : ContextCleared (State.reset.save.contexts[c]) := by
  rw [contexts_reset]
  exact ⟨rfl, rfl, rfl, rfl, rfl, rfl⟩

/-- Settles O4: the tables are read entry by entry, every other field is the reset value itself. -/
theorem resetStateHoldsResetValues : Obligations.ResetStateHoldsResetValues :=
  ⟨rfl, window_reset, rfl, rfl, rfl, rfl, contextCleared_reset, rfl, rfl, rfl, rfl, tag_reset, rfl, rfl, rfl, rfl, rfl,
    rfl, rfl, rfl, rfl, rfl, rfl, rfl, rfl, rfl, rfl, rfl, rfl, rfl, rfl, rfl⟩

/-! ### The invariants at reset -/

theorem noticeUnitOk_reset : NoticeUnitOk State.reset := by
  simp [NoticeUnitOk, State.reset, NoticeUnit.resetAt, Counters.reset]

theorem transitOk_reset : TransitOk State.reset := by
  simp [TransitOk, State.reset, TransitBuffer.reset]

theorem downstreamOk_reset : DownstreamOk State.reset :=
  ⟨passThroughCount_reset ▸ Nat.zero_le _, Nat.zero_le _, List.Perm.refl _⟩

theorem marksAndLogOk_reset : MarksAndLogOk State.reset :=
  ⟨StackOk.nil _ _, ⟨Nat.le_refl _, by decide⟩, Nat.le_refl _, crossedOk_reset, rfl, rfl, rfl, rfl, rfl, rfl, rfl⟩

theorem mapOk_reset : MapOk State.reset := by
  refine ⟨mapWf_reset, by simp [State.reset, MarkController.reset], fun c x hx => ?_,
    by simp [State.reset, TransitBuffer.reset]⟩
  simp at hx

theorem windowsOk_reset : WindowsOk State.reset := by
  simp [WindowsOk, WindowRecord.reset]

theorem itemsOk_reset : ItemsOk State.reset := by
  unfold ItemsOk
  decide

theorem enginesOk_reset : EnginesOk State.reset := by
  refine ⟨List.nodup_nil, fun c => ?_, fun c x hx => ?_, Nat.zero_le _⟩
  · simp [State.reset, SaveEngine.reset, State.context?]
  · simp at hx

theorem resetPhaseOk_reset : ResetPhaseOk State.reset := by
  simp [ResetPhaseOk, State.reset, ManagementPort.reset, MarkController.reset]

/-- Settles O59: each invariant by its own lemma. -/
theorem resetStateMeetsTheInvariants : Obligations.ResetStateMeetsTheInvariants := by
  obtain ⟨hm, hr, hl⟩ := (marksAndLogOk_iff State.reset).mp marksAndLogOk_reset
  exact ⟨noticeUnitOk_reset, transitOk_reset, downstreamOk_reset, hm, hr, hl, mapOk_reset, windowsOk_reset,
    itemsOk_reset, enginesOk_reset, resetPhaseOk_reset⟩

end Sys2Proof.Safety
end

