-- ==== Sys2Proof/Proofs/StatusReplies.lean ====
section
/-! GET_STATUS, GET_MARKS and READ_CONFIG (R3, R178, R179, R181, R195, R197): the bytes of their replies, read back. -/

namespace Sys2Proof.Safety

open Machine

/-! ### Reading a layout -/

theorem byteAt_front (front rest : List Byte) (a : Nat) (h : a < front.length) :
    byteAt (front ++ rest) a = byteAt front a := by
  simp [byteAt, List.getElem?_append_left h]

theorem leField_front (front rest : List Byte) (a n : Nat) (h : a + n ≤ front.length) :
    leField (front ++ rest) a n = leField front a n := by
  rw [leField, leField, List.drop_append_of_le_length (by omega), List.take_append_of_le_length (by simp; omega)]

theorem leField_leBytes (n v : Nat) : leField (leBytes n v) 0 n = v % 256 ^ n := by
  simpa using leField_append [] [] n v 0 rfl

/-- A byte of the part of a layout that begins at byte `a`. -/
theorem byteAt_mid (front mid rest : List Byte) {a j : Nat} (ha : front.length = a) (hj : j < mid.length) :
    byteAt (front ++ (mid ++ rest)) (a + j) = byteAt mid j := by
  rw [byteAt_skip _ _ _ (by omega), ha, Nat.add_sub_cancel_left, byteAt_front _ _ _ hj]

/-- A field of the part of a layout that begins at byte `a`. -/
theorem leField_mid (front mid rest : List Byte) {a j n : Nat} (ha : front.length = a) (hj : j + n ≤ mid.length) :
    leField (front ++ (mid ++ rest)) (a + j) n = leField mid j n := by
  rw [leField_skip _ _ _ _ (by omega), ha, Nat.add_sub_cancel_left, leField_front _ _ _ _ hj]

/-- R192: flags in the lowest four bits of a byte. -/
theorem flags_getLsbD (a b c d : Bool) (k : Nat) :
    (countByte (flagBit a + 2 * flagBit b + 4 * flagBit c + 8 * flagBit d)).getLsbD k =
      if k = 0 then a else if k = 1 then b else if k = 2 then c else if k = 3 then d else false := by
  match k with
  | 0 | 1 | 2 | 3 | 4 | 5 | 6 | 7 => revert a b c d; decide
  | k + 8 => simp [BitVec.getLsbD_of_ge]

theorem flagByte_eq (b : Bool) : countByte (flagBit b) = if b then 1#8 else 0#8 := by
  cases b <;> rfl

/-! ### GET_STATUS (R178, R197) -/

/-- R110: tags are counted by number. -/
theorem tagCount_eq (s : State) (p : TagEntry → Bool) :
    s.tagCount p = (List.finRange 64).countP fun t => p (s.tag t) := by
  have h : s.down.tags.toList = (List.finRange 64).map s.tag := by
    apply List.ext_getElem <;> simp [State.tag]
  rw [State.tagCount, h, List.countP_map]
  rfl

theorem busyByte_getLsbD (s : State) (k : Nat) :
    s.busyByte.getLsbD k = if h : k < 4 then (s.context? ⟨k, h⟩).isSome else false := by
  rw [State.busyByte, flags_getLsbD]
  match k with
  | 0 | 1 | 2 | 3 => rfl
  | k + 4 => simp

/-- R178: the pending label. -/
theorem pendingLabel_lt (a : PendingAction) : a.label < 2 ^ 32 := by
  cases a with
  | openMark l => exact l.isLt
  | _ => exact Nat.zero_lt_succ _

/-- R2, R178: the next mark number, 0 when exhausted. -/
theorem nextNumberField_eq (s : State) :
    s.nextNumberField = if Config.max32 < s.marks.nextNumber then 0 else s.marks.nextNumber := by
  simp [State.nextNumberField, State.numbersExhausted]

theorem nextNumberField_lt (s : State) : s.nextNumberField < 2 ^ 32 := by
  rw [nextNumberField_eq]
  simp only [Config.max32]
  split <;> omega

/-- The number fields of GET_STATUS. -/
theorem statusPayload_fields (s : State) :
    leField s.statusPayload 8 4 = s.marks.action.label ∧ leField s.statusPayload 12 4 = s.nextNumberField ∧
    leField s.statusPayload 24 4 = s.log.tail % 2 ^ 32 ∧ leField s.statusPayload 28 4 = s.log.nextSequence % 2 ^ 32 ∧
    leField s.statusPayload 32 4 = s.mgmt.interruption.getD 0xFFFFFFFF % 2 ^ 32 := by
  have hl := Nat.mod_eq_of_lt (pendingLabel_lt s.marks.action)
  have hn := Nat.mod_eq_of_lt (nextNumberField_lt s)
  refine ⟨?_, ?_, ?_, ?_, ?_⟩ <;>
    simp only [State.statusPayload, optionalField, leField_front, leField_skip, leField_leBytes, List.length_append,
      List.length_cons, List.length_nil, leBytes_length, Nat.reduceAdd, Nat.reduceLeDiff, Nat.reduceSub,
      Nat.reducePow]
  · exact hl
  · exact hn

/-- R178: GET_STATUS is answered in every controller state. -/
theorem exec_getStatus {s : State} {f : Frame} (hr : Running s) (hb : f.beganInReset = false)
    (hn : f.payload.length = 0) :
    exec (.getStatus f) s =
      .next (replied { s with mgmt := { s.mgmt with interruption := none } } f 0 .ok s.statusPayload) := by
  show Host.Outcome.next (takeFrame s f 0 0 true answerGetStatus) = _
  rw [takeFrame_taken s f 0 0 true answerGetStatus hr hb (by rw [hn]) (by decide) (.inr rfl)]
  rfl

/-! ### GET_MARKS (R3, R197) -/

theorem layout_length (m : MarkRecord) : m.layout.length = 20 := by
  simp [MarkRecord.layout]

theorem flatMap_layout_length (stack : List MarkRecord) :
    (stack.flatMap MarkRecord.layout).length = 20 * stack.length := by
  simp [List.length_flatMap, layout_length, Nat.mul_comm]

/-- The first 12 bytes of GET_MARKS. -/
def marksHead (s : State) : List Byte :=
  [s.marks.state.code, countByte s.level, s.marks.action.code, s.marks.action.targetByte, s.marks.action.originByte,
    countByte (flagBit s.marks.latch), s.marks.reason.code, 0#8] ++ leBytes 4 s.marks.action.label

theorem marksPayload_eq (s : State) : s.marksPayload = marksHead s ++ s.marks.stack.flatMap MarkRecord.layout := rfl

theorem marksHead_length (s : State) : (marksHead s).length = 12 := by
  simp [marksHead]

/-- The record of mark `i` lies at byte 12 + 20 i. -/
theorem marksPayload_split {s : State} {i : Nat} {m : MarkRecord} (h : s.marks.stack[i]? = some m) :
    ∃ front rest, s.marksPayload = front ++ (m.layout ++ rest) ∧ front.length = 12 + 20 * i := by
  obtain ⟨hi, hm⟩ := List.getElem?_eq_some_iff.mp h
  refine ⟨marksHead s ++ (s.marks.stack.take i).flatMap MarkRecord.layout,
    (s.marks.stack.drop (i + 1)).flatMap MarkRecord.layout, ?_, ?_⟩
  · conv_lhs => rw [marksPayload_eq, ← List.take_append_drop i s.marks.stack, List.drop_eq_getElem_cons hi, hm]
    simp [List.append_assoc]
  · rw [List.length_append, marksHead_length, flatMap_layout_length, List.length_take, Nat.min_eq_left hi.le]

/-- The 20 bytes of a mark record. -/
theorem layout_fields (m : MarkRecord) :
    byteAt m.layout 0 = BitVec.ofNat 8 m.level ∧ (∀ j, 1 ≤ j → j < 4 → byteAt m.layout j = 0#8) ∧
    leField m.layout 4 4 = m.number % 2 ^ 32 ∧ leField m.layout 8 4 = m.label.toNat ∧
    leField m.layout 12 4 = m.startOffset % 2 ^ 32 ∧ leField m.layout 16 4 = m.firstSequence % 2 ^ 32 := by
  have he : m.layout = [countByte m.level] ++ leBytes 3 0 ++ leBytes 4 m.number ++ leBytes 4 m.label.toNat ++
    leBytes 4 m.startOffset ++ leBytes 4 m.firstSequence := rfl
  refine ⟨rfl, fun j h1 h2 => ?_, ?_, ?_, ?_, ?_⟩
  · obtain rfl | rfl | rfl : j = 1 ∨ j = 2 ∨ j = 3 := by omega
    all_goals rfl
  all_goals
    simp only [he, leField_front, leField_skip, leField_leBytes, List.length_append, List.length_cons, List.length_nil,
      leBytes_length, Nat.reduceAdd, Nat.reduceLeDiff, Nat.reduceSub, Nat.reducePow]
  exact Nat.mod_eq_of_lt m.label.isLt

theorem marksPayload_label (s : State) : leField s.marksPayload 8 4 = s.marks.action.label := by
  have hl := Nat.mod_eq_of_lt (pendingLabel_lt s.marks.action)
  simp only [marksPayload_eq, marksHead, leField_front, leField_skip, leField_leBytes, List.length_append,
    List.length_cons, List.length_nil, leBytes_length, Nat.reduceAdd, Nat.reduceLeDiff, Nat.reduceSub,
    Nat.reducePow]
  exact hl

theorem marksPayload_length (s : State) : s.marksPayload.length = 12 + 20 * s.level := by
  rw [marksPayload_eq, List.length_append, marksHead_length, flatMap_layout_length]
  rfl

/-- The mark records of GET_MARKS (R197). -/
theorem marksPayload_record {s : State} {i : Nat} {m : MarkRecord} (h : s.marks.stack[i]? = some m) :
    byteAt s.marksPayload (12 + 20 * i) = BitVec.ofNat 8 m.level ∧ Zeros s.marksPayload (13 + 20 * i) 3 ∧
    leField s.marksPayload (16 + 20 * i) 4 = m.number % 2 ^ 32 ∧
    leField s.marksPayload (20 + 20 * i) 4 = m.label.toNat ∧
    leField s.marksPayload (24 + 20 * i) 4 = m.startOffset % 2 ^ 32 ∧
    leField s.marksPayload (28 + 20 * i) 4 = m.firstSequence % 2 ^ 32 := by
  obtain ⟨front, rest, hp, ha⟩ := marksPayload_split h
  obtain ⟨h0, hz, h4, h8, h12, h16⟩ := layout_fields m
  have hlen := layout_length m
  have byte : ∀ a j, a = 12 + 20 * i + j → j < 20 → byteAt s.marksPayload a = byteAt m.layout j := by
    rintro _ j rfl hj
    rw [hp, byteAt_mid front m.layout rest ha (by omega)]
  have field : ∀ a j, a = 12 + 20 * i + j → j + 4 ≤ 20 → leField s.marksPayload a 4 = leField m.layout j 4 := by
    rintro _ j rfl hj
    rw [hp, leField_mid front m.layout rest ha (by omega)]
  refine ⟨(byte _ 0 rfl (by decide)).trans h0, fun j h1 h2 => ?_, (field _ 4 (by omega) (by decide)).trans h4,
    (field _ 8 (by omega) (by decide)).trans h8, (field _ 12 (by omega) (by decide)).trans h12,
    (field _ 16 (by omega) (by decide)).trans h16⟩
  exact (byte j (j - (12 + 20 * i)) (by omega) (by omega)).trans (hz _ (by omega) (by omega))

/-! ### READ_CONFIG (R181, R195) -/

theorem configPayload_length (s : State) : s.configPayload.length = 80 := by
  simp [State.configPayload]

/-- The number fields of READ_CONFIG. -/
theorem configPayload_fields (s : State) :
    leField s.configPayload 0 8 = s.log.base.toNat % 2 ^ 64 ∧ leField s.configPayload 8 8 = s.log.size % 2 ^ 64 ∧
    leField s.configPayload 16 8 = s.log.threshold % 2 ^ 64 ∧
    leField s.configPayload 24 8 = s.log.policy.code % 2 ^ 64 ∧
    leField s.configPayload 40 8 = s.mgmt.partRequesterId.toNat % 2 ^ 64 ∧
    leField s.configPayload 48 8 = s.mgmt.responseTimeout % 2 ^ 64 ∧
    leField s.configPayload 56 8 = s.mgmt.noticeTrigger % 2 ^ 64 ∧
    leField s.configPayload 64 8 = s.mgmt.noticeQuiet % 2 ^ 64 := by
  simp only [State.configPayload, leField_front, leField_skip, leField_leBytes, List.length_append, List.length_cons,
    List.length_nil, leBytes_length, Nat.reduceAdd, Nat.reduceLeDiff, Nat.reduceSub, Nat.reducePow,
    and_self]

/-- The 8 bytes of LOG_READER. -/
def readerLayout (r : LogReader) : List Byte :=
  [countByte (flagBit r.enable), r.reqMatch.setWidth 8, r.reqMask.setWidth 8] ++ leBytes 5 0

/-- The 8 bytes of LINE_ROLLBACK. -/
def lineLayout (l : LineRollback) : List Byte := [countByte (flagBit l.enable), countByte l.target] ++ leBytes 6 0

/-- READ_CONFIG with the layouts of these two items told apart. -/
theorem configPayload_eq (s : State) :
    s.configPayload = (leBytes 8 s.log.base.toNat ++ leBytes 8 s.log.size ++ leBytes 8 s.log.threshold ++
      leBytes 8 s.log.policy.code) ++ (readerLayout s.windows.reader ++ ((leBytes 8 s.mgmt.partRequesterId.toNat ++
      leBytes 8 s.mgmt.responseTimeout ++ leBytes 8 s.mgmt.noticeTrigger ++ leBytes 8 s.mgmt.noticeQuiet) ++
      lineLayout s.mgmt.lineRollback)) := by
  simp only [State.configPayload, readerLayout, lineLayout, List.append_assoc]

theorem readerLayout_length (r : LogReader) : (readerLayout r).length = 8 := rfl

theorem configPayload_reader (s : State) {j : Nat} (h : j < 8) :
    byteAt s.configPayload (32 + j) = byteAt (readerLayout s.windows.reader) j := by
  rw [configPayload_eq]
  exact byteAt_mid _ _ _ (by simp) h

theorem configPayload_line (s : State) {j : Nat} (h : j < 8) :
    byteAt s.configPayload (72 + j) = byteAt (lineLayout s.mgmt.lineRollback) j := by
  rw [configPayload_eq, byteAt_skip _ _ _ (by simp; omega), byteAt_skip _ _ _ (by simp [readerLayout_length]; omega),
    byteAt_skip _ _ _ (by simp [readerLayout_length]; omega)]
  congr 1
  simp [readerLayout_length]
  omega

theorem readerLayout_zeros (r : LogReader) : ∀ j, 3 ≤ j → j < 8 → byteAt (readerLayout r) j = 0#8 := by
  intro j h1 h2
  obtain rfl | rfl | rfl | rfl | rfl : j = 3 ∨ j = 4 ∨ j = 5 ∨ j = 6 ∨ j = 7 := by omega
  all_goals rfl

theorem lineLayout_zeros (l : LineRollback) : ∀ j, 2 ≤ j → j < 8 → byteAt (lineLayout l) j = 0#8 := by
  intro j h1 h2
  obtain rfl | rfl | rfl | rfl | rfl | rfl : j = 2 ∨ j = 3 ∨ j = 4 ∨ j = 5 ∨ j = 6 ∨ j = 7 := by omega
  all_goals rfl

/-- Bytes 32 to 39 and 72 to 79 of READ_CONFIG. -/
theorem configPayload_bytes (s : State) :
    byteAt s.configPayload 32 = countByte (flagBit s.windows.reader.enable) ∧
    byteAt s.configPayload 33 = s.windows.reader.reqMatch.setWidth 8 ∧
    byteAt s.configPayload 34 = s.windows.reader.reqMask.setWidth 8 ∧ Zeros s.configPayload 35 5 ∧
    byteAt s.configPayload 72 = countByte (flagBit s.mgmt.lineRollback.enable) ∧
    byteAt s.configPayload 73 = countByte s.mgmt.lineRollback.target ∧ Zeros s.configPayload 74 6 := by
  refine ⟨configPayload_reader s (j := 0) (by decide), configPayload_reader s (j := 1) (by decide),
    configPayload_reader s (j := 2) (by decide), fun i h1 h2 => ?_, configPayload_line s (j := 0) (by decide),
    configPayload_line s (j := 1) (by decide), fun i h1 h2 => ?_⟩
  · obtain ⟨j, rfl⟩ := Nat.exists_eq_add_of_le (show 32 ≤ i by omega)
    rw [configPayload_reader s (by omega)]
    exact readerLayout_zeros _ j (by omega) (by omega)
  · obtain ⟨j, rfl⟩ := Nat.exists_eq_add_of_le (show 72 ≤ i by omega)
    rw [configPayload_line s (by omega)]
    exact lineLayout_zeros _ j (by omega) (by omega)

theorem mod_eq_of_bits {n m : Nat} (x : BitVec n) (h : n ≤ m) : x.toNat % 2 ^ m = x.toNat :=
  Nat.mod_eq_of_lt (x.isLt.trans_le (Nat.pow_le_pow_right (by decide) h))

theorem policyCode_lt (p : FullPolicy) : p.code < 2 ^ 64 := by
  cases p <;> decide

/-- Settles O42: each reply byte by byte from its layout. -/
theorem statusRepliesSpellTheState : Obligations.StatusRepliesSpellTheState := by
  rintro s f _ _ _ _ count rfl rfl rfl rfl hcount
  have tags (p q : TagEntry → Bool) (h : ∀ x, p x = q x) : countByte (s.tagCount p) = count q := by
    rw [tagCount_eq, funext h, hcount]
    rfl
  refine ⟨fun hr hb hn => ⟨s.statusPayload, exec_getStatus hr hb hn, ?_⟩, fun hd => ⟨s.marksPayload,
    next_takeFrame hd (by decide) rfl, ?_⟩, fun hd => ⟨s.configPayload, next_takeFrame hd (by decide) rfl, ?_⟩,
    rfl, fun _ _ _ => rfl, rfl, rfl, rfl, rfl⟩
  · obtain ⟨hlabel, hnext, htail, hseq, hint⟩ := statusPayload_fields s
    refine ⟨rfl, rfl, rfl, rfl, rfl, rfl, ?_, ?_, rfl, ?_, hnext.trans (nextNumberField_eq s), ?_, busyByte_getLsbD s,
      rfl, rfl, ?_, ?_, rfl, rfl, htail, hseq, hint⟩
    · show s.marks.action.targetByte = _
      cases s.marks.action <;> rfl
    · show s.marks.action.originByte = _
      rcases s.marks.action with _ | _ | _ | _ | ⟨_, _ | _⟩ <;> rfl
    · rw [hlabel]
      cases s.marks.action <;> rfl
    · exact flags_getLsbD _ _ _ _
    · exact tags TagEntry.isInUse _ fun x => by cases x <;> rfl
    · exact tags TagEntry.isStale _ fun x => by cases x <;> rfl
  · refine ⟨marksPayload_length s, rfl, rfl, rfl, ?_, ?_, flagByte_eq _, rfl, rfl, ?_, fun _ _ => marksPayload_record⟩
    · show s.marks.action.targetByte = _
      cases s.marks.action <;> rfl
    · show s.marks.action.originByte = _
      rcases s.marks.action with _ | _ | _ | _ | ⟨_, _ | _⟩ <;> rfl
    · rw [marksPayload_label]
      cases s.marks.action <;> rfl
  · obtain ⟨hbase, hsize, hthreshold, hpolicy, hid, htimeout, htrigger, hquiet⟩ := configPayload_fields s
    obtain ⟨h32, h33, h34, h35, h72, h73, h74⟩ := configPayload_bytes s
    refine ⟨configPayload_length s, hbase.trans (mod_eq_of_bits s.log.base (by decide)), hsize, hthreshold,
      hpolicy.trans (Nat.mod_eq_of_lt (policyCode_lt _)), h32.trans (flagByte_eq _), ?_, ?_, h35,
      hid.trans (mod_eq_of_bits s.mgmt.partRequesterId (by decide)), htimeout, htrigger, hquiet,
      h72.trans (flagByte_eq _), h73, h74⟩
    · rw [h33]
      exact (BitVec.toNat_setWidth _ _).trans (mod_eq_of_bits _ (by decide))
    · rw [h34]
      exact (BitVec.toNat_setWidth _ _).trans (mod_eq_of_bits _ (by decide))

end Sys2Proof.Safety
end

