-- ==== Sys2Proof/Proofs/Answers.lean ====
section
/-! What the owners' answers to command frames (R175), and the rows that are no defined command, leave as they are: each
lemma rewrites every such field at once. -/

namespace Sys2Proof.Safety

open Machine

/-- The items the management port holds (R183). -/
def portItems (m : ManagementPort) : RequesterId × Nat × Nat × Nat × LineRollback :=
  (m.partRequesterId, m.responseTimeout, m.noticeTrigger, m.noticeQuiet, m.lineRollback)

/-- The items the save log unit holds (R46, R57, R60). -/
def logItems (l : SaveLog) : Address × Nat × Nat × FullPolicy := (l.base, l.size, l.threshold, l.policy)

@[simp] theorem refuse_state (s : State) (status : Status) : (s.refuse status).state = s := rfl

@[simp] theorem done_state (s : State) : s.done.state = s := rfl

@[simp] theorem updateMgmt_keeps (s : State) (f : ManagementPort → ManagementPort) :
    (s.updateMgmt f).marks = s.marks ∧ (s.updateMgmt f).windows = s.windows ∧ (s.updateMgmt f).log = s.log ∧
    (s.updateMgmt f).save = s.save ∧ (s.updateMgmt f).transit = s.transit ∧ (s.updateMgmt f).mgmt = f s.mgmt :=
  ⟨rfl, rfl, rfl, rfl, rfl, rfl⟩

/-- R29: what holds of an answer for every window holds of one that names its window by number. -/
theorem withWindow_induction {P : Answer → Prop} {s : State} {n : Nat} {k : WindowNo → Answer}
    (hr : P (s.refuse .refusedRange)) (hk : ∀ w, P (k w)) : P (withWindow s n k) := by
  unfold withWindow
  split
  · exact hk _
  · exact hr

/-- R171 to R176: a frame is ignored, refused, or answered by its owner on the state with SPI_MISO driven; in a frame
that is not of GET_STATUS the part is then ready. -/
theorem takeFrame_cases (s : State) (f : Frame) (identifier expected : Nat) (anyState : Bool) (owner : State → Answer) :
    takeFrame s f identifier expected anyState owner = s ∨
    ∃ u, u = s.driveCommandPeriod (f.clocks (identifier + f.payload.length)) ∧
      ((∃ status, takeFrame s f identifier expected anyState owner = u.reply f.request status []) ∨
        ((anyState = false → u.notReady = false) ∧ takeFrame s f identifier expected anyState owner =
          (owner u).state.reply f.request (owner u).status (owner u).payload)) := by
  unfold takeFrame
  split
  · exact .inl rfl
  · refine .inr ⟨_, rfl, ?_⟩
    dsimp only
    split
    · exact .inl ⟨_, rfl⟩
    · rename_i hn
      refine .inr ⟨?_, rfl⟩
      rintro rfl
      by_contra hc
      simp only [Bool.not_eq_false] at hc
      simp only [State.frameRefusal, hc, Bool.not_false, Bool.and_self, if_true] at hn
      split at hn <;> cases hn

/-! ### Reads (R3, R33, R43, R162, R169, R178, R181) -/

@[simp] theorem answerGetMarks_state (s : State) : (answerGetMarks s).state = s := rfl

@[simp] theorem answerReadConfig_state (s : State) : (answerReadConfig s).state = s := rfl

@[simp] theorem answerReadCounters_state (s : State) : (answerReadCounters s).state = s := rfl

@[simp] theorem answerUnknownItem_state (s : State) : (answerUnknownItem s).state = s := rfl

@[simp] theorem answerGetWindow_state (n : Nat) (s : State) : (answerGetWindow n s).state = s :=
  withWindow_induction (P := fun a => a.state = s) rfl fun _ => rfl

@[simp] theorem answerReadMap_state (i : Nat) (s : State) : (answerReadMap i s).state = s := by
  unfold answerReadMap
  split <;> rfl

@[simp] theorem answerGetStatus_keeps (s : State) :
    (answerGetStatus s).state.marks = s.marks ∧ (answerGetStatus s).state.windows = s.windows ∧
    (answerGetStatus s).state.log = s.log ∧ (answerGetStatus s).state.save = s.save ∧
    (answerGetStatus s).state.transit = s.transit ∧ portItems (answerGetStatus s).state.mgmt = portItems s.mgmt :=
  ⟨rfl, rfl, rfl, rfl, rfl, rfl⟩

@[simp] theorem answerReadNotice_keeps (s : State) :
    (answerReadNotice s).state.marks = s.marks ∧ (answerReadNotice s).state.windows = s.windows ∧
    (answerReadNotice s).state.log = s.log ∧ (answerReadNotice s).state.save = s.save ∧
    (answerReadNotice s).state.transit = s.transit ∧ (answerReadNotice s).state.mgmt = s.mgmt := by
  unfold answerReadNotice
  split <;> simp

@[simp] theorem answerClearCounters_keeps (s : State) :
    (answerClearCounters s).state.marks = s.marks ∧ (answerClearCounters s).state.windows = s.windows ∧
    (answerClearCounters s).state.log = s.log ∧ (answerClearCounters s).state.save = s.save ∧
    (answerClearCounters s).state.transit = s.transit ∧ (answerClearCounters s).state.mgmt = s.mgmt := by
  simp [answerClearCounters]

/-! ### Windows (R30 to R32) -/

/-- The answer to a window command leaves everything but the window records. -/
def KeepsAllButRecords (s : State) (a : Answer) : Prop :=
  a.state.marks = s.marks ∧ a.state.windows.map = s.windows.map ∧ a.state.log = s.log ∧ a.state.save = s.save ∧
  a.state.transit = s.transit ∧ a.state.mgmt = s.mgmt

theorem keepsAllButRecords_refuse (s : State) (status : Status) : KeepsAllButRecords s (s.refuse status) :=
  ⟨rfl, rfl, rfl, rfl, rfl, rfl⟩

theorem keepsAllButRecords_setWindow (s : State) (w : WindowNo) (r : WindowRecord) :
    KeepsAllButRecords s (s.setWindow w r).done :=
  ⟨rfl, rfl, rfl, rfl, rfl, rfl⟩

theorem keepsAllButRecords_answerSetWindow (o : WindowOperands) (s : State) :
    KeepsAllButRecords s (answerSetWindow o s) := by
  refine withWindow_induction (keepsAllButRecords_refuse s _) fun w => ?_
  split
  · exact keepsAllButRecords_refuse s _
  · exact keepsAllButRecords_setWindow s w _

theorem keepsAllButRecords_answerEnableWindow (n : Nat) (s : State) :
    KeepsAllButRecords s (answerEnableWindow n s) := by
  refine withWindow_induction (keepsAllButRecords_refuse s _) fun w => ?_
  (repeat' split)
  · exact keepsAllButRecords_refuse s _
  · exact keepsAllButRecords_refuse s _
  · exact keepsAllButRecords_refuse s _
  · exact keepsAllButRecords_setWindow s w _

theorem keepsAllButRecords_answerDisableWindow (n : Nat) (s : State) :
    KeepsAllButRecords s (answerDisableWindow n s) := by
  refine withWindow_induction (keepsAllButRecords_refuse s _) fun w => ?_
  (repeat' split)
  · exact keepsAllButRecords_refuse s _
  · exact keepsAllButRecords_setWindow s w _
  · exact ⟨rfl, rfl, rfl, rfl, rfl, rfl⟩

/-! ### Items (R37, R47, R57, R60, R183) -/

@[simp] theorem answerWriteLogReader_keeps (a b c : Nat) (s : State) :
    (answerWriteLogReader a b c s).state.marks = s.marks ∧
    (answerWriteLogReader a b c s).state.windows.records = s.windows.records ∧
    (answerWriteLogReader a b c s).state.windows.map = s.windows.map ∧
    (answerWriteLogReader a b c s).state.log = s.log ∧ (answerWriteLogReader a b c s).state.save = s.save ∧
    (answerWriteLogReader a b c s).state.transit = s.transit ∧
    (answerWriteLogReader a b c s).state.mgmt = s.mgmt := by
  unfold answerWriteLogReader
  split <;> simp

@[simp] theorem answerWriteLogBase_keeps (v : Nat) (s : State) :
    (answerWriteLogBase v s).state.marks = s.marks ∧ (answerWriteLogBase v s).state.windows = s.windows ∧
    (answerWriteLogBase v s).state.save = s.save ∧ (answerWriteLogBase v s).state.transit = s.transit ∧
    (answerWriteLogBase v s).state.mgmt = s.mgmt := by
  unfold answerWriteLogBase
  (repeat' split) <;> simp

@[simp] theorem answerWriteLogSize_keeps (v : Nat) (s : State) :
    (answerWriteLogSize v s).state.marks = s.marks ∧ (answerWriteLogSize v s).state.windows = s.windows ∧
    (answerWriteLogSize v s).state.save = s.save ∧ (answerWriteLogSize v s).state.transit = s.transit ∧
    (answerWriteLogSize v s).state.mgmt = s.mgmt := by
  unfold answerWriteLogSize
  (repeat' split) <;> simp

@[simp] theorem answerWriteLogThreshold_keeps (v : Nat) (s : State) :
    (answerWriteLogThreshold v s).state.marks = s.marks ∧ (answerWriteLogThreshold v s).state.windows = s.windows ∧
    (answerWriteLogThreshold v s).state.save = s.save ∧ (answerWriteLogThreshold v s).state.transit = s.transit ∧
    (answerWriteLogThreshold v s).state.mgmt = s.mgmt := by
  unfold answerWriteLogThreshold
  split <;> simp

@[simp] theorem answerWriteLogFullPolicy_keeps (v : Nat) (s : State) :
    (answerWriteLogFullPolicy v s).state.marks = s.marks ∧ (answerWriteLogFullPolicy v s).state.windows = s.windows ∧
    (answerWriteLogFullPolicy v s).state.save = s.save ∧ (answerWriteLogFullPolicy v s).state.transit = s.transit ∧
    (answerWriteLogFullPolicy v s).state.mgmt = s.mgmt := by
  unfold answerWriteLogFullPolicy
  split <;> simp

@[simp] theorem answerWritePartRequesterId_keeps (v : Nat) (s : State) :
    (answerWritePartRequesterId v s).state.marks = s.marks ∧
    (answerWritePartRequesterId v s).state.windows = s.windows ∧ (answerWritePartRequesterId v s).state.log = s.log ∧
    (answerWritePartRequesterId v s).state.save = s.save ∧
    (answerWritePartRequesterId v s).state.transit = s.transit := by
  unfold answerWritePartRequesterId
  (repeat' split) <;> simp

@[simp] theorem answerWriteResponseTimeout_keeps (v : Nat) (s : State) :
    (answerWriteResponseTimeout v s).state.marks = s.marks ∧
    (answerWriteResponseTimeout v s).state.windows = s.windows ∧ (answerWriteResponseTimeout v s).state.log = s.log ∧
    (answerWriteResponseTimeout v s).state.save = s.save ∧
    (answerWriteResponseTimeout v s).state.transit = s.transit := by
  unfold answerWriteResponseTimeout
  split <;> simp

@[simp] theorem answerWriteNoticeTrigger_keeps (v : Nat) (s : State) :
    (answerWriteNoticeTrigger v s).state.marks = s.marks ∧ (answerWriteNoticeTrigger v s).state.windows = s.windows ∧
    (answerWriteNoticeTrigger v s).state.log = s.log ∧ (answerWriteNoticeTrigger v s).state.save = s.save ∧
    (answerWriteNoticeTrigger v s).state.transit = s.transit := by
  unfold answerWriteNoticeTrigger
  split <;> simp

@[simp] theorem answerWriteNoticeQuiet_keeps (v : Nat) (s : State) :
    (answerWriteNoticeQuiet v s).state.marks = s.marks ∧ (answerWriteNoticeQuiet v s).state.windows = s.windows ∧
    (answerWriteNoticeQuiet v s).state.log = s.log ∧ (answerWriteNoticeQuiet v s).state.save = s.save ∧
    (answerWriteNoticeQuiet v s).state.transit = s.transit := by
  unfold answerWriteNoticeQuiet
  split <;> simp

@[simp] theorem answerWriteLineRollback_keeps (a b : Nat) (s : State) :
    (answerWriteLineRollback a b s).state.marks = s.marks ∧ (answerWriteLineRollback a b s).state.windows = s.windows ∧
    (answerWriteLineRollback a b s).state.log = s.log ∧ (answerWriteLineRollback a b s).state.save = s.save ∧
    (answerWriteLineRollback a b s).state.transit = s.transit := by
  unfold answerWriteLineRollback
  split <;> simp

/-! ### Mark commands (R6 to R8) -/

/-- The answer to a mark command leaves the state as it is, or begins a drain. -/
def RefusedOrDrains (s : State) (a : Answer) : Prop := a.state = s ∨ ∃ action, a.state = s.startDrain action

theorem refusedOrDrains_openMark (label : Label) (s : State) : RefusedOrDrains s (answerOpenMark label s) := by
  unfold answerOpenMark
  (repeat' split) <;> try exact .inl rfl
  exact .inr ⟨_, rfl⟩

theorem refusedOrDrains_releaseMark (s : State) : RefusedOrDrains s (answerReleaseMark s) := by
  unfold answerReleaseMark
  (repeat' split) <;> try exact .inl rfl
  exact .inr ⟨_, rfl⟩

theorem refusedOrDrains_commit (s : State) : RefusedOrDrains s (answerCommit s) := by
  unfold answerCommit
  (repeat' split) <;> try exact .inl rfl
  exact .inr ⟨_, rfl⟩

theorem refusedOrDrains_rollback (k : Nat) (s : State) : RefusedOrDrains s (answerRollback k s) := by
  unfold answerRollback
  (repeat' split) <;> try exact .inl rfl
  exact .inr ⟨_, rfl⟩

/-! ### Rows that are no defined command (R165, R171 to R176) -/

@[simp] theorem replyReady_keeps (s : State) :
    s.replyReady.marks = s.marks ∧ s.replyReady.windows = s.windows ∧ s.replyReady.log = s.log ∧
    s.replyReady.save = s.save ∧ s.replyReady.transit = s.transit ∧
    portItems s.replyReady.mgmt = portItems s.mgmt := by
  unfold State.replyReady
  split <;> simp [portItems]

@[simp] theorem readPeriod_keeps (s : State) (clocks : Nat) (b : Bool) :
    (s.readPeriod clocks b).marks = s.marks ∧ (s.readPeriod clocks b).windows = s.windows ∧
    (s.readPeriod clocks b).log = s.log ∧ (s.readPeriod clocks b).save = s.save ∧
    (s.readPeriod clocks b).transit = s.transit ∧ (s.readPeriod clocks b).mgmt = s.mgmt := by
  unfold State.readPeriod
  split <;> simp

@[simp] theorem cutShort_keeps (s : State) (p : Period) :
    (s.cutShort p).marks = s.marks ∧ (s.cutShort p).windows = s.windows ∧ (s.cutShort p).log = s.log ∧
    (s.cutShort p).save = s.save ∧ (s.cutShort p).transit = s.transit ∧ (s.cutShort p).mgmt = s.mgmt := by
  unfold State.cutShort
  split <;> simp

@[simp] theorem portItems_reply (s : State) (r : Byte) (status : Status) (payload : List Byte) :
    portItems (s.reply r status payload).mgmt = portItems s.mgmt := rfl

@[simp] theorem checkFailed_keeps (s : State) (p : Period) :
    (s.checkFailed p).marks = s.marks ∧ (s.checkFailed p).windows = s.windows ∧ (s.checkFailed p).log = s.log ∧
    (s.checkFailed p).save = s.save ∧ (s.checkFailed p).transit = s.transit ∧
    portItems (s.checkFailed p).mgmt = portItems s.mgmt := by
  unfold State.checkFailed
  split <;> simp

@[simp] theorem unknownCommand_keeps (s : State) (f : Frame) :
    (s.unknownCommand f).marks = s.marks ∧ (s.unknownCommand f).windows = s.windows ∧
    (s.unknownCommand f).log = s.log ∧ (s.unknownCommand f).save = s.save ∧
    (s.unknownCommand f).transit = s.transit ∧ portItems (s.unknownCommand f).mgmt = portItems s.mgmt := by
  unfold State.unknownCommand
  split <;> simp

@[simp] theorem quietExpiry_keeps (s : State) :
    s.quietExpiry.marks = s.marks ∧ s.quietExpiry.windows = s.windows ∧ s.quietExpiry.log = s.log ∧
    s.quietExpiry.save = s.save ∧ s.quietExpiry.transit = s.transit ∧ s.quietExpiry.mgmt = s.mgmt := by
  unfold State.quietExpiry
  split <;> simp

end Sys2Proof.Safety
end

