-- ==== Sys2Proof/Proofs/MapNumbers.lean ====
section
/-! Mark numbers in the part: every number that the stack, the granule map, a save or a transit entry holds lies below
the next mark number (R1, R2, R39, R41), and what each operation does to them. -/

namespace Sys2Proof.Machine

/-! ### The number a save context carries (R68) -/

@[simp] theorem SaveContext.issued_markNumber (x : SaveContext) (step : SaveStep) :
    (x.issued step).markNumber = x.markNumber := by
  cases step <;> rfl

@[simp] theorem foldLines_markNumber (n : Nat) (x : SaveContext) : (foldLines n x).markNumber = x.markNumber := by
  induction n generalizing x with
  | zero => rfl
  | succ n ih =>
    unfold foldLines
    split
    · exact ih _
    · rfl

@[simp] theorem SaveContext.lineArrived_markNumber (x : SaveContext) (j : Nat) (data : Line) :
    (x.lineArrived j data).markNumber = x.markNumber :=
  foldLines_markNumber _ _

@[simp] theorem SaveContext.lineWritten_markNumber (x : SaveContext) (j : Nat) :
    (x.lineWritten j).markNumber = x.markNumber := by
  unfold SaveContext.lineWritten
  dsimp only
  split <;> rfl

/-- R67: the entry that is allocated is one of the buffer. -/
theorem State.mem_of_nextAllocation {s : State} {e : TransitEntry} {w : WindowNo} {i : Nat} {g : Granule}
    {c : ContextNo} (h : s.nextAllocation = some (e, w, i, g, c)) : e ∈ s.transit.entries := by
  unfold State.nextAllocation at h
  split at h
  · simp only [Option.bind_eq_bind, Option.bind_eq_some_iff] at h
    obtain ⟨o, -, d, hd, h⟩ := h
    have hed : d = e := by
      split at h
      · simp only [Option.bind_eq_some_iff, Option.pure_def, Option.some.injEq, Prod.mk.injEq] at h
        obtain ⟨-, -, -, -, rfl, -⟩ := h
        rfl
      · cases h
    exact hed ▸ (State.entry?_mem hd).1
  · cases h

end Sys2Proof.Machine

namespace Sys2Proof.Safety

open Machine

/-- Every number the transit entries carry lies below `next`. -/
def EntriesBelow (next : Nat) (es : List TransitEntry) : Prop := ∀ e ∈ es, ∀ n, e.markNumber = some n → n < next

/-- R1, R39, R41: the numbers in use lie below the next mark number; the map's do from the sweep on. -/
structure NumbersOk (s : State) : Prop where
  canonical : mapWf s.windows.map = true
  next : 1 ≤ s.marks.nextNumber
  map : s.marks.state ≠ .starting → ∀ p ∈ s.windows.map, p.2 < s.marks.nextNumber
  stack : ∀ m ∈ s.marks.stack, m.number < s.marks.nextNumber
  saves : ∀ c x, s.context? c = some x → x.markNumber < s.marks.nextNumber
  entries : EntriesBelow s.marks.nextNumber s.transit.entries

/-- The invariant of the claims, with the stack's numbers beside the map's. -/
theorem NumbersOk.of_mapOk {s : State} (hm : MarksOk s) (h : MapOk s) : NumbersOk s := by
  obtain ⟨-, hnext, -, -, hstack, -⟩ := hm
  obtain ⟨hwf, hmap, hsaves, hentries⟩ := h
  exact ⟨hwf, hnext, hmap, fun m hm => (hstack m hm).2.1, hsaves, hentries⟩

theorem NumbersOk.mapOk {s : State} (h : NumbersOk s) : MapOk s := ⟨h.canonical, h.map, h.saves, h.entries⟩

/-- Marks, map and saves that stay, with entries whose numbers lie below the next one. -/
theorem NumbersOk.withEntries {s t : State} (h : NumbersOk s) (hm : t.marks = s.marks)
    (hw : t.windows.map = s.windows.map) (hs : t.save.contexts = s.save.contexts)
    (ht : EntriesBelow s.marks.nextNumber t.transit.entries) : NumbersOk t where
  canonical := hw ▸ h.canonical
  next := hm ▸ h.next
  map := by rw [hm, hw]; exact h.map
  stack := by rw [hm]; exact h.stack
  saves c x hx := by
    rw [hm]
    exact h.saves c x (by rwa [State.context?, hs] at hx)
  entries := by rw [hm]; exact ht

/-- Marks, map, saves and entries that stay. -/
theorem NumbersOk.congr {s t : State} (h : NumbersOk s) (hm : t.marks = s.marks) (hw : t.windows.map = s.windows.map)
    (hs : t.save.contexts = s.save.contexts) (ht : t.transit.entries = s.transit.entries) : NumbersOk t :=
  h.withEntries hm hw hs (ht ▸ h.entries)

/-! ### Updates of the part's tables -/

/-- R41: an entry of the map set to a number in use, or to 0. -/
theorem NumbersOk.writeMap {s : State} (h : NumbersOk s) (i : Nat) {v : Nat} (hv : v < s.marks.nextNumber) :
    NumbersOk (s.writeMap i v) where
  canonical := mapWf_mapWrite h.canonical i v
  next := h.next
  map hs p hp := by
    rcases mem_mapWrite hp with hp | rfl
    · exact h.map hs p hp
    · exact hv
  stack := h.stack
  saves := h.saves
  entries := h.entries

theorem NumbersOk.putContext {s : State} (h : NumbersOk s) (c : ContextNo) {x : SaveContext}
    (hx : x.state ≠ .free → x.markNumber < s.marks.nextNumber) : NumbersOk (s.putContext c x) where
  canonical := h.canonical
  next := h.next
  map := h.map
  stack := h.stack
  saves d y hy := by
    by_cases hd : d = c
    · subst hd
      rw [State.context?_putContext_same, SaveContext.busy?_eq_some] at hy
      obtain ⟨hbusy, rfl⟩ := hy
      exact hx hbusy
    · rw [State.context?_putContext_other s hd] at hy
      exact h.saves d y hy
  entries := h.entries

theorem EntriesBelow.map {next : Nat} {es : List TransitEntry} (h : EntriesBelow next es)
    {f : TransitEntry → TransitEntry}
    (hf : ∀ e n, (f e).markNumber = some n → e.markNumber = some n ∨ n < next) : EntriesBelow next (es.map f) := by
  intro d hd n hn
  obtain ⟨e, he, rfl⟩ := List.mem_map.mp hd
  exact (hf e n hn).elim (h e he n) id

/-- An entry whose number stays, or becomes one in use. -/
theorem NumbersOk.updateEntry {s : State} (h : NumbersOk s) (o : Nat) {f : TransitEntry → TransitEntry}
    (hf : ∀ e n, (f e).markNumber = some n → e.markNumber = some n ∨ n < s.marks.nextNumber) :
    NumbersOk (s.updateEntry o f) := by
  refine h.withEntries rfl rfl rfl (h.entries.map fun e n hn => ?_)
  split at hn
  · exact hf e n hn
  · exact .inl hn

/-- Entries whose numbers stay or are removed. -/
theorem NumbersOk.updateEntries {s : State} (h : NumbersOk s) {f : TransitEntry → TransitEntry}
    (hf : ∀ e n, (f e).markNumber = some n → e.markNumber = some n) : NumbersOk (s.updateEntries f) :=
  h.withEntries rfl rfl rfl (h.entries.map fun e n hn => .inl (hf e n hn))

/-- A controller that keeps the next mark number and takes no mark onto the stack. -/
theorem NumbersOk.updateMarks {s : State} (h : NumbersOk s) {f : MarkController → MarkController}
    (hs : s.marks.state ≠ .starting) (hn : (f s.marks).nextNumber = s.marks.nextNumber)
    (hk : ∀ m ∈ (f s.marks).stack, m ∈ s.marks.stack) : NumbersOk (s.updateMarks f) where
  canonical := h.canonical
  next := hn ▸ h.next
  map _ := by
    show ∀ p ∈ s.windows.map, p.2 < (f s.marks).nextNumber
    rw [hn]
    exact h.map hs
  stack m hm := by
    show m.number < (f s.marks).nextNumber
    rw [hn]
    exact h.stack m (hk m hm)
  saves := by
    show ∀ c x, s.context? c = some x → x.markNumber < (f s.marks).nextNumber
    rw [hn]
    exact h.saves
  entries := by
    show EntriesBelow (f s.marks).nextNumber s.transit.entries
    rw [hn]
    exact h.entries

/-! ### The transit buffer (R88 to R105) -/

/-- R91, R99: an entry records the current mark's number, or none. -/
theorem NumbersOk.classificationMark_lt {s : State} (h : NumbersOk s) {n : Nat}
    (hn : s.classificationMark = some n) : n < s.marks.nextNumber := by
  unfold State.classificationMark at hn
  split at hn
  · obtain ⟨m, hm, rfl⟩ := Option.map_eq_some_iff.mp hn
    exact h.stack m (List.mem_of_getLast? hm)
  · cases hn

theorem NumbersOk.enterWaitSave {s : State} (h : NumbersOk s) (o : Nat) : NumbersOk (s.enterWaitSave o) :=
  (h.updateEntry o (f := fun e => { e with state := .waitSave, hasContext := false }) fun _ _ => .inl).congr
    rfl rfl rfl rfl

theorem NumbersOk.evaluateHead {s : State} (h : NumbersOk s) (o : Nat) : NumbersOk (s.evaluateHead o) := by
  unfold State.evaluateHead
  split
  · exact h
  · split
    · split
      · exact h.enterWaitSave o
      · exact h.updateEntry o fun _ _ => .inl
    · exact h

theorem NumbersOk.passTurn {s : State} (h : NumbersOk s) (i : Nat) : NumbersOk (s.passTurn i) := by
  unfold State.passTurn
  split
  · exact h
  · split
    · exact h.evaluateHead _
    · exact h

theorem NumbersOk.leave {s : State} (h : NumbersOk s) (o : Nat) : NumbersOk (s.leave o) := by
  have hleft : NumbersOk (s.setTransit { s.transit with
      entries := s.transit.entries.eraseP (·.order == o), credits := s.transit.credits + 1 }) :=
    h.withEntries rfl rfl rfl fun e he => h.entries e (List.mem_of_mem_eraseP he)
  unfold State.leave
  split
  · exact h
  · dsimp only
    split
    · exact hleft.passTurn _
    · exact hleft

theorem NumbersOk.release {s : State} (h : NumbersOk s) (o : Nat) : NumbersOk (s.release o) :=
  h.updateEntry o fun _ _ => .inl

theorem NumbersOk.enter {s : State} (h : NumbersOk s) (r : UpstreamRequest) (cls : EntryClass) {mark : Option Nat}
    (state : TransitState) (hm : ∀ n, mark = some n → n < s.marks.nextNumber) :
    NumbersOk (s.enter r cls mark state) := by
  refine h.withEntries rfl rfl rfl fun e he => ?_
  rcases List.mem_append.mp he with he | he
  · exact h.entries e he
  · obtain rfl := List.mem_singleton.mp he
    exact hm

theorem NumbersOk.enterWindow {s : State} (h : NumbersOk s) (r : UpstreamRequest) (w : WindowNo) (i : Nat) :
    NumbersOk (s.enterWindow r w i) := by
  have hmark : ∀ n, s.classificationMark = some n → n < s.marks.nextNumber := fun n hn => h.classificationMark_lt hn
  unfold State.enterWindow
  dsimp only
  split
  · exact h.enter r _ _ (by simp)
  · split
    · exact h.enter r _ _ hmark
    · exact (h.enter r _ _ hmark).evaluateHead _

theorem numbersOk_denyRequest {h : Happening} (ok : NumbersOk h.state) (r : UpstreamRequest) (reason : DenyReason) :
    NumbersOk (h.denyRequest r reason).state :=
  ok.congr (by simp) (by simp) (by simp) (by simp)

theorem numbersOk_arrive {h : Happening} (ok : NumbersOk h.state) (r : UpstreamRequest) :
    NumbersOk (h.arrive r).state := by
  unfold Happening.arrive
  split
  · exact numbersOk_denyRequest ok r _
  · split
    · exact numbersOk_denyRequest (h := h.step _) (ok.congr rfl rfl rfl rfl) r _
    · exact ok.enterWindow r _ _
    · exact ok.enter r _ _ (by simp)

/-- R99: an entry is classified afresh under the current mark. -/
theorem NumbersOk.reclassify {s : State} (h : NumbersOk s) (e : TransitEntry) : NumbersOk (s.reclassify e) := by
  unfold State.reclassify
  split
  · have hmarked : NumbersOk (s.updateEntry e.order fun e => { e with markNumber := s.classificationMark }) :=
      h.updateEntry _ fun _ _ hn => .inr (h.classificationMark_lt hn)
    dsimp only
    split
    · exact hmarked.updateEntry _ fun _ _ => .inl
    · exact hmarked.evaluateHead _
  · exact h

theorem NumbersOk.reclassifyAll {s : State} (h : NumbersOk s) : NumbersOk s.reclassifyAll := by
  unfold State.reclassifyAll
  generalize List.filter _ s.transit.entries = es
  induction es generalizing s with
  | nil => exact h
  | cons e es ih => exact ih (h.reclassify e)

theorem NumbersOk.markPreDrain {s : State} (h : NumbersOk s) : NumbersOk s.markPreDrain :=
  h.updateEntries fun _ _ => id

theorem NumbersOk.clearPreDrain {s : State} (h : NumbersOk s) : NumbersOk s.clearPreDrain :=
  h.updateEntries fun _ _ => id

theorem NumbersOk.clearMarkNumbers {s : State} (h : NumbersOk s) : NumbersOk s.clearMarkNumbers :=
  h.updateEntries fun _ _ hn => by cases hn

theorem NumbersOk.releaseWaiting {s : State} (h : NumbersOk s) : NumbersOk s.releaseWaiting := by
  refine NumbersOk.congr (h.updateEntries (f := fun e =>
    if e.state = .waitSave && !e.hasContext then { e with state := .forwardable } else e) fun e n hn => ?_)
    rfl rfl rfl rfl
  split at hn <;> exact hn

theorem NumbersOk.releaseStep {s : State} (h : NumbersOk s) : NumbersOk s.releaseStep :=
  h.releaseWaiting.reclassifyAll

/-! ### The mark controller (R11 to R25) -/

theorem NumbersOk.startDrain {s : State} (h : NumbersOk s) (hs : s.marks.state ≠ .starting) (action : PendingAction) :
    NumbersOk (s.startDrain action) :=
  (h.updateMarks (f := fun m => { m with state := .draining, action := action }) hs rfl fun _ => id).markPreDrain

theorem NumbersOk.setLatch {s : State} (h : NumbersOk s) (hs : s.marks.state ≠ .starting) (latch : Bool) :
    NumbersOk (s.updateMarks fun m => { m with latch := latch }) :=
  h.updateMarks (f := fun m => { m with latch := latch }) hs rfl fun _ => id

theorem numbersOk_abandonCheck {h : Happening} (ok : NumbersOk h.state) : NumbersOk h.abandonCheck.state :=
  ok.congr (by simp) (by simp) (by simp) (by simp)

/-- R24: one line request. -/
theorem numbersOk_lineRequest {h : Happening} (ok : NumbersOk h.state) : NumbersOk h.lineRequest.state := by
  by_cases hready : Ready h.state
  case neg => rw [lineRequest_of_not_ready hready]; exact ok
  cases he : h.state.mgmt.lineRollback.enable with
  | false => rw [lineRequest_of_disabled hready he]; exact ok
  | true =>
    cases hs : h.state.marks.state with
    | starting => exact absurd hs hready.1
    | resetting => exact absurd hs hready.2
    | idle => rw [lineRequest_of_idle he hs]; exact ok
    | broken => rw [lineRequest_of_broken he hs]; exact ok
    | draining => rw [lineRequest_of_busy he (.inl hs)]; exact ok.setLatch hready.1 true
    | rollingBack => rw [lineRequest_of_busy he (.inr hs)]; exact ok.setLatch hready.1 true
    | opened =>
      by_cases hl : h.state.level < h.state.mgmt.lineRollback.target
      · rw [lineRequest_of_low_level he hs hl]
        exact ok
      · rw [lineRequest_of_opened he hs (Nat.not_lt.mp hl)]
        exact numbersOk_abandonCheck (h := h.step _) (ok.startDrain hready.1 _)

/-- R17, R25: the latch is evaluated. -/
theorem numbersOk_evaluateLatch {h : Happening} (ok : NumbersOk h.state) : NumbersOk h.evaluateLatch.state := by
  unfold Happening.evaluateLatch
  split
  · split
    · exact numbersOk_lineRequest (h := h.step _) (ok.setLatch (by simp [*]) false)
    · exact ok.setLatch (by simp [*]) false
    · exact ok.setLatch (by simp [*]) false
    · exact ok
  · exact ok

/-- R17: the two steps after a mark action. -/
theorem numbersOk_settle {h : Happening} (ok : NumbersOk h.state) : NumbersOk h.settle.state :=
  numbersOk_evaluateLatch (h := h.step State.reclassifyAll) ok.reclassifyAll

/-- R19, R20: the controller enters BROKEN. -/
theorem NumbersOk.enterBroken {s : State} (h : NumbersOk s) (hs : s.marks.state ≠ .starting) (reason : BrokenReason) :
    NumbersOk (s.enterBroken reason) :=
  (h.updateMarks (f := fun m => { m with state := .broken, stack := [], reason := reason, action := .noAction }) hs rfl
    (by simp)).clearPreDrain.clearMarkNumbers.releaseWaiting

theorem enterBroken_marks_state (s : State) (reason : BrokenReason) :
    (s.enterBroken reason).marks.state = .broken := rfl

/-- R20, R21: a break report. -/
theorem numbersOk_breakReport {h : Happening} (ok : NumbersOk h.state) (reason : BrokenReason) :
    NumbersOk (h.breakReport reason).state := by
  unfold Happening.breakReport
  dsimp only
  split
  · rename_i hs
    exact numbersOk_abandonCheck (h := (h.step _).post _ _) (ok.enterBroken (by simp [hs]) reason)
  · rename_i hs
    have hb : NumbersOk (h.state.enterBroken reason) := ok.enterBroken (by simp [hs]) reason
    have hunlatched := hb.setLatch (by rw [enterBroken_marks_state]; decide) false
    refine numbersOk_settle (numbersOk_abandonCheck ?_)
    cases h.state.marks.action.dropped with
    | none => split; exacts [hunlatched, hb]
    | some command => split; exacts [hunlatched, hb]
  · exact ok

/-! ### Mark actions and outcomes (R13 to R19) -/

/-- R13: the new mark takes the next number, which every number in use lies below. -/
theorem NumbersOk.pushMark {s : State} (h : NumbersOk s) (hs : s.marks.state ≠ .starting) (label : Label) :
    NumbersOk (s.pushMark label) := by
  have hraised : NumbersOk (s.updateMarks fun m =>
      { m with
        stack := m.stack ++ [⟨s.level + 1, m.nextNumber, label, s.log.tail, s.log.nextSequence⟩]
        nextNumber := m.nextNumber + 1
        action := .noAction
        state := .opened }) :=
    { canonical := h.canonical
      next := Nat.le_add_left _ _
      map := fun _ p hp => Nat.lt_succ_of_lt (h.map hs p hp)
      stack := fun m hm => by
        rcases List.mem_append.mp hm with hm | hm
        · exact Nat.lt_succ_of_lt (h.stack m hm)
        · obtain rfl := List.mem_singleton.mp hm
          exact Nat.lt_succ_self _
      saves := fun c x hx => Nat.lt_succ_of_lt (h.saves c x hx)
      entries := fun e he n hn => Nat.lt_succ_of_lt (h.entries e he n hn) }
  exact hraised.clearPreDrain

theorem NumbersOk.popMark {s : State} (h : NumbersOk s) (hs : s.marks.state ≠ .starting) : NumbersOk s.popMark :=
  (h.updateMarks (f := fun m => { m with stack := m.stack.dropLast, action := .noAction, state := .opened }) hs rfl
    fun _ => List.mem_of_mem_dropLast).clearPreDrain

theorem NumbersOk.commitMarks {s : State} (h : NumbersOk s) (hs : s.marks.state ≠ .starting) :
    NumbersOk s.commitMarks := by
  have hempty : NumbersOk (s.updateMarks fun m => { m with stack := [], action := .noAction, state := .idle }) :=
    h.updateMarks (f := fun m => { m with stack := [], action := .noAction, state := .idle }) hs rfl (by simp)
  exact NumbersOk.clearPreDrain (hempty.congr rfl rfl rfl rfl)

theorem not_starting_of_drained {s : State} (hd : s.drained = true) : s.marks.state ≠ .starting := by
  rw [draining_of_drained hd]
  decide

theorem numbersOk_openEffect {h : Happening} (ok : NumbersOk h.state) : NumbersOk h.openEffect.state := by
  unfold Happening.openEffect
  split
  · split
    · exact numbersOk_settle (h := h.step _) (ok.pushMark (not_starting_of_drained ‹_›) _)
    · exact ok
  · exact ok

theorem numbersOk_releaseEffect {h : Happening} (ok : NumbersOk h.state) : NumbersOk h.releaseEffect.state := by
  unfold Happening.releaseEffect
  split
  · split
    · rename_i hd
      refine numbersOk_settle ?_
      rw [Happening.step_state]
      split
      · exact ok.popMark (not_starting_of_drained hd)
      · exact ok.commitMarks (not_starting_of_drained hd)
    · exact ok
  · exact ok

theorem numbersOk_commitEffect {h : Happening} (ok : NumbersOk h.state) : NumbersOk h.commitEffect.state := by
  unfold Happening.commitEffect
  split
  · split
    · exact numbersOk_settle (h := h.step _) (ok.commitMarks (not_starting_of_drained ‹_›))
    · exact ok
  · exact ok

theorem numbersOk_beginWalk {h : Happening} (ok : NumbersOk h.state) (st : EngineState) (o : Origin) (k : Nat)
    (m : MarkRecord) : NumbersOk (h.beginWalk st o k m).state :=
  ok.congr (by simp) (by simp) (by simp) (by simp)

theorem numbersOk_rollbackEffect {h : Happening} (ok : NumbersOk h.state) : NumbersOk h.rollbackEffect.state := by
  unfold Happening.rollbackEffect
  split
  · split
    · rename_i hd _
      have hrolling : NumbersOk (h.state.updateMarks fun m => { m with action := .noAction, state := .rollingBack }) :=
        ok.updateMarks (f := fun m => { m with action := .noAction, state := .rollingBack })
          (not_starting_of_drained hd) rfl fun _ => id
      exact numbersOk_beginWalk (h := h.step fun s =>
        (s.updateMarks fun m => { m with action := .noAction, state := .rollingBack }).clearPreDrain)
        hrolling.clearPreDrain _ _ _ _
    · exact ok
  · exact ok

/-- R18: the marks up to the target stay. -/
theorem numbersOk_rollbackDone {h : Happening} (ok : NumbersOk h.state) (hs : h.state.marks.state ≠ .starting)
    (o : WalkOutcome) (m : MarkRecord) : NumbersOk (h.rollbackDone o m).state := by
  have htruncated : NumbersOk (h.state.truncateLog m.startOffset m.firstSequence) := ok.congr rfl rfl rfl rfl
  exact numbersOk_settle (h := (h.step _).post _ _) (htruncated.updateMarks
    (f := fun c => { c with stack := c.stack.take o.level, state := .opened }) hs rfl fun _ => List.mem_of_mem_take)

theorem numbersOk_rollbackIncomplete {h : Happening} (ok : NumbersOk h.state)
    (hs : h.state.marks.state ≠ .starting) (o : WalkOutcome) : NumbersOk (h.rollbackIncomplete o).state :=
  numbersOk_settle (h := (h.step _).post _ _) (ok.enterBroken hs _)

theorem numbersOk_takeOutcome {h : Happening} (ok : NumbersOk h.state) : NumbersOk h.takeOutcome.state := by
  unfold Happening.takeOutcome
  split
  · rename_i hready
    have hs : h.state.marks.state ≠ .starting := by
      simp only [State.outcomeReady, Bool.and_eq_true, beq_iff_eq, and_assoc] at hready
      rw [hready.1]
      decide
    have hidle : NumbersOk (h.state.updateEngine RestoreEngine.toIdle) := ok.congr rfl rfl rfl rfl
    dsimp only
    split
    · split
      · exact numbersOk_rollbackDone (h := h.step (·.updateEngine RestoreEngine.toIdle)) hidle hs _ _
      · exact ok
    · exact numbersOk_rollbackIncomplete (h := h.step (·.updateEngine RestoreEngine.toIdle)) hidle hs _
  · exact ok

/-! ### Saves (R67 to R76) -/

/-- R68: a save carries its entry's number, or 0. -/
theorem NumbersOk.newContext_lt {s : State} (h : NumbersOk s) {e : TransitEntry} (he : e ∈ s.transit.entries) :
    e.markNumber.getD 0 < s.marks.nextNumber := by
  cases hn : e.markNumber with
  | none => exact h.next
  | some n => exact h.entries e he n hn

theorem numbersOk_reserve {h : Happening} (ok : NumbersOk h.state) (g : Granule) : NumbersOk (h.reserve g).state :=
  ok.congr (by simp) (by simp) (by simp) (by simp)

theorem numbersOk_grantSave {h : Happening} (ok : NumbersOk h.state) {e : TransitEntry}
    (he : e ∈ h.state.transit.entries) (w : WindowNo) (i : Nat) (g : Granule) (c : ContextNo) :
    NumbersOk (h.grantSave e w i g c).state := by
  have hput : NumbersOk ((h.reserve g).state.putContext c (h.state.newContext e w i g)) := by
    refine (numbersOk_reserve ok g).putContext c fun _ => ?_
    rw [show (h.reserve g).state.marks = h.state.marks by simp]
    exact ok.newContext_lt he
  unfold Happening.grantSave
  exact NumbersOk.updateEntry (hput.congr (by rfl) (by rfl) (by rfl) (by rfl)) _ fun _ _ => .inl

theorem numbersOk_refuseSave {h : Happening} (ok : NumbersOk h.state) (e : TransitEntry) (w : WindowNo) :
    NumbersOk (h.refuseSave e w).state :=
  NumbersOk.leave (ok.congr (by rfl) (by rfl) (by rfl) (by rfl)) e.order

theorem numbersOk_allocateSave {h : Happening} (ok : NumbersOk h.state) : NumbersOk h.allocateSave.state := by
  unfold Happening.allocateSave
  split
  · exact ok
  · rename_i e w i g c ha
    split
    · exact numbersOk_grantSave ok (State.mem_of_nextAllocation ha) w i g c
    · split
      · exact numbersOk_breakReport (h := h.step _) (ok.congr rfl rfl rfl rfl) _
      · exact numbersOk_refuseSave ok e w

theorem NumbersOk.freeContext {s : State} (h : NumbersOk s) (c : ContextNo) : NumbersOk (s.freeContext c) :=
  (h.putContext c (x := SaveContext.reset) (absurd rfl)).congr
    (by simp [State.freeContext]) (by simp [State.freeContext]) (by simp [State.freeContext])
    (by simp [State.freeContext])

/-- R72: the map entry takes the save's number. -/
theorem NumbersOk.saveCompleted {s : State} (h : NumbersOk s) (c : ContextNo) {x : SaveContext}
    (hx : x.markNumber < s.marks.nextNumber) : NumbersOk (s.saveCompleted c x) := by
  have hcounted : NumbersOk (s.writeMap x.index x.markNumber).countSaveCompleted :=
    (h.writeMap x.index hx).congr rfl rfl rfl rfl
  exact (hcounted.freeContext c).release _

theorem NumbersOk.answerMemError {s : State} (h : NumbersOk s) (o : Nat) : NumbersOk (s.answerMemError o) := by
  unfold State.answerMemError
  split
  · exact NumbersOk.leave (h.congr (by rfl) (by rfl) (by rfl) (by rfl)) o
  · exact h

theorem numbersOk_voidCompleted {h : Happening} (ok : NumbersOk h.state) (c : ContextNo) (x : SaveContext) :
    NumbersOk (h.voidCompleted c x).state := by
  have hfreed : NumbersOk (h.state.countSaveFailed.freeContext c) :=
    NumbersOk.freeContext (ok.congr (by rfl) (by rfl) (by rfl) (by rfl)) c
  by_cases hm : h.state.marks.state = .opened ∨ h.state.marks.state = .draining
  · simpa [Happening.voidCompleted, hm] using hfreed.answerMemError x.held
  · simpa [Happening.voidCompleted, hm] using hfreed.release x.held

theorem NumbersOk.settleContext {s : State} (h : NumbersOk s) (c : ContextNo) : NumbersOk (s.settleContext c) := by
  unfold State.settleContext
  split
  · exact h
  · rename_i x hx
    (repeat' split)
    · exact h
    · exact (h.freeContext c).release _
    · exact h.putContext c fun _ => h.saves c x hx
    · exact h

theorem numbersOk_logWriteFailed {h : Happening} (ok : NumbersOk h.state) (c : ContextNo) {x : SaveContext}
    (hx : x.markNumber < h.state.marks.nextNumber) (result : Result) :
    NumbersOk (h.logWriteFailed c x result).state := by
  unfold Happening.logWriteFailed
  split
  · exact ok.settleContext c
  · have hfailed : NumbersOk ((h.state.putContext c { x with
        error := if result = .timeout then .writeTimeout else .writeError }).freeReportFirst x) :=
      (ok.putContext c (x := { x with error := if result = .timeout then .writeTimeout else .writeError })
        fun _ => hx).congr (by simp) (by simp) (by simp) (by simp)
    exact (numbersOk_breakReport (h := (h.step (·.putContext c { x with
      error := if result = .timeout then .writeTimeout else .writeError })).step (·.freeReportFirst x)) hfailed
      _).settleContext c

/-- R70 to R76: the end of a request of a save. -/
theorem numbersOk_saveResult {h : Happening} (ok : NumbersOk h.state) (c : ContextNo) (step : SaveStep)
    (result : Result) : NumbersOk (h.saveResult c step result).state := by
  unfold Happening.saveResult
  split
  · exact ok
  · rename_i x hx
    have hlt := ok.saves c x hx
    have hsettled := ok.settleContext c
    split
    · split
      · exact ok.putContext c fun _ => by simpa using hlt
      · exact hsettled
    · split
      · exact (ok.putContext c (x := x.readFailed _) fun _ => hlt).settleContext c
      · exact hsettled
    · split
      · exact hsettled
      · exact (ok.putContext c (x := x.lineWritten _) fun _ => by simpa using hlt).settleContext c
    · split
      · exact ok.saveCompleted c hlt
      · exact numbersOk_voidCompleted ok c x
      · exact hsettled
    · exact numbersOk_logWriteFailed ok c hlt _

/-! ### Walks (R134 to R137) -/

/-- R135: a restored record's map entry is cleared. -/
theorem numbersOk_restored {h : Happening} (ok : NumbersOk h.state) (r : CurrentRecord) :
    NumbersOk (h.restored r).state :=
  (ok.writeMap r.index ok.next).congr (by simp [Happening.restored]) (by simp [Happening.restored])
    (by simp [Happening.restored]) (by simp [Happening.restored])

theorem numbersOk_recordRequestEnded {h : Happening} (ok : NumbersOk h.state) (r : CurrentRecord) (line : Nat)
    (isRead : Bool) (result : Result) : NumbersOk (h.recordRequestEnded r line isRead result).state := by
  unfold Happening.recordRequestEnded
  dsimp only
  generalize hh : h.step _ = h₁
  have ok₁ : NumbersOk h₁.state := hh ▸ ok.congr rfl rfl rfl rfl
  (repeat' split)
  · exact ok₁.congr (by simp) (by simp) (by simp) (by simp)
  · exact ok₁
  · exact ok₁.congr (by simp) (by simp) (by simp) (by simp)
  · exact numbersOk_restored ok₁ r
  · exact ok₁

theorem numbersOk_restoreResult {h : Happening} (ok : NumbersOk h.state) (step : RestoreStep) (result : Result) :
    NumbersOk (h.restoreResult step result).state := by
  unfold Happening.restoreResult
  dsimp only
  generalize hh : h.step _ = h₁
  have ok₁ : NumbersOk h₁.state := hh ▸ ok.congr rfl rfl rfl rfl
  split
  · split
    · exact ok₁.congr (by simp) (by simp) (by simp) (by simp)
    · exact ok₁.congr (by simp) (by simp) (by simp) (by simp)
  · exact numbersOk_recordRequestEnded ok₁ _ _ _ _
  · exact numbersOk_recordRequestEnded ok₁ _ _ _ _
  · exact ok₁

/-! ### The downstream port (R116 to R124) -/

/-- R77, R113: the context in an offer is busy, as it stands. -/
theorem context?_of_offerOf {s : State} {source : Source} {c : ContextNo} {x : SaveContext} {step : SaveStep}
    (h : s.offerOf source = some (.save c x step)) : s.context? c = some x := by
  cases source with
  | passThrough =>
    obtain ⟨e, -, he⟩ := Option.map_eq_some_iff.mp h
    cases he
  | restore =>
    obtain ⟨e, -, he⟩ := Option.map_eq_some_iff.mp h
    cases he
  | save =>
    obtain ⟨⟨d, st⟩, -, hd⟩ := Option.bind_eq_some_iff.mp h
    obtain ⟨y, hy, he⟩ := Option.map_eq_some_iff.mp hd
    cases he
    exact hy

/-- R116: the source of an offer that is issued keeps its number. -/
theorem NumbersOk.grant {s : State} (h : NumbersOk s) : NumbersOk s.grant := by
  unfold State.grant
  split
  · exact h
  · split
    · rename_i offer t hoffer _
      have hsent : ∀ d l, NumbersOk ((s.setDown d).setLinks l) := fun d l => h.congr rfl rfl rfl rfl
      unfold State.issue State.tellIssued
      dsimp only
      split
      · exact NumbersOk.leave (hsent _ _) _
      · rename_i c x step
        refine NumbersOk.putContext (hsent _ _) c fun _ => ?_
        simpa using h.saves c x (context?_of_offerOf hoffer)
      · exact h.congr rfl rfl rfl rfl
    · exact h

theorem numbersOk_deliverOk {h : Happening} (ok : NumbersOk h.state) (data : Option (List Byte)) (origin : TagOrigin) :
    NumbersOk (h.deliverOk data origin).state := by
  cases origin with
  | passThrough requester tag kind windowWrite length => exact ok.congr rfl rfl rfl rfl
  | save c step => exact numbersOk_saveResult ok c step _
  | restore step => exact numbersOk_restoreResult ok step _

theorem numbersOk_deliverFailure {h : Happening} (ok : NumbersOk h.state) (failure : Result) (origin : TagOrigin) :
    NumbersOk (h.deliverFailure failure origin).state := by
  cases origin with
  | passThrough requester tag kind windowWrite length => exact ok.congr rfl rfl rfl rfl
  | save c step => exact numbersOk_saveResult ok c step _
  | restore step => exact numbersOk_restoreResult ok step _

theorem numbersOk_response {h : Happening} (ok : NumbersOk h.state) (t : TagNo) (status : LinkStatus)
    (data : Option (List Byte)) : NumbersOk (h.response t status data).state := by
  have hfreed : NumbersOk (h.state.setTag t .free) := ok.congr rfl rfl rfl rfl
  unfold Happening.response
  split
  · split
    · exact numbersOk_deliverOk (h := h.step (·.setTag t .free)) hfreed _ _
    · exact numbersOk_deliverFailure (h := h.step (·.setTag t .free)) hfreed _ _
  · exact hfreed
  · exact ok

theorem numbersOk_timeOut {h : Happening} (ok : NumbersOk h.state) (t : TagNo) : NumbersOk (h.timeOut t).state := by
  unfold Happening.timeOut
  split
  · rename_i r _
    split
    · have hstale : NumbersOk (h.state.setTag t (.stale r)) := ok.congr rfl rfl rfl rfl
      exact (numbersOk_deliverFailure (h := h.step (·.setTag t (.stale r))) hstale .timeout r.origin).congr
        rfl rfl rfl rfl
    · exact ok
  · exact ok

/-- A happening keeps the invariant where its steps do. -/
theorem numbersOk_happening {s : State} {f : Happening → Happening} (ok : NumbersOk (f (Happening.start s)).state) :
    NumbersOk (happening s f) :=
  ok.congr (by simp) (by simp) (by simp) (by simp)

/-! ### The quiesce (R185 to R188) -/

theorem context?_of_contexts_reset {s : State} (h : s.save.contexts = SaveEngine.reset.contexts) (c : ContextNo) :
    s.context? c = none := by
  simp [State.context?, h, SaveEngine.reset]

/-- R44, R188: the reset step keeps the map and the next mark number. -/
theorem NumbersOk.quiesceStep {s : State} (h : NumbersOk s) (hs : s.marks.state ≠ .starting) :
    NumbersOk s.quiesceStep where
  canonical := by simpa [WindowUnit.resetStep] using h.canonical
  next := by simpa using h.next
  map _ := by simpa [WindowUnit.resetStep] using h.map hs
  stack := by simp
  saves c x hx := by
    rw [context?_of_contexts_reset (by simp)] at hx
    cases hx
  entries := by simpa using h.releaseStep.entries

theorem NumbersOk.quiesceComplete {s : State} (h : NumbersOk s) : NumbersOk s.quiesceComplete := by
  unfold State.quiesceComplete
  split
  · rename_i hd
    obtain ⟨hs, -⟩ := s.quiesceDue_iff.mp hd
    exact h.quiesceStep (by simp [hs])
  · exact h

theorem not_starting_of_completes {s t : State} (hc : s.completesQuiesce t = true) : t.marks.state ≠ .starting := by
  simp only [State.completesQuiesce, Bool.and_eq_true] at hc
  rw [(t.quiesceDue_iff.mp hc.2).1]
  decide

theorem NumbersOk.reported {t : State} (h : NumbersOk t) (s : State) : NumbersOk (s.reported t) := by
  rcases State.reported_cases s t with heq | ⟨hc, heq⟩ <;> rw [heq]
  · exact h
  · exact h.quiesceStep (not_starting_of_completes hc)

theorem NumbersOk.timeOutTag {s : State} (h : NumbersOk s) (tag : TagNo) : NumbersOk (s.timeOutTag tag) := by
  have ht : NumbersOk (happening s fun h => h.timeOut tag) :=
    numbersOk_happening (numbersOk_timeOut (h := Happening.start s) h tag)
  unfold State.timeOutTag
  dsimp only
  split
  · rename_i r hc _
    obtain ⟨u, rfl, hu⟩ := State.quiesceAmidTimeout_cases (happening s fun h => h.timeOut tag)
      (.responseTimeout r.origin.source r.address)
    have hchosen : NumbersOk ((happening s fun h => h.timeOut tag).setChoices
      ((happening s fun h => h.timeOut tag).choices + 1)) := ht.congr rfl rfl rfl rfl
    have hq := hchosen.quiesceStep (not_starting_of_completes hc)
    rcases hu with hu | hu | hu <;> rw [hu]
    · exact hq
    · exact hq.congr (by simp) (by simp) (by simp) (by simp)
    · exact hq.congr (by simp) (by simp) (by simp) (by simp)
  · exact ht

/-! ### Owners (R6 to R10, R175, R184) -/

/-- The owner's answer to a frame that passes the tests of R175 keeps the numbers. -/
def KeepsNumbers (anyState : Bool) (owner : State → Answer) : Prop :=
  ∀ s, NumbersOk s → (anyState = false → s.notReady = false) → NumbersOk (owner s).state

theorem numbersOk_takeFrame {s : State} (ok : NumbersOk s) (f : Frame) (identifier expected : Nat) {anyState : Bool}
    {owner : State → Answer} (h : KeepsNumbers anyState owner) :
    NumbersOk (takeFrame s f identifier expected anyState owner) := by
  rcases takeFrame_cases s f identifier expected anyState owner with heq | ⟨u, rfl, ⟨status, heq⟩ | ⟨hr, heq⟩⟩
  · rw [heq]
    exact ok
  · rw [heq]
    exact ok.congr (by simp) (by simp) (by simp) (by simp)
  · rw [heq]
    exact (h _ (ok.congr (by simp) (by simp) (by simp) (by simp)) hr).congr (by simp) (by simp) (by simp) (by simp)

/-- An owner that touches neither marks, map, saves nor entries. -/
theorem KeepsNumbers.of_same {anyState : Bool} {owner : State → Answer}
    (h : ∀ s, (owner s).state.marks = s.marks ∧ (owner s).state.windows.map = s.windows.map ∧
      (owner s).state.save = s.save ∧ (owner s).state.transit = s.transit) : KeepsNumbers anyState owner := by
  intro s ok _
  obtain ⟨hm, hw, hs, ht⟩ := h s
  exact ok.congr hm hw (by rw [hs]) (by rw [ht])

theorem KeepsNumbers.of_records {owner : State → Answer} (h : ∀ s, KeepsAllButRecords s (owner s)) :
    KeepsNumbers false owner :=
  .of_same fun s => by
    obtain ⟨hm, hw, -, hs, ht, -⟩ := h s
    exact ⟨hm, hw, hs, ht⟩

/-- R7, R8: a drain begins only where the part is ready. -/
theorem KeepsNumbers.of_drain {owner : State → Answer} (h : ∀ s, RefusedOrDrains s (owner s)) :
    KeepsNumbers false owner := by
  intro s ok hr
  rcases h s with heq | ⟨action, heq⟩ <;> rw [heq]
  · exact ok
  · exact ok.startDrain (ready_of_notReady (hr rfl)).1 action

theorem keepsNumbers_checkLog (k : Nat) : KeepsNumbers false (answerCheckLog k) := by
  intro s ok _
  unfold answerCheckLog
  (repeat' split) <;> try exact ok
  exact numbersOk_beginWalk (h := Happening.start s) ok _ _ _ _

/-- R10: DISCARD keeps the stack, empty in BROKEN. -/
theorem keepsNumbers_discard : KeepsNumbers false answerDiscard := by
  intro s ok hr
  unfold answerDiscard
  (repeat' split) <;> try exact ok
  have hidle : NumbersOk (s.emptyLog.updateMarks fun m => { m with reason := .noReason, state := .idle }) :=
    NumbersOk.updateMarks (f := fun m => { m with reason := .noReason, state := .idle })
      (ok.congr (by simp) (by simp) (by simp) (by simp)) (ready_of_notReady (hr rfl)).1 rfl fun _ => id
  exact hidle.congr rfl rfl rfl rfl

/-- R26, R104, R184: SOFT_RESET removes the entries' numbers. -/
theorem keepsNumbers_softReset : KeepsNumbers false answerSoftReset := by
  intro s ok hr
  unfold answerSoftReset
  have hentered : NumbersOk (s.updateMarks fun m =>
      { m with state := .resetting, action := .noAction, latch := false }) :=
    ok.updateMarks (f := fun m => { m with state := .resetting, action := .noAction, latch := false })
      (ready_of_notReady (hr rfl)).1 rfl fun _ => id
  have hcleared := hentered.clearMarkNumbers.clearPreDrain
  exact NumbersOk.quiesceComplete (hcleared.congr (by simp; rfl) (by simp [State.updateMgmt])
    (by simp [State.updateMgmt]) (by simp; rfl))

/-! ### The step -/

theorem numbersOk_running {s : State} (ok : NumbersOk s) {f : State → State} (h : NumbersOk (f s)) :
    NumbersOk (s.running f) := by
  unfold State.running
  split
  · exact ok
  · exact h

/-- R191: power-on reset drops every save and entry; the map is not swept yet (log 6). -/
theorem NumbersOk.powerOn {s : State} (h : NumbersOk s) : NumbersOk s.powerOn where
  canonical := h.canonical
  next := Nat.le_refl _
  map hs := absurd rfl hs
  stack := by simp [State.powerOn, MarkController.reset]
  saves c x hx := by
    rw [context?_of_contexts_reset rfl] at hx
    cases hx
  entries := by simp [EntriesBelow, State.powerOn, TransitBuffer.reset]

theorem NumbersOk.powerOnEnd {s : State} (h : NumbersOk s) : NumbersOk s.powerOnEnd := by
  unfold State.powerOnEnd
  split
  · exact ⟨h.canonical, h.next, absurd rfl, h.stack, h.saves, h.entries⟩
  · exact h

/-- R4, R42: the sweep clears the map; the next mark number is 1 throughout STARTING. -/
theorem NumbersOk.sweepComplete {s : State} (h : NumbersOk s)
    (hfirst : s.marks.state = .starting → s.marks.nextNumber = 1) : NumbersOk s.sweepComplete := by
  unfold State.sweepComplete
  split
  · rename_i hs
    have hsaves := h.saves
    have hentries := h.entries
    rw [hfirst hs] at hsaves hentries
    exact ⟨rfl, Nat.le_refl _, fun _ p hp => absurd hp List.not_mem_nil, by simp [MarkController.reset], hsaves,
      hentries⟩
  · exact h

theorem NumbersOk.risingEdge {s : State} (h : NumbersOk s) : NumbersOk s.risingEdge := by
  have hpin : NumbersOk (s.setRollbackReq true) := h.congr rfl rfl rfl rfl
  unfold State.risingEdge
  (repeat' split)
  · exact h
  · exact hpin
  · exact numbersOk_happening (numbersOk_lineRequest (h := Happening.start _) hpin)

/-- Every command answers a next state, which keeps the numbers. -/
theorem numbersOk_exec {s : State} (ok : NumbersOk s) (hfirst : s.marks.state = .starting → s.marks.nextNumber = 1)
    (c : Instr) : ∃ t, exec c s = .next t ∧ NumbersOk t := by
  cases c with
  | powerOnReset => exact ⟨_, rfl, ok.powerOn⟩
  | powerOnResetEnd => exact ⟨_, rfl, ok.powerOnEnd⟩
  | mapSweepComplete => exact ⟨_, rfl, numbersOk_running ok (ok.sweepComplete hfirst)⟩
  | rollbackReqRisingEdge => exact ⟨_, rfl, ok.risingEdge⟩
  | rollbackReqFallingEdge => exact ⟨_, rfl, ok.congr rfl rfl rfl rfl⟩
  | upstreamRequest r =>
    exact ⟨_, rfl, numbersOk_running ok (numbersOk_happening (numbersOk_arrive (h := Happening.start s) ok r))⟩
  | saveAllocation =>
    exact ⟨_, rfl, numbersOk_running ok (numbersOk_happening (numbersOk_allocateSave (h := Happening.start s) ok))⟩
  | arbiterGrant => exact ⟨_, rfl, numbersOk_running ok ok.grant⟩
  | downstreamCreditReturn =>
    exact ⟨_, rfl, numbersOk_running ok (ok.congr (by simp) (by simp) (by simp) (by simp))⟩
  | checkEnd => exact ⟨_, rfl, numbersOk_running ok (ok.congr (by simp) (by simp) (by simp) (by simp))⟩
  | stalePeriodExpiry tag =>
    exact ⟨_, rfl, numbersOk_running ok (ok.congr (by simp) (by simp) (by simp) (by simp))⟩
  | downstreamResponse tag status data =>
    have hdone : NumbersOk (happening s fun h => h.response tag status data) :=
      numbersOk_happening (numbersOk_response (h := Happening.start s) ok tag status data)
    exact ⟨_, rfl, numbersOk_running ok (hdone.reported s)⟩
  | tagTimeout tag => exact ⟨_, rfl, numbersOk_running ok (ok.timeOutTag tag)⟩
  | openTakesEffect =>
    exact ⟨_, rfl, numbersOk_running ok (numbersOk_happening (numbersOk_openEffect (h := Happening.start s) ok))⟩
  | releaseTakesEffect =>
    exact ⟨_, rfl, numbersOk_running ok (numbersOk_happening (numbersOk_releaseEffect (h := Happening.start s) ok))⟩
  | commitTakesEffect =>
    exact ⟨_, rfl, numbersOk_running ok (numbersOk_happening (numbersOk_commitEffect (h := Happening.start s) ok))⟩
  | rollbackTakesEffect =>
    exact ⟨_, rfl, numbersOk_running ok (numbersOk_happening (numbersOk_rollbackEffect (h := Happening.start s) ok))⟩
  | rollbackOutcome =>
    exact ⟨_, rfl, numbersOk_running ok (numbersOk_happening (numbersOk_takeOutcome (h := Happening.start s) ok))⟩
  | quietTimerExpiry => exact ⟨_, rfl, numbersOk_running ok (ok.congr (by simp) (by simp) (by simp) (by simp))⟩
  | readPeriod clocks beganInReset => exact ⟨_, rfl, ok.congr (by simp) (by simp) (by simp) (by simp)⟩
  | replyReady => exact ⟨_, rfl, numbersOk_running ok (ok.congr (by simp) (by simp) (by simp) (by simp))⟩
  | commandFrameCutShort p => exact ⟨_, rfl, ok.congr (by simp) (by simp) (by simp) (by simp)⟩
  | unknownCommand code f => exact ⟨_, rfl, ok.congr (by simp) (by simp) (by simp) (by simp)⟩
  | checkFailedFrame p => exact ⟨_, rfl, ok.congr (by simp) (by simp) (by simp) (by simp)⟩
  | softResetQuiesceComplete => exact ⟨_, rfl, numbersOk_running ok ok.quiesceComplete⟩
  | getStatus f => exact ⟨_, rfl, numbersOk_takeFrame ok f _ _ (.of_same fun s => by simp)⟩
  | getMarks f => exact ⟨_, rfl, numbersOk_takeFrame ok f _ _ (.of_same fun s => by simp)⟩
  | readConfig f => exact ⟨_, rfl, numbersOk_takeFrame ok f _ _ (.of_same fun s => by simp)⟩
  | writeConfigLogBase f => exact ⟨_, rfl, numbersOk_takeFrame ok f _ _ (.of_same fun s => by simp)⟩
  | writeConfigLogSize f => exact ⟨_, rfl, numbersOk_takeFrame ok f _ _ (.of_same fun s => by simp)⟩
  | writeConfigLogThreshold f => exact ⟨_, rfl, numbersOk_takeFrame ok f _ _ (.of_same fun s => by simp)⟩
  | writeConfigLogFullPolicy f => exact ⟨_, rfl, numbersOk_takeFrame ok f _ _ (.of_same fun s => by simp)⟩
  | writeConfigLogReader f => exact ⟨_, rfl, numbersOk_takeFrame ok f _ _ (.of_same fun s => by simp)⟩
  | writeConfigPartRequesterId f => exact ⟨_, rfl, numbersOk_takeFrame ok f _ _ (.of_same fun s => by simp)⟩
  | writeConfigResponseTimeout f => exact ⟨_, rfl, numbersOk_takeFrame ok f _ _ (.of_same fun s => by simp)⟩
  | writeConfigNoticeTrigger f => exact ⟨_, rfl, numbersOk_takeFrame ok f _ _ (.of_same fun s => by simp)⟩
  | writeConfigNoticeQuiet f => exact ⟨_, rfl, numbersOk_takeFrame ok f _ _ (.of_same fun s => by simp)⟩
  | writeConfigLineRollback f => exact ⟨_, rfl, numbersOk_takeFrame ok f _ _ (.of_same fun s => by simp)⟩
  | writeConfigUnknownItem f => exact ⟨_, rfl, numbersOk_takeFrame ok f _ _ (.of_same fun s => by simp)⟩
  | getWindow f => exact ⟨_, rfl, numbersOk_takeFrame ok f _ _ (.of_same fun s => by simp)⟩
  | readMap f => exact ⟨_, rfl, numbersOk_takeFrame ok f _ _ (.of_same fun s => by simp)⟩
  | readNotice f => exact ⟨_, rfl, numbersOk_takeFrame ok f _ _ (.of_same fun s => by simp)⟩
  | readCounters f => exact ⟨_, rfl, numbersOk_takeFrame ok f _ _ (.of_same fun s => by simp)⟩
  | clearCounters f => exact ⟨_, rfl, numbersOk_takeFrame ok f _ _ (.of_same fun s => by simp)⟩
  | setWindow f =>
    exact ⟨_, rfl, numbersOk_takeFrame ok f _ _ (.of_records (keepsAllButRecords_answerSetWindow _))⟩
  | enableWindow f =>
    exact ⟨_, rfl, numbersOk_takeFrame ok f _ _ (.of_records (keepsAllButRecords_answerEnableWindow _))⟩
  | disableWindow f =>
    exact ⟨_, rfl, numbersOk_takeFrame ok f _ _ (.of_records (keepsAllButRecords_answerDisableWindow _))⟩
  | openMark f => exact ⟨_, rfl, numbersOk_takeFrame ok f _ _ (.of_drain (refusedOrDrains_openMark _))⟩
  | releaseMark f => exact ⟨_, rfl, numbersOk_takeFrame ok f _ _ (.of_drain refusedOrDrains_releaseMark)⟩
  | commit f => exact ⟨_, rfl, numbersOk_takeFrame ok f _ _ (.of_drain refusedOrDrains_commit)⟩
  | rollback f => exact ⟨_, rfl, numbersOk_takeFrame ok f _ _ (.of_drain (refusedOrDrains_rollback _))⟩
  | checkLog f => exact ⟨_, rfl, numbersOk_takeFrame ok f _ _ (keepsNumbers_checkLog _)⟩
  | discard f => exact ⟨_, rfl, numbersOk_takeFrame ok f _ _ keepsNumbers_discard⟩
  | softReset f => exact ⟨_, rfl, numbersOk_takeFrame ok f _ _ keepsNumbers_softReset⟩

theorem numbersOk_step {s t : State} (ok : NumbersOk s)
    (hfirst : s.marks.state = .starting → s.marks.nextNumber = 1) (h : step s = .next t) : NumbersOk t := by
  unfold step at h
  split at h
  · cases h
    exact ok.congr rfl rfl rfl rfl
  · rename_i c rest _
    have hrest : NumbersOk (s.setPending rest) := ok.congr rfl rfl rfl rfl
    obtain ⟨u, hu, hok⟩ := numbersOk_exec hrest hfirst c
    rw [hu] at h
    cases h
    exact hok

/-- Settles O56: every command keeps the numbers in use below the next mark number, which is 1 until the sweep. -/
theorem stepsKeepMapEntriesBelowNextNumber : Obligations.StepsKeepMapEntriesBelowNextNumber := by
  intro s t hm _ hmap hstep
  have hfirst : s.marks.state = .starting → s.marks.nextNumber = 1 := by
    obtain ⟨-, -, -, -, -, -, -, -, -, -, hfirst, -⟩ := hm
    exact hfirst
  exact (numbersOk_step (.of_mapOk hm hmap) hfirst hstep).mapOk

end Sys2Proof.Safety
end

