-- ==== Sys2Proof/Proofs/WindowCommands.lean ====
section
/-! The window commands and READ_MAP (R29 to R34, R43): what each is answered and what it leaves. -/

namespace Sys2Proof.Safety

open Machine

/-! ### Frames that name a window (R29) -/

@[simp] theorem window_driveCommandPeriod (s : State) (n : Nat) (w : WindowNo) :
    (s.driveCommandPeriod n).window w = s.window w := rfl

/-- R29: a window number above 15 is refused whatever the command. -/
theorem next_takeFrame_of_ge {s : State} {f : Frame} {n : Nat} {k : State → WindowNo → Answer}
    (hd : Delivered s f n) (hm : n ≤ 48) (h : 16 ≤ (byteAt f.payload 0).toNat) :
    (.next (takeFrame s f 0 (0 + n) false fun s => withWindow s (byteAt f.payload 0).toNat (k s)) :
      Host.Outcome State Fault Refusal) = .next (replied s f (0 + n) .refusedRange []) :=
  next_takeFrame hd (by omega) (withWindow_of_ge _ _ h)

/-- R29: a frame that names window `w` is answered as the owner answers for `w`. -/
theorem next_takeFrame_window {s t : State} {f : Frame} {n : Nat} {k : State → WindowNo → Answer} {w : WindowNo}
    {status : Status} {payload : List Byte} (hd : Delivered s f n) (hm : n ≤ 48)
    (hw : (byteAt f.payload 0).toNat = w.val)
    (hk : k (s.driveCommandPeriod (f.clocks (0 + n))) w = ⟨t.driveCommandPeriod (f.clocks (0 + n)), status, payload⟩) :
    (.next (takeFrame s f 0 (0 + n) false fun s => withWindow s (byteAt f.payload 0).toNat (k s)) :
      Host.Outcome State Fault Refusal) = .next (replied t f (0 + n) status payload) :=
  next_takeFrame hd (by omega) (by simp only [hw, withWindow_val, hk])

/-! ### SET_WINDOW (R30) -/

/-- Settles O45: the owner's two answers for the window named. -/
theorem setWindowStoresItsFields : Obligations.SetWindowStoresItsFields := by
  intro s f hd
  refine ⟨next_takeFrame_of_ge hd (by decide), fun w hw => ⟨fun he => ?_, fun he => ?_⟩⟩
  · exact next_takeFrame_window hd (by decide) hw (by rw [window_driveCommandPeriod, if_pos he]; rfl)
  · exact next_takeFrame_window hd (by decide) hw (by rw [window_driveCommandPeriod, he, if_neg (by decide)]; rfl)

/-! ### ENABLE_WINDOW (R31, R34) -/

/-- R27: a valid window has at least one granule, and its range ends behind its base. -/
theorem WindowValid.base_lt_rangeEnd {r : WindowRecord} (h : WindowValid r) : r.base.toNat < r.rangeEnd := by
  obtain ⟨g, hg, -, hcount, -⟩ := h
  have hbytes : 0 < g.bytes := by cases g <;> decide
  have hspan : r.span = r.count * g.bytes := by simp [WindowRecord.span, hg]
  have := Nat.mul_pos hcount hbytes
  simp only [WindowRecord.rangeEnd]
  omega

/-- R34: an overlap of window `w` with another enabled window, in address or in map range, or with the log area. -/
def Overlaps (s : State) (w : WindowNo) : Prop :=
  (∃ v, v ≠ w ∧ (s.window v).enabled = true ∧
    (max (s.window w).base.toNat (s.window v).base.toNat < min (s.window w).rangeEnd (s.window v).rangeEnd ∨
      max (s.window w).mapOffset (s.window v).mapOffset <
        min ((s.window w).mapOffset + (s.window w).count) ((s.window v).mapOffset + (s.window v).count))) ∨
  (s.log.size ≠ 0 ∧ max (s.window w).base.toNat s.log.base.toNat <
    min (s.window w).rangeEnd (s.log.base.toNat + s.log.size))

theorem windowOverlap_iff (s : State) (w : WindowNo) :
    ((List.finRange 16).any fun v => v != w && (s.window v).enabled &&
      ((s.window w).addressOverlap (s.window v) || (s.window w).mapOverlap (s.window v))) = true ↔
    ∃ v, v ≠ w ∧ (s.window v).enabled = true ∧
      (max (s.window w).base.toNat (s.window v).base.toNat < min (s.window w).rangeEnd (s.window v).rangeEnd ∨
        max (s.window w).mapOffset (s.window v).mapOffset <
          min ((s.window w).mapOffset + (s.window w).count) ((s.window v).mapOffset + (s.window v).count)) := by
  simp only [List.any_eq_true, List.mem_finRange, true_and, Bool.and_eq_true, Bool.or_eq_true, bne_iff_ne,
    WindowRecord.addressOverlap, WindowRecord.mapOverlap, rangesShare_iff, and_assoc]

theorem logOverlap_iff (r : WindowRecord) (base size : Nat) :
    r.logOverlap base size = true ↔ size ≠ 0 ∧ max r.base.toNat base < min r.rangeEnd (base + size) := by
  simp only [WindowRecord.logOverlap, Bool.and_eq_true, bne_iff_ne, rangesShare_iff]

theorem enableRefusal_of_no_granule {s : State} {w : WindowNo} (h : Granule.ofCode (s.window w).code = none) :
    s.enableRefusal w = some .refusedRange := by
  simp [State.enableRefusal, h]

@[simp] theorem enableRefusal_driveCommandPeriod (s : State) (n : Nat) (w : WindowNo) :
    (s.driveCommandPeriod n).enableRefusal w = s.enableRefusal w := rfl

/-- R31: the rows of the count, the base, the range and the map range. -/
theorem enableRefusal_of_out_of_bounds {s : State} {w : WindowNo} {g : Granule}
    (hg : Granule.ofCode (s.window w).code = some g)
    (h : (s.window w).count = 0 ∨ 65536 < (s.window w).count ∨ (s.window w).base.toNat % g.bytes ≠ 0 ∨
      2 ^ 40 < (s.window w).base.toNat + (s.window w).count * g.bytes ∨
      65536 < (s.window w).mapOffset + (s.window w).count) : s.enableRefusal w = some .refusedRange := by
  simp only [State.enableRefusal, hg]
  split_ifs with h1 h2 h3 h4
  iterate 4 rfl
  all_goals
    simp only [Config.addressSpace, Config.mapEntries, Bool.or_eq_true, decide_eq_true_eq, bne_iff_ne, not_or,
      not_not] at h1 h2 h3 h4
    omega

/-- R31: what is left for a valid window, the two rows of the overlaps. -/
theorem enableRefusal_of_valid {s : State} {w : WindowNo} (h : WindowValid (s.window w)) :
    (Overlaps s w → s.enableRefusal w = some .refusedOverlap) ∧ (¬ Overlaps s w → s.enableRefusal w = none) := by
  obtain ⟨g, hg, hbase, hcount, hmax, hrange, hmap⟩ := h
  unfold Overlaps
  rw [← windowOverlap_iff, ← logOverlap_iff, not_or]
  simp only [State.enableRefusal, hg]
  rw [if_neg (by simp; omega), if_neg (by simpa using hbase), if_neg (Nat.not_lt.mpr hrange),
    if_neg (Nat.not_lt.mpr hmap)]
  constructor
  · rintro (hw | hl)
    · rw [if_pos hw]
    · rw [if_pos hl, ite_self]
  · rintro ⟨hw, hl⟩
    rw [if_neg hw, if_neg hl]

/-- R31: a window that no row refuses is valid and overlaps nothing. -/
theorem valid_of_enableRefusal {s : State} {w : WindowNo} (h : s.enableRefusal w = none) :
    WindowValid (s.window w) ∧ ¬ Overlaps s w := by
  have hvalid : WindowValid (s.window w) := by
    cases hg : Granule.ofCode (s.window w).code with
    | none => rw [enableRefusal_of_no_granule hg] at h; cases h
    | some g =>
      have hbounds := mt (enableRefusal_of_out_of_bounds hg) (by simp [h])
      refine ⟨g, hg, ?_⟩
      omega
  refine ⟨hvalid, fun ho => ?_⟩
  rw [(enableRefusal_of_valid hvalid).1 ho] at h
  cases h

/-- Settles O46: the rows of R31 in their order. -/
theorem enableWindowTests : Obligations.EnableWindowTests := by
  rintro s f _ hd rfl
  refine ⟨next_takeFrame_of_ge hd (by decide), fun w hw => ⟨fun hs => ?_, fun hs he => ?_⟩⟩
  · refine next_takeFrame_window hd (by decide) hw ?_
    rcases hs with hs | he
    · simp [hs, State.refuse]
    · simp [he, State.refuse]
  · have refused : ∀ {status}, s.enableRefusal w = some status →
        exec (.enableWindow f) s = .next (replied s f 1 status []) := fun h =>
      next_takeFrame_window hd (by decide) hw (by simp [hs, he, h, State.refuse])
    refine ⟨fun hg => refused (enableRefusal_of_no_granule hg), fun g hg =>
      ⟨fun hb => refused (enableRefusal_of_out_of_bounds hg hb), fun hv => ⟨fun ho =>
        refused ((enableRefusal_of_valid hv).1 ho), fun hwindows hlog => ?_⟩⟩⟩
    have hclear : ¬ Overlaps s w := by
      rintro (⟨v, hvw, hve, ho⟩ | ⟨hsize, ho⟩)
      · obtain ⟨h1, h2⟩ := hwindows v hvw hve
        omega
      · omega
    have hnone := (enableRefusal_of_valid hv).2 hclear
    exact next_takeFrame_window (t := s.setWindow w { s.window w with enabled := true }) hd (by decide) hw
      (by simp [hs, he, hnone, State.done]; rfl)

/-! ### DISABLE_WINDOW and GET_WINDOW (R32, R33) -/

theorem setWindow_same (s : State) (w : WindowNo) : s.setWindow w (s.window w) = s := by
  unfold State.setWindow State.window
  rw [Fin.getElem_fin, Vector.set_getElem_self, State.setWindows_same]

/-- R32: a disabled window stays as it is. -/
theorem answerDisableWindow_of_idle {s : State} (hs : s.marks.state = .idle) (w : WindowNo) :
    answerDisableWindow w.val s = (s.setWindow w { s.window w with enabled := false }).done := by
  unfold answerDisableWindow
  rw [withWindow_val, hs, if_neg (by decide)]
  split
  · rfl
  · rename_i he
    have hsame : { s.window w with enabled := false } = s.window w := by
      rw [← Bool.eq_false_iff.mpr he]
    rw [hsame, setWindow_same]

/-- R194: the layout of a window's fields, read back. -/
theorem layout_window (r : WindowRecord) (n : Nat) :
    (r.layout n).length = 16 ∧ byteAt (r.layout n) 0 = BitVec.ofNat 8 n ∧ byteAt (r.layout n) 1 = r.code ∧
    (byteAt (r.layout n) 2).toNat = r.reqMatch.toNat ∧ (byteAt (r.layout n) 3).toNat = r.reqMask.toNat ∧
    leField (r.layout n) 4 4 = r.count % 2 ^ 32 ∧ leField (r.layout n) 8 5 = r.base.toNat ∧
    byteAt (r.layout n) 13 = (if r.enabled then 1#8 else 0#8) ∧ leField (r.layout n) 14 2 = r.mapOffset % 2 ^ 16 := by
  obtain ⟨head, hhead⟩ : ∃ head : List Byte,
    head = [BitVec.ofNat 8 n, r.code, r.reqMatch.setWidth 8, r.reqMask.setWidth 8] := ⟨_, rfl⟩
  have hl : head.length = 4 := by rw [hhead]; rfl
  have heq : r.layout n = head ++ leBytes 4 r.count ++ leBytes 5 r.base.toNat ++ [if r.enabled then 1#8 else 0#8] ++
      leBytes 2 r.mapOffset := by rw [hhead]; rfl
  have six (x : RequesterId) : (x.setWidth 8).toNat = x.toNat := by
    rw [BitVec.toNat_setWidth, Nat.mod_eq_of_lt]
    have := x.isLt
    omega
  refine ⟨by simp [heq, hl], rfl, rfl, six r.reqMatch, six r.reqMask, ?_, ?_, ?_, ?_⟩
  · simpa [heq] using leField_append head _ 4 r.count 4 hl
  · have hbase := leField_append (head ++ leBytes 4 r.count) ([if r.enabled then 1#8 else 0#8] ++
      leBytes 2 r.mapOffset) 5 r.base.toNat 8 (by simp [hl])
    rw [show (256 : Nat) ^ 5 = 2 ^ 40 from rfl, Nat.mod_eq_of_lt r.base.isLt] at hbase
    simpa [heq] using hbase
  · rw [heq, List.append_assoc, byteAt_skip _ _ _ (by simp [hl])]
    simp [hl, byteAt]
  · simpa [heq] using leField_append (head ++ leBytes 4 r.count ++ leBytes 5 r.base.toNat ++
      [if r.enabled then 1#8 else 0#8]) [] 2 r.mapOffset 14 (by simp [hl])

/-! ### READ_MAP (R43) -/

/-- The last byte of READ_MAP's reply (R194). -/
def ownerByte (s : State) (i : Nat) : Byte :=
  match s.ownerOf i with
  | some w => BitVec.ofNat 8 w.val
  | none => 0xFF#8

/-- R43: the only enabled window whose map range holds the index. -/
theorem ownerByte_of_owner {s : State} {i : Nat} {w : WindowNo} (he : (s.window w).enabled = true)
    (hlow : (s.window w).mapOffset ≤ i) (hhigh : i < (s.window w).mapOffset + (s.window w).count)
    (hother : ∀ v, v ≠ w → (s.window v).enabled = true →
      i < (s.window v).mapOffset ∨ (s.window v).mapOffset + (s.window v).count ≤ i) :
    ownerByte s i = BitVec.ofNat 8 w.val := by
  unfold ownerByte
  cases ho : s.ownerOf i with
  | none =>
    have := State.ownerOf_eq_none.mp ho w he
    omega
  | some v =>
    obtain ⟨hve, hvlow, hvhigh⟩ := State.ownerOf_eq_some ho
    have hv : v = w := by
      by_contra hv
      have := hother v hv hve
      omega
    rw [hv]

theorem ownerByte_of_none {s : State} {i : Nat} (h : ∀ w, (s.window w).enabled = true →
    i < (s.window w).mapOffset ∨ (s.window w).mapOffset + (s.window w).count ≤ i) : ownerByte s i = 0xFF#8 := by
  rw [ownerByte, State.ownerOf_eq_none.mpr h]

theorem answerReadMap_of_le {i : Nat} (h : i ≤ 65535) (s : State) :
    answerReadMap i s = ⟨s, .ok, leBytes 4 (mapRead s.windows.map i) ++ [ownerByte s i]⟩ :=
  if_neg (Nat.not_lt.mpr h)

/-- Settles O47: each owner's answer, and the layouts read back. -/
theorem disableGetWindowAndReadMap : Obligations.DisableGetWindowAndReadMap := by
  intro s f
  refine ⟨fun hd => ⟨fun h => ⟨next_takeFrame_of_ge hd (by decide) h, next_takeFrame_of_ge hd (by decide) h⟩,
    fun w hw => ⟨fun hs => ?_, fun hs => ?_, ?_⟩⟩, fun hd => ⟨fun h => ?_, fun h => ?_⟩⟩
  · exact next_takeFrame_window hd (by decide) hw (by simp [hs, State.refuse])
  · refine next_takeFrame (t := s.setWindow w { s.window w with enabled := false }) hd (by decide) ?_
    rw [byteOperand, hw]
    exact answerDisableWindow_of_idle (s := s.driveCommandPeriod _) hs w
  · exact ⟨_, next_takeFrame_window hd (by decide) hw rfl, hw ▸ layout_window (s.window w) w.val⟩
  · exact next_takeFrame hd (by decide) (if_pos (Nat.lt_of_succ_le h))
  · refine ⟨_, next_takeFrame hd (by decide) (answerReadMap_of_le h _), by simp,
      (leField_front _ _ _ _ (by simp)).trans (leField_leBytes 4 _), fun w he hlow hhigh hother => ?_, fun hnone => ?_⟩
    · rw [byteAt_skip _ _ _ (by simp)]
      exact ownerByte_of_owner he hlow hhigh hother
    · rw [byteAt_skip _ _ _ (by simp)]
      exact ownerByte_of_none hnone

end Sys2Proof.Safety
end

