-- ==== Sys2Proof/Proofs/Classification.lean ====
section
/-! The classification of a request (R28, R35 to R39). -/

namespace Sys2Proof.Safety

open Machine

/-- R35, test 1. -/
theorem crossesLine_iff (r : UpstreamRequest) :
    crossesLine r = true ↔ 64 < r.address.toNat % 64 + r.length ∨ r.length = 0 := by
  simp [crossesLine]

/-- R35, test 2. -/
theorem inLogArea_iff (s : State) (a : Nat) :
    s.inLogArea a = true ↔ s.log.size ≠ 0 ∧ s.log.base.toNat ≤ a ∧ a < s.log.base.toNat + s.log.size := by
  simp [State.inLogArea, and_assoc]

/-- R37. -/
theorem readerPermits_iff (s : State) (q : RequesterId) :
    s.readerPermits q = true ↔ s.windows.reader.enable = true ∧
      q &&& s.windows.reader.reqMask = s.windows.reader.reqMatch &&& s.windows.reader.reqMask := by
  simp [State.readerPermits, maskedMatch]

/-- R28: a request hits an enabled window whose range holds its address and whose match applies. -/
theorem hits_of_range {s : State} {w : WindowNo} {g : Granule} {r : UpstreamRequest}
    (he : (s.window w).enabled = true) (hg : Granule.ofCode (s.window w).code = some g)
    (hlow : (s.window w).base.toNat ≤ r.address.toNat)
    (hhigh : r.address.toNat < (s.window w).base.toNat + (s.window w).count * g.bytes)
    (hm : r.requester &&& (s.window w).reqMask = (s.window w).reqMatch &&& (s.window w).reqMask) :
    s.hits w r = true := by
  simp [State.hits, WindowRecord.covers, WindowRecord.rangeEnd, WindowRecord.span, maskedMatch, he, hg, hlow, hhigh, hm]

/-- R28: the one window that is hit. -/
theorem windowHit_of_only {s : State} {w : WindowNo} {r : UpstreamRequest} (h : s.hits w r = true)
    (hother : ∀ v, v ≠ w → s.hits v r = false) : s.windowHit r = some w := by
  cases hw : s.windowHit r with
  | none => exact absurd h (List.find?_eq_none.mp hw w (List.mem_finRange w))
  | some v =>
    by_contra hv
    have hfalse := hother v fun he => hv (he ▸ rfl)
    rw [List.find?_some hw] at hfalse
    cases hfalse

theorem windowHit_of_none {s : State} {r : UpstreamRequest} (h : ∀ w, s.hits w r = false) : s.windowHit r = none :=
  List.find?_eq_none.mpr fun w _ => by simp [h w]

/-- R39: the map index of an address in a window of granule size `g`. -/
theorem indexOf_of_granule {r : WindowRecord} {g : Granule} (hg : Granule.ofCode r.code = some g) (a : Nat) :
    r.indexOf a = r.mapOffset + (a - r.base.toNat) / g.bytes := by
  simp [WindowRecord.indexOf, WindowRecord.granuleBytes, hg]

/-- R35: a request within a line. -/
theorem classify_of_one_line {s : State} {r : UpstreamRequest} (hline : r.address.toNat % 64 + r.length ≤ 64)
    (hlen : 1 ≤ r.length) :
    (s.inLogArea r.address.toNat = true → s.classify r =
      if r.kind == .read && s.readerPermits r.requester then .taken .logRead else .denied .logArea) ∧
    (s.inLogArea r.address.toNat = false →
      (∀ w, s.windowHit r = some w → s.classify r = .taken (.window w ((s.window w).indexOf r.address.toNat))) ∧
      (s.windowHit r = none → s.classify r = .taken .pass)) := by
  have hc : ¬ crossesLine r = true := by rw [crossesLine_iff]; omega
  unfold State.classify
  rw [if_neg hc]
  refine ⟨fun h => if_pos h, fun h => ?_⟩
  rw [h, if_neg (by decide)]
  exact ⟨fun w hw => by rw [hw], fun hw => by rw [hw]⟩

/-- Settles O12: the line test, the log area's test and the window hit, in the order of R35. -/
theorem classificationByFirstTest : Obligations.ClassificationByFirstTest := by
  intro s r
  refine ⟨fun h => if_pos ((crossesLine_iff r).mpr h), fun hline hlen => ?_⟩
  obtain ⟨hlog, hoff⟩ := classify_of_one_line (s := s) hline hlen
  refine ⟨fun hsize hlow hhigh => ?_, fun hout => ?_⟩
  · have hin := hlog ((inLogArea_iff s _).mpr ⟨hsize, hlow, hhigh⟩)
    refine ⟨fun hk he hm => ?_, fun hno => ?_⟩
    · rw [hin, hk, (readerPermits_iff s _).mpr ⟨he, hm⟩]
      rfl
    · rw [hin, if_neg]
      simp only [Bool.and_eq_true, beq_iff_eq, readerPermits_iff]
      rintro ⟨hk, he, hm⟩
      rcases hno with hno | hno | hno
      · exact hno hk
      · rw [he] at hno; cases hno
      · exact hno hm
  · have hnot : s.inLogArea r.address.toNat = false := by
      rw [← Bool.not_eq_true, inLogArea_iff]
      omega
    obtain ⟨hwindow, hpass⟩ := hoff hnot
    refine ⟨fun w g he hg hlow hhigh hm hother => ?_, fun hnone => hpass (windowHit_of_none hnone)⟩
    rw [hwindow w (windowHit_of_only (hits_of_range he hg hlow hhigh hm) hother), indexOf_of_granule hg]

end Sys2Proof.Safety
end

