-- ==== Sys2Proof/Proofs/Setup.lean ====
section
/-! What software has set up, the window records and the configuration items (R27, R46, R57, R60, R182, R183): which
happenings leave it alone, and that what it must satisfy (R31, R34, R47) stays satisfied. -/

namespace Sys2Proof.Safety

open Machine

/-! ### Happenings leave the log's items (R56, R61, R62) -/

@[simp] theorem logItems_reserve (h : Happening) (g : Granule) :
    logItems (h.reserve g).state.log = logItems h.state.log := by
  unfold Happening.reserve
  dsimp only
  split <;> rfl

@[simp] theorem logItems_truncateLog (s : State) (o q : Nat) : logItems (s.truncateLog o q).log = logItems s.log := rfl

@[simp] theorem logItems_emptyLog (s : State) : logItems s.emptyLog.log = logItems s.log := rfl

@[simp] theorem logItems_grantSave (h : Happening) (e : TransitEntry) (w : WindowNo) (i : Nat) (g : Granule)
    (c : ContextNo) : logItems (h.grantSave e w i g c).state.log = logItems h.state.log := by
  simp [Happening.grantSave]

@[simp] theorem logItems_allocateSave (h : Happening) :
    logItems h.allocateSave.state.log = logItems h.state.log := by
  unfold Happening.allocateSave
  (repeat' split) <;> simp

@[simp] theorem logItems_commitMarks (s : State) : logItems s.commitMarks.log = logItems s.log := rfl

@[simp] theorem logItems_releaseEffect (h : Happening) :
    logItems h.releaseEffect.state.log = logItems h.state.log := by
  unfold Happening.releaseEffect
  split
  · split
    · simp only [Happening.settle_keeps, Happening.step_state]
      split <;> simp
    · rfl
  · rfl

@[simp] theorem logItems_commitEffect (h : Happening) : logItems h.commitEffect.state.log = logItems h.state.log := by
  unfold Happening.commitEffect
  (repeat' split) <;> simp

@[simp] theorem logItems_rollbackDone (h : Happening) (o : WalkOutcome) (m : MarkRecord) :
    logItems (h.rollbackDone o m).state.log = logItems h.state.log := by
  simp [Happening.rollbackDone]

@[simp] theorem logItems_takeOutcome (h : Happening) : logItems h.takeOutcome.state.log = logItems h.state.log := by
  unfold Happening.takeOutcome
  dsimp only
  (repeat' split) <;> simp

/-! ### Happenings leave the port's items: a walk's end hands over its offset alone (R152) -/

@[simp] theorem portItems_endByRequest (h : Happening) :
    portItems h.endByRequest.state.mgmt = portItems h.state.mgmt := by
  unfold Happening.endByRequest
  split <;> rfl

@[simp] theorem portItems_stopWalk (h : Happening) : portItems h.stopWalk.state.mgmt = portItems h.state.mgmt := by
  simp [Happening.stopWalk]

@[simp] theorem portItems_boundaryTest (h : Happening) :
    portItems h.boundaryTest.state.mgmt = portItems h.state.mgmt := by
  unfold Happening.boundaryTest
  dsimp only
  (repeat' split) <;> simp

@[simp] theorem portItems_beginWalk (h : Happening) (st : EngineState) (o : Origin) (k : Nat) (m : MarkRecord) :
    portItems (h.beginWalk st o k m).state.mgmt = portItems h.state.mgmt := by
  simp [Happening.beginWalk]

@[simp] theorem portItems_finishRecord (h : Happening) (r : CurrentRecord) (how : RecordEnd) :
    portItems (h.finishRecord r how).state.mgmt = portItems h.state.mgmt := by
  simp [Happening.finishRecord]

@[simp] theorem portItems_headerArrived (h : Happening) (bytes : Line) :
    portItems (h.headerArrived bytes).state.mgmt = portItems h.state.mgmt := by
  unfold Happening.headerArrived
  (repeat' split) <;> simp

@[simp] theorem portItems_checkData (h : Happening) (r : CurrentRecord) :
    portItems (h.checkData r).state.mgmt = portItems h.state.mgmt := by
  unfold Happening.checkData
  dsimp only
  (repeat' split) <;> simp

@[simp] theorem portItems_restored (h : Happening) (r : CurrentRecord) :
    portItems (h.restored r).state.mgmt = portItems h.state.mgmt := by
  simp [Happening.restored]

@[simp] theorem portItems_recordRequestEnded (h : Happening) (r : CurrentRecord) (line : Nat) (isRead : Bool)
    (result : Result) :
    portItems (h.recordRequestEnded r line isRead result).state.mgmt = portItems h.state.mgmt := by
  unfold Happening.recordRequestEnded
  dsimp only
  (repeat' split) <;> simp

@[simp] theorem portItems_restoreResult (h : Happening) (step : RestoreStep) (result : Result) :
    portItems (h.restoreResult step result).state.mgmt = portItems h.state.mgmt := by
  unfold Happening.restoreResult
  dsimp only
  (repeat' split) <;> simp

@[simp] theorem portItems_requestEnd (h : Happening) (q : EndRequest) :
    portItems (h.requestEnd q).state.mgmt = portItems h.state.mgmt := by
  unfold Happening.requestEnd
  dsimp only
  split <;> simp

@[simp] theorem portItems_abandonCheck (h : Happening) :
    portItems h.abandonCheck.state.mgmt = portItems h.state.mgmt := by
  unfold Happening.abandonCheck
  split <;> simp

@[simp] theorem portItems_endWalkForReset (h : Happening) :
    portItems h.endWalkForReset.state.mgmt = portItems h.state.mgmt := by
  unfold Happening.endWalkForReset
  split <;> simp

@[simp] theorem portItems_lineRequest (h : Happening) :
    portItems h.lineRequest.state.mgmt = portItems h.state.mgmt := by
  unfold Happening.lineRequest
  dsimp only
  (repeat' split) <;> simp

@[simp] theorem portItems_evaluateLatch (h : Happening) :
    portItems h.evaluateLatch.state.mgmt = portItems h.state.mgmt := by
  unfold Happening.evaluateLatch
  (repeat' split) <;> simp

@[simp] theorem portItems_settle (h : Happening) : portItems h.settle.state.mgmt = portItems h.state.mgmt := by
  simp [Happening.settle]

@[simp] theorem portItems_breakReport (h : Happening) (reason : BrokenReason) :
    portItems (h.breakReport reason).state.mgmt = portItems h.state.mgmt := by
  unfold Happening.breakReport
  dsimp only
  (repeat' split) <;> simp

@[simp] theorem portItems_openEffect (h : Happening) : portItems h.openEffect.state.mgmt = portItems h.state.mgmt := by
  unfold Happening.openEffect
  (repeat' split) <;> simp

@[simp] theorem portItems_releaseEffect (h : Happening) :
    portItems h.releaseEffect.state.mgmt = portItems h.state.mgmt := by
  unfold Happening.releaseEffect
  split
  · split
    · simp only [portItems_settle, Happening.step_state]
      split <;> simp
    · rfl
  · rfl

@[simp] theorem portItems_commitEffect (h : Happening) :
    portItems h.commitEffect.state.mgmt = portItems h.state.mgmt := by
  unfold Happening.commitEffect
  (repeat' split) <;> simp

@[simp] theorem portItems_rollbackEffect (h : Happening) :
    portItems h.rollbackEffect.state.mgmt = portItems h.state.mgmt := by
  unfold Happening.rollbackEffect
  (repeat' split) <;> simp [Happening.beginRollback]

@[simp] theorem portItems_takeOutcome (h : Happening) :
    portItems h.takeOutcome.state.mgmt = portItems h.state.mgmt := by
  unfold Happening.takeOutcome
  dsimp only
  (repeat' split) <;> simp [Happening.rollbackDone, Happening.rollbackIncomplete]

@[simp] theorem portItems_allocateSave (h : Happening) :
    portItems h.allocateSave.state.mgmt = portItems h.state.mgmt := by
  unfold Happening.allocateSave
  (repeat' split) <;> simp

@[simp] theorem portItems_logWriteFailed (h : Happening) (c : ContextNo) (x : SaveContext) (result : Result) :
    portItems (h.logWriteFailed c x result).state.mgmt = portItems h.state.mgmt := by
  unfold Happening.logWriteFailed
  dsimp only
  split <;> simp

@[simp] theorem portItems_saveResult (h : Happening) (c : ContextNo) (step : SaveStep) (result : Result) :
    portItems (h.saveResult c step result).state.mgmt = portItems h.state.mgmt := by
  unfold Happening.saveResult
  (repeat' split) <;> simp

/-! ### Happenings leave the window records: a save's end and a restored record write the map alone (R41) -/

@[simp] theorem records_writeMap (s : State) (i v : Nat) : (s.writeMap i v).windows.records = s.windows.records := rfl

@[simp] theorem records_restored (h : Happening) (r : CurrentRecord) :
    (h.restored r).state.windows.records = h.state.windows.records := by
  simp [Happening.restored]

@[simp] theorem records_recordRequestEnded (h : Happening) (r : CurrentRecord) (line : Nat) (isRead : Bool)
    (result : Result) :
    (h.recordRequestEnded r line isRead result).state.windows.records = h.state.windows.records := by
  unfold Happening.recordRequestEnded
  dsimp only
  (repeat' split) <;> simp

@[simp] theorem records_restoreResult (h : Happening) (step : RestoreStep) (result : Result) :
    (h.restoreResult step result).state.windows.records = h.state.windows.records := by
  unfold Happening.restoreResult
  dsimp only
  (repeat' split) <;> simp

@[simp] theorem records_saveCompleted (s : State) (c : ContextNo) (x : SaveContext) :
    (s.saveCompleted c x).windows.records = s.windows.records := by
  simp [State.saveCompleted]

@[simp] theorem records_saveResult (h : Happening) (c : ContextNo) (step : SaveStep) (result : Result) :
    (h.saveResult c step result).state.windows.records = h.state.windows.records := by
  unfold Happening.saveResult
  (repeat' split) <;> simp

/-! ### Responses and timeouts (R118, R123) -/

@[simp] theorem deliverOk_setup (h : Happening) (data : Option (List Byte)) (origin : TagOrigin) :
    (h.deliverOk data origin).state.windows.records = h.state.windows.records ∧
    portItems (h.deliverOk data origin).state.mgmt = portItems h.state.mgmt := by
  cases origin <;> simp [Happening.deliverOk]

@[simp] theorem deliverFailure_setup (h : Happening) (failure : Result) (origin : TagOrigin) :
    (h.deliverFailure failure origin).state.windows.records = h.state.windows.records ∧
    portItems (h.deliverFailure failure origin).state.mgmt = portItems h.state.mgmt := by
  cases origin <;> simp [Happening.deliverFailure]

@[simp] theorem response_setup (h : Happening) (t : TagNo) (status : LinkStatus) (data : Option (List Byte)) :
    (h.response t status data).state.windows.records = h.state.windows.records ∧
    portItems (h.response t status data).state.mgmt = portItems h.state.mgmt := by
  unfold Happening.response
  dsimp only
  (repeat' split) <;> simp

@[simp] theorem timeOut_setup (h : Happening) (t : TagNo) :
    (h.timeOut t).state.windows.records = h.state.windows.records ∧
    portItems (h.timeOut t).state.mgmt = portItems h.state.mgmt := by
  unfold Happening.timeOut
  (repeat' split) <;> simp

/-! ### The invariant -/

/-- R27, R34, R47 and the table of 9.5: what software has set up. -/
def SetupOk (s : State) : Prop := WindowsOk s ∧ ItemsOk s

/-- Window records and items that stay. -/
theorem SetupOk.congr {s t : State} (h : SetupOk s) (hw : t.windows.records = s.windows.records)
    (hl : logItems t.log = logItems s.log) (hp : portItems t.mgmt = portItems s.mgmt) : SetupOk t := by
  have hwindow : ∀ w, t.window w = s.window w := fun w => by rw [State.window, State.window, hw]
  simp only [logItems, portItems, Prod.mk.injEq] at hl hp
  obtain ⟨hbase, hsize, hthreshold, -⟩ := hl
  obtain ⟨-, htimeout, htrigger, hquiet, hline⟩ := hp
  unfold SetupOk WindowsOk ItemsOk
  simp only [hwindow, hbase, hsize, hthreshold, htimeout, htrigger, hquiet, hline]
  exact h

/-! ### Windows (R30 to R32) -/

/-- A record that is not enabled satisfies what is asked of enabled ones. -/
theorem WindowsOk.setDisabled {s : State} (h : WindowsOk s) (w : WindowNo) {r : WindowRecord}
    (hr : r.enabled = false) : WindowsOk (s.setWindow w r) := by
  have hother : ∀ v, ((s.setWindow w r).window v).enabled = true → (s.setWindow w r).window v = s.window v := by
    intro v hv
    by_cases hvw : v = w
    · subst hvw
      rw [State.window_setWindow_same, hr] at hv
      cases hv
    · exact State.window_setWindow_other s hvw r
  obtain ⟨hvalid, hdisjoint⟩ := h
  refine ⟨fun v hv => ?_, fun u v huv hu hv => ?_⟩
  · have hsame := hother v hv
    rw [hsame] at hv ⊢
    exact hvalid v hv
  · have hsu := hother u hu
    have hsv := hother v hv
    rw [hsu] at hu ⊢
    rw [hsv] at hv ⊢
    exact hdisjoint u v huv hu hv

/-- R34: half-open ranges, none empty, that share no value lie beside each other. -/
theorem beside_of_not_share {a b c d : Nat} (hab : a < b) (hcd : c < d) (h : ¬ max a c < min b d) : b ≤ c ∨ d ≤ a := by
  omega

/-- R31: a window that passes the tests lies beside every enabled one. -/
theorem beside_of_not_overlaps {s : State} (h : WindowsOk s) {w : WindowNo} (hw : WindowValid (s.window w))
    (ho : ¬ Overlaps s w) {v : WindowNo} (hvw : v ≠ w) (hv : (s.window v).enabled = true) :
    ((s.window w).rangeEnd ≤ (s.window v).base.toNat ∨ (s.window v).rangeEnd ≤ (s.window w).base.toNat) ∧
    ((s.window w).mapOffset + (s.window w).count ≤ (s.window v).mapOffset ∨
      (s.window v).mapOffset + (s.window v).count ≤ (s.window w).mapOffset) := by
  obtain ⟨hvalid, -⟩ := h.1 v hv
  have hno := fun hshare => ho (.inl ⟨v, hvw, hv, hshare⟩)
  obtain ⟨haddress, hmap⟩ := not_or.mp hno
  have hwcount := hw
  have hvcount := hvalid
  obtain ⟨-, -, -, hwcount, -⟩ := hwcount
  obtain ⟨-, -, -, hvcount, -⟩ := hvcount
  exact ⟨beside_of_not_share hw.base_lt_rangeEnd hvalid.base_lt_rangeEnd haddress,
    beside_of_not_share (by omega) (by omega) hmap⟩

/-- R31: a window that passes the tests lies beside the log area. -/
theorem beside_log_of_not_overlaps {s : State} {w : WindowNo} (hw : WindowValid (s.window w)) (ho : ¬ Overlaps s w) :
    s.log.size = 0 ∨ (s.window w).rangeEnd ≤ s.log.base.toNat ∨
      s.log.base.toNat + s.log.size ≤ (s.window w).base.toNat := by
  by_cases hsize : s.log.size = 0
  · exact .inl hsize
  · exact .inr (beside_of_not_share hw.base_lt_rangeEnd (by omega) fun hshare => ho (.inr ⟨hsize, hshare⟩))

/-- R31: a window that passes every test is enabled. -/
theorem WindowsOk.enable {s : State} (h : WindowsOk s) {w : WindowNo} (he : s.enableRefusal w = none) :
    WindowsOk (s.setWindow w { s.window w with enabled := true }) := by
  obtain ⟨hw, ho⟩ := valid_of_enableRefusal he
  have hlog := beside_log_of_not_overlaps hw ho
  have hother : ∀ v, v ≠ w → (s.setWindow w { s.window w with enabled := true }).window v = s.window v :=
    fun v hv => State.window_setWindow_other s hv _
  refine ⟨fun v hv => ?_, fun u v huv hu hv => ?_⟩
  · by_cases hvw : v = w
    · subst hvw
      rw [State.window_setWindow_same]
      exact ⟨hw, hlog⟩
    · rw [hother v hvw] at hv ⊢
      exact h.1 v hv
  · by_cases huw : u = w
    · subst huw
      rw [hother v huv.symm] at hv ⊢
      rw [State.window_setWindow_same]
      exact beside_of_not_overlaps h hw ho huv.symm hv
    · rw [hother u huw] at hu ⊢
      by_cases hvw : v = w
      · subst hvw
        rw [State.window_setWindow_same]
        exact (beside_of_not_overlaps h hw ho huw hu).imp Or.symm Or.symm
      · rw [hother v hvw] at hv ⊢
        exact h.2 u v huv hu hv

/-- R47: a log area that no enabled window overlaps. -/
theorem WindowsOk.setLog {s : State} (h : WindowsOk s) {log : SaveLog}
    (ho : s.logAreaOverlaps log.base.toNat log.size = false) : WindowsOk (s.setLog log) := by
  refine ⟨fun w hw => ⟨(h.1 w hw).1, ?_⟩, h.2⟩
  show log.size = 0 ∨ (s.window w).rangeEnd ≤ log.base.toNat ∨ log.base.toNat + log.size ≤ (s.window w).base.toNat
  by_cases hsize : log.size = 0
  · exact .inl hsize
  · refine .inr (beside_of_not_share (h.1 w hw).1.base_lt_rangeEnd (by omega) fun hshare => ?_)
    rw [(s.logAreaOverlaps_iff _ _).mpr ⟨hsize, w, hw, hshare⟩] at ho
    cases ho

/-! ### Owners (R30 to R32, R47, R57, R60, R182, R183) -/

/-- The owner's answer keeps what software has set up satisfied. -/
def KeepsSetup (owner : State → Answer) : Prop := ∀ s, SetupOk s → SetupOk (owner s).state

theorem setupOk_takeFrame {s : State} (ok : SetupOk s) (f : Frame) (identifier expected : Nat) {anyState : Bool}
    {owner : State → Answer} (h : KeepsSetup owner) : SetupOk (takeFrame s f identifier expected anyState owner) := by
  rcases takeFrame_cases s f identifier expected anyState owner with heq | ⟨u, rfl, ⟨status, heq⟩ | ⟨-, heq⟩⟩
  · rw [heq]
    exact ok
  · rw [heq]
    exact ok.congr (by simp) (by simp) (by simp)
  · rw [heq]
    have hdriven : SetupOk (s.driveCommandPeriod (f.clocks (identifier + f.payload.length))) :=
      ok.congr (by simp) (by simp) (by simp)
    exact (h _ hdriven).congr (by simp) (by simp) (by simp)

/-- An owner that touches neither window records nor items. -/
theorem KeepsSetup.of_same {owner : State → Answer}
    (h : ∀ s, (owner s).state.windows.records = s.windows.records ∧ logItems (owner s).state.log = logItems s.log ∧
      portItems (owner s).state.mgmt = portItems s.mgmt) : KeepsSetup owner := by
  intro s ok
  obtain ⟨hw, hl, hp⟩ := h s
  exact ok.congr hw hl hp

/-- An owner that answers for the window a frame names. -/
theorem KeepsSetup.of_window {n : Nat} {k : State → WindowNo → Answer}
    (h : ∀ s w, WindowsOk s → WindowsOk (k s w).state ∧ (k s w).state.log = s.log ∧ (k s w).state.mgmt = s.mgmt) :
    KeepsSetup fun s => withWindow s n (k s) := by
  intro s ok
  refine withWindow_induction (P := fun a => SetupOk a.state) ok fun w => ?_
  obtain ⟨hwindows, hitems⟩ := ok
  obtain ⟨hok, hlog, hmgmt⟩ := h s w hwindows
  refine ⟨hok, ?_⟩
  unfold ItemsOk
  rw [hlog, hmgmt]
  exact hitems

theorem keepsSetup_setWindow (o : WindowOperands) : KeepsSetup (answerSetWindow o) :=
  .of_window fun s w ok => by
    split
    · exact ⟨ok, rfl, rfl⟩
    · exact ⟨ok.setDisabled w rfl, rfl, rfl⟩

theorem keepsSetup_enableWindow (n : Nat) : KeepsSetup (answerEnableWindow n) :=
  .of_window fun s w ok => by
    (repeat' split)
    · exact ⟨ok, rfl, rfl⟩
    · exact ⟨ok, rfl, rfl⟩
    · exact ⟨ok, rfl, rfl⟩
    · exact ⟨ok.enable ‹_›, rfl, rfl⟩

theorem keepsSetup_disableWindow (n : Nat) : KeepsSetup (answerDisableWindow n) :=
  .of_window fun s w ok => by
    (repeat' split)
    · exact ⟨ok, rfl, rfl⟩
    · exact ⟨ok.setDisabled w rfl, rfl, rfl⟩
    · exact ⟨ok, rfl, rfl⟩

/-- R47: LOG_BASE. -/
theorem keepsSetup_writeLogBase (v : Nat) : KeepsSetup (answerWriteLogBase v) := by
  rintro s ⟨hwindows, hitems⟩
  unfold answerWriteLogBase
  split_ifs with _ hrange hend ho
  iterate 4 exact ⟨hwindows, hitems⟩
  simp only [Config.addressSpace, Bool.or_eq_true, bne_iff_ne, decide_eq_true_eq, not_or, not_not, not_le] at hrange
  simp only [Config.addressSpace, Bool.and_eq_true, bne_iff_ne, decide_eq_true_eq, not_and, not_lt] at hend
  have hbase : (BitVec.ofNat 40 v).toNat = v := by rw [BitVec.toNat_ofNat, Nat.mod_eq_of_lt hrange.2]
  obtain ⟨-, hsize, -, hrest⟩ := hitems
  refine ⟨hwindows.setLog (log := { s.log with base := BitVec.ofNat 40 v }) (by simpa [hbase] using ho), ?_, hsize, ?_,
    hrest⟩
  · show (BitVec.ofNat 40 v).toNat % 4096 = 0
    rw [hbase]
    exact hrange.1
  · show (BitVec.ofNat 40 v).toNat + s.log.size ≤ 2 ^ 40
    rw [hbase]
    by_cases h0 : s.log.size = 0
    · omega
    · exact hend h0

/-- R47: LOG_SIZE. -/
theorem keepsSetup_writeLogSize (v : Nat) : KeepsSetup (answerWriteLogSize v) := by
  rintro s ⟨hwindows, hitems⟩
  unfold answerWriteLogSize
  split_ifs with _ hrange hend hthreshold ho
  iterate 5 exact ⟨hwindows, hitems⟩
  simp only [Config.maxLogSize, Bool.and_eq_true, bne_iff_ne, Bool.not_eq_true', Bool.and_eq_false_iff,
    beq_eq_false_iff_ne, decide_eq_false_iff_not] at hrange
  simp only [Config.addressSpace, Bool.and_eq_true, bne_iff_ne, decide_eq_true_eq, not_and, not_lt] at hend
  obtain ⟨hbase, -, -, haligned, -, hrest⟩ := hitems
  refine ⟨hwindows.setLog (log := { s.log with size := v }) (by simpa using ho), hbase, ?_, ?_, haligned,
    Nat.not_lt.mp hthreshold, hrest⟩
  · show v = 0 ∨ v % 4096 = 0 ∧ 65536 ≤ v ∧ v ≤ 1073741824
    omega
  · show s.log.base.toNat + v ≤ 2 ^ 40
    have := s.log.base.isLt
    by_cases h0 : v = 0
    · omega
    · exact hend h0

/-- R60: LOG_THRESHOLD. -/
theorem keepsSetup_writeLogThreshold (v : Nat) : KeepsSetup (answerWriteLogThreshold v) := by
  rintro s ⟨hwindows, hitems⟩
  rw [answerWriteLogThreshold_eq]
  split_ifs with hv
  · obtain ⟨hbase, hsize, hend, -, -, hrest⟩ := hitems
    exact ⟨hwindows, hbase, hsize, hend, hv.1, hv.2, hrest⟩
  · exact ⟨hwindows, hitems⟩

theorem keepsSetup_writeLogFullPolicy (v : Nat) : KeepsSetup (answerWriteLogFullPolicy v) := by
  intro s ok
  unfold answerWriteLogFullPolicy
  split <;> exact ok

theorem keepsSetup_writePartRequesterId (v : Nat) : KeepsSetup (answerWritePartRequesterId v) := by
  intro s ok
  unfold answerWritePartRequesterId
  split_ifs <;> exact ok

/-- R122: RESPONSE_TIMEOUT. -/
theorem keepsSetup_writeResponseTimeout (v : Nat) : KeepsSetup (answerWriteResponseTimeout v) := by
  rintro s ⟨hwindows, hitems⟩
  rw [answerWriteResponseTimeout_eq]
  split_ifs with hv
  · obtain ⟨hbase, hsize, hend, haligned, hthreshold, -, hrest⟩ := hitems
    exact ⟨hwindows, hbase, hsize, hend, haligned, hthreshold, hv, hrest⟩
  · exact ⟨hwindows, hitems⟩

/-- R166: NOTICE_TRIGGER. -/
theorem keepsSetup_writeNoticeTrigger (v : Nat) : KeepsSetup (answerWriteNoticeTrigger v) := by
  rintro s ⟨hwindows, hitems⟩
  rw [answerWriteNoticeTrigger_eq]
  split_ifs with hv
  · obtain ⟨hbase, hsize, hend, haligned, hthreshold, htimeout, -, hrest⟩ := hitems
    exact ⟨hwindows, hbase, hsize, hend, haligned, hthreshold, htimeout, hv, hrest⟩
  · exact ⟨hwindows, hitems⟩

/-- R166: NOTICE_QUIET. -/
theorem keepsSetup_writeNoticeQuiet (v : Nat) : KeepsSetup (answerWriteNoticeQuiet v) := by
  rintro s ⟨hwindows, hitems⟩
  rw [answerWriteNoticeQuiet_eq]
  split_ifs with hv
  · obtain ⟨hbase, hsize, hend, haligned, hthreshold, htimeout, htrigger, -, hrest⟩ := hitems
    exact ⟨hwindows, hbase, hsize, hend, haligned, hthreshold, htimeout, htrigger, hv, hrest⟩
  · exact ⟨hwindows, hitems⟩

/-- R23: LINE_ROLLBACK. -/
theorem keepsSetup_writeLineRollback (enable target : Nat) : KeepsSetup (answerWriteLineRollback enable target) := by
  rintro s ⟨hwindows, hitems⟩
  rw [answerWriteLineRollback_eq]
  split_ifs with hv
  · obtain ⟨hbase, hsize, hend, haligned, hthreshold, htimeout, htrigger, hquiet, -⟩ := hitems
    exact ⟨hwindows, hbase, hsize, hend, haligned, hthreshold, htimeout, htrigger, hquiet, hv.2⟩
  · exact ⟨hwindows, hitems⟩

/-! ### Resets (R44, R180, R188, R191) -/

/-- The reset values satisfy what is asked, whatever else the state holds. -/
theorem setupOk_of_reset {t : State} (hw : t.windows.records = WindowUnit.reset.records) (hl : t.log = SaveLog.reset)
    (hp : portItems t.mgmt = portItems ManagementPort.reset) : SetupOk t :=
  SetupOk.congr (s := State.reset) ⟨windowsOk_reset, itemsOk_reset⟩ hw (by rw [hl]; rfl) hp

theorem setupOk_quiesceStep (s : State) : SetupOk s.quiesceStep :=
  setupOk_of_reset (by simp [WindowUnit.resetStep]) (by simp) (by simp [ManagementPort.resetStep, portItems])

theorem SetupOk.quiesceComplete {s : State} (h : SetupOk s) : SetupOk s.quiesceComplete := by
  unfold State.quiesceComplete
  split
  · exact setupOk_quiesceStep s
  · exact h

theorem SetupOk.reported {t : State} (h : SetupOk t) (s : State) : SetupOk (s.reported t) := by
  rcases State.reported_cases s t with heq | ⟨-, heq⟩ <;> rw [heq]
  · exact h
  · exact setupOk_quiesceStep t

theorem SetupOk.timeOutTag {s : State} (h : SetupOk s) (tag : TagNo) : SetupOk (s.timeOutTag tag) := by
  unfold State.timeOutTag
  dsimp only
  split
  · rename_i r _ _
    obtain ⟨u, rfl, hu⟩ := State.quiesceAmidTimeout_cases (happening s fun h => h.timeOut tag)
      (.responseTimeout r.origin.source r.address)
    have hq := setupOk_quiesceStep ((happening s fun h => h.timeOut tag).setChoices
      ((happening s fun h => h.timeOut tag).choices + 1))
    rcases hu with hu | hu | hu <;> rw [hu]
    · exact hq
    · exact hq.congr (by simp) (by simp) (by simp)
    · exact hq.congr (by simp) (by simp) (by simp)
  · exact h.congr (by simp) (by simp) (by simp)

theorem keepsSetup_softReset : KeepsSetup answerSoftReset := by
  intro s ok
  unfold answerSoftReset
  exact SetupOk.quiesceComplete (ok.congr (by simp) (by simp) (by simp; rfl))

/-! ### The mark commands (R6 to R10) -/

theorem KeepsSetup.of_drain {owner : State → Answer} (h : ∀ s, RefusedOrDrains s (owner s)) : KeepsSetup owner := by
  intro s ok
  rcases h s with heq | ⟨action, heq⟩ <;> rw [heq]
  · exact ok
  · exact ok.congr (by simp) (by simp) (by simp)

theorem keepsSetup_checkLog (k : Nat) : KeepsSetup (answerCheckLog k) := .of_same fun s => by
  unfold answerCheckLog
  (repeat' split) <;> simp

theorem keepsSetup_discard : KeepsSetup answerDiscard := .of_same fun s => by
  unfold answerDiscard
  dsimp only
  (repeat' split) <;> simp

/-! ### The step -/

theorem setupOk_running {s : State} (ok : SetupOk s) {f : State → State} (h : SetupOk (f s)) :
    SetupOk (s.running f) := by
  unfold State.running
  split
  · exact ok
  · exact h

theorem SetupOk.powerOnEnd {s : State} (h : SetupOk s) : SetupOk s.powerOnEnd := by
  unfold State.powerOnEnd
  split <;> exact h

theorem SetupOk.sweepComplete {s : State} (h : SetupOk s) : SetupOk s.sweepComplete := by
  unfold State.sweepComplete
  split
  · exact h.congr rfl rfl rfl
  · exact h

theorem SetupOk.risingEdge {s : State} (h : SetupOk s) : SetupOk s.risingEdge := by
  have hpin : SetupOk (s.setRollbackReq true) := h.congr rfl rfl rfl
  unfold State.risingEdge
  (repeat' split)
  · exact h
  · exact hpin
  · exact hpin.congr (by simp) (by simp) (by simp)

/-- Every command answers a next state, in which what software has set up is satisfied. -/
theorem setupOk_exec {s : State} (ok : SetupOk s) (c : Instr) : ∃ t, exec c s = .next t ∧ SetupOk t := by
  cases c with
  | powerOnReset => exact ⟨_, rfl, setupOk_of_reset rfl rfl rfl⟩
  | powerOnResetEnd => exact ⟨_, rfl, ok.powerOnEnd⟩
  | mapSweepComplete => exact ⟨_, rfl, setupOk_running ok ok.sweepComplete⟩
  | rollbackReqRisingEdge => exact ⟨_, rfl, ok.risingEdge⟩
  | rollbackReqFallingEdge => exact ⟨_, rfl, ok.congr rfl rfl rfl⟩
  | tagTimeout tag => exact ⟨_, rfl, setupOk_running ok (ok.timeOutTag tag)⟩
  | downstreamResponse tag status data =>
    have hdone : SetupOk (happening s fun h => h.response tag status data) :=
      ok.congr (by simp) (by simp) (by simp)
    exact ⟨_, rfl, setupOk_running ok (hdone.reported s)⟩
  | softResetQuiesceComplete => exact ⟨_, rfl, setupOk_running ok ok.quiesceComplete⟩
  | upstreamRequest r => exact ⟨_, rfl, setupOk_running ok (ok.congr (by simp) (by simp) (by simp))⟩
  | saveAllocation => exact ⟨_, rfl, setupOk_running ok (ok.congr (by simp) (by simp) (by simp))⟩
  | arbiterGrant => exact ⟨_, rfl, setupOk_running ok (ok.congr (by simp) (by simp) (by simp))⟩
  | downstreamCreditReturn => exact ⟨_, rfl, setupOk_running ok (ok.congr (by simp) (by simp) (by simp))⟩
  | checkEnd => exact ⟨_, rfl, setupOk_running ok (ok.congr (by simp) (by simp) (by simp))⟩
  | stalePeriodExpiry tag => exact ⟨_, rfl, setupOk_running ok (ok.congr (by simp) (by simp) (by simp))⟩
  | openTakesEffect => exact ⟨_, rfl, setupOk_running ok (ok.congr (by simp) (by simp) (by simp))⟩
  | releaseTakesEffect => exact ⟨_, rfl, setupOk_running ok (ok.congr (by simp) (by simp) (by simp))⟩
  | commitTakesEffect => exact ⟨_, rfl, setupOk_running ok (ok.congr (by simp) (by simp) (by simp))⟩
  | rollbackTakesEffect => exact ⟨_, rfl, setupOk_running ok (ok.congr (by simp) (by simp) (by simp))⟩
  | rollbackOutcome => exact ⟨_, rfl, setupOk_running ok (ok.congr (by simp) (by simp) (by simp))⟩
  | quietTimerExpiry => exact ⟨_, rfl, setupOk_running ok (ok.congr (by simp) (by simp) (by simp))⟩
  | replyReady => exact ⟨_, rfl, setupOk_running ok (ok.congr (by simp) (by simp) (by simp))⟩
  | readPeriod clocks beganInReset => exact ⟨_, rfl, ok.congr (by simp) (by simp) (by simp)⟩
  | commandFrameCutShort p => exact ⟨_, rfl, ok.congr (by simp) (by simp) (by simp)⟩
  | unknownCommand code f => exact ⟨_, rfl, ok.congr (by simp) (by simp) (by simp)⟩
  | checkFailedFrame p => exact ⟨_, rfl, ok.congr (by simp) (by simp) (by simp)⟩
  | getStatus f => exact ⟨_, rfl, setupOk_takeFrame ok f _ _ (.of_same fun s => by simp)⟩
  | getMarks f => exact ⟨_, rfl, setupOk_takeFrame ok f _ _ (.of_same fun s => by simp)⟩
  | readConfig f => exact ⟨_, rfl, setupOk_takeFrame ok f _ _ (.of_same fun s => by simp)⟩
  | writeConfigLogReader f => exact ⟨_, rfl, setupOk_takeFrame ok f _ _ (.of_same fun s => by simp)⟩
  | writeConfigUnknownItem f => exact ⟨_, rfl, setupOk_takeFrame ok f _ _ (.of_same fun s => by simp)⟩
  | getWindow f => exact ⟨_, rfl, setupOk_takeFrame ok f _ _ (.of_same fun s => by simp)⟩
  | readMap f => exact ⟨_, rfl, setupOk_takeFrame ok f _ _ (.of_same fun s => by simp)⟩
  | readNotice f => exact ⟨_, rfl, setupOk_takeFrame ok f _ _ (.of_same fun s => by simp)⟩
  | readCounters f => exact ⟨_, rfl, setupOk_takeFrame ok f _ _ (.of_same fun s => by simp)⟩
  | clearCounters f => exact ⟨_, rfl, setupOk_takeFrame ok f _ _ (.of_same fun s => by simp)⟩
  | writeConfigLogBase f => exact ⟨_, rfl, setupOk_takeFrame ok f _ _ (keepsSetup_writeLogBase _)⟩
  | writeConfigLogSize f => exact ⟨_, rfl, setupOk_takeFrame ok f _ _ (keepsSetup_writeLogSize _)⟩
  | writeConfigLogThreshold f => exact ⟨_, rfl, setupOk_takeFrame ok f _ _ (keepsSetup_writeLogThreshold _)⟩
  | writeConfigLogFullPolicy f => exact ⟨_, rfl, setupOk_takeFrame ok f _ _ (keepsSetup_writeLogFullPolicy _)⟩
  | writeConfigPartRequesterId f => exact ⟨_, rfl, setupOk_takeFrame ok f _ _ (keepsSetup_writePartRequesterId _)⟩
  | writeConfigResponseTimeout f => exact ⟨_, rfl, setupOk_takeFrame ok f _ _ (keepsSetup_writeResponseTimeout _)⟩
  | writeConfigNoticeTrigger f => exact ⟨_, rfl, setupOk_takeFrame ok f _ _ (keepsSetup_writeNoticeTrigger _)⟩
  | writeConfigNoticeQuiet f => exact ⟨_, rfl, setupOk_takeFrame ok f _ _ (keepsSetup_writeNoticeQuiet _)⟩
  | writeConfigLineRollback f => exact ⟨_, rfl, setupOk_takeFrame ok f _ _ (keepsSetup_writeLineRollback _ _)⟩
  | setWindow f => exact ⟨_, rfl, setupOk_takeFrame ok f _ _ (keepsSetup_setWindow _)⟩
  | enableWindow f => exact ⟨_, rfl, setupOk_takeFrame ok f _ _ (keepsSetup_enableWindow _)⟩
  | disableWindow f => exact ⟨_, rfl, setupOk_takeFrame ok f _ _ (keepsSetup_disableWindow _)⟩
  | openMark f => exact ⟨_, rfl, setupOk_takeFrame ok f _ _ (.of_drain (refusedOrDrains_openMark _))⟩
  | releaseMark f => exact ⟨_, rfl, setupOk_takeFrame ok f _ _ (.of_drain refusedOrDrains_releaseMark)⟩
  | commit f => exact ⟨_, rfl, setupOk_takeFrame ok f _ _ (.of_drain refusedOrDrains_commit)⟩
  | rollback f => exact ⟨_, rfl, setupOk_takeFrame ok f _ _ (.of_drain (refusedOrDrains_rollback _))⟩
  | checkLog f => exact ⟨_, rfl, setupOk_takeFrame ok f _ _ (keepsSetup_checkLog _)⟩
  | discard f => exact ⟨_, rfl, setupOk_takeFrame ok f _ _ keepsSetup_discard⟩
  | softReset f => exact ⟨_, rfl, setupOk_takeFrame ok f _ _ keepsSetup_softReset⟩

/-- Settles O57: the window commands, the writes of items and the resets are all that change what is set up, and each
tests or resets what it stores. -/
theorem stepsKeepWindowsAndItems : Obligations.StepsKeepWindowsAndItems := by
  intro s t hwindows hitems hstep
  have ok : SetupOk s := ⟨hwindows, hitems⟩
  unfold step at hstep
  split at hstep
  · cases hstep
    exact ok.congr rfl rfl rfl
  · rename_i c rest _
    have hrest : SetupOk (s.setPending rest) := ok.congr rfl rfl rfl
    obtain ⟨u, hu, hok⟩ := setupOk_exec hrest c
    rw [hu] at hstep
    cases hstep
    exact hok

end Sys2Proof.Safety
end

