-- ==== Sys2Proof/Proofs/SaveLog.lean ====
section
/-! The save log: the writes of LOG_BASE and LOG_SIZE (R34, R47), and what a save that finds the log full does under
REFUSE (R59) and under BREAK (R58). -/

namespace Sys2Proof.Safety

open Machine

/-! ### The log area's items (R47) -/

/-- R47: the range tests a value of LOG_BASE must meet. -/
abbrev LogBaseInRange (s : State) (v : Nat) : Prop :=
  v % 4096 = 0 ∧ v < 2 ^ 40 ∧ (s.log.size = 0 ∨ v + s.log.size ≤ 2 ^ 40)

/-- R47, R60: the range tests a value of LOG_SIZE must meet. -/
abbrev LogSizeInRange (s : State) (v : Nat) : Prop :=
  (v = 0 ∨ v % 4096 = 0 ∧ 65536 ≤ v ∧ v ≤ 1073741824 ∧ s.log.base.toNat + v ≤ 2 ^ 40) ∧ s.log.threshold ≤ v

/-- R47: LOG_BASE in IDLE. The range tests come before the overlap test. -/
theorem answerWriteLogBase_of_idle {s : State} (hs : s.marks.state = .idle) (v : Nat) :
    answerWriteLogBase v s =
      if LogBaseInRange s v then
        if s.logAreaOverlaps v s.log.size then s.refuse .refusedOverlap
        else ({ s with log := { s.log with base := BitVec.ofNat 40 v } } : State).done
      else s.refuse .refusedRange := by
  unfold answerWriteLogBase
  rw [if_neg (by simp [hs]), ← ite_or]
  have hrange : ((v % 4096 != 0 || decide (Config.addressSpace ≤ v)) = true ∨
      (s.log.size != 0 && decide (Config.addressSpace < v + s.log.size)) = true) ↔
      ¬ LogBaseInRange s v := by
    simp only [Config.addressSpace, Bool.or_eq_true, Bool.and_eq_true, bne_iff_ne, decide_eq_true_eq]
    omega
  by_cases h : LogBaseInRange s v
  · rw [if_neg (mt hrange.mp (not_not.mpr h)), if_pos h]
    rfl
  · rw [if_pos (hrange.mpr h), if_neg h]

/-- R47: LOG_SIZE in IDLE. The range tests come before the overlap test. -/
theorem answerWriteLogSize_of_idle {s : State} (hs : s.marks.state = .idle) (v : Nat) :
    answerWriteLogSize v s =
      if LogSizeInRange s v then
        if s.logAreaOverlaps s.log.base.toNat v then s.refuse .refusedOverlap
        else ({ s with log := { s.log with size := v } } : State).done
      else s.refuse .refusedRange := by
  unfold answerWriteLogSize
  rw [if_neg (by simp [hs]), ← ite_or, ← ite_or]
  have hrange : (((v != 0 && !(v % 4096 == 0 && decide (65536 ≤ v) && decide (v ≤ Config.maxLogSize))) = true ∨
      (v != 0 && decide (Config.addressSpace < s.log.base.toNat + v)) = true) ∨ v < s.log.threshold) ↔
      ¬ LogSizeInRange s v := by
    simp only [Config.addressSpace, Config.maxLogSize, Bool.and_eq_true, bne_iff_ne, Bool.not_eq_true',
      ← Bool.not_eq_true, beq_iff_eq, decide_eq_true_eq]
    omega
  by_cases h : LogSizeInRange s v
  · rw [if_neg (mt hrange.mp (not_not.mpr h)), if_pos h]
    rfl
  · rw [if_pos (hrange.mpr h), if_neg h]

/-- R34, R47: a delivered write that asks for the log area [`base`, `base + size`): refused out of range, refused over an
enabled window, and otherwise stored. -/
theorem next_takeFrame_logArea {s t : State} {f : Frame} {anyState : Bool} {owner : State → Answer} {base size : Nat}
    {inRange : Prop} [Decidable inRange] (hd : Delivered s f 8)
    (ho : ∀ n, owner (s.driveCommandPeriod n) =
      if inRange then
        if s.logAreaOverlaps base size then (s.driveCommandPeriod n).refuse .refusedOverlap
        else (t.driveCommandPeriod n).done
      else (s.driveCommandPeriod n).refuse .refusedRange) :
    (¬ inRange → (.next (takeFrame s f 1 9 anyState owner) : Host.Outcome State Fault Refusal) =
      .next (replied s f 9 .refusedRange [])) ∧
    (inRange →
      (s.logAreaOverlaps base size = true →
        (.next (takeFrame s f 1 9 anyState owner) : Host.Outcome State Fault Refusal) =
          .next (replied s f 9 .refusedOverlap [])) ∧
      (¬ s.logAreaOverlaps base size = true →
        (.next (takeFrame s f 1 9 anyState owner) : Host.Outcome State Fault Refusal) =
          .next (replied t f 9 .ok []))) := by
  have answered : ∀ {u status}, owner (s.driveCommandPeriod (f.clocks 9)) =
      ⟨u.driveCommandPeriod (f.clocks 9), status, []⟩ →
      (.next (takeFrame s f 1 9 anyState owner) : Host.Outcome State Fault Refusal) = .next (replied u f 9 status []) :=
    next_takeFrame (n := 8) hd (by decide)
  refine ⟨fun hr => answered ?_, fun hr => ⟨fun ha => answered ?_, fun ha => answered ?_⟩⟩
  · exact (ho _).trans (if_neg hr)
  · exact (ho _).trans ((if_pos hr).trans (if_pos ha))
  · exact (ho _).trans ((if_pos hr).trans (if_neg ha))

/-- Settles O43: outside IDLE both owners refuse; in IDLE each answers by its range and overlap tests. -/
theorem logAreaItemsWritten : Obligations.LogAreaItemsWritten := by
  rintro s f _ _ hd rfl rfl
  refine ⟨fun hs => ⟨?_, ?_⟩, fun hs => ?_⟩
  · exact next_takeFrame hd (by decide) (by simp [answerWriteLogBase, hs, State.refuse])
  · exact next_takeFrame hd (by decide) (by simp [answerWriteLogSize, hs, State.refuse])
  · simp only [← State.logAreaOverlaps_iff]
    obtain ⟨hbaseRange, hbase⟩ :=
      next_takeFrame_logArea (anyState := false) (owner := answerWriteLogBase (itemValue f)) (base := itemValue f)
        (size := s.log.size) (inRange := LogBaseInRange s (itemValue f))
        (t := { s with log := { s.log with base := BitVec.ofNat 40 (itemValue f) } }) hd
        fun n => answerWriteLogBase_of_idle (s := s.driveCommandPeriod n) hs _
    obtain ⟨hsizeRange, hsize⟩ :=
      next_takeFrame_logArea (anyState := false) (owner := answerWriteLogSize (itemValue f)) (base := s.log.base.toNat)
        (size := itemValue f) (inRange := LogSizeInRange s (itemValue f))
        (t := { s with log := { s.log with size := itemValue f } }) hd
        fun n => answerWriteLogSize_of_idle (s := s.driveCommandPeriod n) hs _
    unfold itemValue at hbaseRange hbase hsizeRange hsize
    exact ⟨fun h => hbaseRange (by omega), fun h1 h2 h3 => hbase ⟨h1, h2, h3⟩, fun h => hsizeRange (by omega),
      fun h1 h2 => hsize ⟨h1, h2⟩⟩

/-! ### A save that finds the log full (R58, R59) -/

/-- R67: with a FREE context there is a lowest-numbered one. -/
theorem exists_freeContext? {s : State} {c : ContextNo} (h : s.context? c = none) : ∃ d, s.freeContext? = some d := by
  have hsome : s.freeContext?.isSome = true := List.find?_isSome.mpr ⟨c, List.mem_finRange c, by simp [h]⟩
  exact Option.isSome_iff_exists.mp hsome

/-- R56: a record one byte or more over the room left does not fit. -/
theorem not_logFits {s : State} {g : Granule} (h : s.log.size < s.log.tail + (g.bytes + 64)) : s.logFits g = false :=
  decide_eq_false (Nat.not_le.mpr h)

/-- R58, R67: under BREAK the log found full sets the bar and makes the break report. -/
theorem allocateSave_full_break {s : State} {e : TransitEntry} {w : WindowNo} {i : Nat} {g : Granule} {c : ContextNo}
    (hn : s.nextAllocation = some (e, w, i, g, c)) (hf : s.logFits g = false) (hp : s.log.policy = .breakMarks) :
    (Happening.start s).allocateSave =
      (Happening.start { s with save := { s.save with fullBar := true } }).breakReport .logFull := by
  simp only [Happening.allocateSave, Happening.start_state, hn, hf, hp, Bool.false_eq_true, if_false]
  rfl

/-- R59, R67: under REFUSE the log found full refuses the write. -/
theorem allocateSave_full_refuse {s : State} {e : TransitEntry} {w : WindowNo} {i : Nat} {g : Granule} {c : ContextNo}
    (hn : s.nextAllocation = some (e, w, i, g, c)) (hf : s.logFits g = false) (hp : s.log.policy = .refuse) :
    (Happening.start s).allocateSave = (Happening.start s).refuseSave e w := by
  simp [Happening.allocateSave, hn, hf, hp]

/-- What the refused write leaves (R59, R96): the level stays, so its notice carries the level the happening began at. -/
theorem happening_refuseSave (s : State) (f : Happening → Happening) (e : TransitEntry) (w : WindowNo)
    (hf : f (Happening.start s) = (Happening.start s).refuseSave e w) :
    happening s f =
      takePost (((s.popWaiting.respond (answerTo e.request .denied)).countRequestDenied).leave e.order)
        (.writeRefused w e.request.requester e.request.address) s.level := by
  have hl : (((s.popWaiting.respond (answerTo e.request .denied)).countRequestDenied).leave e.order).level = s.level := by
    simp [State.level]
  rw [happening_of_one_post s f .saveEngine (.writeRefused w e.request.requester e.request.address) (by rw [hf]; rfl)
    (.inr (by rw [hf]; exact hl.symm)), hf]
  exact congrArg _ hl

/-- Settles O16: one notice of the save engine, at a level that stays. -/
theorem logFullRefusesTheWrite : Obligations.LogFullRefusesTheWrite := by
  intro s o rest e w i g c hr hs hb hw he hc hg hfree hfull hp
  obtain ⟨d, hd⟩ := exists_freeContext? hfree
  obtain ⟨-, rfl⟩ := State.entry?_mem he
  have hn := State.nextAllocation_eq_some hs hb hw he hc hg hd
  have hpop : s.popWaiting = { s with save := { s.save with waiting := rest } } := by
    simp [State.popWaiting, State.setSave, hw]
  refine (next_running hr _).trans (congrArg _ ?_)
  rw [happening_refuseSave s _ e w (allocateSave_full_refuse hn (not_logFits hfull) hp), hpop]
  rfl

/-- Settles O17: the allocation is a break report with the bar set, and its posts are taken with CHECK_DONE beside them. -/
theorem logFullBreaksTheMarks : Obligations.LogFullBreaksTheMarks := by
  intro s o rest e w i g c hr hs hb hw he hc hg hfree hfull hp
  obtain ⟨d, hd⟩ := exists_freeContext? hfree
  have hn := State.nextAllocation_eq_some hs hb hw he hc hg hd
  have hbreak := allocateSave_full_break hn (not_logFits hfull) hp
  refine breakReport_leaves (Happening.start { s with save := { s.save with fullBar := true } }) .logFull hs rfl ?_
  intro own others hposts hothers
  refine ⟨_, next_running hr _, ?_⟩
  rw [happening, hbreak]
  exact finish_together _ own others s.level (fun p hm => by simp [hothers p hm]) hposts

end Sys2Proof.Safety
end

/-! What the engines may hold (R64, R69, R77, R140) and the reset phase (R184, R185): the limits as a relation between
two states, what each operation does to them, and that a step which ends the second engine completes the quiesce. -/

namespace Sys2Proof.Machine

/-! ### The limits of a save context (R69) -/

/-- R69: at most four lines in flight, and no more reads issued than the granule has lines. -/
def SaveContext.WithinLimits (x : SaveContext) : Prop := x.lines.length ≤ 4 ∧ x.linesIssued ≤ x.granule.lines

/-- `y` has no more lines in flight than `x`, and has issued the same reads of the same granule. -/
structure SaveContext.Shrinks (x y : SaveContext) : Prop where
  lines : y.lines.length ≤ x.lines.length
  issued : y.linesIssued = x.linesIssued
  granule : y.granule = x.granule

theorem SaveContext.Shrinks.trans {x y z : SaveContext} (h : x.Shrinks y) (k : y.Shrinks z) : x.Shrinks z :=
  ⟨k.lines.trans h.lines, k.issued.trans h.issued, k.granule.trans h.granule⟩

theorem SaveContext.WithinLimits.shrink {x y : SaveContext} (h : x.WithinLimits) (hs : x.Shrinks y) :
    y.WithinLimits := by
  obtain ⟨hlines, hissued⟩ := h
  refine ⟨hs.lines.trans hlines, ?_⟩
  rw [hs.issued, hs.granule]
  exact hissued

theorem SaveContext.shrinks_updateLine (x : SaveContext) (j : Nat) (f : LineBuffer → LineBuffer) :
    x.Shrinks (x.updateLine j f) :=
  ⟨by simp [SaveContext.updateLine], rfl, rfl⟩

theorem SaveContext.shrinks_retire (x : SaveContext) : x.Shrinks x.retire := ⟨List.length_filter_le _ _, rfl, rfl⟩

theorem shrinks_foldLines (n : Nat) (x : SaveContext) : x.Shrinks (foldLines n x) := by
  induction n generalizing x with
  | zero => exact ⟨Nat.le_refl _, rfl, rfl⟩
  | succ n ih =>
    unfold foldLines
    split
    · rename_i line data _ _
      have hcounted : x.Shrinks { x with crc := crc32Fold x.crc data, linesFolded := x.linesFolded + 1 } :=
        ⟨Nat.le_refl _, rfl, rfl⟩
      exact (hcounted.trans (SaveContext.shrinks_updateLine _ line _)).trans (ih _)
    · exact ⟨Nat.le_refl _, rfl, rfl⟩

theorem SaveContext.shrinks_lineArrived (x : SaveContext) (j : Nat) (data : Line) : x.Shrinks (x.lineArrived j data) :=
  ((x.shrinks_updateLine j _).trans (shrinks_foldLines _ _)).trans (SaveContext.shrinks_retire _)

theorem SaveContext.shrinks_lineWritten (x : SaveContext) (j : Nat) : x.Shrinks (x.lineWritten j) := by
  have hcounted : x.Shrinks { x with linesAcknowledged := x.linesAcknowledged + 1 } := ⟨Nat.le_refl _, rfl, rfl⟩
  have hacknowledged := SaveContext.shrinks_updateLine { x with linesAcknowledged := x.linesAcknowledged + 1 } j
    fun b => { b with write := .acknowledged }
  have hretired := (hcounted.trans hacknowledged).trans (SaveContext.shrinks_retire _)
  unfold SaveContext.lineWritten
  dsimp only
  split
  · exact ⟨hretired.lines, hretired.issued, hretired.granule⟩
  · exact hretired

theorem SaveContext.shrinks_readFailed (x : SaveContext) (kind : ErrorKind) : x.Shrinks (x.readFailed kind) :=
  ⟨List.length_filter_le _ _, rfl, rfl⟩

/-- R69: a granule read is offered while the granule has lines left and fewer than four are in flight. -/
theorem SaveContext.room_of_offer_granuleRead {x : SaveContext} {j : Nat} (h : x.offer = some (.granuleRead j)) :
    x.lines.length < 4 ∧ x.linesIssued < x.granule.lines := by
  unfold SaveContext.offer at h
  split at h
  case h_4 =>
    split at h
    · cases h
    · split at h
      · rename_i hroom
        simp only [Bool.and_eq_true, decide_eq_true_eq] at hroom
        exact ⟨hroom.2, hroom.1⟩
      · cases h
  case h_6 => split at h <;> cases h
  all_goals cases h

/-- R69, R116: an issue of the step offered stays within the limits. -/
theorem SaveContext.WithinLimits.issue {x : SaveContext} (h : x.WithinLimits) {step : SaveStep}
    (ho : x.offer = some step) : (x.issued step).WithinLimits := by
  cases step with
  | granuleRead j =>
    obtain ⟨hlines, hissued⟩ := SaveContext.room_of_offer_granuleRead ho
    exact ⟨by simpa [SaveContext.issued] using hlines, hissued⟩
  | dataWrite j => exact h.shrink (x.shrinks_updateLine j _)
  | headerWrite => exact h

/-- R140: the restore engine offers a request while fewer than four are outstanding. -/
theorem RestoreEngine.outstanding_of_offer {e : RestoreEngine} {step : RestoreStep} (h : e.offer = some step) :
    e.outstanding < 4 := by
  unfold RestoreEngine.offer at h
  split at h
  · cases h
  · rename_i hfree
    simp only [Bool.or_eq_true, decide_eq_true_eq, not_or, Nat.not_le] at hfree
    exact hfree.1.2

/-! ### Offers of the engines (R77, R113, R140) -/

/-- R77, R113: the step of a save that is offered is its context's. -/
theorem State.offer_of_offerOf_save {s : State} {source : Source} {c : ContextNo} {x : SaveContext} {step : SaveStep}
    (h : s.offerOf source = some (.save c x step)) : s.context? c = some x ∧ x.offer = some step := by
  cases source with
  | passThrough =>
    obtain ⟨e, -, he⟩ := Option.map_eq_some_iff.mp h
    cases he
  | restore =>
    obtain ⟨e, -, he⟩ := Option.map_eq_some_iff.mp h
    cases he
  | save =>
    obtain ⟨⟨d, st⟩, hoffer, hd⟩ := Option.bind_eq_some_iff.mp h
    obtain ⟨y, hy, he⟩ := Option.map_eq_some_iff.mp hd
    cases he
    obtain ⟨a, -, ha⟩ := List.exists_of_findSome?_eq_some hoffer
    obtain ⟨z, hz, hz'⟩ := Option.bind_eq_some_iff.mp ha
    obtain ⟨st', hst, he⟩ := Option.map_eq_some_iff.mp hz'
    cases he
    rw [hy] at hz
    cases hz
    exact ⟨hy, hst⟩

/-- R113, R140: the step of the restore engine that is offered is the engine's. -/
theorem State.offer_of_offerOf_restore {s : State} {source : Source} {step : RestoreStep}
    (h : s.offerOf source = some (.restore step)) : s.restore.offer = some step := by
  cases source with
  | passThrough =>
    obtain ⟨e, -, he⟩ := Option.map_eq_some_iff.mp h
    cases he
  | restore =>
    obtain ⟨st, hst, he⟩ := Option.map_eq_some_iff.mp h
    cases he
    exact hst
  | save =>
    obtain ⟨d, -, hd⟩ := Option.bind_eq_some_iff.mp h
    obtain ⟨y, -, he⟩ := Option.map_eq_some_iff.mp hd
    cases he

/-! ### The contexts and the allocation order (R64, R77) -/

/-- The save contexts and the allocation order. -/
def State.saveTables (s : State) : Vector SaveContext 4 × List ContextNo := (s.save.contexts, s.save.allocation)

@[simp] theorem State.saveTables_enterWaitSave (s : State) (o : Nat) :
    (s.enterWaitSave o).saveTables = s.saveTables := rfl

@[simp] theorem State.saveTables_updateEntry (s : State) (o : Nat) (f : TransitEntry → TransitEntry) :
    (s.updateEntry o f).saveTables = s.saveTables := rfl

@[simp] theorem State.saveTables_evaluateHead (s : State) (o : Nat) : (s.evaluateHead o).saveTables = s.saveTables := by
  unfold State.evaluateHead
  (repeat' split) <;> rfl

@[simp] theorem State.saveTables_passTurn (s : State) (i : Nat) : (s.passTurn i).saveTables = s.saveTables := by
  unfold State.passTurn
  split
  · rfl
  · split
    · simp
    · rfl

@[simp] theorem State.saveTables_leave (s : State) (o : Nat) : (s.leave o).saveTables = s.saveTables := by
  unfold State.leave
  dsimp only
  (repeat' split)
  · rfl
  · rw [State.saveTables_passTurn]
    rfl
  · rfl

@[simp] theorem State.saveTables_enterWindow (s : State) (r : UpstreamRequest) (w : WindowNo) (i : Nat) :
    (s.enterWindow r w i).saveTables = s.saveTables := by
  unfold State.enterWindow
  dsimp only
  (repeat' split)
  · rfl
  · rfl
  · rw [State.saveTables_evaluateHead]
    rfl

@[simp] theorem Happening.saveTables_arrive (h : Happening) (r : UpstreamRequest) :
    (h.arrive r).state.saveTables = h.state.saveTables := by
  unfold Happening.arrive
  (repeat' split)
  · rfl
  · rfl
  · exact State.saveTables_enterWindow _ _ _ _
  · rfl

@[simp] theorem State.saveTables_reclassify (s : State) (e : TransitEntry) :
    (s.reclassify e).saveTables = s.saveTables := by
  unfold State.reclassify
  dsimp only
  (repeat' split)
  · rfl
  · rw [State.saveTables_evaluateHead]
    rfl
  · rfl

@[simp] theorem State.saveTables_reclassifyAll (s : State) : s.reclassifyAll.saveTables = s.saveTables := by
  unfold State.reclassifyAll
  generalize List.filter _ s.transit.entries = es
  induction es generalizing s with
  | nil => rfl
  | cons e es ih => exact (ih (s.reclassify e)).trans (s.saveTables_reclassify e)

end Sys2Proof.Machine

namespace Sys2Proof.Safety

open Machine

/-! ### The invariant -/

/-- R64, R69, R77: the allocation order lists each busy context once, and each is within its limits. -/
structure SavesOk (s : State) : Prop where
  nodup : s.save.allocation.Nodup
  listed : ∀ c, c ∈ s.save.allocation ↔ (s.context? c).isSome = true
  limits : ∀ c x, s.context? c = some x → x.WithinLimits

/-- R152, R153: a walk goes on under an end request. -/
def EndAsked (e : RestoreEngine) : Prop := e.state ≠ .idle → e.endRequest ≠ .noRequest

/-- The engines' limits and the reset phase, but for the engines not having both ended. -/
structure LimitsOk (s : State) : Prop where
  saves : SavesOk s
  outstanding : s.restore.outstanding ≤ 4
  phase : s.mgmt.resetPhase = .engines ↔ s.marks.state = .resetting
  low : s.pins.resetLow = true → s.marks.state ≠ .resetting
  asked : s.marks.state = .resetting → EndAsked s.restore

/-- The invariants of the claims: the limits, and no quiesce that is due has been left undone. -/
theorem limitsOk_iff (s : State) : EnginesOk s ∧ ResetPhaseOk s ↔ LimitsOk s ∧ s.quiesceDue = false := by
  have hdue : s.quiesceDue = false ↔
      (s.marks.state = .resetting → (∃ c, s.context? c ≠ none) ∨ s.restore.state ≠ .idle) := by
    rw [← Bool.not_eq_true, State.quiesceDue_iff, not_and, not_and_or, not_forall]
  rw [hdue]
  constructor
  · rintro ⟨⟨hnodup, hlisted, hlimits, hout⟩, hphase, hlow, hresetting⟩
    exact ⟨⟨⟨hnodup, hlisted, hlimits⟩, hout, hphase, hlow, fun hs => (hresetting hs).2⟩, fun hs => (hresetting hs).1⟩
  · rintro ⟨⟨⟨hnodup, hlisted, hlimits⟩, hout, hphase, hlow, hasked⟩, hbusy⟩
    exact ⟨⟨hnodup, hlisted, hlimits, hout⟩, hphase, hlow, fun hs => ⟨hbusy hs, hasked hs⟩⟩

/-- `t` meets what `s` meets of the limits, and is in RESETTING and its phase exactly when `s` is. -/
structure KeepsLimits (s t : State) : Prop where
  saves : SavesOk s → SavesOk t
  outstanding : s.restore.outstanding ≤ 4 → t.restore.outstanding ≤ 4
  phase : t.mgmt.resetPhase = s.mgmt.resetPhase
  resetting : t.marks.state = .resetting ↔ s.marks.state = .resetting
  low : t.pins.resetLow = s.pins.resetLow
  asked : s.marks.state = .resetting → EndAsked s.restore → EndAsked t.restore

theorem LimitsOk.keep {s t : State} (h : LimitsOk s) (k : KeepsLimits s t) : LimitsOk t where
  saves := k.saves h.saves
  outstanding := k.outstanding h.outstanding
  phase := by rw [k.phase, k.resetting]; exact h.phase
  low := by rw [k.low, ne_eq, k.resetting]; exact h.low
  asked hs := k.asked (k.resetting.mp hs) (h.asked (k.resetting.mp hs))

namespace KeepsLimits

theorem refl (s : State) : KeepsLimits s s := ⟨id, id, rfl, Iff.rfl, rfl, fun _ => id⟩

theorem trans {s t u : State} (h : KeepsLimits s t) (k : KeepsLimits t u) : KeepsLimits s u where
  saves := k.saves ∘ h.saves
  outstanding := k.outstanding ∘ h.outstanding
  phase := k.phase.trans h.phase
  resetting := k.resetting.trans h.resetting
  low := k.low.trans h.low
  asked hs ha := k.asked (h.resetting.mpr hs) (h.asked hs ha)

/-- What a happening's last part keeps, after what the parts before it keep. -/
theorem after {s t u : State} (k : KeepsLimits t u) (h : KeepsLimits s t) : KeepsLimits s u := h.trans k

end KeepsLimits

theorem SavesOk.congr {s t : State} (h : SavesOk s) (ht : t.saveTables = s.saveTables) : SavesOk t := by
  obtain ⟨hcontexts, hallocation⟩ : t.save.contexts = s.save.contexts ∧ t.save.allocation = s.save.allocation :=
    Prod.mk.injEq .. ▸ ht
  have hc : ∀ c, t.context? c = s.context? c := fun c => by rw [State.context?, hcontexts, ← State.context?]
  exact ⟨hallocation ▸ h.nodup, fun c => by rw [hallocation, hc]; exact h.listed c,
    fun c x hx => h.limits c x (hc c ▸ hx)⟩

namespace KeepsLimits

/-- A change of the saves alone. -/
theorem of_saves {s t : State} (hs : SavesOk s → SavesOk t) (hr : t.restore = s.restore) (hm : t.marks = s.marks)
    (hg : t.mgmt = s.mgmt) (hp : t.pins = s.pins) : KeepsLimits s t :=
  ⟨hs, by rw [hr]; exact id, by rw [hg], by rw [hm], by rw [hp], fun _ => by rw [hr]; exact id⟩

/-- A change of neither engine. -/
theorem of_same {s t : State} (hs : t.saveTables = s.saveTables) (hr : t.restore = s.restore) (hm : t.marks = s.marks)
    (hg : t.mgmt = s.mgmt) (hp : t.pins = s.pins) : KeepsLimits s t :=
  .of_saves (·.congr hs) hr hm hg hp

/-- A change of the restore engine, which may hand a walk offset to the management port (R152). -/
theorem of_engine {s t : State} (hs : t.saveTables = s.saveTables) (hm : t.marks = s.marks)
    (hg : t.mgmt.resetPhase = s.mgmt.resetPhase) (hp : t.pins = s.pins)
    (ho : t.restore.outstanding ≤ s.restore.outstanding) (ha : EndAsked s.restore → EndAsked t.restore) :
    KeepsLimits s t :=
  ⟨(·.congr hs), ho.trans, hg, by rw [hm], by rw [hp], fun _ => ha⟩

/-- A change of the mark controller outside RESETTING. -/
theorem of_marks {s t : State} (hs : t.saveTables = s.saveTables) (hr : t.restore = s.restore) (hg : t.mgmt = s.mgmt)
    (hp : t.pins = s.pins) (h₁ : s.marks.state ≠ .resetting) (h₂ : t.marks.state ≠ .resetting) : KeepsLimits s t :=
  ⟨(·.congr hs), by rw [hr]; exact id, by rw [hg], iff_of_false h₂ h₁, by rw [hp], fun h => absurd h h₁⟩

end KeepsLimits

/-! ### Walks (R128 to R140) -/

/-- R128: an engine in IDLE meets every request. -/
theorem endAsked_toIdle (e : RestoreEngine) : EndAsked e.toIdle := absurd rfl

/-- A change of the restore engine alone, which neither begins a walk nor adds a request. -/
theorem KeepsLimits.of_walk {s t : State} (ht : t = s.setRestore t.restore)
    (ho : t.restore.outstanding ≤ s.restore.outstanding) (ha : EndAsked s.restore → EndAsked t.restore) :
    KeepsLimits s t :=
  .of_engine (by rw [ht]; rfl) (by rw [ht]; rfl) (by rw [ht]; rfl) (by rw [ht]; rfl) ho ha

theorem keepsLimits_endByRequest (h : Happening) : KeepsLimits h.state h.endByRequest.state := by
  unfold Happening.endByRequest
  split
  · exact .refl _
  · exact .of_walk rfl (Nat.le_refl _) fun _ => endAsked_toIdle _
  · exact .of_walk rfl (Nat.le_refl _) fun _ => endAsked_toIdle _
  · exact .of_engine rfl rfl rfl rfl (Nat.le_refl _) fun _ => endAsked_toIdle _

theorem keepsLimits_stopWalk (h : Happening) : KeepsLimits h.state h.stopWalk.state := by
  refine KeepsLimits.trans ?_ (keepsLimits_endByRequest _)
  exact .of_walk rfl (Nat.le_refl _) id

theorem keepsLimits_boundaryTest (h : Happening) : KeepsLimits h.state h.boundaryTest.state := by
  unfold Happening.boundaryTest
  dsimp only
  (repeat' split)
  · exact keepsLimits_endByRequest h
  · exact keepsLimits_stopWalk h
  · exact keepsLimits_stopWalk h
  · exact keepsLimits_endByRequest h
  · exact .of_walk rfl (Nat.le_refl _) id

/-- R129: a walk begins outside RESETTING, with no request outstanding. -/
theorem keepsLimits_beginWalk {h : Happening} (hs : h.state.marks.state ≠ .resetting) (state : EngineState)
    (origin : Origin) (k : Nat) (m : MarkRecord) : KeepsLimits h.state (h.beginWalk state origin k m).state := by
  refine KeepsLimits.trans ?_ (keepsLimits_boundaryTest _)
  exact ⟨(·.congr rfl), fun _ => Nat.zero_le _, rfl, Iff.rfl, rfl, fun hr => absurd hr hs⟩

theorem keepsLimits_finishRecord (h : Happening) (r : CurrentRecord) (how : RecordEnd) :
    KeepsLimits h.state (h.finishRecord r how).state := by
  refine KeepsLimits.trans ?_ (keepsLimits_boundaryTest _)
  exact .of_walk rfl (Nat.le_refl _) id

theorem keepsLimits_headerArrived (h : Happening) (bytes : Line) :
    KeepsLimits h.state (h.headerArrived bytes).state := by
  unfold Happening.headerArrived
  split
  · exact keepsLimits_stopWalk h
  · split
    · exact keepsLimits_finishRecord h _ _
    · exact .of_walk rfl (Nat.le_refl _) id

theorem keepsLimits_checkData (h : Happening) (r : CurrentRecord) : KeepsLimits h.state (h.checkData r).state := by
  unfold Happening.checkData
  dsimp only
  (repeat' split)
  · exact .of_walk rfl (Nat.le_refl _) id
  · exact keepsLimits_finishRecord h _ _
  · exact keepsLimits_finishRecord h _ _

theorem keepsLimits_restored (h : Happening) (r : CurrentRecord) : KeepsLimits h.state (h.restored r).state := by
  refine KeepsLimits.trans ?_ (keepsLimits_finishRecord _ r .good)
  exact .of_same rfl rfl rfl rfl rfl

theorem keepsLimits_recordRequestEnded (h : Happening) (r : CurrentRecord) (line : Nat) (isRead : Bool)
    (result : Result) : KeepsLimits h.state (h.recordRequestEnded r line isRead result).state := by
  unfold Happening.recordRequestEnded
  dsimp only
  generalize hh : h.step _ = h₁
  have k₁ : KeepsLimits h.state h₁.state := by subst hh; exact .of_walk rfl (Nat.le_refl _) id
  (repeat' split)
  · exact k₁.trans (keepsLimits_finishRecord h₁ _ _)
  · exact k₁
  · exact k₁.trans (keepsLimits_checkData h₁ _)
  · exact k₁.trans (keepsLimits_restored h₁ _)
  · exact k₁

/-- R118, R123: the end of a request of the restore engine. -/
theorem keepsLimits_restoreResult (h : Happening) (step : RestoreStep) (result : Result) :
    KeepsLimits h.state (h.restoreResult step result).state := by
  unfold Happening.restoreResult
  dsimp only
  generalize hh : h.step _ = h₁
  have k₁ : KeepsLimits h.state h₁.state := by subst hh; exact .of_walk rfl (Nat.sub_le _ _) id
  (repeat' split)
  · exact k₁.trans (keepsLimits_headerArrived h₁ _)
  · exact k₁.trans (keepsLimits_stopWalk h₁)
  · exact k₁.trans (keepsLimits_recordRequestEnded h₁ _ _ _ _)
  · exact k₁.trans (keepsLimits_recordRequestEnded h₁ _ _ _ _)
  · exact k₁

/-- R151 to R153: an end request is set, and ends the walk at once where the record step allows it. -/
theorem keepsLimits_requestEnd (h : Happening) {request : EndRequest} (hr : request ≠ .noRequest) :
    KeepsLimits h.state (h.requestEnd request).state := by
  have k₁ : KeepsLimits h.state (h.state.updateEngine fun e => { e with endRequest := request }) :=
    .of_walk rfl (Nat.le_refl _) fun _ _ => hr
  unfold Happening.requestEnd
  dsimp only
  split
  · exact (keepsLimits_endByRequest _).after k₁
  · exact k₁

theorem keepsLimits_abandonCheck (h : Happening) : KeepsLimits h.state h.abandonCheck.state := by
  unfold Happening.abandonCheck
  split
  · exact keepsLimits_requestEnd h (by decide)
  · exact .refl _

theorem keepsLimits_slotFreed (s : State) : KeepsLimits s s.slotFreed := by
  unfold State.slotFreed
  split
  · exact .of_walk rfl (Nat.le_refl _) id
  · exact .refl _

theorem keepsLimits_freeReportFirst (s : State) (x : SaveContext) : KeepsLimits s (s.freeReportFirst x) := by
  have k₁ : KeepsLimits s s.nextChoice.2 := .of_same rfl rfl rfl rfl rfl
  unfold State.freeReportFirst
  dsimp only
  (repeat' split)
  · exact k₁
  · exact k₁.trans (.of_walk rfl (Nat.le_refl _) fun _ _ => by simp [State.updateEngine])
  · exact .refl _

/-! ### The mark controller (R11 to R25) -/

theorem keepsLimits_reclassifyAll (s : State) : KeepsLimits s s.reclassifyAll :=
  .of_same (by simp) (by simp) (by simp) (by simp) (by simp)

theorem keepsLimits_startDrain {s : State} (hs : s.marks.state ≠ .resetting) (action : PendingAction) :
    KeepsLimits s (s.startDrain action) :=
  .of_marks rfl rfl rfl rfl hs (fun h => by cases h)

theorem keepsLimits_setLatch (s : State) (latch : Bool) :
    KeepsLimits s (s.updateMarks fun m => { m with latch := latch }) :=
  ⟨(·.congr rfl), id, rfl, Iff.rfl, rfl, fun _ => id⟩

/-- R24: one line request. -/
theorem keepsLimits_lineRequest (h : Happening) : KeepsLimits h.state h.lineRequest.state := by
  by_cases hready : Ready h.state
  case neg => rw [lineRequest_of_not_ready hready]; exact .refl _
  cases he : h.state.mgmt.lineRollback.enable with
  | false => rw [lineRequest_of_disabled hready he]; exact .refl _
  | true =>
    cases hs : h.state.marks.state with
    | starting => exact absurd hs hready.1
    | resetting => exact absurd hs hready.2
    | idle => rw [lineRequest_of_idle he hs]; exact .refl _
    | broken => rw [lineRequest_of_broken he hs]; exact .refl _
    | draining => rw [lineRequest_of_busy he (.inl hs)]; exact keepsLimits_setLatch _ _
    | rollingBack => rw [lineRequest_of_busy he (.inr hs)]; exact keepsLimits_setLatch _ _
    | opened =>
      by_cases hl : h.state.level < h.state.mgmt.lineRollback.target
      · rw [lineRequest_of_low_level he hs hl]
        exact .refl _
      · rw [lineRequest_of_opened he hs (Nat.not_lt.mp hl)]
        exact (keepsLimits_abandonCheck _).after (keepsLimits_startDrain hready.2 _)

/-- R17, R25: the latch is evaluated. -/
theorem keepsLimits_evaluateLatch (h : Happening) : KeepsLimits h.state h.evaluateLatch.state := by
  unfold Happening.evaluateLatch
  (repeat' split)
  · exact (keepsLimits_lineRequest _).after (keepsLimits_setLatch h.state false)
  · exact keepsLimits_setLatch h.state false
  · exact keepsLimits_setLatch h.state false
  · exact .refl _
  · exact .refl _

/-- R17: the two steps after a mark action. -/
theorem keepsLimits_settle (h : Happening) : KeepsLimits h.state h.settle.state := by
  refine KeepsLimits.trans ?_ (keepsLimits_evaluateLatch _)
  exact keepsLimits_reclassifyAll h.state

/-- R19, R20: the controller enters BROKEN. -/
theorem keepsLimits_enterBroken {s : State} (hs : s.marks.state ≠ .resetting) (reason : BrokenReason) :
    KeepsLimits s (s.enterBroken reason) :=
  .of_marks rfl rfl rfl rfl hs (fun h => by cases h)

/-- R20, R21: a break report. -/
theorem keepsLimits_breakReport (h : Happening) (reason : BrokenReason) :
    KeepsLimits h.state (h.breakReport reason).state := by
  unfold Happening.breakReport
  dsimp only
  split
  · rename_i hs
    exact (keepsLimits_abandonCheck _).after (keepsLimits_enterBroken (by simp [hs]) reason)
  · rename_i hs
    have hb : KeepsLimits h.state (h.state.enterBroken reason) := keepsLimits_enterBroken (by simp [hs]) reason
    refine KeepsLimits.trans ?_ ((keepsLimits_abandonCheck _).trans (keepsLimits_settle _))
    cases h.state.marks.action.dropped with
    | none => split; exacts [hb.trans (keepsLimits_setLatch _ _), hb]
    | some command => split; exacts [hb.trans (keepsLimits_setLatch _ _), hb]
  · exact .refl _

/-! ### Mark actions and outcomes (R13 to R19) -/

theorem not_resetting_of_drained {s : State} (hd : s.drained = true) : s.marks.state ≠ .resetting := by
  rw [draining_of_drained hd]
  decide

theorem keepsLimits_openEffect (h : Happening) : KeepsLimits h.state h.openEffect.state := by
  unfold Happening.openEffect
  (repeat' split)
  · rename_i label _ hd
    have hpushed : KeepsLimits h.state (h.state.pushMark label) :=
      .of_marks rfl rfl rfl rfl (not_resetting_of_drained hd) (fun hs => by cases hs)
    exact (keepsLimits_settle _).after hpushed
  · exact .refl _
  · exact .refl _

theorem keepsLimits_commitMarks {s : State} (hs : s.marks.state ≠ .resetting) : KeepsLimits s s.commitMarks :=
  .of_marks rfl rfl rfl rfl hs (fun h => by cases h)

theorem keepsLimits_popMark {s : State} (hs : s.marks.state ≠ .resetting) : KeepsLimits s s.popMark :=
  .of_marks rfl rfl rfl rfl hs (fun h => by cases h)

theorem keepsLimits_releaseEffect (h : Happening) : KeepsLimits h.state h.releaseEffect.state := by
  unfold Happening.releaseEffect
  split
  · split
    · rename_i hd
      refine KeepsLimits.trans ?_ (keepsLimits_settle _)
      rw [Happening.step_state]
      split
      · exact keepsLimits_popMark (not_resetting_of_drained hd)
      · exact keepsLimits_commitMarks (not_resetting_of_drained hd)
    · exact .refl _
  · exact .refl _

theorem keepsLimits_commitEffect (h : Happening) : KeepsLimits h.state h.commitEffect.state := by
  unfold Happening.commitEffect
  (repeat' split)
  · rename_i hd
    exact (keepsLimits_settle _).after (keepsLimits_commitMarks (not_resetting_of_drained hd))
  · exact .refl _
  · exact .refl _

theorem keepsLimits_rollbackEffect (h : Happening) : KeepsLimits h.state h.rollbackEffect.state := by
  unfold Happening.rollbackEffect
  (repeat' split)
  · rename_i k origin _ _ _ m hd _
    have hrolling : KeepsLimits h.state (h.state.updateMarks fun m =>
        { m with action := .noAction, state := .rollingBack }).clearPreDrain :=
      .of_marks rfl rfl rfl rfl (not_resetting_of_drained hd) (fun hs => by cases hs)
    exact (keepsLimits_beginWalk (fun hs => by cases hs) .restoring origin k m).after hrolling
  · exact .refl _
  · exact .refl _

theorem keepsLimits_rollbackDone {h : Happening} (hs : h.state.marks.state ≠ .resetting) (o : WalkOutcome)
    (m : MarkRecord) : KeepsLimits h.state (h.rollbackDone o m).state :=
  (keepsLimits_settle _).after (.of_marks rfl rfl rfl rfl hs (fun h => by cases h))

theorem keepsLimits_rollbackIncomplete {h : Happening} (hs : h.state.marks.state ≠ .resetting) (o : WalkOutcome) :
    KeepsLimits h.state (h.rollbackIncomplete o).state :=
  (keepsLimits_settle _).after (keepsLimits_enterBroken hs _)

theorem rollingBack_of_outcomeReady {s : State} (h : s.outcomeReady = true) : s.marks.state = .rollingBack := by
  simp only [State.outcomeReady, Bool.and_eq_true, beq_iff_eq] at h
  exact h.1.1

theorem keepsLimits_takeOutcome (h : Happening) : KeepsLimits h.state h.takeOutcome.state := by
  unfold Happening.takeOutcome
  split
  · rename_i hready
    have hs : h.state.marks.state ≠ .resetting := by rw [rollingBack_of_outcomeReady hready]; decide
    have hidle : KeepsLimits h.state (h.state.updateEngine RestoreEngine.toIdle) :=
      .of_walk rfl (Nat.le_refl _) fun _ => endAsked_toIdle _
    dsimp only
    (repeat' split)
    · exact (keepsLimits_rollbackDone (by exact hs) _ _).after hidle
    · exact .refl _
    · exact (keepsLimits_rollbackIncomplete (by exact hs) _).after hidle
  · exact .refl _

theorem keepsLimits_endCheck (h : Happening) : KeepsLimits h.state h.endCheck.state := by
  unfold Happening.endCheck
  split
  · exact .of_walk rfl (Nat.le_refl _) fun _ => endAsked_toIdle _
  · exact .refl _

/-! ### Saves (R64 to R76) -/

/-- A busy context takes new values within the limits, and stays busy. -/
theorem keepsLimits_putContext {s : State} {c : ContextNo} {x y : SaveContext} (hc : s.context? c = some x)
    (hy : y.state ≠ .free) (hl : x.WithinLimits → y.WithinLimits) : KeepsLimits s (s.putContext c y) := by
  refine .of_saves (fun h => ⟨h.nodup, fun d => ?_, fun d z hz => ?_⟩) rfl rfl rfl rfl
  · rw [show (s.putContext c y).save.allocation = s.save.allocation from rfl, h.listed]
    by_cases hd : d = c
    · subst hd
      rw [State.context?_putContext_same, hc, SaveContext.busy?_of_busy hy]
      simp
    · rw [State.context?_putContext_other s hd]
  · by_cases hd : d = c
    · subst hd
      rw [State.context?_putContext_same, SaveContext.busy?_of_busy hy] at hz
      cases hz
      exact hl (h.limits d x hc)
    · rw [State.context?_putContext_other s hd] at hz
      exact h.limits d z hz

/-- A context that shrinks stays busy and within its limits. -/
theorem keepsLimits_shrink {s : State} {c : ContextNo} {x y : SaveContext} (hc : s.context? c = some x)
    (hy : y.state ≠ .free) (hs : x.Shrinks y) : KeepsLimits s (s.putContext c y) :=
  keepsLimits_putContext hc hy (·.shrink hs)

theorem busy_of_context? {s : State} {c : ContextNo} {x : SaveContext} (hc : s.context? c = some x) :
    x.state ≠ .free := (State.context?_eq_some.mp hc).1

/-- R72, R74, R75: a context becomes FREE and leaves the allocation order. -/
theorem keepsLimits_freeContext (s : State) (c : ContextNo) : KeepsLimits s (s.freeContext c) := by
  unfold State.freeContext
  refine KeepsLimits.trans ?_ (keepsLimits_slotFreed _)
  let f : State := (s.putContext c SaveContext.reset).setSave { (s.putContext c SaveContext.reset).save with
    allocation := (s.putContext c SaveContext.reset).save.allocation.erase c }
  show KeepsLimits s f
  have hother : ∀ d, d ≠ c → f.context? d = s.context? d := fun d hd => State.context?_putContext_other s hd _
  have hfree : f.context? c = none := (State.context?_putContext_same s c _).trans SaveContext.busy?_reset
  refine .of_saves (fun h => ⟨h.nodup.erase c, fun d => ?_, fun d x hx => ?_⟩) rfl rfl rfl rfl
  · rw [show f.save.allocation = s.save.allocation.erase c from rfl, h.nodup.mem_erase_iff, h.listed]
    by_cases hd : d = c
    · simp [hd, hfree]
    · simp [hd, hother d hd]
  · by_cases hd : d = c
    · rw [hd, hfree] at hx
      cases hx
    · exact h.limits d x (hother d hd ▸ hx)

theorem keepsLimits_release (s : State) (o : Nat) : KeepsLimits s (s.release o) := .of_same rfl rfl rfl rfl rfl

theorem keepsLimits_leave (s : State) (o : Nat) : KeepsLimits s (s.leave o) :=
  .of_same (by simp) (by simp) (by simp) (by simp) (by simp)

theorem keepsLimits_saveCompleted (s : State) (c : ContextNo) (x : SaveContext) :
    KeepsLimits s (s.saveCompleted c x) :=
  KeepsLimits.trans (t := (s.writeMap x.index x.markNumber).countSaveCompleted) (.of_same rfl rfl rfl rfl rfl)
    ((keepsLimits_freeContext _ c).trans (keepsLimits_release _ _))

theorem keepsLimits_answerMemError (s : State) (o : Nat) : KeepsLimits s (s.answerMemError o) := by
  unfold State.answerMemError
  split
  · exact KeepsLimits.trans (t := s.respond _) (.of_same rfl rfl rfl rfl rfl) (keepsLimits_leave _ o)
  · exact .refl _

theorem keepsLimits_voidCompleted (h : Happening) (c : ContextNo) (x : SaveContext) :
    KeepsLimits h.state (h.voidCompleted c x).state := by
  have hfreed : KeepsLimits h.state (h.state.countSaveFailed.freeContext c) :=
    KeepsLimits.trans (t := h.state.countSaveFailed) (.of_same rfl rfl rfl rfl rfl) (keepsLimits_freeContext _ c)
  by_cases hm : h.state.marks.state = .opened ∨ h.state.marks.state = .draining
  · simpa [Happening.voidCompleted, hm] using hfreed.trans (keepsLimits_answerMemError _ x.held)
  · simpa [Happening.voidCompleted, hm] using hfreed.trans (keepsLimits_release _ x.held)

theorem keepsLimits_settleContext (s : State) (c : ContextNo) : KeepsLimits s (s.settleContext c) := by
  unfold State.settleContext
  split
  · exact .refl _
  · rename_i x hx
    (repeat' split)
    · exact .refl _
    · exact (keepsLimits_freeContext s c).trans (keepsLimits_release _ _)
    · exact keepsLimits_shrink hx (by simp) ⟨Nat.zero_le _, rfl, rfl⟩
    · exact .refl _

/-- R75, R76: a record data write or a header write has failed. -/
theorem keepsLimits_logWriteFailed {h : Happening} {c : ContextNo} {x : SaveContext} (hc : h.state.context? c = some x)
    (result : Result) : KeepsLimits h.state (h.logWriteFailed c x result).state := by
  unfold Happening.logWriteFailed
  split
  · exact keepsLimits_settleContext h.state c
  · have hbusy := busy_of_context? hc
    have hfailed : ∀ kind, KeepsLimits h.state (h.state.putContext c { x with error := kind }) := fun kind =>
      keepsLimits_shrink hc hbusy ⟨Nat.le_refl _, rfl, rfl⟩
    exact (keepsLimits_settleContext _ c).after ((keepsLimits_breakReport _ _).after
      ((keepsLimits_freeReportFirst _ x).after (hfailed _)))

/-- R70 to R76: the end of a request of a save. -/
theorem keepsLimits_saveResult (h : Happening) (c : ContextNo) (step : SaveStep) (result : Result) :
    KeepsLimits h.state (h.saveResult c step result).state := by
  unfold Happening.saveResult
  split
  · exact .refl _
  · rename_i x hx
    have hbusy := busy_of_context? hx
    have hsettled := keepsLimits_settleContext h.state c
    split
    · split
      · exact keepsLimits_shrink hx (by simpa using hbusy) (x.shrinks_lineArrived _ _)
      · exact hsettled
    · split
      · exact (keepsLimits_settleContext _ c).after (keepsLimits_shrink hx (by exact hbusy) (x.shrinks_readFailed _))
      · exact hsettled
    · split
      · exact hsettled
      · exact (keepsLimits_shrink hx (SaveContext.lineWritten_busy _ hbusy) (x.shrinks_lineWritten _)).trans
          (keepsLimits_settleContext _ c)
    · split
      · exact keepsLimits_saveCompleted h.state c x
      · exact keepsLimits_voidCompleted h c x
      · exact hsettled
    · exact keepsLimits_logWriteFailed hx _

/-- R68: a FREE context takes a save, with no line in flight, and joins the allocation order. -/
theorem keepsLimits_grantSave (h : Happening) (e : TransitEntry) (w : WindowNo) (i : Nat) (g : Granule)
    {c : ContextNo} (hc : h.state.context? c = none) : KeepsLimits h.state (h.grantSave e w i g c).state := by
  have hsave : (h.grantSave e w i g c).state.saveTables =
      (h.state.save.contexts.set c (h.state.newContext e w i g), h.state.save.allocation ++ [c]) := by
    simp [Happening.grantSave, State.saveTables, State.putContext, State.popWaiting, State.updateEntry,
      State.setEntries]
  obtain ⟨hcontexts, hallocation⟩ := Prod.mk.injEq .. ▸ hsave
  have hsame : ∀ d, (h.grantSave e w i g c).state.context? d =
      (h.state.putContext c (h.state.newContext e w i g)).context? d := fun d => by
    rw [State.context?, hcontexts]
    rfl
  have hbusy : (h.state.newContext e w i g).busy? = some (h.state.newContext e w i g) := rfl
  refine .of_saves (fun ok => ⟨?_, fun d => ?_, fun d x hx => ?_⟩) (by simp) (by simp) (by simp) (by simp)
  · rw [hallocation, List.nodup_append]
    refine ⟨ok.nodup, List.nodup_singleton c, ?_⟩
    rintro d hd _ hm rfl
    obtain rfl := List.mem_singleton.mp hm
    have := (ok.listed d).mp hd
    simp [hc] at this
  · rw [hallocation, hsame, List.mem_append, List.mem_singleton, ok.listed]
    by_cases hd : d = c
    · subst hd
      simp [hbusy]
    · simp [hd, State.context?_putContext_other h.state hd]
  · rw [hsame] at hx
    by_cases hd : d = c
    · subst hd
      rw [State.context?_putContext_same, hbusy] at hx
      cases hx
      exact ⟨Nat.zero_le _, Nat.zero_le _⟩
    · rw [State.context?_putContext_other h.state hd] at hx
      exact ok.limits d x hx

/-- R67: the context of an allocation is FREE. -/
theorem free_of_nextAllocation {s : State} {e : TransitEntry} {w : WindowNo} {i : Nat} {g : Granule} {c : ContextNo}
    (h : s.nextAllocation = some (e, w, i, g, c)) : s.context? c = none := by
  unfold State.nextAllocation at h
  split at h
  · simp only [Option.bind_eq_bind, Option.bind_eq_some_iff] at h
    obtain ⟨o, -, d, -, h⟩ := h
    split at h
    · simp only [Option.bind_eq_some_iff, Option.pure_def, Option.some.injEq, Prod.mk.injEq] at h
      obtain ⟨-, -, d, hd, -, -, -, -, rfl⟩ := h
      exact (State.freeContext?_eq_some hd).1
    · cases h
  · cases h

theorem keepsLimits_allocateSave (h : Happening) : KeepsLimits h.state h.allocateSave.state := by
  unfold Happening.allocateSave
  split
  · exact .refl _
  · rename_i e w i g c ha
    (repeat' split)
    · exact keepsLimits_grantSave h e w i g (free_of_nextAllocation ha)
    · exact (keepsLimits_breakReport _ _).after (.of_same rfl rfl rfl rfl rfl)
    · exact (keepsLimits_leave _ e.order).after (.of_same rfl rfl rfl rfl rfl)

/-! ### The two ports (R85, R116 to R123) -/

theorem keepsLimits_arrive (h : Happening) (r : UpstreamRequest) : KeepsLimits h.state (h.arrive r).state :=
  .of_same (by simp) (by simp) (by simp) (by simp) (by simp)

/-- R116: the engine whose request is issued stays within its limits. -/
theorem keepsLimits_grant (s : State) : KeepsLimits s s.grant := by
  unfold State.grant
  split
  · exact .refl _
  · split
    · rename_i source _ offer t hoffer _
      have hsent : ∀ d l, KeepsLimits s ((s.setDown d).setLinks l) := fun d l => .of_same rfl rfl rfl rfl rfl
      unfold State.issue State.tellIssued
      dsimp only
      split
      · exact (hsent _ _).trans (keepsLimits_leave _ _)
      · obtain ⟨hc, hstep⟩ := State.offer_of_offerOf_save hoffer
        exact (hsent _ _).trans (keepsLimits_putContext hc (by simpa using busy_of_context? hc) (·.issue hstep))
      · rename_i step
        have hroom := RestoreEngine.outstanding_of_offer (State.offer_of_offerOf_restore hoffer)
        refine ⟨(·.congr rfl), fun _ => ?_, rfl, Iff.rfl, rfl, fun _ => ?_⟩
        · cases step <;> exact hroom
        · cases step <;> exact id
    · exact .refl _

theorem keepsLimits_deliverOk (h : Happening) (data : Option (List Byte)) (origin : TagOrigin) :
    KeepsLimits h.state (h.deliverOk data origin).state := by
  cases origin with
  | passThrough requester tag kind windowWrite length => exact .of_same rfl rfl rfl rfl rfl
  | save c step => exact keepsLimits_saveResult h c step _
  | restore step => exact keepsLimits_restoreResult h step _

theorem keepsLimits_deliverFailure (h : Happening) (failure : Result) (origin : TagOrigin) :
    KeepsLimits h.state (h.deliverFailure failure origin).state := by
  cases origin with
  | passThrough requester tag kind windowWrite length => exact .of_same rfl rfl rfl rfl rfl
  | save c step => exact keepsLimits_saveResult h c step _
  | restore step => exact keepsLimits_restoreResult h step _

theorem keepsLimits_setTag (s : State) (t : TagNo) (x : TagEntry) : KeepsLimits s (s.setTag t x) :=
  .of_same rfl rfl rfl rfl rfl

theorem keepsLimits_response (h : Happening) (t : TagNo) (status : LinkStatus) (data : Option (List Byte)) :
    KeepsLimits h.state (h.response t status data).state := by
  unfold Happening.response
  dsimp only
  (repeat' split)
  · exact (keepsLimits_deliverOk _ _ _).after (keepsLimits_setTag h.state t _)
  · exact (keepsLimits_deliverFailure _ _ _).after (keepsLimits_setTag h.state t _)
  · exact keepsLimits_setTag h.state t _
  · exact .refl _

theorem keepsLimits_countResponseTimedOut (s : State) : KeepsLimits s s.countResponseTimedOut :=
  .of_same rfl rfl rfl rfl rfl

theorem keepsLimits_timeOut (h : Happening) (t : TagNo) : KeepsLimits h.state (h.timeOut t).state := by
  unfold Happening.timeOut
  (repeat' split)
  · exact (keepsLimits_countResponseTimedOut _).after
      ((keepsLimits_deliverFailure _ _ _).after (keepsLimits_setTag h.state t _))
  · exact .refl _
  · exact .refl _

/-! ### Happenings and the quiesce (R184 to R188) -/

@[simp] theorem saveTables_happening (s : State) (f : Happening → Happening) :
    (happening s f).saveTables = (f (Happening.start s)).state.saveTables := by
  simp [State.saveTables]

/-- A happening keeps the limits where its steps do. -/
theorem keepsLimits_happening {s : State} {f : Happening → Happening}
    (k : KeepsLimits s (f (Happening.start s)).state) : KeepsLimits s (happening s f) :=
  k.trans (.of_same (by simp) (by simp) (by simp) (by simp) (by simp))

/-- The invariants of the claims in one: the limits, and no quiesce that is due has been left undone (R185). -/
structure EnginesAndPhaseOk (s : State) : Prop where
  limits : LimitsOk s
  notDue : s.quiesceDue = false

theorem enginesDone_congr {s t : State} (hs : t.saveTables = s.saveTables) (hr : t.restore.state = s.restore.state) :
    t.enginesDone = s.enginesDone := by
  have hcontexts : t.save.contexts = s.save.contexts := congrArg Prod.fst hs
  simp [State.enginesDone, State.allContextsFree, hcontexts, hr]

/-- The limits are kept, and in RESETTING no engine ends. -/
theorem EnginesAndPhaseOk.keep {s t : State} (h : EnginesAndPhaseOk s) (k : KeepsLimits s t)
    (hd : s.marks.state = .resetting → t.enginesDone = s.enginesDone) : EnginesAndPhaseOk t := by
  refine ⟨h.limits.keep k, ?_⟩
  by_cases hs : s.marks.state = .resetting
  · have hts := k.resetting.mpr hs
    have hnot := h.notDue
    simp only [State.quiesceDue, hs, hts, hd hs, decide_true, Bool.true_and] at hnot ⊢
    exact hnot
  · exact State.quiesceDue_of_not_resetting (mt k.resetting.mp hs)

/-- A change of neither engine, the mark controller nor the reset phase. -/
theorem EnginesAndPhaseOk.congr {s t : State} (h : EnginesAndPhaseOk s) (hs : t.saveTables = s.saveTables)
    (hr : t.restore = s.restore) (hm : t.marks = s.marks) (hg : t.mgmt.resetPhase = s.mgmt.resetPhase)
    (hp : t.pins.resetLow = s.pins.resetLow) : EnginesAndPhaseOk t :=
  h.keep ⟨(·.congr hs), by rw [hr]; exact id, hg, by rw [hm], hp, fun _ => by rw [hr]; exact id⟩
    fun _ => enginesDone_congr hs (by rw [hr])

/-- A happening that has no part to play in RESETTING. -/
theorem EnginesAndPhaseOk.happening {s : State} (ok : EnginesAndPhaseOk s) {f : Happening → Happening}
    (k : KeepsLimits s (f (Happening.start s)).state)
    (hidle : s.marks.state = .resetting → f (Happening.start s) = Happening.start s) :
    EnginesAndPhaseOk (happening s f) :=
  ok.keep (keepsLimits_happening k) fun hs => by
    rw [happening_of_no_post s f (by rw [hidle hs]; rfl), hidle hs]
    rfl

/-- R188: the reset step leaves both engines idle, outside RESETTING and its phase. -/
theorem enginesAndPhaseOk_quiesceStep (s : State) : EnginesAndPhaseOk s.quiesceStep where
  limits :=
    { saves :=
        { nodup := by simp [SaveEngine.reset]
          listed := fun c => by
            rw [context?_of_contexts_reset (by simp)]
            simp [SaveEngine.reset]
          limits := fun c x hx => by
            rw [context?_of_contexts_reset (by simp)] at hx
            cases hx }
      outstanding := by simp
      phase := by simp [ManagementPort.resetStep, ManagementPort.reset]
      low := by simp
      asked := by simp }
  notDue := State.quiesceDue_of_not_resetting (by simp)

/-- R185: a response or a timeout that ends the second engine completes the quiesce; any other leaves it not due. -/
theorem quiesceDue_of_not_completes {s t : State} (ok : EnginesAndPhaseOk s) (k : KeepsLimits s t)
    (hc : s.completesQuiesce t = false) : t.quiesceDue = false := by
  by_cases hs : s.marks.state = .resetting
  · have hbusy : s.enginesDone = false := by simpa [State.quiesceDue, hs] using ok.notDue
    simpa [State.completesQuiesce, hbusy] using hc
  · exact State.quiesceDue_of_not_resetting (mt k.resetting.mp hs)

theorem EnginesAndPhaseOk.reported {s t : State} (ok : EnginesAndPhaseOk s) (k : KeepsLimits s t) :
    EnginesAndPhaseOk (s.reported t) := by
  unfold State.reported
  split
  · exact enginesAndPhaseOk_quiesceStep t
  · rename_i hc
    exact ⟨ok.limits.keep k, quiesceDue_of_not_completes ok k (Bool.eq_false_iff.mpr hc)⟩

/-- R123: a tag that is not IN_USE does not time out. -/
theorem inUse_of_completesQuiesce {s : State} {tag : TagNo}
    (h : s.completesQuiesce (Machine.happening s fun h => h.timeOut tag) = true) : ∃ r, s.tag tag = .inUse r := by
  cases ht : s.tag tag with
  | inUse r => exact ⟨r, rfl⟩
  | _ =>
    have hsame : (Happening.start s).timeOut tag = Happening.start s := by simp [Happening.timeOut, ht]
    rw [happening_of_no_post s _ (by rw [hsame]; rfl), hsame] at h
    simp only [State.completesQuiesce, State.quiesceDue, Happening.start_state, Bool.and_eq_true,
      Bool.not_eq_true'] at h
    obtain ⟨hnot, -, hdone⟩ := h
    rw [hnot] at hdone
    cases hdone

theorem EnginesAndPhaseOk.timeOutTag {s : State} (ok : EnginesAndPhaseOk s) (tag : TagNo) :
    EnginesAndPhaseOk (s.timeOutTag tag) := by
  have k : KeepsLimits s (Machine.happening s fun h => h.timeOut tag) :=
    keepsLimits_happening (keepsLimits_timeOut (Happening.start s) tag)
  cases hc : s.completesQuiesce (Machine.happening s fun h => h.timeOut tag) with
  | false =>
    rw [State.timeOutTag_of_not_due hc]
    exact ⟨ok.limits.keep k, quiesceDue_of_not_completes ok k hc⟩
  | true =>
    obtain ⟨r, hr⟩ := inUse_of_completesQuiesce hc
    obtain ⟨u, rfl, hu⟩ := State.quiesceAmidTimeout_cases (Machine.happening s fun h => h.timeOut tag)
      (.responseTimeout r.origin.source r.address)
    have hq := enginesAndPhaseOk_quiesceStep ((Machine.happening s fun h => h.timeOut tag).setChoices
      ((Machine.happening s fun h => h.timeOut tag).choices + 1))
    have heq : s.timeOutTag tag = (Machine.happening s fun h => h.timeOut tag).quiesceAmidTimeout
        (.responseTimeout r.origin.source r.address) := by simp [State.timeOutTag, hc, hr]
    rw [heq]
    rcases hu with hu | hu | hu <;> rw [hu]
    · exact hq
    · exact hq.congr (by simp [State.saveTables]) (by simp) (by simp) (by simp) (by simp)
    · exact hq.congr (by simp [State.saveTables]) (by simp) (by simp) (by simp) (by simp)

/-! ### Happenings that RESETTING does not know (R12, R67, R142, R150) -/

theorem drained_of_resetting {s : State} (hs : s.marks.state = .resetting) : s.drained = false :=
  Bool.eq_false_iff.mpr fun hd => not_resetting_of_drained hd hs

theorem openEffect_of_resetting {h : Happening} (hs : h.state.marks.state = .resetting) : h.openEffect = h := by
  simp only [Happening.openEffect, drained_of_resetting hs, Bool.false_eq_true, if_false]
  split <;> rfl

theorem releaseEffect_of_resetting {h : Happening} (hs : h.state.marks.state = .resetting) : h.releaseEffect = h := by
  simp only [Happening.releaseEffect, drained_of_resetting hs, Bool.false_eq_true, if_false]
  split <;> rfl

theorem commitEffect_of_resetting {h : Happening} (hs : h.state.marks.state = .resetting) : h.commitEffect = h := by
  simp only [Happening.commitEffect, drained_of_resetting hs, Bool.false_eq_true, if_false]
  split <;> rfl

theorem rollbackEffect_of_resetting {h : Happening} (hs : h.state.marks.state = .resetting) :
    h.rollbackEffect = h := by
  simp only [Happening.rollbackEffect, drained_of_resetting hs]
  split <;> rfl

theorem takeOutcome_of_resetting {h : Happening} (hs : h.state.marks.state = .resetting) : h.takeOutcome = h := by
  simp [Happening.takeOutcome, State.outcomeReady, hs]

theorem allocateSave_of_resetting {h : Happening} (hs : h.state.marks.state = .resetting) : h.allocateSave = h := by
  simp [Happening.allocateSave, State.nextAllocation, hs]

/-- R150, R153: a check under an end request does not end by itself. -/
theorem endCheck_of_asked {h : Happening} (ha : EndAsked h.state.restore) : h.endCheck = h := by
  unfold Happening.endCheck
  rw [if_neg]
  simp only [State.checkEnded, Bool.and_eq_true, beq_iff_eq]
  rintro ⟨⟨hchecking, -⟩, hnone⟩
  exact ha (by simp [hchecking]) hnone

/-! ### Grants (R116) -/

/-- R116: an issue ends neither engine. -/
theorem enginesDone_grant (s : State) : s.grant.enginesDone = s.enginesDone := by
  unfold State.grant
  split
  · rfl
  · split
    · rename_i offer t hoffer _
      unfold State.issue State.tellIssued
      dsimp only
      split
      · exact (enginesDone_congr (State.saveTables_leave _ _) (by simp)).trans (enginesDone_congr rfl rfl)
      · rename_i c x step
        have hc := (State.offer_of_offerOf_save hoffer).1
        have hbusy : ∀ {u : State} {y}, u.context? c = some y → u.enginesDone = false := fun hy =>
          Bool.eq_false_iff.mpr fun hd => by simp [(State.enginesDone_iff _).mp hd] at hy
        rw [hbusy hc]
        exact hbusy ((State.context?_putContext_same _ c _).trans
          (SaveContext.busy?_of_busy (by simpa using busy_of_context? hc)))
      · rename_i step
        exact enginesDone_congr rfl (by cases step <;> rfl)
    · rfl

/-! ### Owners (R6 to R10, R175, R184) -/

/-- The owner's answer to a frame that passes the tests of R175 keeps the invariants. -/
def KeepsEngines (anyState : Bool) (owner : State → Answer) : Prop :=
  ∀ s, EnginesAndPhaseOk s → Running s → (anyState = false → Ready s) → EnginesAndPhaseOk (owner s).state

theorem enginesAndPhaseOk_takeFrame {s : State} (ok : EnginesAndPhaseOk s) (f : Frame) (identifier expected : Nat)
    {anyState : Bool} {owner : State → Answer} (h : KeepsEngines anyState owner) :
    EnginesAndPhaseOk (takeFrame s f identifier expected anyState owner) := by
  cases hl : s.pins.resetLow with
  | true =>
    rw [takeFrame_ignored s f identifier expected anyState owner (.inl hl)]
    exact ok
  | false =>
    rcases takeFrame_cases s f identifier expected anyState owner with heq | ⟨u, rfl, ⟨status, heq⟩ | ⟨hr, heq⟩⟩
    · rw [heq]
      exact ok
    · rw [heq]
      exact ok.congr rfl rfl rfl rfl rfl
    · rw [heq]
      have hdriven : EnginesAndPhaseOk (s.driveCommandPeriod (f.clocks (identifier + f.payload.length))) :=
        ok.congr rfl rfl rfl rfl rfl
      exact (h _ hdriven hl fun ha => ready_of_notReady (hr ha)).congr rfl rfl rfl rfl rfl

/-- The answer leaves the engines, the mark controller, the reset phase and the pins. -/
def LeavesEngines (s : State) (a : Answer) : Prop :=
  a.state.saveTables = s.saveTables ∧ a.state.restore = s.restore ∧ a.state.marks = s.marks ∧
    a.state.mgmt.resetPhase = s.mgmt.resetPhase ∧ a.state.pins = s.pins

theorem KeepsEngines.of_leaves {anyState : Bool} {owner : State → Answer} (h : ∀ s, LeavesEngines s (owner s)) :
    KeepsEngines anyState owner := by
  intro s ok _ _
  obtain ⟨hs, hr, hm, hg, hp⟩ := h s
  exact ok.congr hs hr hm hg (by rw [hp])

theorem leavesEngines_of_state {s : State} {a : Answer} (h : a.state = s) : LeavesEngines s a := by
  rw [LeavesEngines, h]
  exact ⟨rfl, rfl, rfl, rfl, rfl⟩

/-- R7, R8: a drain begins only where the part is ready, and touches neither engine. -/
theorem KeepsEngines.of_drain {owner : State → Answer} (h : ∀ s, RefusedOrDrains s (owner s)) :
    KeepsEngines false owner := by
  intro s ok _ hr
  rcases h s with heq | ⟨action, heq⟩ <;> rw [heq]
  · exact ok
  · exact ok.keep (keepsLimits_startDrain (hr rfl).2 action) fun hs => absurd hs (hr rfl).2

/-- R9: a check begins outside RESETTING. -/
theorem keepsEngines_checkLog (k : Nat) : KeepsEngines false (answerCheckLog k) := by
  intro s ok _ hr
  unfold answerCheckLog
  (repeat' split) <;> try exact ok
  exact ok.keep (keepsLimits_beginWalk (h := Happening.start s) (hr rfl).2 _ _ _ _) fun hs => absurd hs (hr rfl).2

theorem keepsEngines_discard : KeepsEngines false answerDiscard := by
  intro s ok _ hr
  unfold answerDiscard
  (repeat' split) <;> try exact ok
  exact ok.keep (.of_marks rfl rfl rfl rfl (hr rfl).2 (fun h => by cases h)) fun hs => absurd hs (hr rfl).2

theorem keepsLimits_endWalkForReset (h : Happening) : KeepsLimits h.state h.endWalkForReset.state := by
  unfold Happening.endWalkForReset
  split
  · exact .refl _
  · exact keepsLimits_requestEnd h (by decide)
  · exact keepsLimits_requestEnd h (by decide)

/-- R152, R153: on entry to RESETTING a walk is asked to end, or has ended. -/
theorem endAsked_endWalkForReset {h : Happening} (hs : h.state.marks.state = .resetting) :
    EndAsked h.endWalkForReset.state.restore := by
  have asked : ∀ {request}, request ≠ .noRequest → EndAsked (h.requestEnd request).state.restore := by
    intro request hr
    unfold Happening.requestEnd
    dsimp only
    split
    · exact (keepsLimits_endByRequest _).asked hs fun _ => hr
    · exact fun _ => hr
  unfold Happening.endWalkForReset
  split
  · rename_i hidle
    exact absurd hidle
  · exact asked (by decide)
  · exact asked (by decide)

/-- R185: the quiesce is completed where it is due. -/
theorem LimitsOk.quiesceComplete {s : State} (h : LimitsOk s) : EnginesAndPhaseOk s.quiesceComplete := by
  cases hd : s.quiesceDue with
  | true =>
    rw [State.quiesceComplete_of_due hd]
    exact enginesAndPhaseOk_quiesceStep s
  | false =>
    rw [State.quiesceComplete_of_not_due hd]
    exact ⟨h, hd⟩

/-- R184, R185: SOFT_RESET enters RESETTING and its phase, asks a walk to end, and tests the quiesce once. -/
theorem keepsEngines_softReset : KeepsEngines false answerSoftReset := by
  intro s ok hrun _
  unfold answerSoftReset
  dsimp only
  generalize he : ((s.updateMgmt fun m => { m with resetPhase := .engines }).setMarks
    { s.marks with state := .resetting, action := .noAction, latch := false }).clearMarkNumbers.clearPreDrain = entered
  have hm : entered.marks.state = .resetting := by rw [← he]; rfl
  have k := keepsLimits_endWalkForReset (Happening.start entered)
  have hstopped : LimitsOk (Happening.start entered).endWalkForReset.state :=
    { saves := k.saves (ok.limits.saves.congr (by rw [← he]; rfl))
      outstanding := k.outstanding (by rw [← he]; exact ok.limits.outstanding)
      phase := iff_of_true (k.phase.trans (by rw [← he]; rfl)) (k.resetting.mpr hm)
      low := fun hl => by
        have hlow : s.pins.resetLow = true := by rw [k.low, ← he] at hl; exact hl
        rw [show s.pins.resetLow = false from hrun] at hlow
        cases hlow
      asked := fun _ => endAsked_endWalkForReset hm }
  exact hstopped.quiesceComplete

/-! ### Owners that leave the engines alone (R29 to R33, R47, R57, R60, R162, R183) -/

theorem leavesEngines_writeLogReader (a b c : Nat) (s : State) : LeavesEngines s (answerWriteLogReader a b c s) := by
  unfold answerWriteLogReader
  (repeat' split) <;> exact ⟨rfl, rfl, rfl, rfl, rfl⟩

theorem leavesEngines_writeLogBase (v : Nat) (s : State) : LeavesEngines s (answerWriteLogBase v s) := by
  unfold answerWriteLogBase
  (repeat' split) <;> exact ⟨rfl, rfl, rfl, rfl, rfl⟩

theorem leavesEngines_writeLogSize (v : Nat) (s : State) : LeavesEngines s (answerWriteLogSize v s) := by
  unfold answerWriteLogSize
  (repeat' split) <;> exact ⟨rfl, rfl, rfl, rfl, rfl⟩

theorem leavesEngines_writeLogThreshold (v : Nat) (s : State) : LeavesEngines s (answerWriteLogThreshold v s) := by
  unfold answerWriteLogThreshold
  (repeat' split) <;> exact ⟨rfl, rfl, rfl, rfl, rfl⟩

theorem leavesEngines_writeLogFullPolicy (v : Nat) (s : State) : LeavesEngines s (answerWriteLogFullPolicy v s) := by
  unfold answerWriteLogFullPolicy
  (repeat' split) <;> exact ⟨rfl, rfl, rfl, rfl, rfl⟩

theorem leavesEngines_writePartRequesterId (v : Nat) (s : State) :
    LeavesEngines s (answerWritePartRequesterId v s) := by
  unfold answerWritePartRequesterId
  (repeat' split) <;> exact ⟨rfl, rfl, rfl, rfl, rfl⟩

theorem leavesEngines_writeResponseTimeout (v : Nat) (s : State) :
    LeavesEngines s (answerWriteResponseTimeout v s) := by
  unfold answerWriteResponseTimeout
  (repeat' split) <;> exact ⟨rfl, rfl, rfl, rfl, rfl⟩

theorem leavesEngines_writeNoticeTrigger (v : Nat) (s : State) : LeavesEngines s (answerWriteNoticeTrigger v s) := by
  unfold answerWriteNoticeTrigger
  (repeat' split) <;> exact ⟨rfl, rfl, rfl, rfl, rfl⟩

theorem leavesEngines_writeNoticeQuiet (v : Nat) (s : State) : LeavesEngines s (answerWriteNoticeQuiet v s) := by
  unfold answerWriteNoticeQuiet
  (repeat' split) <;> exact ⟨rfl, rfl, rfl, rfl, rfl⟩

theorem leavesEngines_writeLineRollback (a b : Nat) (s : State) : LeavesEngines s (answerWriteLineRollback a b s) := by
  unfold answerWriteLineRollback
  (repeat' split) <;> exact ⟨rfl, rfl, rfl, rfl, rfl⟩

theorem leavesEngines_readNotice (s : State) : LeavesEngines s (answerReadNotice s) := by
  unfold answerReadNotice
  (repeat' split) <;> exact ⟨rfl, rfl, rfl, rfl, rfl⟩

theorem leavesEngines_setWindow (o : WindowOperands) (s : State) : LeavesEngines s (answerSetWindow o s) := by
  refine withWindow_induction ⟨rfl, rfl, rfl, rfl, rfl⟩ fun w => ?_
  (repeat' split) <;> exact ⟨rfl, rfl, rfl, rfl, rfl⟩

theorem leavesEngines_enableWindow (n : Nat) (s : State) : LeavesEngines s (answerEnableWindow n s) := by
  refine withWindow_induction ⟨rfl, rfl, rfl, rfl, rfl⟩ fun w => ?_
  (repeat' split) <;> exact ⟨rfl, rfl, rfl, rfl, rfl⟩

theorem leavesEngines_disableWindow (n : Nat) (s : State) : LeavesEngines s (answerDisableWindow n s) := by
  refine withWindow_induction ⟨rfl, rfl, rfl, rfl, rfl⟩ fun w => ?_
  (repeat' split) <;> exact ⟨rfl, rfl, rfl, rfl, rfl⟩

/-! ### Rows that are no defined command (R109, R124, R165, R171 to R176) -/

theorem EnginesAndPhaseOk.creditReturned {s : State} (ok : EnginesAndPhaseOk s) :
    EnginesAndPhaseOk s.creditReturned := by
  unfold State.creditReturned
  (repeat' split) <;> exact ok.congr rfl rfl rfl rfl rfl

theorem EnginesAndPhaseOk.expireStale {s : State} (ok : EnginesAndPhaseOk s) (tag : TagNo) :
    EnginesAndPhaseOk (s.expireStale tag) := by
  unfold State.expireStale
  (repeat' split) <;> exact ok.congr rfl rfl rfl rfl rfl

theorem EnginesAndPhaseOk.quietExpiry {s : State} (ok : EnginesAndPhaseOk s) :
    EnginesAndPhaseOk s.quietExpiry := by
  unfold State.quietExpiry
  (repeat' split) <;> exact ok.congr rfl rfl rfl rfl rfl

theorem EnginesAndPhaseOk.replyReady {s : State} (ok : EnginesAndPhaseOk s) :
    EnginesAndPhaseOk s.replyReady := by
  unfold State.replyReady
  (repeat' split) <;> exact ok.congr rfl rfl rfl rfl rfl

theorem EnginesAndPhaseOk.readPeriod {s : State} (ok : EnginesAndPhaseOk s) (clocks : Nat) (beganInReset : Bool) :
    EnginesAndPhaseOk (s.readPeriod clocks beganInReset) := by
  unfold State.readPeriod
  (repeat' split) <;> exact ok.congr rfl rfl rfl rfl rfl

theorem EnginesAndPhaseOk.cutShort {s : State} (ok : EnginesAndPhaseOk s) (p : Period) :
    EnginesAndPhaseOk (s.cutShort p) := by
  unfold State.cutShort
  (repeat' split) <;> exact ok.congr rfl rfl rfl rfl rfl

theorem EnginesAndPhaseOk.unknownCommand {s : State} (ok : EnginesAndPhaseOk s) (f : Frame) :
    EnginesAndPhaseOk (s.unknownCommand f) := by
  unfold State.unknownCommand
  (repeat' split) <;> exact ok.congr rfl rfl rfl rfl rfl

theorem EnginesAndPhaseOk.checkFailed {s : State} (ok : EnginesAndPhaseOk s) (p : Period) :
    EnginesAndPhaseOk (s.checkFailed p) := by
  unfold State.checkFailed
  (repeat' split) <;> exact ok.congr rfl rfl rfl rfl rfl

/-! ### The step -/

theorem enginesAndPhaseOk_running {s : State} (ok : EnginesAndPhaseOk s) {f : State → State}
    (h : EnginesAndPhaseOk (f s)) : EnginesAndPhaseOk (s.running f) := by
  unfold State.running
  split
  · exact ok
  · exact h

/-- R191: power-on reset leaves both engines at their reset values. -/
theorem enginesAndPhaseOk_powerOn (s : State) : EnginesAndPhaseOk s.powerOn := by
  have hreset : EnginesAndPhaseOk State.reset := by
    obtain ⟨hlimits, hdue⟩ := (limitsOk_iff _).mp ⟨enginesOk_reset, resetPhaseOk_reset⟩
    exact ⟨hlimits, hdue⟩
  obtain ⟨⟨hsaves, hout, hphase, -, hasked⟩, hdue⟩ := hreset
  exact ⟨⟨hsaves.congr rfl, hout, hphase, (fun _ hs => by cases hs), hasked⟩, hdue⟩

/-- R191: the end of power-on reset finds the controller outside RESETTING. -/
theorem EnginesAndPhaseOk.powerOnEnd {s : State} (ok : EnginesAndPhaseOk s) : EnginesAndPhaseOk s.powerOnEnd := by
  unfold State.powerOnEnd
  split
  · rename_i hl
    have hs := ok.limits.low hl
    refine ⟨⟨ok.limits.saves.congr rfl, ok.limits.outstanding, ?_, (fun h => by cases h), (fun h => by cases h)⟩,
      State.quiesceDue_of_not_resetting (fun hs => by cases hs)⟩
    exact iff_of_false (mt ok.limits.phase.mp hs) (fun hs => by cases hs)
  · exact ok

theorem EnginesAndPhaseOk.sweepComplete {s : State} (ok : EnginesAndPhaseOk s) : EnginesAndPhaseOk s.sweepComplete := by
  unfold State.sweepComplete
  split
  · rename_i hs
    have hn : s.marks.state ≠ .resetting := by rw [hs]; decide
    exact ok.keep (.of_marks rfl rfl rfl rfl hn (fun h => by cases h)) (absurd · hn)
  · exact ok

theorem EnginesAndPhaseOk.risingEdge {s : State} (ok : EnginesAndPhaseOk s) : EnginesAndPhaseOk s.risingEdge := by
  have hpin : EnginesAndPhaseOk (s.setRollbackReq true) := ok.congr rfl rfl rfl rfl rfl
  unfold State.risingEdge
  (repeat' split)
  · exact ok
  · exact hpin
  · exact hpin.happening (keepsLimits_lineRequest (Happening.start _))
      fun hs => lineRequest_of_not_ready fun hready => hready.2 hs

/-- Every command answers a next state, in which the engines' limits and the reset phase are as they must be. -/
theorem enginesAndPhaseOk_exec {s : State} (ok : EnginesAndPhaseOk s) (c : Instr) :
    ∃ t, exec c s = .next t ∧ EnginesAndPhaseOk t := by
  have start {f : Happening → Happening} (k : ∀ h, KeepsLimits h.state (f h).state)
      (hidle : s.marks.state = .resetting → f (Happening.start s) = Happening.start s) :
      EnginesAndPhaseOk (s.running fun s => happening s f) :=
    enginesAndPhaseOk_running ok (ok.happening (k (Happening.start s)) hidle)
  have frame (f : Frame) {identifier expected : Nat} {anyState : Bool} {owner : State → Answer}
      (h : KeepsEngines anyState owner) : EnginesAndPhaseOk (takeFrame s f identifier expected anyState owner) :=
    enginesAndPhaseOk_takeFrame ok f identifier expected h
  cases c with
  | powerOnReset => exact ⟨_, rfl, enginesAndPhaseOk_powerOn s⟩
  | powerOnResetEnd => exact ⟨_, rfl, ok.powerOnEnd⟩
  | mapSweepComplete => exact ⟨_, rfl, enginesAndPhaseOk_running ok ok.sweepComplete⟩
  | rollbackReqRisingEdge => exact ⟨_, rfl, ok.risingEdge⟩
  | rollbackReqFallingEdge => exact ⟨_, rfl, ok.congr rfl rfl rfl rfl rfl⟩
  | upstreamRequest r =>
    have k : KeepsLimits s (happening s fun h => h.arrive r) :=
      keepsLimits_happening (keepsLimits_arrive (Happening.start s) r)
    exact ⟨_, rfl, enginesAndPhaseOk_running ok (ok.keep k fun _ =>
      enginesDone_congr (by simp) (by simp))⟩
  | saveAllocation => exact ⟨_, rfl, start keepsLimits_allocateSave (allocateSave_of_resetting ·)⟩
  | arbiterGrant =>
    exact ⟨_, rfl, enginesAndPhaseOk_running ok (ok.keep (keepsLimits_grant s) fun _ => enginesDone_grant s)⟩
  | downstreamResponse tag status data =>
    have k : KeepsLimits s (happening s fun h => h.response tag status data) :=
      keepsLimits_happening (keepsLimits_response (Happening.start s) tag status data)
    exact ⟨_, rfl, enginesAndPhaseOk_running ok (ok.reported k)⟩
  | tagTimeout tag => exact ⟨_, rfl, enginesAndPhaseOk_running ok (ok.timeOutTag tag)⟩
  | openTakesEffect => exact ⟨_, rfl, start keepsLimits_openEffect (openEffect_of_resetting ·)⟩
  | releaseTakesEffect => exact ⟨_, rfl, start keepsLimits_releaseEffect (releaseEffect_of_resetting ·)⟩
  | commitTakesEffect => exact ⟨_, rfl, start keepsLimits_commitEffect (commitEffect_of_resetting ·)⟩
  | rollbackTakesEffect => exact ⟨_, rfl, start keepsLimits_rollbackEffect (rollbackEffect_of_resetting ·)⟩
  | rollbackOutcome => exact ⟨_, rfl, start keepsLimits_takeOutcome (takeOutcome_of_resetting ·)⟩
  | checkEnd => exact ⟨_, rfl, start keepsLimits_endCheck fun hs => endCheck_of_asked (ok.limits.asked hs)⟩
  | softResetQuiesceComplete => exact ⟨_, rfl, enginesAndPhaseOk_running ok ok.limits.quiesceComplete⟩
  | writeConfigLogReader f => exact ⟨_, rfl, frame f (.of_leaves (leavesEngines_writeLogReader _ _ _))⟩
  | writeConfigLogBase f => exact ⟨_, rfl, frame f (.of_leaves (leavesEngines_writeLogBase _))⟩
  | writeConfigLogSize f => exact ⟨_, rfl, frame f (.of_leaves (leavesEngines_writeLogSize _))⟩
  | writeConfigLogThreshold f => exact ⟨_, rfl, frame f (.of_leaves (leavesEngines_writeLogThreshold _))⟩
  | writeConfigLogFullPolicy f => exact ⟨_, rfl, frame f (.of_leaves (leavesEngines_writeLogFullPolicy _))⟩
  | writeConfigPartRequesterId f => exact ⟨_, rfl, frame f (.of_leaves (leavesEngines_writePartRequesterId _))⟩
  | writeConfigResponseTimeout f => exact ⟨_, rfl, frame f (.of_leaves (leavesEngines_writeResponseTimeout _))⟩
  | writeConfigNoticeTrigger f => exact ⟨_, rfl, frame f (.of_leaves (leavesEngines_writeNoticeTrigger _))⟩
  | writeConfigNoticeQuiet f => exact ⟨_, rfl, frame f (.of_leaves (leavesEngines_writeNoticeQuiet _))⟩
  | writeConfigLineRollback f => exact ⟨_, rfl, frame f (.of_leaves (leavesEngines_writeLineRollback _ _))⟩
  | setWindow f => exact ⟨_, rfl, frame f (.of_leaves (leavesEngines_setWindow _))⟩
  | enableWindow f => exact ⟨_, rfl, frame f (.of_leaves (leavesEngines_enableWindow _))⟩
  | disableWindow f => exact ⟨_, rfl, frame f (.of_leaves (leavesEngines_disableWindow _))⟩
  | readNotice f => exact ⟨_, rfl, frame f (.of_leaves leavesEngines_readNotice)⟩
  | getStatus f => exact ⟨_, rfl, frame f (.of_leaves (fun _ => ⟨rfl, rfl, rfl, rfl, rfl⟩))⟩
  | clearCounters f => exact ⟨_, rfl, frame f (.of_leaves (fun _ => ⟨rfl, rfl, rfl, rfl, rfl⟩))⟩
  | getMarks f => exact ⟨_, rfl, frame f (.of_leaves fun s => leavesEngines_of_state rfl)⟩
  | readConfig f => exact ⟨_, rfl, frame f (.of_leaves fun s => leavesEngines_of_state rfl)⟩
  | readCounters f => exact ⟨_, rfl, frame f (.of_leaves fun s => leavesEngines_of_state rfl)⟩
  | writeConfigUnknownItem f => exact ⟨_, rfl, frame f (.of_leaves fun s => leavesEngines_of_state rfl)⟩
  | getWindow f => exact ⟨_, rfl, frame f (.of_leaves fun s => leavesEngines_of_state (answerGetWindow_state _ _))⟩
  | readMap f => exact ⟨_, rfl, frame f (.of_leaves fun s => leavesEngines_of_state (answerReadMap_state _ _))⟩
  | openMark f => exact ⟨_, rfl, frame f (.of_drain (refusedOrDrains_openMark _))⟩
  | releaseMark f => exact ⟨_, rfl, frame f (.of_drain refusedOrDrains_releaseMark)⟩
  | commit f => exact ⟨_, rfl, frame f (.of_drain refusedOrDrains_commit)⟩
  | rollback f => exact ⟨_, rfl, frame f (.of_drain (refusedOrDrains_rollback _))⟩
  | checkLog f => exact ⟨_, rfl, frame f (keepsEngines_checkLog _)⟩
  | discard f => exact ⟨_, rfl, frame f keepsEngines_discard⟩
  | softReset f => exact ⟨_, rfl, frame f keepsEngines_softReset⟩
  | downstreamCreditReturn => exact ⟨_, rfl, enginesAndPhaseOk_running ok ok.creditReturned⟩
  | stalePeriodExpiry tag => exact ⟨_, rfl, enginesAndPhaseOk_running ok (ok.expireStale tag)⟩
  | quietTimerExpiry => exact ⟨_, rfl, enginesAndPhaseOk_running ok ok.quietExpiry⟩
  | replyReady => exact ⟨_, rfl, enginesAndPhaseOk_running ok ok.replyReady⟩
  | readPeriod clocks beganInReset => exact ⟨_, rfl, ok.readPeriod clocks beganInReset⟩
  | commandFrameCutShort p => exact ⟨_, rfl, ok.cutShort p⟩
  | unknownCommand code f => exact ⟨_, rfl, ok.unknownCommand f⟩
  | checkFailedFrame p => exact ⟨_, rfl, ok.checkFailed p⟩

/-- Settles O58: every command keeps the limits, and the happening that ends the second engine in RESETTING completes
the quiesce. -/
theorem stepsKeepTheEngineLimits : Obligations.StepsKeepTheEngineLimits := by
  intro s t he hp hstep
  obtain ⟨hlimits, hdue⟩ := (limitsOk_iff s).mp ⟨he, hp⟩
  have ok : EnginesAndPhaseOk s := ⟨hlimits, hdue⟩
  suffices EnginesAndPhaseOk t from (limitsOk_iff t).mpr ⟨this.limits, this.notDue⟩
  unfold step at hstep
  split at hstep
  · cases hstep
    exact ok.congr rfl rfl rfl rfl rfl
  · rename_i c rest _
    have hrest : EnginesAndPhaseOk (s.setPending rest) := ok.congr rfl rfl rfl rfl rfl
    obtain ⟨u, hu, hok⟩ := enginesAndPhaseOk_exec hrest c
    rw [hu] at hstep
    cases hstep
    exact hok

end Sys2Proof.Safety

section
/-! A granted allocation (R67, R68, R56, R60): the reservation with its threshold test, and what it leaves. -/

namespace Sys2Proof.Machine

/-- R60: a reservation for this granule size would carry the tail from below LOG_THRESHOLD to it or past it. -/
def State.crossesThreshold (s : State) (g : Granule) : Bool :=
  s.log.threshold != 0 && s.log.tail < s.log.threshold && s.log.threshold ≤ s.log.tail + (g.bytes + 64)

theorem State.crossesThreshold_iff {s : State} {g : Granule} : s.crossesThreshold g = true ↔
    s.log.threshold ≠ 0 ∧ s.log.tail < s.log.threshold ∧ s.log.threshold ≤ s.log.tail + (g.bytes + 64) := by
  simp [State.crossesThreshold, and_assoc]

/-- The log after a reservation (R56, R60). -/
def State.reserved (s : State) (g : Granule) : State :=
  s.setLog { s.log with
    tail := s.log.tail + (g.bytes + 64)
    nextSequence := s.log.nextSequence + 1
    crossed := s.log.crossed || s.crossesThreshold g }

/-- R60: a reservation is a choice on the threshold test. -/
theorem Happening.reserve_eq (h : Happening) (g : Granule) :
    h.reserve g =
      if h.state.crossesThreshold g && !h.state.log.crossed then
        (h.step fun s => s.setLog { h.state.log with
          tail := h.state.log.tail + (g.bytes + 64)
          nextSequence := h.state.log.nextSequence + 1
          crossed := true }).post .saveLog (.logThreshold (h.state.log.tail + (g.bytes + 64)))
      else h.step fun s => s.setLog { h.state.log with
          tail := h.state.log.tail + (g.bytes + 64)
          nextSequence := h.state.log.nextSequence + 1 } := rfl

/-- R60: the reservation that crosses LOG_THRESHOLD with the flag clear posts the tail after it. -/
theorem Happening.reserve_of_crossing {h : Happening} {g : Granule} (hx : h.state.crossesThreshold g = true)
    (hc : h.state.log.crossed = false) :
    h.reserve g = (h.step fun s => s.reserved g).post .saveLog (.logThreshold (h.state.log.tail + (g.bytes + 64))) := by
  rw [Happening.reserve_eq, if_pos (by simp [hx, hc])]
  simp [Happening.step, State.reserved, hx]

/-- R60: every other reservation posts nothing. -/
theorem Happening.reserve_of_not_crossing {h : Happening} {g : Granule}
    (hx : h.state.crossesThreshold g = false ∨ h.state.log.crossed = true) :
    h.reserve g = h.step fun s => s.reserved g := by
  have hflag : (h.state.log.crossed || h.state.crossesThreshold g) = h.state.log.crossed := by
    rcases hx with hx | hx <;> simp [hx]
  rw [Happening.reserve_eq, if_neg (by rcases hx with hx | hx <;> simp [hx])]
  simp [Happening.step, State.reserved, hflag]

/-- The state after a granted allocation (R56, R68, R95). -/
def State.saveGranted (s : State) (e : TransitEntry) (w : WindowNo) (index : Nat) (g : Granule) (c : ContextNo) :
    State :=
  let s₁ := ((s.reserved g).putContext c (s.newContext e w index g)).popWaiting
  (s₁.setSave { s₁.save with allocation := s₁.save.allocation ++ [c] }).updateEntry e.order
    fun e => { e with hasContext := true }

/-- R67, R56: with room at the tail the next allocation is granted. -/
theorem Happening.allocateSave_of_fits {h : Happening} {e : TransitEntry} {w : WindowNo} {i : Nat} {g : Granule}
    {c : ContextNo} (hn : h.state.nextAllocation = some (e, w, i, g, c))
    (hfits : h.state.log.tail + (g.bytes + 64) ≤ h.state.log.size) : h.allocateSave = h.grantSave e w i g c := by
  have hfit : h.state.logFits g = true := decide_eq_true hfits
  simp [Happening.allocateSave, hn, hfit]

/-- A granted allocation that crosses the threshold is one post over the granted state (R60, R68). -/
theorem Happening.grantSave_of_crossing {h : Happening} {e : TransitEntry} {w : WindowNo} {i : Nat} {g : Granule}
    {c : ContextNo} (hx : h.state.crossesThreshold g = true) (hc : h.state.log.crossed = false) :
    h.grantSave e w i g c =
      (h.step fun s => s.saveGranted e w i g c).post .saveLog (.logThreshold (h.state.log.tail + (g.bytes + 64))) := by
  unfold Happening.grantSave
  rw [Happening.reserve_of_crossing hx hc]
  rfl

/-- Every other granted allocation posts nothing (R60, R68). -/
theorem Happening.grantSave_of_not_crossing {h : Happening} {e : TransitEntry} {w : WindowNo} {i : Nat} {g : Granule}
    {c : ContextNo} (hx : h.state.crossesThreshold g = false ∨ h.state.log.crossed = true) :
    h.grantSave e w i g c = h.step fun s => s.saveGranted e w i g c := by
  unfold Happening.grantSave
  rw [Happening.reserve_of_not_crossing hx]
  rfl

end Sys2Proof.Machine

namespace Sys2Proof.Safety
open Machine

/-- Settles O15: the allocation is granted, and its one possible post is the save log unit's at a level that stays. -/
theorem saveAllocationGranted : Obligations.SaveAllocationGranted := by
  intro s o rest e w i n g c granted hr hs hb hw he hc hm hg hfree hlow hfits hgranted
  obtain ⟨-, rfl⟩ := State.entry?_mem he
  have hn := State.nextAllocation_eq_some hs hb hw he hc hg (State.freeContext?_of_lowest hfree hlow)
  have hstate : s.saveGranted e w i g c = granted := by
    have haddress : (s.window w).granuleAddress i =
        (s.window w).base.toNat + (i - (s.window w).mapOffset) * g.bytes := by
      simp [WindowRecord.granuleAddress, WindowRecord.granuleBytes, hg]
    rw [hgranted]
    simp only [State.saveGranted, State.newContext, State.popWaiting, State.setSave, State.putContext, hm,
      haddress]
    rw [show (s.reserved g).save.waiting = e.order :: rest from hw]
    rfl
  have hgrant : (Happening.start s).allocateSave = (Happening.start s).grantSave e w i g c :=
    Happening.allocateSave_of_fits hn hfits
  constructor
  · intro hzero hbelow hreach hclear
    have hpost := hgrant.trans
      (Happening.grantSave_of_crossing (State.crossesThreshold_iff.mpr ⟨hzero, hbelow, hreach⟩) hclear)
    refine (next_running hr _).trans (congrArg _ ?_)
    rw [happening_of_one_post s _ .saveLog (.logThreshold (s.log.tail + (g.bytes + 64))) (by rw [hpost]; rfl)
      (.inr (by rw [hpost]; rfl)), hpost, ← hstate]
    rfl
  · intro hno
    have hquiet : s.crossesThreshold g = false ∨ s.log.crossed = true := by
      rw [← Bool.not_eq_true, State.crossesThreshold_iff]
      rcases hno with h | h | h | h
      · exact .inl fun hx => hx.1 h
      · exact .inl fun hx => absurd hx.2.1 (Nat.not_lt.mpr h)
      · exact .inl fun hx => absurd hx.2.2 (Nat.not_le.mpr h)
      · exact .inr h
    have hpost := hgrant.trans (Happening.grantSave_of_not_crossing hquiet)
    refine (next_running hr _).trans (congrArg _ ?_)
    rw [happening_of_no_post s _ (by rw [hpost]; rfl), hpost, ← hstate]
    rfl

end Sys2Proof.Safety
end

section
/-! What a grant to the save engine issues (R69, R70, R72, R73, R77, R106, R116), and the header's 64 bytes (R193). -/

namespace Sys2Proof.Machine

/-! ### The ready step of a context (R77) -/

/-- R77: in COPYING the data write of the lowest arrived line comes first. -/
theorem SaveContext.offer_dataWrite {x : SaveContext} {j : Nat} (hs : x.state = .copying) (he : x.error = .noError)
    (hj : x.lineToWrite = some j) : x.offer = some (.dataWrite j) := by
  simp [SaveContext.offer, hs, he, hj]

/-- R69, R77: in COPYING with no line to write, the next granule line is read while there is room for it. -/
theorem SaveContext.offer_granuleRead {x : SaveContext} (hs : x.state = .copying) (he : x.error = .noError)
    (hj : x.lineToWrite = none) (hi : x.linesIssued < x.granule.bytes / 64) (hl : x.lines.length < 4) :
    x.offer = some (.granuleRead x.linesIssued) := by
  simp [SaveContext.offer, hs, he, hj, Granule.lines_eq, hi, hl, Config.linesInFlight]

/-- R72, R73: in FINISHING, and in VOIDING after a failed read, the header is written once. -/
theorem SaveContext.offer_headerWrite {x : SaveContext}
    (h : (x.state = .finishing ∧ x.error = .noError) ∨ (x.state = .voiding ∧ x.error ∈ [.readError, .readTimeout]))
    (hi : x.headerIssued = false) : x.offer = some .headerWrite := by
  simp only [List.mem_cons, List.not_mem_nil, or_false] at h
  rcases h with ⟨hs, he⟩ | ⟨hs, he | he⟩ <;> simp [SaveContext.offer, hs, he, hi]

/-- R77: there is no line to write while no arrived line is unwritten. -/
theorem SaveContext.lineToWrite_eq_none {x : SaveContext}
    (h : ∀ b ∈ x.lines, b.data = none ∨ b.write ≠ .notIssued) : x.lineToWrite = none := by
  have hnone : (x.lines.filterMap fun b =>
      if b.data.isSome && b.write == .notIssued then some b.line else none) = [] := by
    rw [List.filterMap_eq_nil_iff]
    intro b hb
    rcases h b hb with h | h <;> simp [h]
  rw [SaveContext.lineToWrite, hnone]
  rfl

/-! ### The bytes of a record header (R193) -/

/-- A field of zeros is zero byte by byte. -/
theorem byteAt_leBytes_zero (n i : Nat) : byteAt (leBytes n 0) i = 0#8 := by
  induction n generalizing i with
  | zero => rfl
  | succ n ih =>
    cases i with
    | zero => rfl
    | succ i => exact ih i

theorem headerFields_length (x : SaveContext) : (headerFields x).length = 60 := rfl

theorem headerBytes_take (x : SaveContext) : (headerBytes x).take 60 = headerFields x :=
  List.take_left' (headerFields_length x)

/-- R54, R193: the last four bytes are the CRC-32 of those before them. -/
theorem headerBytes_check (x : SaveContext) : leField (headerBytes x) 60 4 = crc32 ((headerBytes x).take 60) := by
  have hlt : crc32 (headerFields x) < 256 ^ 4 := BitVec.isLt _
  have hfield := leField_append (headerFields x) [] 4 (crc32 (headerFields x)) 60 (headerFields_length x)
  rw [List.append_nil] at hfield
  rw [headerBytes_take]
  exact hfield.trans (Nat.mod_eq_of_lt hlt)

/-- A field of a header with the bytes of a number holds that number. -/
theorem leField_of_bytes {bytes : List Byte} {a n v : Nat} (h : (bytes.drop a).take n = leBytes n v) :
    leField bytes a n = v % 256 ^ n := by
  rw [leField, h, leValue_leBytes]

end Sys2Proof.Machine

namespace Sys2Proof.Safety
open Machine

/-- A field of zeros in a layout. -/
theorem zeros_of_bytes {bytes : List Byte} {a n : Nat} (h : (bytes.drop a).take n = leBytes n 0) : Zeros bytes a n := by
  intro i hlow hhigh
  obtain ⟨j, rfl⟩ := Nat.exists_eq_add_of_le hlow
  have hbyte := byteAt_leBytes_zero n j
  rw [← h] at hbyte
  simpa [byteAt, List.getElem?_take, show j < n by omega] using hbyte

/-- R106, R116: a grant to the save engine issues the ready step of the oldest context that has one, and the context
notes it. -/
theorem grant_save {s : State} {older younger : List ContextNo} {c : ContextNo} {x : SaveContext} {t : TagNo}
    {rest : List Source} {step : SaveStep} (h : GrantGoesTo s .save t rest)
    (ha : s.save.allocation = older ++ c :: younger)
    (ho : ∀ d ∈ older, ∀ y, s.context? d = some y → y.offer = none) (hc : s.context? c = some x)
    (hx : x.offer = some step) :
    exec .arbiterGrant s = .next { (issuedAs s .save t (.save c step)
        ⟨t, s.mgmt.partRequesterId, (s.saveRequest x step).2, BitVec.ofNat 40 (s.saveRequest x step).1, 64⟩ rest) with
      save := { s.save with contexts := s.save.contexts.set c (x.issued step) } } :=
  grant_of_goes h (fun hp => by cases hp) (State.offerOf_save ha ho hc hx)

/-- R72, R73, R193: the header field by field. -/
theorem headerBytes_fields (x : SaveContext) :
    (headerBytes x).length = 64 ∧ leField (headerBytes x) 0 4 = 0x7A3D5C11 ∧ byteAt (headerBytes x) 4 = 1#8 ∧
    byteAt (headerBytes x) 5 = (if x.state = .voiding then 2#8 else 1#8) ∧
    byteAt (headerBytes x) 6 = x.granule.code ∧ byteAt (headerBytes x) 7 = BitVec.ofNat 8 x.window.val ∧
    (byteAt (headerBytes x) 8).toNat = x.requester.toNat ∧ byteAt (headerBytes x) 9 = BitVec.ofNat 8 x.level ∧
    Zeros (headerBytes x) 10 2 ∧ leField (headerBytes x) 12 4 = x.markNumber % 2 ^ 32 ∧
    leField (headerBytes x) 16 4 = x.sequence % 2 ^ 32 ∧ leField (headerBytes x) 20 5 = x.granuleAddress.toNat ∧
    Zeros (headerBytes x) 25 3 ∧
    leField (headerBytes x) 28 4 = (if x.state = .voiding then 0 else (~~~x.crc).toNat) ∧
    Zeros (headerBytes x) 32 28 ∧ leField (headerBytes x) 60 4 = crc32 ((headerBytes x).take 60) := by
  have hkind : x.recordKind.code = if x.state = .voiding then 2#8 else 1#8 := by
    unfold SaveContext.recordKind
    split <;> rfl
  have hdata : x.dataCheck % 256 ^ 4 = if x.state = .voiding then 0 else (~~~x.crc).toNat := by
    unfold SaveContext.dataCheck
    split
    · rfl
    · exact mod_eq_of_bits (~~~x.crc) (show 32 ≤ 32 by decide)
  refine ⟨rfl, leField_of_bytes (v := headerMagic) rfl, rfl, hkind, rfl, rfl, ?_, rfl, zeros_of_bytes rfl,
    leField_of_bytes rfl, leField_of_bytes rfl, ?_, zeros_of_bytes rfl, (leField_of_bytes rfl).trans hdata,
    zeros_of_bytes rfl, headerBytes_check x⟩
  · exact (BitVec.toNat_setWidth _ _).trans (mod_eq_of_bits x.requester (show 6 ≤ 8 by decide))
  · exact (leField_of_bytes (v := x.granuleAddress.toNat) rfl).trans
      (mod_eq_of_bits x.granuleAddress (show 40 ≤ 40 by decide))

/-- Settles O21: each case is the ready step of its context, issued. -/
theorem grantIssuesSaveStep : Obligations.GrantIssuesSaveStep := by
  intro s older younger c x t rest h ha ho hc
  have hgrant {step : SaveStep} (hx : x.offer = some step) := grant_save h ha ho hc hx
  refine ⟨fun bs j data f as hs he hlines hlow => ?_, fun hs he hnone hi hl => ?_, fun hstate hi => ?_, ?_⟩
  · have hj : x.lineToWrite = some j := SaveContext.lineToWrite_of_lowest hlines fun b hb => (hlow b hb).2
    have hother : ∀ b ∈ bs ++ as, b.line ≠ (⟨j, some data, .notIssued, f⟩ : LineBuffer).line :=
      fun b hb => (hlow b hb).1
    have hdata : x.dataOf j = data := by
      rw [SaveContext.dataOf, hlines, find_line_mid bs as _ hother]
      rfl
    have hissued : x.issued (.dataWrite j) = { x with lines := bs ++ ⟨j, some data, .issued, f⟩ :: as } := by
      simp only [SaveContext.issued, SaveContext.updateLine]
      rw [hlines, map_line_mid bs as _ _ hother]
    rw [hgrant (SaveContext.offer_dataWrite hs he hj), hissued]
    simp only [State.saveRequest, hdata]
  · rw [hgrant (SaveContext.offer_granuleRead hs he (SaveContext.lineToWrite_eq_none hnone) hi hl)]
    rfl
  · rw [hgrant (SaveContext.offer_headerWrite hstate hi)]
    rfl
  · obtain ⟨hlength, hmagic, hversion, hkind, hgranule, hfields⟩ := headerBytes_fields x
    refine ⟨hlength, hmagic, hversion, hkind, hgranule.trans ?_, hfields⟩
    cases x.granule <;> rfl

end Sys2Proof.Safety
end

section
/-! Responses to requests of the save engine (R118): the result they bring their context, what a FREE report tells the
restore engine (R148), and what the response leaves (R185). -/

namespace Sys2Proof.Machine

/-- R118: the result that a response brings a request of the save engine. -/
def responseResult (data : Option (List Byte)) : LinkStatus → Result
  | .ok => .ok (shapeTo 64 (data.getD []))
  | .error => .error

/-- R118: a response frees its tag and brings the save engine its result. -/
theorem Happening.response_of_save {s : State} {t : TagNo} {r : TagRecord} {c : ContextNo} {step : SaveStep}
    (ht : s.tag t = .inUse r) (ho : r.origin = .save c step) (status : LinkStatus) (data : Option (List Byte)) :
    (Happening.start s).response t status data =
      (⟨s.setTag t .free, []⟩ : Happening).saveResult c step (responseResult data status) := by
  have htag : (Happening.start s).state.tag t = .inUse r := ht
  cases status <;> simp only [Happening.response, htag, ho] <;> rfl

/-- With a context busy, the engines have not both ended (R185). -/
theorem State.enginesDone_of_busy {s : State} {c : ContextNo} {x : SaveContext} (hc : s.context? c = some x) :
    s.enginesDone = false := by
  rw [← Bool.not_eq_true, State.enginesDone_iff]
  rintro ⟨hfree, -⟩
  rw [hfree c] at hc
  cases hc

/-- With a context busy, no quiesce is due (R185). -/
theorem State.quiesceDue_of_busy {s : State} {c : ContextNo} {x : SaveContext} (hc : s.context? c = some x) :
    s.quiesceDue = false := by
  simp [State.quiesceDue, State.enginesDone_of_busy hc]

/-! ### The result in its context (R70 to R76) -/

/-- R72: the SAVED header acknowledged. -/
theorem Happening.saveResult_savedHeader {h : Happening} {c : ContextNo} {x : SaveContext}
    (hc : h.state.context? c = some x) (hs : x.state = .finishing) (he : x.error.isWrite = false) (data : Line) :
    h.saveResult c .headerWrite (.ok data) = h.step fun s => s.saveCompleted c x := by
  simp [Happening.saveResult, hc, hs, he]

/-- R74: the VOID header acknowledged. -/
theorem Happening.saveResult_voidHeader {h : Happening} {c : ContextNo} {x : SaveContext}
    (hc : h.state.context? c = some x) (hs : x.state = .voiding) (he : x.error.isWrite = false) (data : Line) :
    h.saveResult c .headerWrite (.ok data) = h.voidCompleted c x := by
  simp [Happening.saveResult, hc, hs, he]

/-- R76: whatever ends in a context that has failed a log write, the context settles and nothing else changes. -/
theorem Happening.saveResult_of_writeFailed {h : Happening} {c : ContextNo} {x : SaveContext}
    (hc : h.state.context? c = some x) (hw : x.error.isWrite = true) (step : SaveStep) (result : Result) :
    h.saveResult c step result = h.step fun s => s.settleContext c := by
  have hne : x.error ≠ .noError := by
    intro he
    rw [he] at hw
    cases hw
  cases step <;> cases result <;> simp [Happening.saveResult, Happening.logWriteFailed, hc, hw, hne]

/-- R75: a record data write or a header write that fails. -/
theorem Happening.saveResult_logWriteFailed {h : Happening} {c : ContextNo} {x : SaveContext} {step : SaveStep}
    (hc : h.state.context? c = some x) (hs : ∀ j, step ≠ .granuleRead j) :
    h.saveResult c step .error = h.logWriteFailed c x .error := by
  cases step with
  | granuleRead j => exact absurd rfl (hs j)
  | dataWrite j => simp [Happening.saveResult, hc]
  | headerWrite => simp [Happening.saveResult, hc]

/-! ### The FREE report (R148) -/

/-- A context that takes the values of a FREE one is no longer busy; the others stay as they are. -/
theorem State.context?_freed (s : State) (c d : ContextNo) :
    (s.putContext c SaveContext.reset).context? d = if d = c then none else s.context? d := by
  split
  · next h =>
    subst h
    exact (State.context?_putContext_same s d SaveContext.reset).trans rfl
  · next h => exact State.context?_putContext_other s h _

end Sys2Proof.Machine

namespace Sys2Proof.Safety
open Machine

/-- `s` with context `c` FREE, its fields at their reset values (log 10), and the restore engine as given (R72, R74). -/
def withContextFree (s : State) (c : ContextNo) (engine : RestoreEngine) : State :=
  { s with
    save := { s.save with contexts := s.save.contexts.set c SaveContext.reset, allocation := s.save.allocation.erase c }
    restore := engine }

/-- R148: a FREE report moves a check on exactly where it waits for a slot that no other busy context holds. -/
theorem freeContext_of_freeReported {s : State} {c : ContextNo} {engine : RestoreEngine} (h : FreeReported s c engine) :
    s.freeContext c = withContextFree s c engine := by
  let freed : State := (s.putContext c SaveContext.reset).setSave
    { (s.putContext c SaveContext.reset).save with allocation := s.save.allocation.erase c }
  have hbusy : freed.slotBusyAt s.restore.position = true ↔
      ∃ d z, d ≠ c ∧ s.context? d = some z ∧ z.offset + (z.granule.bytes + 64) = s.restore.position := by
    rw [State.slotBusyAt_iff]
    have hctx : ∀ d, freed.context? d = if d = c then none else s.context? d := s.context?_freed c
    constructor
    · rintro ⟨d, z, hz, hend⟩
      rw [hctx] at hz
      split at hz
      · cases hz
      · exact ⟨d, z, ‹_›, hz, hend⟩
    · rintro ⟨d, z, hd, hz, hend⟩
      exact ⟨d, z, by rw [hctx, if_neg hd, hz], hend⟩
  have hengine : freed.restore = s.restore := rfl
  have hfreed : s.freeContext c = freed.slotFreed := rfl
  rw [hfreed, State.slotFreed, hengine]
  rcases h with ⟨rfl, hstays⟩ | ⟨rfl, hcheck, hwait, hclear⟩
  · rw [if_neg]
    · rfl
    · rcases hstays with h | h | h
      · simp [h]
      · simp [h]
      · simp [hbusy.mpr h]
  · rw [if_pos]
    · rfl
    · have hslot : freed.slotBusyAt s.restore.position = false := by
        rw [← Bool.not_eq_true, hbusy]
        rintro ⟨d, z, hd, hz, hend⟩
        exact hclear d z hd hz hend
      simp [hcheck, hwait, hslot]

/-! ### What a response leaves (R118, R185) -/

/-- A response for a busy context is its happening, with the quiesce completed where it is then due. -/
theorem exec_response_of_busy {s : State} {c : ContextNo} {x : SaveContext} (hr : Running s)
    (hc : s.context? c = some x) (t : TagNo) (status : LinkStatus) (data : Option (List Byte)) :
    exec (.downstreamResponse t status data) s =
      .next (happening s fun h => h.response t status data).quiesceComplete := by
  show Host.Outcome.next (s.running _) = _
  rw [running_exec hr, State.reported_of_busy (State.enginesDone_of_busy hc)]

end Sys2Proof.Safety
end

section
/-! The acknowledged header of a save (R72, R74). -/

namespace Sys2Proof.Safety
open Machine

/-- A response for a busy context that leaves `u` before the quiesce is looked at: outside RESETTING it leaves `u`, and
in every controller state what SOFT_RESET_QUIESCE_COMPLETE leaves of `u` (R185). -/
theorem exec_response_reports {s u : State} {c : ContextNo} {x : SaveContext} {t : TagNo} {status : LinkStatus}
    {data : Option (List Byte)} (hr : Running s) (hc : s.context? c = some x)
    (hu : happening s (fun h => h.response t status data) = u) (hpins : u.pins = s.pins)
    (hstate : u.marks.state = s.marks.state) :
    (s.marks.state ≠ .resetting → exec (.downstreamResponse t status data) s = .next u) ∧
    exec (.downstreamResponse t status data) s = exec .softResetQuiesceComplete u := by
  have hexec := exec_response_of_busy hr hc t status data
  rw [hu] at hexec
  have hrun : Running u := (congrArg Pins.resetLow hpins).trans hr
  refine ⟨fun hn => ?_, hexec.trans (congrArg _ (running_exec hrun State.quiesceComplete).symm)⟩
  rw [hexec, State.quiesceComplete_of_not_due (State.quiesceDue_of_not_resetting (hstate ▸ hn))]

/-- R41: setting a map entry gives it its value and leaves every other one. -/
theorem mapRead_mapWrite {map : GranuleMap} (h : mapWf map = true) (i v j : Nat) :
    mapRead (mapWrite map i v) j = if j = i then v else mapRead map j := by
  split
  · next he => rw [he, mapRead_mapWrite_same h]
  · next hne => exact mapRead_mapWrite_other hne v

/-- R72: the acknowledged SAVED header before the quiesce is looked at. -/
theorem happening_savedHeader {s : State} {t : TagNo} {r : TagRecord} {c : ContextNo} {x : SaveContext}
    {engine : RestoreEngine} (ht : s.tag t = .inUse r) (ho : r.origin = .save c .headerWrite)
    (hc : s.context? c = some x) (hs : x.state = .finishing) (he : x.error.isWrite = false)
    (hf : FreeReported s c engine) (data : Option (List Byte)) :
    happening s (fun h => h.response t .ok data) =
      (withContextFree ((s.setTag t .free).writeMap x.index x.markNumber).countSaveCompleted c engine).release
        x.held := by
  have hresponse := (Happening.response_of_save ht ho .ok data).trans
    (Happening.saveResult_savedHeader (h := ⟨s.setTag t .free, []⟩) hc hs he _)
  rw [happening_of_no_post s _ (by rw [hresponse]; rfl), hresponse]
  exact congrArg (State.release · x.held)
    (freeContext_of_freeReported (freeReported_congr (s := s) rfl (fun _ _ => rfl) hf))

/-- What the acknowledged VOID header leaves before its post is taken (R74). -/
def voidEnded (s : State) (c : ContextNo) (x : SaveContext) : State :=
  if s.marks.state = .opened || s.marks.state = .draining then (s.countSaveFailed.freeContext c).answerMemError x.held
  else (s.countSaveFailed.freeContext c).release x.held

theorem freeContext_countSaveFailed {s : State} {c : ContextNo} {engine : RestoreEngine} (h : FreeReported s c engine) :
    s.countSaveFailed.freeContext c = withContextFree s.countSaveFailed c engine :=
  freeContext_of_freeReported (freeReported_congr (s := s) rfl (fun _ _ => rfl) h)

/-- R74, R96: in OPEN and DRAINING the held write is answered MEM_ERROR and leaves. -/
theorem voidEnded_of_open {s : State} {c : ContextNo} {x : SaveContext} {e : TransitEntry} {engine : RestoreEngine}
    (hs : s.marks.state = .opened ∨ s.marks.state = .draining) (he : s.entry? x.held = some e)
    (hf : FreeReported s c engine) :
    voidEnded s c x =
      ((withContextFree s.countSaveFailed c engine).respond (answerTo e.request .memError)).leave x.held := by
  have hentry : (withContextFree s.countSaveFailed c engine).entry? x.held = some e := he
  rw [voidEnded, if_pos (by rcases hs with hs | hs <;> simp [hs]), freeContext_countSaveFailed hf, State.answerMemError,
    hentry]

/-- R74: in BROKEN and RESETTING the held write is made FORWARDABLE. -/
theorem voidEnded_of_closed {s : State} {c : ContextNo} {x : SaveContext} {engine : RestoreEngine}
    (hs : s.marks.state = .broken ∨ s.marks.state = .resetting) (hf : FreeReported s c engine) :
    voidEnded s c x = (withContextFree s.countSaveFailed c engine).release x.held := by
  rw [voidEnded, if_neg (by rcases hs with hs | hs <;> simp [hs]), freeContext_countSaveFailed hf]

/-- R74: the acknowledged VOID header before the quiesce is looked at, its post at a level that stays. -/
theorem happening_voidHeader {s : State} {t : TagNo} {r : TagRecord} {c : ContextNo} {x : SaveContext}
    (ht : s.tag t = .inUse r) (ho : r.origin = .save c .headerWrite) (hc : s.context? c = some x)
    (hs : x.state = .voiding) (he : x.error.isWrite = false) (data : Option (List Byte))
    (hl : (voidEnded (s.setTag t .free) c x).marks = s.marks) :
    happening s (fun h => h.response t .ok data) = takePost (voidEnded (s.setTag t .free) c x)
      (.saveFailed x.window x.requester x.error.saveFailure (s.heldAddress x.held)) s.level := by
  have hlevel : (voidEnded (s.setTag t .free) c x).level = s.level := congrArg (·.stack.length) hl
  have hresponse := (Happening.response_of_save ht ho .ok data).trans
    (Happening.saveResult_voidHeader (h := ⟨s.setTag t .free, []⟩) hc hs he _)
  have hpost := happening_of_one_post s (fun h => h.response t .ok data) .saveEngine
    (.saveFailed x.window x.requester x.error.saveFailure (s.heldAddress x.held)) (by rw [hresponse]; rfl)
    (.inr (by rw [hresponse]; exact hlevel.symm))
  rw [hresponse] at hpost
  exact hpost.trans (congrArg _ hlevel)

/-- Settles O28: the header's response frees the context, and the FREE report can complete the quiesce. -/
theorem acknowledgedHeaderEndsTheSave : Obligations.AcknowledgedHeaderEndsTheSave := by
  refine ⟨fun map i v hwf j => mapRead_mapWrite hwf i v j, ?_⟩
  intro s freed t r c x data released engine becomes hr ht ho hc hfree hfreed hreleased hbecomes
  subst hfreed hreleased hbecomes
  refine ⟨fun hs he => ?_, fun e reason failed hentry hs herror hfailed => ?_⟩
  · exact exec_response_reports hr hc (happening_savedHeader ht ho hc hs (by rw [he]; rfl) hfree data) rfl rfl
  · subst hfailed
    have hwrite : x.error.isWrite = false := by
      rcases herror with ⟨he, -⟩ | ⟨he, -⟩ <;> rw [he] <;> rfl
    have hreason : x.error.saveFailure = reason := by
      rcases herror with ⟨he, hre⟩ | ⟨he, hre⟩ <;> rw [he, hre] <;> rfl
    have haddress : s.heldAddress x.held = e.request.address := by rw [State.heldAddress, hentry]
    have htagFree : FreeReported (s.setTag t .free) c engine := freeReported_congr (s := s) rfl (fun _ _ => rfl) hfree
    have hvoid := happening_voidHeader ht ho hc hs hwrite data
    rw [hreason, haddress] at hvoid
    refine ⟨fun hopen => ?_, fun hclosed => ?_⟩
    · have hended := voidEnded_of_open (s := s.setTag t .free) hopen hentry htagFree
      rw [hended] at hvoid
      exact exec_response_reports hr hc (hvoid (by simp [withContextFree])) (by simp [tagFreed]) (by simp [tagFreed])
    · have hended := voidEnded_of_closed (s := s.setTag t .free) (x := x) hclosed htagFree
      rw [hended] at hvoid
      exact exec_response_reports hr hc (hvoid rfl) (by simp [tagFreed]) (by simp [tagFreed])

end Sys2Proof.Safety
end

section
/-! A log write answered ERROR, and what ends in its context later (R75, R76). -/

namespace Sys2Proof.Safety
open Machine

/-- R118, R185: the result a response brings a busy context, with the posts it makes, is what the response leaves. -/
theorem saveResult_leaves {s : State} {t : TagNo} {r : TagRecord} {c : ContextNo} {x : SaveContext} {step : SaveStep}
    (hr : Running s) (ht : s.tag t = .inUse r) (ho : r.origin = .save c step) (hc : s.context? c = some x)
    (status : LinkStatus) (data : Option (List Byte)) :
    LeavesBreak (ResponseLeaves s t status data)
      ((⟨s.setTag t .free, []⟩ : Happening).saveResult c step (responseResult data status)) := by
  intro own rest hposts hrest
  have hkeeps := keepsLimits_happening (f := fun h => h.response t status data)
    (keepsLimits_response (Happening.start s) t status data)
  refine responseLeaves_of hr (State.enginesDone_of_busy hc) rfl (hkeeps.low.trans hr) (mt hkeeps.resetting.mp) ?_
  rw [happening, Happening.response_of_save ht ho]
  exact finish_together _ own rest s.level (fun p hp => by simp [hrest p hp]) hposts

/-- R73, R75: once tag `t` is FREE, its context has no request outstanding exactly when `t` had its last one. -/
theorem lastRequest_iff {s : State} {t : TagNo} {c : ContextNo} {last : Bool}
    (hlast : last = true ↔ LastRequest s t c) :
    last = true ↔ (s.setTag t .free).outstandingOf c = 0 :=
  hlast.trans (State.outstandingOf_setTag_free s t c).symm

/-- Settles O29: the failure is that of every log write, and a context that has failed one only settles. -/
theorem logWriteErrorBreaksTheMarks : Obligations.LogWriteErrorBreaksTheMarks := by
  intro s t r c x step data last hr ht ho hc hlast
  have hout := lastRequest_iff hlast
  have hleaves := saveResult_leaves hr ht ho hc
  refine ⟨fun hstep herror => ?_, fun herror status engine hfree => ?_⟩
  · have hwrite : x.error.isWrite = false := by
      simp only [List.mem_cons, List.not_mem_nil, or_false] at herror
      rcases herror with he | he | he <;> rw [he] <;> rfl
    have hfailed := hleaves .error data
    rw [responseResult, Happening.saveResult_logWriteFailed (h := ⟨s.setTag t .free, []⟩) hc hstep] at hfailed
    exact logWriteFailed_leaves ⟨s.setTag t .free, []⟩ rfl .error hc hwrite hout hfailed
  · have hwrite : x.error.isWrite = true := by
      simp only [List.mem_cons, List.not_mem_nil, or_false] at herror
      rcases herror with he | he <;> rw [he] <;> rfl
    have hended := hleaves status data
    rw [Happening.saveResult_of_writeFailed (h := ⟨s.setTag t .free, []⟩) hc hwrite] at hended
    have hsettled := settleContext_reported (s := s.setTag t .free) hc hwrite hout fun _ =>
      freeReported_congr (s := s) rfl (fun _ _ => rfl) hfree
    have hnone := hended [] [] rfl (fun p hp => by cases hp)
    rw [Happening.step_state, hsettled] at hnone
    exact hnone

end Sys2Proof.Safety
end

section
/-! How granule lines, data write acknowledgements and failed reads move a context on (R70, R71, R73, R76). -/

namespace Sys2Proof.Machine

/-! ### Lines folded in order (R70) -/

/-- Line buffers of `x` that hold data not yet folded, for the lines from the next one to fold on, in line order. -/
def SaveContext.HoldsRun (x : SaveContext) (run : List LineBuffer) : Prop :=
  ∀ i b, run[i]? = some b → b ∈ x.lines ∧ b.line = x.linesFolded + i ∧ b.data ≠ none ∧ b.folded = false

/-- `x` with a run of lines folded: the CRC goes over their data, and their buffers are marked (R70). -/
def SaveContext.foldedRun (x : SaveContext) (run : List LineBuffer) : SaveContext :=
  { x with
    crc := crc32Fold x.crc (run.flatMap fun b => b.data.getD [])
    linesFolded := x.linesFolded + run.length
    lines := x.lines.map fun b =>
      if x.linesFolded ≤ b.line ∧ b.line < x.linesFolded + run.length then { b with folded := true } else b }

theorem SaveContext.foldedRun_nil (x : SaveContext) : x.foldedRun [] = x := by
  have hnone : ∀ n : Nat, ¬ (x.linesFolded ≤ n ∧ n < x.linesFolded) := fun n h => absurd h.2 (Nat.not_lt.mpr h.1)
  simp [SaveContext.foldedRun, crc32Fold, hnone]

/-- The lines of a run are different buffers, so there are no more of them than the context has. -/
theorem SaveContext.HoldsRun.length_le {x : SaveContext} {run : List LineBuffer} (h : x.HoldsRun run) :
    run.length ≤ x.lines.length := by
  have hnodup : run.Nodup := by
    rw [List.nodup_iff_getElem?_ne_getElem?]
    intro i k hik hk heq
    obtain ⟨b, hb⟩ : ∃ b, run[k]? = some b := ⟨_, List.getElem?_eq_getElem hk⟩
    obtain ⟨-, hi, -⟩ := h i b (heq.trans hb)
    obtain ⟨-, hk, -⟩ := h k b hb
    omega
  refine (List.subperm_of_subset hnodup fun b hb => ?_).length_le
  obtain ⟨i, hi⟩ := List.mem_iff_getElem?.mp hb
  exact (h i b hi).1

/-- A context's buffer for a line is found by the line. -/
theorem find_line_of_nodup {lines : List LineBuffer} {b : LineBuffer} (hn : (lines.map (·.line)).Nodup)
    (hb : b ∈ lines) :
    lines.find? (·.line == b.line) = some b := by
  obtain ⟨bs, as, rfl⟩ := List.append_of_mem hb
  refine find_line_mid bs as b fun a ha heq => ?_
  rw [List.map_append, List.map_cons, List.nodup_middle, List.nodup_cons, ← List.map_append] at hn
  exact hn.1 (heq ▸ List.mem_map_of_mem ha)

/-- R70: the next line, with its data held and not folded, is folded. -/
theorem foldLines_next {x : SaveContext} {b : LineBuffer} {data : Line} (n : Nat)
    (hb : x.lines.find? (·.line == x.linesFolded) = some b) (hd : b.data = some data) (hf : b.folded = false) :
    foldLines (n + 1) x =
      foldLines n ({ x with crc := crc32Fold x.crc data, linesFolded := x.linesFolded + 1 }.updateLine b.line
        fun b => { b with folded := true }) := by
  obtain ⟨line, held, write, folded⟩ := b
  dsimp only at hd hf
  subst hd hf
  simp only [foldLines, hb]

/-- R70: without data for the next line, none is folded. -/
theorem foldLines_of_no_data {x : SaveContext} (n : Nat) (h : ∀ b ∈ x.lines, b.line = x.linesFolded → b.data = none) :
    foldLines n x = x := by
  cases n with
  | zero => rfl
  | succ n =>
    unfold foldLines
    split
    · next line data write hfind =>
      have hline : line = x.linesFolded := by simpa using List.find?_some hfind
      cases h _ (List.mem_of_find?_eq_some hfind) hline
    · rfl

/-- After one line of a run is folded, the rest of it is the run from the next line on. -/
theorem SaveContext.HoldsRun.tail {x : SaveContext} {b : LineBuffer} {run : List LineBuffer}
    (h : x.HoldsRun (b :: run)) (crc : BitVec 32) :
    SaveContext.HoldsRun ({ x with crc := crc, linesFolded := x.linesFolded + 1 }.updateLine b.line
      fun b => { b with folded := true }) run := by
  intro i d hd
  obtain ⟨-, hbline, -⟩ := h 0 b rfl
  obtain ⟨hmem, hline, hdata, hfolded⟩ := h (i + 1) d hd
  have hline' : d.line = x.linesFolded + 1 + i := by omega
  refine ⟨?_, hline', hdata, hfolded⟩
  exact List.mem_map.mpr ⟨d, hmem, if_neg (by omega)⟩

/-- Folding one line and then the rest of a run folds the run. -/
theorem SaveContext.foldedRun_cons {x : SaveContext} {b : LineBuffer} {data : Line} (run : List LineBuffer)
    (hb : b.line = x.linesFolded) (hd : b.data = some data) :
    SaveContext.foldedRun ({ x with crc := crc32Fold x.crc data, linesFolded := x.linesFolded + 1 }.updateLine b.line
      fun b => { b with folded := true }) run = x.foldedRun (b :: run) := by
  have hcrc : crc32Fold (crc32Fold x.crc data) (run.flatMap fun b => b.data.getD []) =
      crc32Fold x.crc ((b :: run).flatMap fun b => b.data.getD []) := by
    rw [List.flatMap_cons, hd, Option.getD_some, crc32Fold, crc32Fold, crc32Fold, List.foldl_append]
  have hlines : ((x.lines.map fun a => if a.line = b.line then { a with folded := true } else a).map fun a =>
        if x.linesFolded + 1 ≤ a.line ∧ a.line < x.linesFolded + 1 + run.length then { a with folded := true } else a) =
      x.lines.map fun a =>
        if x.linesFolded ≤ a.line ∧ a.line < x.linesFolded + (b :: run).length then { a with folded := true }
        else a := by
    rw [List.map_map]
    refine List.map_congr_left fun a _ => ?_
    have hlen : (b :: run).length = run.length + 1 := rfl
    by_cases ha : a.line = b.line
    · have h₁ : x.linesFolded ≤ a.line ∧ a.line < x.linesFolded + (b :: run).length := by omega
      simp only [Function.comp_apply, if_pos ha, if_pos h₁]
      split <;> rfl
    · have h₂ : (x.linesFolded + 1 ≤ a.line ∧ a.line < x.linesFolded + 1 + run.length) ↔
          (x.linesFolded ≤ a.line ∧ a.line < x.linesFolded + (b :: run).length) := by omega
      simp only [Function.comp_apply, if_neg ha, h₂]
  have hnext : x.linesFolded + 1 + run.length = x.linesFolded + (b :: run).length := by
    rw [List.length_cons]
    omega
  simp only [SaveContext.foldedRun, SaveContext.updateLine]
  rw [hcrc, hlines, hnext]

/-- A folded run that begins with `b`, once its acknowledged lines have left flight (R69, R70). -/
theorem SaveContext.retire_foldedRun (x : SaveContext) (b : LineBuffer) (run : List LineBuffer) :
    (x.foldedRun (b :: run)).retire = { x with
      crc := crc32Fold x.crc (b.data.getD [] ++ run.flatMap fun b => b.data.getD [])
      linesFolded := x.linesFolded + 1 + run.length
      lines := (x.lines.map fun a =>
        if x.linesFolded ≤ a.line ∧ a.line ≤ x.linesFolded + run.length then { a with folded := true } else a).filter
          fun a => !(a.write == .acknowledged && a.folded) } := by
  have hnext : x.linesFolded + (b :: run).length = x.linesFolded + 1 + run.length := by
    rw [List.length_cons]
    omega
  have hlast : ∀ n : Nat, n < x.linesFolded + 1 + run.length ↔ n ≤ x.linesFolded + run.length := fun n => by omega
  simp only [SaveContext.foldedRun, SaveContext.retire, List.flatMap_cons, hnext, hlast]

/-- R70: lines are folded in line order for as long as the next one's data is held. -/
theorem foldLines_eq_foldedRun {run : List LineBuffer} {n : Nat} {x : SaveContext} (hfuel : run.length ≤ n)
    (hn : (x.lines.map (·.line)).Nodup) (hrun : x.HoldsRun run)
    (hend : ∀ b ∈ x.lines, b.line = x.linesFolded + run.length → b.data = none) :
    foldLines n x = x.foldedRun run := by
  induction run generalizing n x with
  | nil => rw [x.foldedRun_nil, foldLines_of_no_data n hend]
  | cons b run ih =>
    obtain ⟨hmem, hline, hheld, hfolded⟩ := hrun 0 b rfl
    obtain ⟨data, hdata⟩ := Option.ne_none_iff_exists'.mp hheld
    obtain ⟨m, rfl⟩ : ∃ m, n = m + 1 := ⟨n - 1, by rw [List.length_cons] at hfuel; omega⟩
    have hfind := find_line_of_nodup hn hmem
    rw [hline, Nat.add_zero] at hfind
    rw [foldLines_next m hfind hdata hfolded, ih (Nat.le_of_succ_le_succ hfuel) ?_ (hrun.tail _) ?_,
      SaveContext.foldedRun_cons run hline hdata]
    · have hsame : ((x.lines.map fun a => if a.line = b.line then { a with folded := true } else a).map (·.line)) =
          x.lines.map (·.line) := by
        rw [List.map_map]
        refine List.map_congr_left fun a _ => ?_
        simp only [Function.comp_apply]
        split <;> rfl
      exact hsame ▸ hn
    · intro d hd hdline
      obtain ⟨a, ha, rfl⟩ := List.mem_map.mp hd
      have hlen : (b :: run).length = run.length + 1 := rfl
      have hsame : (if a.line = b.line then { a with folded := true } else a).line = a.line := by split <;> rfl
      have hnext : a.line = x.linesFolded + 1 + run.length := hsame.symm.trans hdline
      have hnone := hend a ha (by omega)
      split <;> exact hnone

end Sys2Proof.Machine

namespace Sys2Proof.Machine

/-! ### A line's data, and its acknowledgement (R69, R70, R71) -/

/-- R69: lines stay in flight while they are not both acknowledged and folded. -/
theorem retire_mid {bs as : List LineBuffer} {b : LineBuffer}
    (h : ∀ a ∈ bs ++ as, a.write = .acknowledged → a.folded = false) :
    (bs ++ b :: as).filter (fun a => !(a.write == .acknowledged && a.folded)) =
      if b.write = .acknowledged ∧ b.folded = true then bs ++ as else bs ++ b :: as := by
  have hstay : ∀ l : List LineBuffer, (∀ a ∈ l, a ∈ bs ++ as) →
      l.filter (fun a => !(a.write == .acknowledged && a.folded)) = l := by
    intro l hl
    refine List.filter_eq_self.mpr fun a ha => ?_
    by_cases hw : a.write = .acknowledged
    · simp [h a (hl a ha) hw]
    · simp [hw]
  rw [List.filter_append, List.filter_cons, hstay bs fun a ha => List.mem_append_left _ ha,
    hstay as fun a ha => List.mem_append_right _ ha]
  by_cases hb : b.write = .acknowledged ∧ b.folded = true
  · simp [hb]
  · rw [if_neg hb, if_pos (by simpa [imp_iff_not_or] using hb)]

/-- R70: the data of a granule line comes into the line's buffer, and lines are folded from it on. -/
theorem SaveContext.lineArrived_eq {x : SaveContext} {bs as : List LineBuffer} {j : Nat} {line : Line}
    (hx : x.lines = bs ++ ⟨j, none, .notIssued, false⟩ :: as) (h : ∀ b ∈ bs ++ as, b.line ≠ j) :
    x.lineArrived j line =
      (foldLines (bs ++ ⟨j, some line, .notIssued, false⟩ :: as).length
        { x with lines := bs ++ ⟨j, some line, .notIssued, false⟩ :: as }).retire := by
  have hline : x.updateLine j (fun b => { b with data := some line }) =
      { x with lines := bs ++ ⟨j, some line, .notIssued, false⟩ :: as } := by
    simp only [SaveContext.updateLine]
    rw [hx, map_line_mid bs as ⟨j, none, .notIssued, false⟩ _ h]
  rw [SaveContext.lineArrived, hline]

/-- R70: a line ahead of a lower one waits in its buffer. -/
theorem SaveContext.lineArrived_of_ahead {x : SaveContext} {bs as : List LineBuffer} {j : Nat} {line : Line}
    (hx : x.lines = bs ++ ⟨j, none, .notIssued, false⟩ :: as)
    (h : ∀ b ∈ bs ++ as, b.line ≠ j ∧ (b.write = .acknowledged → b.folded = false)) (hj : x.linesFolded < j)
    (hlow : ∀ b ∈ bs ++ as, b.line ≠ x.linesFolded ∨ b.data = none) :
    x.lineArrived j line = { x with lines := bs ++ ⟨j, some line, .notIssued, false⟩ :: as } := by
  rw [SaveContext.lineArrived_eq hx fun b hb => (h b hb).1, foldLines_of_no_data]
  · rw [SaveContext.retire, retire_mid fun b hb => (h b hb).2, if_neg (by simp)]
  · intro b hb heq
    rw [List.mem_append, List.mem_cons] at hb
    have hother : b ∈ bs ++ as → b.data = none := fun hb => (hlow b hb).resolve_left fun hne => hne heq
    rcases hb with hb | rfl | hb
    · exact hother (List.mem_append_left _ hb)
    · exact absurd heq (Nat.ne_of_gt hj)
    · exact hother (List.mem_append_right _ hb)

/-- R70: a line that returns in order is folded, and with it the lines that waited for it. -/
theorem SaveContext.lineArrived_of_in_order {x : SaveContext} {bs as waiting : List LineBuffer} {j : Nat} {line : Line}
    (hx : x.lines = bs ++ ⟨j, none, .notIssued, false⟩ :: as) (h : ∀ b ∈ bs ++ as, b.line ≠ j)
    (hj : j = x.linesFolded) (hn : (x.lines.map (·.line)).Nodup)
    (hw : ∀ i b, waiting[i]? = some b → b ∈ bs ++ as ∧ b.line = j + 1 + i ∧ b.data ≠ none ∧ b.folded = false)
    (hend : ∀ b ∈ bs ++ as, b.line = j + 1 + waiting.length → b.data = none) :
    x.lineArrived j line =
      (SaveContext.foldedRun { x with lines := bs ++ ⟨j, some line, .notIssued, false⟩ :: as }
        (⟨j, some line, .notIssued, false⟩ :: waiting)).retire := by
  let arrived : LineBuffer := ⟨j, some line, .notIssued, false⟩
  have hmem {b : LineBuffer} (hb : b ∈ bs ++ as) : b ∈ bs ++ arrived :: as := by
    rw [List.mem_append, List.mem_cons]
    exact (List.mem_append.mp hb).imp_right .inr
  have hrun : SaveContext.HoldsRun { x with lines := bs ++ arrived :: as } (arrived :: waiting) := by
    intro i b hb
    cases i with
    | zero =>
      obtain rfl : arrived = b := Option.some.inj hb
      exact ⟨List.mem_append_right _ (List.mem_cons_self ..), hj, Option.some_ne_none _, rfl⟩
    | succ i =>
      obtain ⟨hb, hline, hdata, hfolded⟩ := hw i b hb
      exact ⟨hmem hb, by dsimp only; omega, hdata, hfolded⟩
  rw [SaveContext.lineArrived_eq hx h, foldLines_eq_foldedRun hrun.length_le ?_ hrun ?_]
  · simpa [hx] using hn
  · intro b hb hline
    have hlen : (arrived :: waiting).length = waiting.length + 1 := rfl
    dsimp only at hb hline
    rw [List.mem_append, List.mem_cons] at hb
    have hother (hb : b ∈ bs ++ as) : b.data = none := hend b hb (by omega)
    rcases hb with hb | rfl | hb
    · exact hother (List.mem_append_left _ hb)
    · exact absurd (show j = x.linesFolded + (arrived :: waiting).length from hline) (by omega)
    · exact hother (List.mem_append_right _ hb)

/-- R71: an acknowledged data write is counted, its line leaves flight once folded, and the last ends the copying. -/
theorem SaveContext.lineWritten_eq {x : SaveContext} {bs as : List LineBuffer} {j : Nat} {d : Line} {f : Bool}
    (hx : x.lines = bs ++ ⟨j, some d, .issued, f⟩ :: as)
    (h : ∀ b ∈ bs ++ as, b.line ≠ j ∧ (b.write = .acknowledged → b.folded = false)) (hs : x.state = .copying) :
    x.lineWritten j = { x with
      linesAcknowledged := x.linesAcknowledged + 1
      lines := if f then bs ++ as else bs ++ ⟨j, some d, .acknowledged, false⟩ :: as
      state := if x.error = .noError ∧ x.linesAcknowledged + 1 = x.granule.bytes / 64 then .finishing
        else .copying } := by
  have hlines : ((x.lines.map fun b => if b.line = j then { b with write := .acknowledged } else b).filter
      fun b => !(b.write == .acknowledged && b.folded)) =
        if f then bs ++ as else bs ++ ⟨j, some d, .acknowledged, false⟩ :: as := by
    rw [hx, map_line_mid bs as ⟨j, some d, .issued, f⟩ _ fun b hb => (h b hb).1, retire_mid fun b hb => (h b hb).2]
    cases f <;> simp
  simp only [SaveContext.lineWritten, SaveContext.retire, SaveContext.updateLine, hlines, hs, Granule.lines_eq]
  by_cases hlast : x.error = .noError ∧ x.linesAcknowledged + 1 = x.granule.bytes / 64
  · simp [hlast]
  · rw [if_neg hlast, if_neg (by simpa using hlast), ← hs]

/-! ### Settling after a failed read (R73) -/

theorem State.putContext_self {s : State} {c : ContextNo} {x : SaveContext} (hc : s.context? c = some x) :
    s.putContext c x = s := by
  obtain ⟨-, rfl⟩ := State.context?_eq_some.mp hc
  have hset : s.save.contexts.set c s.save.contexts[c] = s.save.contexts := Vector.set_getElem_self _
  rw [State.putContext, hset]
  rfl

theorem State.putContext_putContext (s : State) (c : ContextNo) (x y : SaveContext) :
    (s.putContext c x).putContext c y = s.putContext c y := by
  simp [State.putContext, Vector.set_set]

theorem State.context?_putContext_of_busy {s : State} {c : ContextNo} {x : SaveContext} (hx : x.state ≠ .free) :
    (s.putContext c x).context? c = some x := by
  rw [State.context?_putContext_same, SaveContext.busy?, if_neg hx]

/-- Without a failure there is nothing to settle. -/
theorem State.settleContext_of_noError {s : State} {c : ContextNo} {x : SaveContext} (hc : s.context? c = some x)
    (he : x.error = .noError) : s.settleContext c = s := by
  simp [State.settleContext, hc, he, ErrorKind.isWrite]

/-- R73, R75: a context settles once none of its requests is outstanding. -/
theorem State.settleContext_of_outstanding {s : State} {c : ContextNo} {x : SaveContext} (hc : s.context? c = some x)
    (ho : s.outstandingOf c ≠ 0) : s.settleContext c = s := by
  simp [State.settleContext, hc, ho]

/-- R73: a context that failed a read then begins VOIDING, with no line buffered (log 28). -/
theorem State.settleContext_of_readFailed {s : State} {c : ContextNo} {x : SaveContext} (hc : s.context? c = some x)
    (hs : x.state = .copying) (he : x.error = .readError ∨ x.error = .readTimeout) (ho : s.outstandingOf c = 0) :
    s.settleContext c = s.putContext c { x with state := .voiding, headerIssued := false, lines := [] } := by
  rcases he with he | he <;> simp [State.settleContext, hc, ho, he, hs, ErrorKind.isWrite]

/-! ### The results of reads and data writes (R70, R71, R73, R76) -/

/-- R70: a granule read answered OK. -/
theorem Happening.saveResult_lineArrived {h : Happening} {c : ContextNo} {x : SaveContext}
    (hc : h.state.context? c = some x) (he : x.error = .noError) (j : Nat) (line : Line) :
    h.saveResult c (.granuleRead j) (.ok line) = h.step fun s => s.putContext c (x.lineArrived j line) := by
  simp [Happening.saveResult, hc, he]

/-- R73: the first granule read answered ERROR. -/
theorem Happening.saveResult_readFailed {h : Happening} {c : ContextNo} {x : SaveContext}
    (hc : h.state.context? c = some x) (he : x.error = .noError) (j : Nat) :
    h.saveResult c (.granuleRead j) .error =
      h.step fun s => (s.putContext c (x.readFailed .readError)).settleContext c := by
  simp [Happening.saveResult, hc, he, Happening.step]

/-- R73, R76: a granule read that ends after a failure. -/
theorem Happening.saveResult_readAfterFailure {h : Happening} {c : ContextNo} {x : SaveContext}
    (hc : h.state.context? c = some x) (he : x.error ≠ .noError) (j : Nat) (result : Result) :
    h.saveResult c (.granuleRead j) result = h.step fun s => s.settleContext c := by
  cases result <;> simp [Happening.saveResult, hc, he]

/-- R71: a data write answered OK. -/
theorem Happening.saveResult_lineWritten {h : Happening} {c : ContextNo} {x : SaveContext}
    (hc : h.state.context? c = some x) (he : x.error.isWrite = false) (j : Nat) (data : Line) :
    h.saveResult c (.dataWrite j) (.ok data) =
      h.step fun s => (s.putContext c (x.lineWritten j)).settleContext c := by
  simp [Happening.saveResult, hc, he, Happening.step]

end Sys2Proof.Machine

namespace Sys2Proof.Safety
open Machine

/-- R118, R185: a response that leaves its context busy, posts nothing and changes nothing else. -/
theorem exec_response_progress {s : State} {t : TagNo} {r : TagRecord} {c : ContextNo} {x y : SaveContext}
    {step : SaveStep} {status : LinkStatus} {data : Option (List Byte)} {f : State → State} (hr : Running s)
    (ht : s.tag t = .inUse r)
    (ho : r.origin = .save c step) (hc : s.context? c = some x) (hy : y.state ≠ .free)
    (hresult : (⟨s.setTag t .free, []⟩ : Happening).saveResult c step (responseResult data status) =
      (⟨s.setTag t .free, []⟩ : Happening).step f) (hf : f (s.setTag t .free) = (s.setTag t .free).putContext c y) :
    exec (.downstreamResponse t status data) s =
      .next { (tagFreed s t) with save := { s.save with contexts := s.save.contexts.set c y } } := by
  have hresponse := (Happening.response_of_save ht ho status data).trans hresult
  rw [Happening.step, hf] at hresponse
  rw [exec_response_of_busy hr hc, happening_of_no_post s _ (by rw [hresponse]), hresponse,
    State.quiesceComplete_of_not_due (State.quiesceDue_of_busy (State.context?_putContext_of_busy hy))]
  rfl

/-- R73, R76: a context that failed a read settles, with the last of its requests or before it. -/
theorem settleContext_putContext {s : State} {t : TagNo} {c : ContextNo} {y : SaveContext} (hs : y.state = .copying)
    (he : y.error = .readError ∨ y.error = .readTimeout) :
    (LastRequest s t c → ((s.setTag t .free).putContext c y).settleContext c =
      (s.setTag t .free).putContext c { y with state := .voiding, headerIssued := false, lines := [] }) ∧
    (¬ LastRequest s t c →
      ((s.setTag t .free).putContext c y).settleContext c = (s.setTag t .free).putContext c y) := by
  have hc : ((s.setTag t .free).putContext c y).context? c = some y := State.context?_putContext_of_busy (by simp [hs])
  have hout : ((s.setTag t .free).putContext c y).outstandingOf c = 0 ↔ LastRequest s t c :=
    State.outstandingOf_setTag_free s t c
  refine ⟨fun hlast => ?_, fun hmore => State.settleContext_of_outstanding hc (mt hout.mp hmore)⟩
  rw [State.settleContext_of_readFailed hc hs he (hout.mpr hlast), State.putContext_putContext]

/-- R76: a context that failed a read has failed no log write. -/
theorem isWrite_of_readFailed {kind : ErrorKind} (he : kind = .readError ∨ kind = .readTimeout) :
    kind.isWrite = false ∧ kind ≠ .noError := by
  rcases he with rfl | rfl <;> exact ⟨rfl, by decide⟩

/-- Settles O27: the context's fields after each result, with the context settled where a read has failed. -/
theorem saveContextProgress : Obligations.SaveContextProgress := by
  intro s t r c x step becomes last hr ht ho hc hs hbecomes hlast
  subst hbecomes hlast
  have hcopying : x.state ≠ .free := by simp [hs]
  have hh : (⟨s.setTag t .free, []⟩ : Happening).state.context? c = some x := hc
  refine ⟨?_, ?_, ?_, ?_, ?_⟩
  · rintro he bs j as line rfl hx hb hlen
    have hresult : (⟨s.setTag t .free, []⟩ : Happening).saveResult c (.granuleRead j) (responseResult (some line) .ok) =
        (⟨s.setTag t .free, []⟩ : Happening).step fun s => s.putContext c (x.lineArrived j line) := by
      rw [responseResult, Option.getD_some, shapeTo_of_length hlen, Happening.saveResult_lineArrived hh he]
    refine ⟨fun waiting hj hn hw hend => ?_, fun hj hlow => ?_⟩
    · rw [SaveContext.lineArrived_of_in_order hx (fun b hb' => (hb b hb').1) hj hn hw hend,
        SaveContext.retire_foldedRun] at hresult
      subst hj
      exact exec_response_progress hr ht ho hc hcopying hresult rfl
    · rw [SaveContext.lineArrived_of_ahead hx hb hj hlow] at hresult
      exact exec_response_progress hr ht ho hc hcopying hresult rfl
  · rintro he bs j d f as data rfl hx hb
    have hresult := Happening.saveResult_lineWritten hh (by rw [he]; rfl) j (shapeTo 64 (data.getD []))
    rw [SaveContext.lineWritten_eq hx hb hs] at hresult
    simp only [and_iff_right he] at hresult
    have hbusy : (if x.linesAcknowledged + 1 = x.granule.bytes / 64 then ContextState.finishing else .copying) ≠
        .free := by
      split <;> decide
    exact exec_response_progress hr ht ho hc hbusy hresult
      (State.settleContext_of_noError (State.context?_putContext_of_busy hbusy) he)
  · rintro he j data rfl
    have hresult := Happening.saveResult_readFailed hh he j
    obtain ⟨hsettled, hwaits⟩ := settleContext_putContext (s := s) (t := t) (c := c) (y := x.readFailed .readError) hs
      (.inl rfl)
    refine ⟨fun hl => ?_, fun hl => ?_⟩
    · exact exec_response_progress hr ht ho hc (by simp) hresult (hsettled hl)
    · exact exec_response_progress hr ht ho hc hcopying hresult (hwaits hl)
  · rintro he j status data rfl
    have hresult := Happening.saveResult_readAfterFailure hh (isWrite_of_readFailed he).2 j (responseResult data status)
    obtain ⟨hsettled, hwaits⟩ := settleContext_putContext (s := s) (t := t) (c := c) hs he
    have hself := State.putContext_self (s := s.setTag t .free) hc
    rw [hself] at hsettled hwaits
    refine ⟨fun hl => ?_, fun hl => ?_⟩
    · exact exec_response_progress hr ht ho hc (by simp) hresult (hsettled hl)
    · exact exec_response_progress hr ht ho hc hcopying hresult ((hwaits hl).trans hself.symm)
  · rintro he bs j d f as data rfl hx hb
    have hresult := Happening.saveResult_lineWritten hh (isWrite_of_readFailed he).1 j (shapeTo 64 (data.getD []))
    rw [SaveContext.lineWritten_eq hx hb hs, if_neg fun hcon => (isWrite_of_readFailed he).2 hcon.1] at hresult
    obtain ⟨hsettled, hwaits⟩ := settleContext_putContext (s := s) (t := t) (c := c) (y := { x with
      linesAcknowledged := x.linesAcknowledged + 1
      lines := if f then bs ++ as else bs ++ ⟨j, some d, .acknowledged, false⟩ :: as
      state := .copying }) rfl he
    refine ⟨fun hl => ?_, fun hl => ?_⟩
    · exact exec_response_progress hr ht ho hc (by simp) hresult (hsettled hl)
    · rw [← hs] at hresult hwaits
      exact exec_response_progress hr ht ho hc hcopying hresult (hwaits hl)

end Sys2Proof.Safety
end

section
/-! The two ports (R84, R86, R109, R111, R115): what operations leave of the transit entries and their credits, as a
relation between two states, and how grants, credits, responses and timeouts change the downstream port. -/

namespace Sys2Proof.Safety
open Machine

/-! ### What leaves the buffer (R84, R86, R88) -/

/-- `t` holds the entries of `s` less those that have left, in the same arrival order and with a credit returned for
each; no request has arrived, and the downstream port and RESET_N are as they were. -/
structure KeepsPorts (s t : State) : Prop where
  orders : (t.transit.entries.map (·.order)).Sublist (s.transit.entries.map (·.order))
  credits : t.transit.credits + t.transit.entries.length = s.transit.credits + s.transit.entries.length
  nextOrder : t.transit.nextOrder = s.transit.nextOrder
  down : t.down = s.down
  low : t.pins.resetLow = s.pins.resetLow

namespace KeepsPorts

theorem refl (s : State) : KeepsPorts s s := ⟨List.Sublist.refl _, rfl, rfl, rfl, rfl⟩

theorem trans {s t u : State} (h : KeepsPorts s t) (k : KeepsPorts t u) : KeepsPorts s u where
  orders := k.orders.trans h.orders
  credits := k.credits.trans h.credits
  nextOrder := k.nextOrder.trans h.nextOrder
  down := k.down.trans h.down
  low := k.low.trans h.low

/-- What a happening's last part keeps, after what the parts before it keep. -/
theorem after {s t u : State} (k : KeepsPorts t u) (h : KeepsPorts s t) : KeepsPorts s u := h.trans k

/-- A change of neither port. -/
theorem of_same {s t : State} (ht : t.transit = s.transit) (hd : t.down = s.down) (hp : t.pins = s.pins) :
    KeepsPorts s t := by
  refine ⟨?_, ?_, ?_, hd, ?_⟩ <;> simp [ht, hp]

end KeepsPorts

/-- R84, R86: fewer entries in the same order, and the credits of those that left. -/
theorem TransitOk.keep {s t : State} (h : TransitOk s) (k : KeepsPorts s t) : TransitOk t := by
  obtain ⟨hlen, hcredits, horder, hnext⟩ := h
  have hle : t.transit.entries.length ≤ s.transit.entries.length := by simpa using k.orders.length_le
  refine ⟨hle.trans hlen, ?_, List.pairwise_map.mp ((List.pairwise_map.mpr horder).sublist k.orders), fun e he => ?_⟩
  · rw [k.low]
    have htotal := k.credits
    split
    · rename_i hl
      rw [if_pos hl] at hcredits
      obtain ⟨hempty, hnone⟩ := hcredits
      rw [hempty] at hle htotal
      exact ⟨List.eq_nil_of_length_eq_zero (Nat.le_zero.mp hle), by simp at htotal; omega⟩
    · rename_i hl
      rw [if_neg hl] at hcredits
      omega
  · obtain ⟨d, hd, horders⟩ := List.mem_map.mp (k.orders.subset (List.mem_map_of_mem he))
    rw [k.nextOrder, ← horders]
    exact hnext d hd

/-! ### The transit buffer (R88 to R105) -/

theorem keepsPorts_updateEntries (s : State) {f : TransitEntry → TransitEntry} (hf : ∀ e, (f e).order = e.order) :
    KeepsPorts s (s.updateEntries f) := by
  have horders : (s.updateEntries f).transit.entries.map (·.order) = s.transit.entries.map (·.order) := by
    simp [State.updateEntries, State.setEntries, hf]
  refine ⟨horders ▸ List.Sublist.refl _, ?_, rfl, rfl, rfl⟩
  rw [← List.length_map (·.order), horders, List.length_map]
  rfl

theorem keepsPorts_updateEntry (s : State) (o : Nat) {f : TransitEntry → TransitEntry}
    (hf : ∀ e, (f e).order = e.order) : KeepsPorts s (s.updateEntry o f) :=
  keepsPorts_updateEntries s (f := fun e => if e.order = o then f e else e) fun e => by
    split
    · exact hf e
    · rfl

theorem keepsPorts_enterWaitSave (s : State) (o : Nat) : KeepsPorts s (s.enterWaitSave o) :=
  (keepsPorts_updateEntry s o (f := fun e => { e with state := .waitSave, hasContext := false }) fun _ => rfl).trans
    (.of_same rfl rfl rfl)

theorem keepsPorts_evaluateHead (s : State) (o : Nat) : KeepsPorts s (s.evaluateHead o) := by
  unfold State.evaluateHead
  split
  · exact .refl s
  · split
    · split
      · exact keepsPorts_enterWaitSave s o
      · exact keepsPorts_updateEntry s o fun _ => rfl
    · exact .refl s

theorem keepsPorts_passTurn (s : State) (i : Nat) : KeepsPorts s (s.passTurn i) := by
  unfold State.passTurn
  split
  · exact .refl s
  · split
    · exact keepsPorts_evaluateHead s _
    · exact .refl s

/-- R88: the entry that leaves returns its credit. -/
theorem keepsPorts_leave (s : State) (o : Nat) : KeepsPorts s (s.leave o) := by
  unfold State.leave
  split
  · exact .refl s
  · rename_i e he
    have hleft : KeepsPorts s (s.setTransit { s.transit with
        entries := s.transit.entries.eraseP (·.order == o), credits := s.transit.credits + 1 }) := by
      refine ⟨List.eraseP_sublist.map _, ?_, rfl, rfl, rfl⟩
      obtain ⟨hmem, horder⟩ := State.entry?_mem he
      have hlen := List.length_eraseP_add_one (p := (·.order == o)) hmem (by simpa using horder)
      simp only [State.setTransit_transit]
      omega
    dsimp only
    split
    · exact hleft.trans (keepsPorts_passTurn _ _)
    · exact hleft

theorem keepsPorts_release (s : State) (o : Nat) : KeepsPorts s (s.release o) :=
  keepsPorts_updateEntry s o fun _ => rfl

theorem keepsPorts_reclassify (s : State) (e : TransitEntry) : KeepsPorts s (s.reclassify e) := by
  unfold State.reclassify
  split
  · have hmarked := keepsPorts_updateEntry s e.order (f := fun e => { e with markNumber := s.classificationMark })
      fun _ => rfl
    dsimp only
    split
    · exact hmarked.trans (keepsPorts_updateEntry _ _ fun _ => rfl)
    · exact hmarked.trans (keepsPorts_evaluateHead _ _)
  · exact .refl s

theorem keepsPorts_reclassifyAll (s : State) : KeepsPorts s s.reclassifyAll := by
  unfold State.reclassifyAll
  generalize List.filter _ s.transit.entries = es
  induction es generalizing s with
  | nil => exact .refl s
  | cons e es ih => exact (keepsPorts_reclassify s e).trans (ih _)

theorem keepsPorts_markPreDrain (s : State) : KeepsPorts s s.markPreDrain := keepsPorts_updateEntries s fun _ => rfl

theorem keepsPorts_clearPreDrain (s : State) : KeepsPorts s s.clearPreDrain := keepsPorts_updateEntries s fun _ => rfl

theorem keepsPorts_clearMarkNumbers (s : State) : KeepsPorts s s.clearMarkNumbers :=
  keepsPorts_updateEntries s fun _ => rfl

theorem keepsPorts_releaseWaiting (s : State) : KeepsPorts s s.releaseWaiting :=
  (keepsPorts_updateEntries s (f := fun e =>
    if e.state = .waitSave && !e.hasContext then { e with state := .forwardable } else e) fun e => by
      split <;> rfl).trans (.of_same rfl rfl rfl)

theorem keepsPorts_releaseStep (s : State) : KeepsPorts s s.releaseStep :=
  (keepsPorts_releaseWaiting s).trans (keepsPorts_reclassifyAll _)

/-! ### The mark controller (R11 to R25) -/

theorem keepsPorts_updateMarks (s : State) (f : MarkController → MarkController) : KeepsPorts s (s.updateMarks f) :=
  .of_same rfl rfl rfl

theorem keepsPorts_startDrain (s : State) (action : PendingAction) : KeepsPorts s (s.startDrain action) :=
  (keepsPorts_updateMarks s _).trans (keepsPorts_markPreDrain _)

theorem keepsPorts_abandonCheck (h : Happening) : KeepsPorts h.state h.abandonCheck.state :=
  .of_same (by simp) (by simp) (by simp)

/-- R24: one line request. -/
theorem keepsPorts_lineRequest (h : Happening) : KeepsPorts h.state h.lineRequest.state := by
  unfold Happening.lineRequest
  dsimp only
  (repeat' split) <;> try exact .refl _
  · exact (keepsPorts_abandonCheck _).after (keepsPorts_startDrain _ _)
  · exact .of_same rfl rfl rfl

/-- R25: the latch is evaluated. -/
theorem keepsPorts_evaluateLatch (h : Happening) : KeepsPorts h.state h.evaluateLatch.state := by
  unfold Happening.evaluateLatch
  (repeat' split) <;> try exact .refl _
  · exact (keepsPorts_lineRequest _).after (.of_same rfl rfl rfl)
  · exact .of_same rfl rfl rfl
  · exact .of_same rfl rfl rfl

/-- R17: the two steps after a mark action. -/
theorem keepsPorts_settle (h : Happening) : KeepsPorts h.state h.settle.state :=
  (keepsPorts_reclassifyAll h.state).trans (keepsPorts_evaluateLatch (h.step State.reclassifyAll))

theorem keepsPorts_enterBroken (s : State) (reason : BrokenReason) : KeepsPorts s (s.enterBroken reason) :=
  (((keepsPorts_updateMarks s _).trans (keepsPorts_clearPreDrain _)).trans (keepsPorts_clearMarkNumbers _)).trans
    (keepsPorts_releaseWaiting _)

/-- R20, R21: a break report. -/
theorem keepsPorts_breakReport (h : Happening) (reason : BrokenReason) :
    KeepsPorts h.state (h.breakReport reason).state := by
  have hbroken := keepsPorts_enterBroken h.state reason
  unfold Happening.breakReport
  dsimp only
  split
  · exact (keepsPorts_abandonCheck _).after hbroken
  · have hunlatched := hbroken.trans (keepsPorts_updateMarks _ fun m => { m with latch := false })
    refine (keepsPorts_settle _).after ((keepsPorts_abandonCheck _).after ?_)
    (repeat' split)
    exacts [hunlatched, hunlatched, hbroken, hbroken]
  · exact .refl _

/-! ### Mark actions and outcomes (R13 to R19) -/

theorem keepsPorts_openEffect (h : Happening) : KeepsPorts h.state h.openEffect.state := by
  unfold Happening.openEffect
  (repeat' split) <;> try exact .refl _
  exact (keepsPorts_settle _).after ((keepsPorts_updateMarks _ _).trans (keepsPorts_clearPreDrain _))

theorem keepsPorts_commitMarks (s : State) : KeepsPorts s s.commitMarks :=
  (keepsPorts_clearPreDrain _).after (.of_same rfl rfl rfl)

theorem keepsPorts_popMark (s : State) : KeepsPorts s s.popMark :=
  (keepsPorts_updateMarks s _).trans (keepsPorts_clearPreDrain _)

theorem keepsPorts_releaseEffect (h : Happening) : KeepsPorts h.state h.releaseEffect.state := by
  unfold Happening.releaseEffect
  (repeat' split) <;> try exact .refl _
  refine (keepsPorts_settle _).after ?_
  rw [Happening.step_state]
  split
  · exact keepsPorts_popMark _
  · exact keepsPorts_commitMarks _

theorem keepsPorts_commitEffect (h : Happening) : KeepsPorts h.state h.commitEffect.state := by
  unfold Happening.commitEffect
  (repeat' split) <;> try exact .refl _
  exact (keepsPorts_settle _).after (keepsPorts_commitMarks _)

theorem keepsPorts_beginWalk (h : Happening) (state : EngineState) (origin : Origin) (k : Nat) (m : MarkRecord) :
    KeepsPorts h.state (h.beginWalk state origin k m).state :=
  .of_same (by simp) (by simp) (by simp)

theorem keepsPorts_rollbackEffect (h : Happening) : KeepsPorts h.state h.rollbackEffect.state := by
  unfold Happening.rollbackEffect
  (repeat' split) <;> try exact .refl _
  exact (keepsPorts_beginWalk _ _ _ _ _).after ((keepsPorts_updateMarks _ _).trans (keepsPorts_clearPreDrain _))

theorem keepsPorts_rollbackDone (h : Happening) (o : WalkOutcome) (m : MarkRecord) :
    KeepsPorts h.state (h.rollbackDone o m).state :=
  (keepsPorts_settle _).after (.of_same rfl rfl rfl)

theorem keepsPorts_rollbackIncomplete (h : Happening) (o : WalkOutcome) :
    KeepsPorts h.state (h.rollbackIncomplete o).state :=
  (keepsPorts_settle _).after (keepsPorts_enterBroken _ _)

theorem keepsPorts_takeOutcome (h : Happening) : KeepsPorts h.state h.takeOutcome.state := by
  have hidle : KeepsPorts h.state (h.state.updateEngine RestoreEngine.toIdle) := .of_same rfl rfl rfl
  unfold Happening.takeOutcome
  dsimp only
  (repeat' split) <;> try exact .refl _
  · exact (keepsPorts_rollbackDone _ _ _).after hidle
  · exact (keepsPorts_rollbackIncomplete _ _).after hidle

theorem keepsPorts_endCheck (h : Happening) : KeepsPorts h.state h.endCheck.state :=
  .of_same (by simp) (by simp) (by simp)

/-! ### Saves (R64 to R76) -/

theorem keepsPorts_grantSave (h : Happening) (e : TransitEntry) (w : WindowNo) (i : Nat) (g : Granule)
    (c : ContextNo) : KeepsPorts h.state (h.grantSave e w i g c).state := by
  have hreserved : KeepsPorts h.state (h.reserve g).state := .of_same (by simp) (by simp) (by simp)
  unfold Happening.grantSave
  dsimp only [Happening.step_state]
  exact KeepsPorts.after (keepsPorts_updateEntry _ _ fun _ => rfl) (hreserved.trans (.of_same rfl rfl rfl))

theorem keepsPorts_refuseSave (h : Happening) (e : TransitEntry) (w : WindowNo) :
    KeepsPorts h.state (h.refuseSave e w).state :=
  (keepsPorts_leave _ e.order).after (.of_same rfl rfl rfl)

theorem keepsPorts_allocateSave (h : Happening) : KeepsPorts h.state h.allocateSave.state := by
  unfold Happening.allocateSave
  split
  · exact .refl _
  · (repeat' split)
    · exact keepsPorts_grantSave h _ _ _ _ _
    · exact (keepsPorts_breakReport _ _).after (.of_same rfl rfl rfl)
    · exact keepsPorts_refuseSave h _ _

theorem keepsPorts_putContext (s : State) (c : ContextNo) (x : SaveContext) : KeepsPorts s (s.putContext c x) :=
  .of_same rfl rfl rfl

theorem keepsPorts_freeContext (s : State) (c : ContextNo) : KeepsPorts s (s.freeContext c) :=
  .of_same (by simp) (by simp) (by simp)

theorem keepsPorts_saveCompleted (s : State) (c : ContextNo) (x : SaveContext) :
    KeepsPorts s (s.saveCompleted c x) :=
  KeepsPorts.trans (t := (s.writeMap x.index x.markNumber).countSaveCompleted) (.of_same rfl rfl rfl)
    ((keepsPorts_freeContext _ c).trans (keepsPorts_release _ _))

theorem keepsPorts_answerMemError (s : State) (o : Nat) : KeepsPorts s (s.answerMemError o) := by
  unfold State.answerMemError
  split
  · exact KeepsPorts.trans (t := s.respond _) (.of_same rfl rfl rfl) (keepsPorts_leave _ o)
  · exact .refl s

theorem keepsPorts_voidCompleted (h : Happening) (c : ContextNo) (x : SaveContext) :
    KeepsPorts h.state (h.voidCompleted c x).state := by
  have hfreed : KeepsPorts h.state (h.state.countSaveFailed.freeContext c) :=
    KeepsPorts.trans (t := h.state.countSaveFailed) (.of_same rfl rfl rfl) (keepsPorts_freeContext _ c)
  by_cases hm : h.state.marks.state = .opened ∨ h.state.marks.state = .draining
  · simpa [Happening.voidCompleted, hm] using hfreed.trans (keepsPorts_answerMemError _ x.held)
  · simpa [Happening.voidCompleted, hm] using hfreed.trans (keepsPorts_release _ x.held)

theorem keepsPorts_settleContext (s : State) (c : ContextNo) : KeepsPorts s (s.settleContext c) := by
  unfold State.settleContext
  (repeat' split) <;> try exact .refl s
  · exact (keepsPorts_freeContext s c).trans (keepsPorts_release _ _)
  · exact keepsPorts_putContext s c _

theorem keepsPorts_logWriteFailed (h : Happening) (c : ContextNo) (x : SaveContext) (result : Result) :
    KeepsPorts h.state (h.logWriteFailed c x result).state := by
  unfold Happening.logWriteFailed
  split
  · exact keepsPorts_settleContext h.state c
  · exact (keepsPorts_settleContext _ c).after ((keepsPorts_breakReport _ _).after
      (.of_same (by simp) (by simp) (by simp)))

/-- R70 to R76: the end of a request of a save. -/
theorem keepsPorts_saveResult (h : Happening) (c : ContextNo) (step : SaveStep) (result : Result) :
    KeepsPorts h.state (h.saveResult c step result).state := by
  have hsettled := keepsPorts_settleContext h.state c
  have hput (x : SaveContext) := (keepsPorts_putContext h.state c x).trans (keepsPorts_settleContext _ c)
  unfold Happening.saveResult
  split
  · exact .refl _
  · split
    · split
      · exact keepsPorts_putContext h.state c _
      · exact hsettled
    · split
      · exact hput _
      · exact hsettled
    · split
      · exact hsettled
      · exact hput _
    · split
      · exact keepsPorts_saveCompleted h.state c _
      · exact keepsPorts_voidCompleted h c _
      · exact hsettled
    · exact keepsPorts_logWriteFailed h c _ _

/-! ### The downstream port (R109 to R124) -/

theorem DownstreamOk.congr {s t : State} (h : DownstreamOk s) (hd : t.down = s.down) : DownstreamOk t := by
  unfold DownstreamOk State.passThroughCount State.tagCount
  rw [hd]
  exact h

/-- R111: a tag that becomes one of pass-through origin only where it was one, or where fewer than 56 are. -/
theorem DownstreamOk.setTag {s : State} (h : DownstreamOk s) (t : TagNo) {x : TagEntry}
    (hx : x.isPassThrough = true → (s.tag t).isPassThrough = true ∨ s.passThroughCount < 56) :
    DownstreamOk (s.setTag t x) := by
  obtain ⟨hcount, hcredits, hrotation⟩ := h
  refine ⟨?_, hcredits, hrotation⟩
  have hmoved := State.tagCount_setTag s t x TagEntry.isPassThrough
  unfold State.passThroughCount at *
  by_cases hp : x.isPassThrough = true
  · rcases hx hp with hwas | hroom
    · rw [if_pos hp, if_pos hwas] at hmoved
      omega
    · rw [if_pos hp] at hmoved
      omega
  · rw [if_neg hp] at hmoved
    omega

theorem DownstreamOk.creditReturned {s : State} (h : DownstreamOk s) : DownstreamOk s.creditReturned := by
  obtain ⟨hcount, hcredits, hrotation⟩ := h
  unfold State.creditReturned
  split
  · exact ⟨hcount, by simp only [State.setDown_down]; omega, hrotation⟩
  · exact ⟨hcount, hcredits, hrotation⟩

/-- R115: the served source moves to the bottom, and each source stays in the rotation once. -/
theorem rotate_perm {rotation : List Source} (h : rotation.Perm [.passThrough, .save, .restore]) (source : Source) :
    (rotate rotation source).Perm [.passThrough, .save, .restore] := by
  refine ((h.filter _).append_right [source]).trans ?_
  cases source <;> decide

/-- R101, R113: only the pass-through source offers a transit entry. -/
theorem source_of_offerOf {s : State} {source : Source} {offer : Offer} (h : s.offerOf source = some offer) :
    source = offer.origin.source := by
  cases source with
  | passThrough =>
    obtain ⟨e, -, rfl⟩ := Option.map_eq_some_iff.mp h
    rfl
  | save =>
    obtain ⟨d, -, hd⟩ := Option.bind_eq_some_iff.mp h
    obtain ⟨x, -, rfl⟩ := Option.map_eq_some_iff.mp hd
    rfl
  | restore =>
    obtain ⟨step, -, rfl⟩ := Option.map_eq_some_iff.mp h
    rfl

/-- R110: a tag is of pass-through origin where its origin's source is pass-through. -/
theorem isPassThrough_inUse (r : TagRecord) :
    (TagEntry.inUse r).isPassThrough = true ↔ r.origin.source = .passThrough := by
  obtain ⟨origin, address, issueTime, timeout⟩ := r
  cases origin <;> simp [TagEntry.isPassThrough, TagEntry.record?, TagOrigin.source]

/-- R114: pass-through is served while fewer than 56 tags are of pass-through origin. -/
theorem room_of_canServe {s : State} {source : Source} (h : s.canServe source = true) (hp : source = .passThrough) :
    s.passThroughCount < 56 := by
  subst hp
  simp only [State.canServe, Bool.and_eq_true, Bool.or_eq_true, decide_eq_true_eq] at h
  exact h.2.resolve_left (by decide)

theorem keepsPorts_tellIssued (s : State) (offer : Offer) : KeepsPorts s (s.tellIssued offer) := by
  cases offer with
  | passThrough e => exact keepsPorts_leave s e.order
  | save c x step => exact keepsPorts_putContext s c _
  | restore step => exact .of_same rfl rfl rfl

/-! ### Both ports -/

/-- The invariants of the claims in one. -/
structure PortsOk (s : State) : Prop where
  transit : TransitOk s
  down : DownstreamOk s

theorem PortsOk.keep {s t : State} (h : PortsOk s) (k : KeepsPorts s t) : PortsOk t :=
  ⟨h.transit.keep k, h.down.congr k.down⟩

/-- A change of the downstream port alone. -/
theorem PortsOk.withDown {s t : State} (h : PortsOk s) (hd : DownstreamOk t) (ht : t.transit = s.transit)
    (hp : t.pins = s.pins) : PortsOk t := by
  refine ⟨?_, hd⟩
  unfold TransitOk
  rw [ht, hp]
  exact h.transit

/-- R116: an issue takes a tag, spends a credit and moves its source to the bottom; a transit entry that is issued
leaves. -/
theorem PortsOk.issue {s : State} (h : PortsOk s) {source : Source} {offer : Offer} (t : TagNo)
    (ho : s.offerOf source = some offer) (hs : s.canServe source = true) : PortsOk (s.issue source offer t) := by
  have htag : DownstreamOk (s.setTag t
      (.inUse ⟨offer.origin, (s.requestOf t offer).address, s.now, s.mgmt.responseTimeout⟩)) :=
    h.down.setTag t fun hp => .inr (room_of_canServe hs
      ((source_of_offerOf ho).trans ((isPassThrough_inUse _).mp hp)))
  obtain ⟨hcount, hcredits, hrotation⟩ := htag
  have hissued : ∀ l, DownstreamOk (((s.setTag t
      (.inUse ⟨offer.origin, (s.requestOf t offer).address, s.now, s.mgmt.responseTimeout⟩)).setDown
        ⟨s.down.tags.set t (.inUse ⟨offer.origin, (s.requestOf t offer).address, s.now, s.mgmt.responseTimeout⟩),
          s.down.credits - 1, rotate s.down.rotation source⟩).setLinks l) := fun _ =>
    ⟨hcount, (Nat.sub_le _ _).trans hcredits, rotate_perm hrotation source⟩
  exact (h.withDown (hissued _) rfl rfl).keep (keepsPorts_tellIssued _ offer)

theorem PortsOk.grant {s : State} (h : PortsOk s) : PortsOk s.grant := by
  unfold State.grant
  split
  · exact h
  · rename_i source hg
    split
    · exact h.issue _ ‹_› (List.find?_some hg)
    · exact h

/-! ### Responses and timeouts (R118 to R124) -/

theorem PortsOk.setTag {s : State} (h : PortsOk s) (t : TagNo) {x : TagEntry}
    (hx : x.isPassThrough = true → (s.tag t).isPassThrough = true) : PortsOk (s.setTag t x) :=
  h.withDown (h.down.setTag t fun hp => .inl (hx hp)) rfl rfl

/-- R118, R124: a tag becomes FREE. -/
theorem PortsOk.freeTag {s : State} (h : PortsOk s) (t : TagNo) : PortsOk (s.setTag t .free) :=
  h.setTag t fun hp => by cases hp

theorem keepsPorts_deliverOk (h : Happening) (data : Option (List Byte)) (origin : TagOrigin) :
    KeepsPorts h.state (h.deliverOk data origin).state := by
  cases origin with
  | passThrough requester tag kind windowWrite length => exact .of_same rfl rfl rfl
  | save c step => exact keepsPorts_saveResult h c step _
  | restore step => exact .of_same (by simp [Happening.deliverOk]) (by simp) (by simp)

theorem keepsPorts_deliverFailure (h : Happening) (failure : Result) (origin : TagOrigin) :
    KeepsPorts h.state (h.deliverFailure failure origin).state := by
  cases origin with
  | passThrough requester tag kind windowWrite length => exact .of_same rfl rfl rfl
  | save c step => exact keepsPorts_saveResult h c step _
  | restore step => exact .of_same (by simp [Happening.deliverFailure]) (by simp) (by simp)

theorem portsOk_response {h : Happening} (ok : PortsOk h.state) (t : TagNo) (status : LinkStatus)
    (data : Option (List Byte)) : PortsOk (h.response t status data).state := by
  have hfreed := ok.freeTag t
  unfold Happening.response
  dsimp only
  (repeat' split)
  · exact hfreed.keep (keepsPorts_deliverOk (h.step (·.setTag t .free)) _ _)
  · exact hfreed.keep (keepsPorts_deliverFailure (h.step (·.setTag t .free)) _ _)
  · exact hfreed
  · exact ok

/-- R123: a tag that times out keeps its origin as it becomes STALE. -/
theorem portsOk_timeOut {h : Happening} (ok : PortsOk h.state) (t : TagNo) : PortsOk (h.timeOut t).state := by
  unfold Happening.timeOut
  split
  · rename_i r ht
    split
    · have hstale : PortsOk (h.state.setTag t (.stale r)) := ok.setTag t fun hp => by rw [ht]; exact hp
      exact (hstale.keep (keepsPorts_deliverFailure (h.step (·.setTag t (.stale r))) .timeout r.origin)).keep
        (.of_same rfl rfl rfl)
    · exact ok
  · exact ok

theorem PortsOk.expireStale {s : State} (h : PortsOk s) (t : TagNo) : PortsOk (s.expireStale t) := by
  unfold State.expireStale
  (repeat' split) <;> try exact h
  exact h.freeTag t

/-! ### Arrivals (R85 to R91) -/

/-- R85, R86: a request that finds fewer than 24 entries spends a credit, and its entry is the latest in arrival
order. -/
theorem PortsOk.enter {s : State} (h : PortsOk s) (hr : Running s) (hroom : s.transit.entries.length < 24)
    (r : UpstreamRequest) (cls : EntryClass) (mark : Option Nat) (state : TransitState) :
    PortsOk (s.enter r cls mark state) := by
  obtain ⟨⟨-, hcredits, horder, hnext⟩, hdown⟩ := h
  rw [if_neg (by rw [show s.pins.resetLow = false from hr]; decide)] at hcredits
  refine ⟨⟨?_, ?_, ?_, fun e he => ?_⟩, hdown⟩
  · simpa [State.enter] using hroom
  · rw [if_neg (by rw [show (s.enter r cls mark state).pins.resetLow = false from hr]; decide)]
    simp only [State.enter, State.setTransit_transit, List.length_append, List.length_singleton]
    omega
  · simpa [State.enter, List.pairwise_append] using ⟨horder, hnext⟩
  · rcases List.mem_append.mp he with hold | hnew
    · exact Nat.lt_succ_of_lt (hnext e hold)
    · rw [List.mem_singleton.mp hnew]
      exact Nat.lt_succ_self _

theorem PortsOk.enterWindow {s : State} (h : PortsOk s) (hr : Running s) (hroom : s.transit.entries.length < 24)
    (r : UpstreamRequest) (w : WindowNo) (i : Nat) : PortsOk (s.enterWindow r w i) := by
  unfold State.enterWindow
  dsimp only
  (repeat' split)
  · exact h.enter hr hroom r _ _ _
  · exact h.enter hr hroom r _ _ _
  · exact (h.enter hr hroom r _ _ _).keep (keepsPorts_evaluateHead _ _)

/-- R89: a request that is denied takes its place in the arrival order, and no entry. -/
theorem PortsOk.skipOrder {s : State} (h : PortsOk s) :
    PortsOk (s.setTransit { s.transit with nextOrder := s.transit.nextOrder + 1 }) := by
  obtain ⟨⟨hlen, hcredits, horder, hnext⟩, hdown⟩ := h
  exact ⟨⟨hlen, hcredits, horder, fun e he => Nat.lt_succ_of_lt (hnext e he)⟩, hdown⟩

theorem keepsPorts_denyRequest (h : Happening) (r : UpstreamRequest) (reason : DenyReason) :
    KeepsPorts h.state (h.denyRequest r reason).state :=
  .of_same rfl rfl rfl

theorem portsOk_arrive {h : Happening} (ok : PortsOk h.state) (hr : Running h.state) (r : UpstreamRequest) :
    PortsOk (h.arrive r).state := by
  unfold Happening.arrive
  split
  · exact ok.keep (keepsPorts_denyRequest h r _)
  · rename_i hfull
    have hroom := Nat.not_le.mp hfull
    split
    · exact PortsOk.keep (by exact ok.skipOrder) (keepsPorts_denyRequest _ r _)
    · exact ok.enterWindow hr hroom r _ _
    · exact ok.enter hr hroom r _ _ _

/-! ### The quiesce (R185 to R188) -/

theorem keepsPorts_happening {s : State} {f : Happening → Happening}
    (k : KeepsPorts s (f (Happening.start s)).state) : KeepsPorts s (happening s f) :=
  k.trans (.of_same (by simp) (by simp) (by simp))

theorem portsOk_happening {s : State} {f : Happening → Happening} (ok : PortsOk (f (Happening.start s)).state) :
    PortsOk (happening s f) :=
  ok.keep (.of_same (by simp) (by simp) (by simp))

/-- R186, R188: the release step keeps the entries, and the reset step touches neither port. -/
theorem keepsPorts_quiesceStep (s : State) : KeepsPorts s s.quiesceStep :=
  (keepsPorts_releaseStep s).trans (.of_same rfl rfl rfl)

theorem keepsPorts_quiesceComplete (s : State) : KeepsPorts s s.quiesceComplete := by
  unfold State.quiesceComplete
  split
  · exact keepsPorts_quiesceStep s
  · exact .refl s

theorem PortsOk.reported {t : State} (h : PortsOk t) (s : State) : PortsOk (s.reported t) := by
  rcases State.reported_cases s t with heq | ⟨-, heq⟩ <;> rw [heq]
  · exact h
  · exact h.keep (keepsPorts_quiesceStep t)

theorem PortsOk.timeOutTag {s : State} (h : PortsOk s) (tag : TagNo) : PortsOk (s.timeOutTag tag) := by
  have ht : PortsOk (happening s fun h => h.timeOut tag) :=
    portsOk_happening (portsOk_timeOut (h := Happening.start s) h tag)
  unfold State.timeOutTag
  dsimp only
  split
  · rename_i r _ _
    obtain ⟨u, rfl, hu⟩ := State.quiesceAmidTimeout_cases (happening s fun h => h.timeOut tag)
      (.responseTimeout r.origin.source r.address)
    have hchosen : PortsOk ((happening s fun h => h.timeOut tag).setChoices
      ((happening s fun h => h.timeOut tag).choices + 1)) := ht.keep (.of_same rfl rfl rfl)
    have hreset := hchosen.keep (keepsPorts_quiesceStep _)
    rcases hu with hu | hu | hu <;> rw [hu]
    · exact hreset
    · exact hreset.keep (.of_same (by simp) (by simp) (by simp))
    · exact hreset.keep (.of_same (by simp) (by simp) (by simp))
  · exact ht

/-! ### Owners (R6 to R10, R29 to R33, R47, R57, R60, R162, R175, R183, R184) -/

/-- The answer leaves both ports and RESET_N as they are. -/
def LeavesPorts (s : State) (a : Answer) : Prop :=
  a.state.transit = s.transit ∧ a.state.down = s.down ∧ a.state.pins = s.pins

/-- The owner's answer keeps what the ports hold. -/
def OwnerKeepsPorts (owner : State → Answer) : Prop := ∀ s, KeepsPorts s (owner s).state

theorem keepsPorts_takeFrame (s : State) (f : Frame) (identifier expected : Nat) (anyState : Bool)
    {owner : State → Answer} (h : OwnerKeepsPorts owner) :
    KeepsPorts s (takeFrame s f identifier expected anyState owner) := by
  have hdriven (n : Nat) : KeepsPorts s (s.driveCommandPeriod n) := ⟨List.Sublist.refl _, rfl, rfl, rfl, rfl⟩
  rcases takeFrame_cases s f identifier expected anyState owner with heq | ⟨u, rfl, ⟨status, heq⟩ | ⟨-, heq⟩⟩
  · rw [heq]
    exact .refl s
  · rw [heq]
    exact (hdriven _).trans (.of_same rfl rfl rfl)
  · rw [heq]
    exact ((hdriven _).trans (h _)).trans (.of_same rfl rfl rfl)

theorem OwnerKeepsPorts.of_leaves {owner : State → Answer} (h : ∀ s, LeavesPorts s (owner s)) :
    OwnerKeepsPorts owner := by
  intro s
  obtain ⟨ht, hd, hp⟩ := h s
  exact .of_same ht hd hp

theorem leavesPorts_of_state {s : State} {a : Answer} (h : a.state = s) : LeavesPorts s a := by
  rw [LeavesPorts, h]
  exact ⟨rfl, rfl, rfl⟩

theorem OwnerKeepsPorts.of_drain {owner : State → Answer} (h : ∀ s, RefusedOrDrains s (owner s)) :
    OwnerKeepsPorts owner := by
  intro s
  rcases h s with heq | ⟨action, heq⟩ <;> rw [heq]
  · exact .refl s
  · exact keepsPorts_startDrain s action

theorem ownerKeepsPorts_checkLog (k : Nat) : OwnerKeepsPorts (answerCheckLog k) := by
  intro s
  unfold answerCheckLog
  (repeat' split) <;> try exact .refl s
  exact keepsPorts_beginWalk (Happening.start s) _ _ _ _

theorem leavesPorts_discard (s : State) : LeavesPorts s (answerDiscard s) := by
  unfold answerDiscard
  (repeat' split) <;> exact ⟨rfl, rfl, rfl⟩

/-- R26, R104, R184: SOFT_RESET takes the entries' mark numbers and pre-drain marks, and no entry. -/
theorem ownerKeepsPorts_softReset : OwnerKeepsPorts answerSoftReset := by
  intro s
  unfold answerSoftReset
  dsimp only
  generalize he : (s.updateMgmt fun m => { m with resetPhase := .engines }).setMarks
    { s.marks with state := .resetting, action := .noAction, latch := false } = entered
  have hentered : KeepsPorts s entered := by
    rw [← he]
    exact .of_same rfl rfl rfl
  have hcleared := (hentered.trans (keepsPorts_clearMarkNumbers entered)).trans (keepsPorts_clearPreDrain _)
  exact (keepsPorts_quiesceComplete _).after (KeepsPorts.after (.of_same (by simp) (by simp) (by simp)) hcleared)

theorem leavesPorts_writeLogReader (a b c : Nat) (s : State) : LeavesPorts s (answerWriteLogReader a b c s) := by
  unfold answerWriteLogReader
  split <;> exact ⟨rfl, rfl, rfl⟩

theorem leavesPorts_writeLogBase (v : Nat) (s : State) : LeavesPorts s (answerWriteLogBase v s) := by
  unfold answerWriteLogBase
  (repeat' split) <;> exact ⟨rfl, rfl, rfl⟩

theorem leavesPorts_writeLogSize (v : Nat) (s : State) : LeavesPorts s (answerWriteLogSize v s) := by
  unfold answerWriteLogSize
  (repeat' split) <;> exact ⟨rfl, rfl, rfl⟩

theorem leavesPorts_writeLogThreshold (v : Nat) (s : State) : LeavesPorts s (answerWriteLogThreshold v s) := by
  unfold answerWriteLogThreshold
  split <;> exact ⟨rfl, rfl, rfl⟩

theorem leavesPorts_writeLogFullPolicy (v : Nat) (s : State) : LeavesPorts s (answerWriteLogFullPolicy v s) := by
  unfold answerWriteLogFullPolicy
  split <;> exact ⟨rfl, rfl, rfl⟩

theorem leavesPorts_writePartRequesterId (v : Nat) (s : State) : LeavesPorts s (answerWritePartRequesterId v s) := by
  unfold answerWritePartRequesterId
  (repeat' split) <;> exact ⟨rfl, rfl, rfl⟩

theorem leavesPorts_writeResponseTimeout (v : Nat) (s : State) : LeavesPorts s (answerWriteResponseTimeout v s) := by
  unfold answerWriteResponseTimeout
  split <;> exact ⟨rfl, rfl, rfl⟩

theorem leavesPorts_writeNoticeTrigger (v : Nat) (s : State) : LeavesPorts s (answerWriteNoticeTrigger v s) := by
  unfold answerWriteNoticeTrigger
  split <;> exact ⟨rfl, rfl, rfl⟩

theorem leavesPorts_writeNoticeQuiet (v : Nat) (s : State) : LeavesPorts s (answerWriteNoticeQuiet v s) := by
  unfold answerWriteNoticeQuiet
  split <;> exact ⟨rfl, rfl, rfl⟩

theorem leavesPorts_writeLineRollback (a b : Nat) (s : State) : LeavesPorts s (answerWriteLineRollback a b s) := by
  unfold answerWriteLineRollback
  split <;> exact ⟨rfl, rfl, rfl⟩

theorem leavesPorts_readNotice (s : State) : LeavesPorts s (answerReadNotice s) := by
  unfold answerReadNotice
  split <;> exact ⟨rfl, rfl, rfl⟩

theorem leavesPorts_setWindow (o : WindowOperands) (s : State) : LeavesPorts s (answerSetWindow o s) := by
  refine withWindow_induction ⟨rfl, rfl, rfl⟩ fun w => ?_
  split <;> exact ⟨rfl, rfl, rfl⟩

theorem leavesPorts_enableWindow (n : Nat) (s : State) : LeavesPorts s (answerEnableWindow n s) := by
  refine withWindow_induction ⟨rfl, rfl, rfl⟩ fun w => ?_
  (repeat' split) <;> exact ⟨rfl, rfl, rfl⟩

theorem leavesPorts_disableWindow (n : Nat) (s : State) : LeavesPorts s (answerDisableWindow n s) := by
  refine withWindow_induction ⟨rfl, rfl, rfl⟩ fun w => ?_
  (repeat' split) <;> exact ⟨rfl, rfl, rfl⟩

/-! ### Rows that are no defined command (R165, R171 to R176, R191) -/

theorem keepsPorts_quietExpiry (s : State) : KeepsPorts s s.quietExpiry := by
  unfold State.quietExpiry
  split <;> exact .of_same rfl rfl rfl

theorem keepsPorts_replyReady (s : State) : KeepsPorts s s.replyReady := by
  unfold State.replyReady
  split <;> exact .of_same rfl rfl rfl

theorem keepsPorts_readPeriod (s : State) (clocks : Nat) (beganInReset : Bool) :
    KeepsPorts s (s.readPeriod clocks beganInReset) := by
  unfold State.readPeriod
  split <;> exact ⟨List.Sublist.refl _, rfl, rfl, rfl, rfl⟩

theorem keepsPorts_cutShort (s : State) (p : Period) : KeepsPorts s (s.cutShort p) := by
  unfold State.cutShort
  split <;> exact ⟨List.Sublist.refl _, rfl, rfl, rfl, rfl⟩

theorem keepsPorts_unknownCommand (s : State) (f : Frame) : KeepsPorts s (s.unknownCommand f) := by
  unfold State.unknownCommand
  split <;> exact ⟨List.Sublist.refl _, rfl, rfl, rfl, rfl⟩

theorem keepsPorts_checkFailed (s : State) (p : Period) : KeepsPorts s (s.checkFailed p) := by
  unfold State.checkFailed
  split <;> exact ⟨List.Sublist.refl _, rfl, rfl, rfl, rfl⟩

theorem keepsPorts_setRollbackReq (s : State) (high : Bool) : KeepsPorts s (s.setRollbackReq high) :=
  ⟨List.Sublist.refl _, rfl, rfl, rfl, rfl⟩

theorem keepsPorts_risingEdge (s : State) : KeepsPorts s s.risingEdge := by
  unfold State.risingEdge
  (repeat' split)
  · exact .refl s
  · exact keepsPorts_setRollbackReq s true
  · exact (keepsPorts_setRollbackReq s true).trans (keepsPorts_happening (keepsPorts_lineRequest (Happening.start _)))

theorem keepsPorts_sweepComplete (s : State) : KeepsPorts s s.sweepComplete := by
  unfold State.sweepComplete
  split <;> exact .of_same rfl rfl rfl

/-- R105, R126, R191: power-on reset drops entries, credits and tags. -/
theorem portsOk_powerOn (s : State) : PortsOk s.powerOn :=
  ⟨⟨Nat.zero_le _, ⟨rfl, rfl⟩, List.Pairwise.nil, fun _ he => by cases he⟩, downstreamOk_reset⟩

/-- R84, R191: the end of power-on reset grants the fabric its 24 credits. -/
theorem PortsOk.powerOnEnd {s : State} (h : PortsOk s) : PortsOk s.powerOnEnd := by
  unfold State.powerOnEnd
  split
  · rename_i hl
    obtain ⟨⟨hlen, hcredits, horder, hnext⟩, hdown⟩ := h
    rw [if_pos hl] at hcredits
    exact ⟨⟨hlen, by simp [hcredits.1], horder, hnext⟩, hdown⟩
  · exact h

/-! ### The step -/

theorem portsOk_running {s : State} (ok : PortsOk s) {f : State → State} (h : Running s → PortsOk (f s)) :
    PortsOk (s.running f) := by
  unfold State.running
  split
  · exact ok
  · exact h (Bool.eq_false_iff.mpr ‹_›)

/-- Every command answers a next state, in which both ports are as they must be. -/
theorem portsOk_exec {s : State} (ok : PortsOk s) (c : Instr) : ∃ t, exec c s = .next t ∧ PortsOk t := by
  have runs {f : State → State} (k : KeepsPorts s (f s)) : PortsOk (s.running f) :=
    portsOk_running ok fun _ => ok.keep k
  have start {f : Happening → Happening} (k : ∀ h, KeepsPorts h.state (f h).state) :
      PortsOk (s.running fun s => happening s f) := runs (keepsPorts_happening (k (Happening.start s)))
  have frame (f : Frame) {identifier expected : Nat} {anyState : Bool} {owner : State → Answer}
      (h : OwnerKeepsPorts owner) : PortsOk (takeFrame s f identifier expected anyState owner) :=
    ok.keep (keepsPorts_takeFrame s f identifier expected anyState h)
  cases c with
  | powerOnReset => exact ⟨_, rfl, portsOk_powerOn s⟩
  | powerOnResetEnd => exact ⟨_, rfl, ok.powerOnEnd⟩
  | mapSweepComplete => exact ⟨_, rfl, runs (keepsPorts_sweepComplete s)⟩
  | rollbackReqRisingEdge => exact ⟨_, rfl, ok.keep (keepsPorts_risingEdge s)⟩
  | rollbackReqFallingEdge => exact ⟨_, rfl, ok.keep (keepsPorts_setRollbackReq s false)⟩
  | upstreamRequest r =>
    exact ⟨_, rfl, portsOk_running ok fun hr => portsOk_happening (portsOk_arrive (h := Happening.start s) ok hr r)⟩
  | saveAllocation => exact ⟨_, rfl, start keepsPorts_allocateSave⟩
  | arbiterGrant => exact ⟨_, rfl, portsOk_running ok fun _ => ok.grant⟩
  | downstreamCreditReturn =>
    exact ⟨_, rfl, portsOk_running ok fun _ => ok.withDown ok.down.creditReturned (by simp) (by simp)⟩
  | downstreamResponse tag status data =>
    exact ⟨_, rfl, portsOk_running ok fun _ =>
      (portsOk_happening (portsOk_response (h := Happening.start s) ok tag status data)).reported s⟩
  | tagTimeout tag => exact ⟨_, rfl, portsOk_running ok fun _ => ok.timeOutTag tag⟩
  | stalePeriodExpiry tag => exact ⟨_, rfl, portsOk_running ok fun _ => ok.expireStale tag⟩
  | openTakesEffect => exact ⟨_, rfl, start keepsPorts_openEffect⟩
  | releaseTakesEffect => exact ⟨_, rfl, start keepsPorts_releaseEffect⟩
  | commitTakesEffect => exact ⟨_, rfl, start keepsPorts_commitEffect⟩
  | rollbackTakesEffect => exact ⟨_, rfl, start keepsPorts_rollbackEffect⟩
  | rollbackOutcome => exact ⟨_, rfl, start keepsPorts_takeOutcome⟩
  | checkEnd => exact ⟨_, rfl, start keepsPorts_endCheck⟩
  | softResetQuiesceComplete => exact ⟨_, rfl, runs (keepsPorts_quiesceComplete s)⟩
  | quietTimerExpiry => exact ⟨_, rfl, runs (keepsPorts_quietExpiry s)⟩
  | replyReady => exact ⟨_, rfl, runs (keepsPorts_replyReady s)⟩
  | readPeriod clocks beganInReset => exact ⟨_, rfl, ok.keep (keepsPorts_readPeriod s clocks beganInReset)⟩
  | commandFrameCutShort p => exact ⟨_, rfl, ok.keep (keepsPorts_cutShort s p)⟩
  | unknownCommand code f => exact ⟨_, rfl, ok.keep (keepsPorts_unknownCommand s f)⟩
  | checkFailedFrame p => exact ⟨_, rfl, ok.keep (keepsPorts_checkFailed s p)⟩
  | writeConfigLogReader f => exact ⟨_, rfl, frame f (.of_leaves (leavesPorts_writeLogReader _ _ _))⟩
  | writeConfigLogBase f => exact ⟨_, rfl, frame f (.of_leaves (leavesPorts_writeLogBase _))⟩
  | writeConfigLogSize f => exact ⟨_, rfl, frame f (.of_leaves (leavesPorts_writeLogSize _))⟩
  | writeConfigLogThreshold f => exact ⟨_, rfl, frame f (.of_leaves (leavesPorts_writeLogThreshold _))⟩
  | writeConfigLogFullPolicy f => exact ⟨_, rfl, frame f (.of_leaves (leavesPorts_writeLogFullPolicy _))⟩
  | writeConfigPartRequesterId f => exact ⟨_, rfl, frame f (.of_leaves (leavesPorts_writePartRequesterId _))⟩
  | writeConfigResponseTimeout f => exact ⟨_, rfl, frame f (.of_leaves (leavesPorts_writeResponseTimeout _))⟩
  | writeConfigNoticeTrigger f => exact ⟨_, rfl, frame f (.of_leaves (leavesPorts_writeNoticeTrigger _))⟩
  | writeConfigNoticeQuiet f => exact ⟨_, rfl, frame f (.of_leaves (leavesPorts_writeNoticeQuiet _))⟩
  | writeConfigLineRollback f => exact ⟨_, rfl, frame f (.of_leaves (leavesPorts_writeLineRollback _ _))⟩
  | setWindow f => exact ⟨_, rfl, frame f (.of_leaves (leavesPorts_setWindow _))⟩
  | enableWindow f => exact ⟨_, rfl, frame f (.of_leaves (leavesPorts_enableWindow _))⟩
  | disableWindow f => exact ⟨_, rfl, frame f (.of_leaves (leavesPorts_disableWindow _))⟩
  | readNotice f => exact ⟨_, rfl, frame f (.of_leaves leavesPorts_readNotice)⟩
  | getStatus f => exact ⟨_, rfl, frame f (.of_leaves fun _ => ⟨rfl, rfl, rfl⟩)⟩
  | clearCounters f => exact ⟨_, rfl, frame f (.of_leaves fun _ => ⟨rfl, rfl, rfl⟩)⟩
  | getMarks f => exact ⟨_, rfl, frame f (.of_leaves fun _ => leavesPorts_of_state rfl)⟩
  | readConfig f => exact ⟨_, rfl, frame f (.of_leaves fun _ => leavesPorts_of_state rfl)⟩
  | readCounters f => exact ⟨_, rfl, frame f (.of_leaves fun _ => leavesPorts_of_state rfl)⟩
  | writeConfigUnknownItem f => exact ⟨_, rfl, frame f (.of_leaves fun _ => leavesPorts_of_state rfl)⟩
  | getWindow f => exact ⟨_, rfl, frame f (.of_leaves fun _ => leavesPorts_of_state (answerGetWindow_state _ _))⟩
  | readMap f => exact ⟨_, rfl, frame f (.of_leaves fun _ => leavesPorts_of_state (answerReadMap_state _ _))⟩
  | openMark f => exact ⟨_, rfl, frame f (.of_drain (refusedOrDrains_openMark _))⟩
  | releaseMark f => exact ⟨_, rfl, frame f (.of_drain refusedOrDrains_releaseMark)⟩
  | commit f => exact ⟨_, rfl, frame f (.of_drain refusedOrDrains_commit)⟩
  | rollback f => exact ⟨_, rfl, frame f (.of_drain (refusedOrDrains_rollback _))⟩
  | checkLog f => exact ⟨_, rfl, frame f (ownerKeepsPorts_checkLog _)⟩
  | discard f => exact ⟨_, rfl, frame f (.of_leaves leavesPorts_discard)⟩
  | softReset f => exact ⟨_, rfl, frame f ownerKeepsPorts_softReset⟩

/-- Settles O54: every command keeps both ports' invariants; time and the queue of commands do not touch them. -/
theorem stepsKeepCreditsAndTags : Obligations.StepsKeepCreditsAndTags := by
  intro s t htransit hdown hstep
  have ok : PortsOk s := ⟨htransit, hdown⟩
  have hnext : PortsOk t := by
    unfold step at hstep
    split at hstep
    · cases hstep
      exact ok.keep (.of_same rfl rfl rfl)
    · rename_i c rest _
      obtain ⟨u, hu, hok⟩ := portsOk_exec (ok.keep (t := s.setPending rest) (.of_same rfl rfl rfl)) c
      rw [hu] at hstep
      cases hstep
      exact hok
  exact ⟨hnext.transit, hnext.down⟩

end Sys2Proof.Safety
end

section
/-! The transit buffer's own rules (R40, R66, R88 to R95, R99): the waiting list, the save-needed test, a head evaluated
in its place, and what an arrival, a departure and a re-classification come to. -/

namespace Sys2Proof.Machine

/-! ### The waiting list (R66) -/

theorem insertOrder_perm (waiting : List Nat) (order : Nat) : (insertOrder waiting order).Perm (order :: waiting) := by
  induction waiting with
  | nil => exact .refl _
  | cons p rest ih =>
    unfold insertOrder
    split
    · exact .refl _
    · exact (ih.cons p).trans (.swap order p rest)

theorem sublist_insertOrder (waiting : List Nat) (order : Nat) : waiting.Sublist (insertOrder waiting order) := by
  induction waiting with
  | nil => exact List.nil_sublist _
  | cons p rest ih =>
    unfold insertOrder
    split
    · exact List.sublist_cons_self _ _
    · exact ih.cons_cons p

theorem insertOrder_pairwise {waiting : List Nat} {order : Nat} (h : waiting.Pairwise (· < ·))
    (hn : order ∉ waiting) : (insertOrder waiting order).Pairwise (· < ·) := by
  induction waiting with
  | nil => exact List.pairwise_singleton _ _
  | cons p rest ih =>
    obtain ⟨hp, hrest⟩ := List.pairwise_cons.mp h
    obtain ⟨hne, hnr⟩ := List.ne_and_not_mem_of_not_mem_cons hn
    unfold insertOrder
    split
    · rename_i hlt
      exact List.pairwise_cons.mpr ⟨List.forall_mem_cons.mpr ⟨hlt, fun q hq => hlt.trans (hp q hq)⟩, h⟩
    · rename_i hge
      refine List.pairwise_cons.mpr ⟨fun q hq => ?_, ih hrest hnr⟩
      rcases List.mem_cons.mp ((insertOrder_perm rest order).mem_iff.mp hq) with rfl | hq
      · omega
      · exact hp q hq

/-! ### The save-needed test (R40) -/

theorem State.saveNeeded_of_write {s : State} {e : TransitEntry} {i n : Nat} (hk : e.request.kind ≠ .read)
    (hm : e.markNumber = some n) (hlt : mapRead s.windows.map i < n) (hb : s.marks.state ≠ .broken)
    (hr : s.marks.state ≠ .resetting) : s.saveNeeded e i = true := by
  simp [State.saveNeeded, hk, hm, hlt, hb, hr]

theorem State.saveNeeded_eq_false {s : State} {e : TransitEntry} {i : Nat}
    (h : e.request.kind = .read ∨ e.markNumber = none ∨
      (∃ n, e.markNumber = some n ∧ n ≤ mapRead s.windows.map i) ∨
      s.marks.state = .broken ∨ s.marks.state = .resetting) : s.saveNeeded e i = false := by
  rcases h with h | h | ⟨n, hm, hle⟩ | h | h
  · simp [State.saveNeeded, h]
  · simp [State.saveNeeded, h]
  · simp [State.saveNeeded, hm, Nat.not_lt.mpr hle]
  · simp [State.saveNeeded, h]
  · simp [State.saveNeeded, h]

/-- R91, R99: a mark number is recorded in OPEN alone. -/
theorem State.opened_of_classificationMark {s : State} {n : Nat} (h : s.classificationMark = some n) :
    s.marks.state = .opened := by
  unfold State.classificationMark at h
  split at h
  · assumption
  · cases h

/-! ### An entry in its place (R86, R93) -/

theorem InOrder.order_ne {front back : List TransitEntry} {d : TransitEntry} (h : InOrder (front ++ d :: back)) :
    ∀ x ∈ front ++ back, x.order ≠ d.order := by
  obtain ⟨-, hback, hfront⟩ := List.pairwise_append.mp h
  intro x hx
  rcases List.mem_append.mp hx with hx | hx
  · exact Nat.ne_of_lt (hfront x hx d (by simp))
  · exact Nat.ne_of_gt ((List.pairwise_cons.mp hback).1 x hx)

theorem State.entry?_mid {s : State} {front back : List TransitEntry} {d : TransitEntry}
    (he : s.transit.entries = front ++ d :: back) (ho : ∀ x ∈ front ++ back, x.order ≠ d.order) :
    s.entry? d.order = some d := by
  have hfront : front.find? (·.order == d.order) = none :=
    List.find?_eq_none.mpr fun x hx => by simpa using ho x (by simp [hx])
  simp [State.entry?, he, List.find?_append, hfront]

theorem State.updateEntry_mid {s : State} {front back : List TransitEntry} {d : TransitEntry}
    (he : s.transit.entries = front ++ d :: back) (ho : ∀ x ∈ front ++ back, x.order ≠ d.order)
    (f : TransitEntry → TransitEntry) : s.updateEntry d.order f = s.setEntries (front ++ f d :: back) := by
  have hsame : ∀ l : List TransitEntry, (∀ x ∈ l, x.order ≠ d.order) →
      (l.map fun x => if x.order = d.order then f x else x) = l := fun l hl =>
    (List.map_congr_left fun x hx => if_neg (hl x hx)).trans (List.map_id l)
  rw [State.updateEntry, he, List.map_append, List.map_cons, if_pos rfl, hsame front fun x hx => ho x (by simp [hx]),
    hsame back fun x hx => ho x (by simp [hx])]

/-- R93: a head evaluated in its place. -/
theorem State.evaluateHead_mid {s : State} {front back : List TransitEntry} {d : TransitEntry} {i : Nat}
    (he : s.transit.entries = front ++ d :: back) (ho : ∀ x ∈ front ++ back, x.order ≠ d.order)
    (hi : d.index? = some i) :
    s.evaluateHead d.order =
      if s.saveNeeded d i then
        ((s.setEntries (front ++ { d with state := .waitSave, hasContext := false } :: back)).setSave
          { s.save with waiting := insertOrder s.save.waiting d.order }).countWriteHeld
      else s.setEntries (front ++ { d with state := .forwardable } :: back) := by
  obtain ⟨w, hc⟩ := TransitEntry.cls_of_index hi
  rw [State.evaluateHead_of_entry (State.entry?_mid he ho) hc, State.enterWaitSave, State.updateEntry_mid he ho,
    State.updateEntry_mid he ho]
  rfl

/-! ### Arrivals (R85 to R91) -/

/-- R85: a request without credit. -/
theorem Happening.arrive_of_full {h : Happening} (r : UpstreamRequest) (hfull : 24 ≤ h.state.transit.entries.length) :
    h.arrive r = h.denyRequest r .noCredit := if_pos hfull

/-- R85, R35: a request with credit takes what it is classified as. -/
theorem Happening.arrive_of_room {h : Happening} (r : UpstreamRequest) (hroom : h.state.transit.entries.length < 24) :
    h.arrive r = match h.state.classify r with
      | .denied reason =>
        (h.step fun s => s.setTransit { s.transit with nextOrder := s.transit.nextOrder + 1 }).denyRequest r reason
      | .taken (.window w index) => h.step fun s => s.enterWindow r w index
      | .taken cls => h.step fun s => s.enter r cls none .forwardable :=
  (if_neg (Nat.not_le.mpr hroom)).trans rfl

/-- R91: no entry of the map index is in the buffer when no earlier one is. -/
theorem State.hasEarlier_arriving {s : State} (h : ∀ e ∈ s.transit.entries, e.order < s.transit.nextOrder) (i : Nat) :
    s.hasEarlier s.transit.nextOrder i = true ↔ ∃ e ∈ s.transit.entries, e.index? = some i := by
  simp only [State.hasEarlier, List.any_eq_true, Bool.and_eq_true, decide_eq_true_eq, beq_iff_eq]
  exact ⟨fun ⟨e, he, _, hi⟩ => ⟨e, he, hi⟩, fun ⟨e, he, hi⟩ => ⟨e, he, h e he, hi⟩⟩

/-- R93, R95: an arrival that is head is held for a save or FORWARDABLE. -/
theorem State.evaluateHead_arrived {s : State} (h : ∀ e ∈ s.transit.entries, e.order < s.transit.nextOrder)
    (r : UpstreamRequest) (w : WindowNo) (i : Nat) (mark : Option Nat) :
    (s.enter r (.window w i) mark .forwardable).evaluateHead s.transit.nextOrder =
      if s.saveNeeded ⟨s.transit.nextOrder, r, .window w i, mark, .forwardable, false, false⟩ i then
        ((s.enter r (.window w i) mark .waitSave).setSave
          { s.save with waiting := insertOrder s.save.waiting s.transit.nextOrder }).countWriteHeld
      else s.enter r (.window w i) mark .forwardable :=
  State.evaluateHead_mid (s := s.enter r (.window w i) mark .forwardable) (front := s.transit.entries) (back := [])
    (d := ⟨s.transit.nextOrder, r, .window w i, mark, .forwardable, false, false⟩) rfl
    (fun x hx => Nat.ne_of_lt (h x (by simpa using hx))) rfl

/-! ### Departures (R88, R94) -/

/-- R88: an entry that leaves is removed, its credit is returned, and its map index passes its turn on. -/
theorem State.leave_mid {s : State} {before after : List TransitEntry} {e : TransitEntry}
    (he : s.transit.entries = before ++ e :: after) (hp : InOrder s.transit.entries) :
    s.leave e.order = e.index?.elim
      (s.setTransit { s.transit with entries := before ++ after, credits := s.transit.credits + 1 })
      (s.setTransit { s.transit with entries := before ++ after, credits := s.transit.credits + 1 }).passTurn := by
  rw [he] at hp
  rw [State.leave, State.entry?_mid he hp.order_ne]
  cases hi : e.index? with
  | none => simp only [he, eraseP_mid before after e hp, hi, Option.elim_none]
  | some i => simp only [he, eraseP_mid before after e hp, hi, Option.elim_some]

/-- R92: the first entry of a map index is its head. -/
theorem State.headOf_mid {s : State} {front back : List TransitEntry} {d : TransitEntry} {i : Nat}
    (he : s.transit.entries = front ++ d :: back) (hf : ∀ x ∈ front, x.index? ≠ some i) (hi : d.index? = some i) :
    s.headOf i = some d := by
  have hfront : front.find? (·.index? == some i) = none :=
    List.find?_eq_none.mpr fun x hx => by simpa using hf x hx
  simp [State.headOf, he, List.find?_append, hfront, hi]

theorem State.headOf_eq_none {s : State} {i : Nat} (h : ∀ d ∈ s.transit.entries, d.index? ≠ some i) :
    s.headOf i = none :=
  List.find?_eq_none.mpr fun d hd => by simpa using h d hd

/-! ### Grants to pass-through (R101) -/

/-- R101: the earliest FORWARDABLE entry is offered. -/
theorem State.offerOf_passThrough {s : State} {before after : List TransitEntry} {e : TransitEntry}
    (he : s.transit.entries = before ++ e :: after) (hb : ∀ d ∈ before, d.state ≠ .forwardable)
    (hs : e.state = .forwardable) : s.offerOf .passThrough = some (.passThrough e) := by
  have hbefore : before.find? (·.state == .forwardable) = none :=
    List.find?_eq_none.mpr fun d hd => by simpa using hb d hd
  simp [State.offerOf, he, List.find?_append, hbefore, hs]

/-- R101: which entries count as window writes. -/
theorem TransitEntry.windowWrite_eq (e : TransitEntry) :
    e.windowWrite = decide (e.index? ≠ none ∧ e.request.kind ≠ .read) := by
  rw [Bool.eq_iff_iff]
  simp [TransitEntry.windowWrite, Option.isSome_iff_ne_none]

/-! ### Re-classification (R99) -/

/-- R99: where no entry is in WAIT_MARK there is nothing to classify afresh. -/
theorem State.reclassifyAll_of_none {s : State} (h : ∀ d ∈ s.transit.entries, d.state ≠ .waitMark) :
    s.reclassifyAll = s := by
  have hnone : s.transit.entries.filter (·.state == .waitMark) = [] :=
    List.filter_eq_nil_iff.mpr fun d hd => by simpa using h d hd
  rw [State.reclassifyAll, hnone]
  rfl

/-- R99: the earliest WAIT_MARK entry is classified afresh first, and then the rest. -/
theorem State.reclassifyAll_step {s : State} {front back : List TransitEntry} {e : TransitEntry}
    (he : s.transit.entries = front ++ e :: back) (hp : InOrder s.transit.entries) (hi : e.index? ≠ none)
    (hs : e.state = .waitMark) (hf : ∀ d ∈ front, d.state ≠ .waitMark) :
    s.reclassifyAll = (s.reclassify e).reclassifyAll := by
  have hfront : front.filter (·.state == .waitMark) = [] :=
    List.filter_eq_nil_iff.mpr fun d hd => by simpa using hf d hd
  obtain ⟨d, hentries, -, -, hd, -⟩ := State.reclassify_entries he hp
  have hwas : s.transit.entries.filter (·.state == .waitMark) = e :: back.filter (·.state == .waitMark) := by
    simp [he, hfront, hs]
  have hleft : (s.reclassify e).transit.entries.filter (·.state == .waitMark) = back.filter (·.state == .waitMark) := by
    simp [hentries, hfront, hd hi]
  rw [State.reclassifyAll, hwas, List.foldl_cons, State.reclassifyAll, hleft]

end Sys2Proof.Machine

namespace Sys2Proof.Safety
open Machine

/-! ### The claims -/

/-- R85, R89: what a request that is denied leaves, at a level that stays. -/
theorem happening_denied (s : State) (r : UpstreamRequest) (reason : DenyReason) (transit : TransitBuffer)
    (ha : (Happening.start s).arrive r = (Happening.start (s.setTransit transit)).denyRequest r reason) :
    happening s (fun h => h.arrive r) =
      takePost (((s.setTransit transit).respond (answerTo r .denied)).countRequestDenied)
        (.accessDenied r.requester r.kind reason r.address) s.level := by
  rw [happening_of_one_post s _ .transitBuffer (.accessDenied r.requester r.kind reason r.address) (by rw [ha]; rfl)
    (.inr (by rw [ha]; rfl)), ha]
  rfl

/-- R85: a request that is taken into an entry posts nothing. -/
theorem happening_entered {s t : State} {r : UpstreamRequest}
    (ha : (Happening.start s).arrive r = (Happening.start s).step fun _ => t) :
    happening s (fun h => h.arrive r) = t := by
  rw [happening_of_no_post s _ (by rw [ha]; rfl), ha]
  rfl

/-- Settles O13: a denied request is one post of the transit buffer; a PASS or LOG_READ request posts nothing. -/
theorem deniedAndPassRequests : Obligations.DeniedAndPassRequests := by
  intro s r hr
  refine ⟨fun hfull => ?_, fun reason hroom hc => ?_, fun cls hroom hcls hc => ?_⟩
  · refine (next_running hr _).trans (congrArg _ ?_)
    rw [happening_denied s r .noCredit s.transit (Happening.arrive_of_full r hfull)]
    rfl
  · refine (next_running hr _).trans (congrArg _ ?_)
    rw [happening_denied s r reason { s.transit with nextOrder := s.transit.nextOrder + 1 }]
    · rfl
    · rw [Happening.arrive_of_room r hroom, Happening.start_state, hc]
      rfl
  · refine (next_running hr _).trans (congrArg _ (happening_entered ?_))
    rw [Happening.arrive_of_room r hroom, Happening.start_state, hc]
    rcases hcls with rfl | rfl <;> rfl

/-- R91: a WINDOW request's entry, in the row that takes it. -/
theorem exec_windowRequest {s : State} {r : UpstreamRequest} {w : WindowNo} {i : Nat} (hr : Running s)
    (hroom : s.transit.entries.length < 24) (hc : s.classify r = .taken (.window w i)) :
    exec (.upstreamRequest r) s = .next (s.enterWindow r w i) := by
  refine (next_running hr _).trans (congrArg _ (happening_entered ?_))
  rw [Happening.arrive_of_room r hroom, Happening.start_state, hc]
  rfl

/-- Settles O14: the tests of R91 in their order, and then the save-needed test of R40. -/
theorem windowRequestTransitState : Obligations.WindowRequestTransitState := by
  intro s r w i mark hr hroom hc hlast hmark
  obtain rfl : mark = s.classificationMark := hmark
  rw [exec_windowRequest hr hroom hc]
  unfold State.enterWindow
  dsimp only
  refine ⟨fun hholds => ?_, fun hd hrb hre => ?_⟩
  · rw [if_pos (s.holdsArrivals_iff.mpr hholds)]
    rfl
  · rw [if_neg fun hholds => (s.holdsArrivals_iff.mp hholds).elim hd fun h => h.elim hrb hre]
    have hearlier := State.hasEarlier_arriving hlast i
    refine ⟨fun hbehind => ?_, fun hhead => ?_⟩
    · rw [if_pos (hearlier.mpr hbehind)]
      rfl
    · have hnot : ¬ s.hasEarlier s.transit.nextOrder i = true := fun h =>
        have ⟨e, he, hi⟩ := hearlier.mp h
        hhead e he hi
      rw [if_neg hnot, State.evaluateHead_arrived hlast]
      refine ⟨fun n hk hm hlt => ?_, fun hfree => ?_⟩
      · have hopen := State.opened_of_classificationMark hm
        rw [if_pos (State.saveNeeded_of_write
          (e := ⟨s.transit.nextOrder, r, .window w i, s.classificationMark, .forwardable, false, false⟩)
          hk hm hlt (by simp [hopen]) (by simp [hopen]))]
        rfl
      · rw [if_neg (Bool.eq_false_iff.mp (State.saveNeeded_eq_false
          (e := ⟨s.transit.nextOrder, r, .window w i, s.classificationMark, .forwardable, false, false⟩)
          (hfree.imp_right fun h => h.imp_right fun h => .inl h)))]
        rfl

/-- Settles O19: the earliest FORWARDABLE entry is the offer, and is told of its issue by leaving. -/
theorem grantIssuesPassThrough : Obligations.GrantIssuesPassThrough := by
  intro s before after e t rest hgoes hcount he hb hs
  rw [grant_of_goes hgoes (fun _ => hcount) (State.offerOf_passThrough he hb hs), Offer.origin, e.windowWrite_eq]
  rfl

/-- Settles O20: no entry of the map index is left, or the next one is evaluated as head. -/
theorem leavingEntryPassesItsTurn : Obligations.LeavingEntryPassesItsTurn := by
  intro s left before after e he hp hl
  have hleave := State.leave_mid he hp
  have hentries : left.transit.entries = before ++ after := congrArg (·.transit.entries) hl
  have hneed : ∀ d i, left.saveNeeded d i = s.saveNeeded d i := fun _ _ => hl ▸ rfl
  rw [show s.setTransit { s.transit with entries := before ++ after, credits := s.transit.credits + 1 } = left from
    hl.symm] at hleave
  have horder : InOrder (before ++ after) :=
    (he ▸ hp : InOrder (before ++ e :: after)).sublist ((List.sublist_cons_self e after).append_left before)
  refine ⟨fun hi => ?_, fun i hi hnone => ?_, fun i front d back hi hsplit hdi hfront => ?_⟩
  · rw [hleave, hi, Option.elim_none]
  · rw [hleave, hi, Option.elim_some]
    exact State.passTurn_of_none (State.headOf_eq_none (hentries ▸ hnone))
  · rw [hleave, hi, Option.elim_some]
    have hsplit := hentries.trans hsplit
    rw [State.passTurn_of_head (State.headOf_mid hsplit hfront hdi)]
    rw [← hentries, hsplit] at horder
    have hevaluated := State.evaluateHead_mid hsplit horder.order_ne hdi
    rw [hneed] at hevaluated
    refine ⟨fun hd => ?_, fun n hd hk hm hlt hb hr => ?_, fun hd hfree => ?_⟩
    · rw [if_neg hd]
    · rw [if_pos hd, hevaluated, if_pos (State.saveNeeded_of_write hk hm hlt hb hr), hl]
      rfl
    · rw [if_pos hd, hevaluated, if_neg (Bool.eq_false_iff.mp (State.saveNeeded_eq_false hfree)), hl]
      rfl

/-- Settles O34: one entry classified afresh in its place, and all of them from the earliest on. -/
theorem heldEntryReclassified : Obligations.HeldEntryReclassified := by
  refine ⟨fun waiting order => ⟨insertOrder_perm waiting order, sublist_insertOrder waiting order,
    insertOrder_pairwise⟩, ?_⟩
  intro s front back e w i mark he hp hc hmark
  obtain rfl : mark = s.classificationMark := hmark
  have hone := State.reclassify_eq he hp hc
  have hi : e.index? ≠ none := by simp [TransitEntry.index?, hc]
  refine ⟨fun hbehind => ?_, fun hhead => ⟨fun n hk hm hlt => ?_, fun hfree => ?_⟩,
    State.reclassifyAll_step he hp hi, State.reclassifyAll_of_none, ?_⟩
  · rw [hone, if_pos hbehind]
    rfl
  · have hopen := State.opened_of_classificationMark hm
    rw [hone, if_neg (by simpa using hhead),
      if_pos (State.saveNeeded_of_write (e := { e with markNumber := s.classificationMark }) hk hm hlt
        (by simp [hopen]) (by simp [hopen]))]
    rfl
  · rw [hone, if_neg (by simpa using hhead), if_neg (Bool.eq_false_iff.mp (State.saveNeeded_eq_false
      (e := { e with markNumber := s.classificationMark })
      (hfree.imp_right fun h => h.imp_right fun h => .inl h)))]
    rfl
  · obtain ⟨d, hd, hkeep, hleaves⟩ := State.reclassifyAll_entry hp front.length e (by simp [he])
    exact ⟨d, hd, hkeep, fun hs => hleaves hs hi⟩

end Sys2Proof.Safety
end

section
/-! The arbiter: what serving a source takes, waiting while none can be served, and the turn of the source at the top of
the rotation (R114, R115, R117). -/

namespace Sys2Proof.Machine

/-- R117: while no source can be served the arbiter waits. -/
theorem State.grant_of_none {s : State} (h : ∀ source, s.canServe source = false) : s.grant = s := by
  have hnone : s.grantee = none := List.find?_eq_none.mpr fun source _ => by simp [h source]
  simp [State.grant, hnone]

/-- R114: a source that can be served has an offer, and a tag is FREE. -/
theorem State.offer_and_tag_of_canServe {s : State} {source : Source} (h : s.canServe source = true) :
    ∃ offer t, s.offerOf source = some offer ∧ s.freeTag? = some t := by
  simp only [State.canServe, Bool.and_eq_true] at h
  obtain ⟨⟨⟨hoffer, -⟩, htag⟩, -⟩ := h
  obtain ⟨offer, hoffer⟩ := Option.isSome_iff_exists.mp hoffer
  obtain ⟨t, htag⟩ := Option.isSome_iff_exists.mp htag
  exact ⟨offer, t, hoffer, htag⟩

/-- R115: the source at the top moves to the bottom, below which it does not stand already. -/
theorem rotate_top {source : Source} {rest : List Source} (h : source ∉ rest) :
    rotate (source :: rest) source = rest ++ [source] := by
  have hrest : rest.filter (· != source) = rest :=
    List.filter_eq_self.mpr fun x hx => by simpa using fun he : x = source => h (he ▸ hx)
  simp [rotate, hrest]

/-- R115: an issue moves the source that is served in the rotation. -/
theorem State.issue_rotation (s : State) (source : Source) (offer : Offer) (t : TagNo) :
    (s.issue source offer t).down.rotation = rotate s.down.rotation source := by
  simp [State.issue, State.send, State.setTag]

/-- R115: a grant goes to the source at the top of the rotation, where it can be served. -/
theorem State.grant_rotation_of_top {s : State} {source : Source} {rest : List Source}
    (hs : s.canServe source = true) (hrot : s.down.rotation = source :: rest) (h : source ∉ rest) :
    s.grant.down.rotation = rest ++ [source] := by
  obtain ⟨offer, t, hoffer, htag⟩ := State.offer_and_tag_of_canServe hs
  have hgrantee : s.grantee = some source := by simp [State.grantee, hrot, hs]
  have hgrant : s.grant = s.issue source offer t := by simp [State.grant, hgrantee, hoffer, htag]
  rw [hgrant, State.issue_rotation, hrot, rotate_top h]

end Sys2Proof.Machine

namespace Sys2Proof.Safety
open Machine

/-- Settles O18: the test of R114 read off, and a grant with no source to serve or with all three. -/
theorem arbiterServesAndWaits : Obligations.ArbiterServesAndWaits := by
  refine ⟨fun s source => ?_, fun s hnone => ?_, fun s hr hpass hsave hrestore source rest hrot hnot => ?_⟩
  · have hlimit : (source != .passThrough || decide (s.passThroughCount < Config.passThroughTags)) = true ↔
        (source = .passThrough → s.passThroughCount < 56) := by
      by_cases h : source = .passThrough <;> simp [h, Config.passThroughTags]
    rw [State.canServe, Bool.and_eq_true, Bool.and_eq_true, Bool.and_eq_true, hlimit, State.freeTag?_isSome_iff,
      Option.isSome_iff_ne_none, decide_eq_true_iff, and_assoc, and_assoc]
  · have hrun : s.running State.grant = s := by
      unfold State.running
      rw [State.grant_of_none hnone, ite_self]
    exact congrArg Host.Outcome.next hrun
  · have hserve : s.canServe source = true := by cases source <;> assumption
    exact ⟨s.grant, next_running hr _, State.grant_rotation_of_top hserve hrot hnot⟩

end Sys2Proof.Safety
end

section
/-! Credits, stale tags, and the responses that no engine is told of: those to pass-through requests, late ones and stray
ones (R107, R109, R118, R120, R121, R124). -/

namespace Sys2Proof.Machine

/-! ### Credits and stale tags (R109, R124) -/

/-- R109: a returned credit is counted below 255. -/
theorem State.creditReturned_of_room {s : State} (h : s.down.credits < 255) :
    s.creditReturned = s.setDown { s.down with credits := s.down.credits + 1 } :=
  if_pos h

/-- R109: at 255 a returned credit changes nothing. -/
theorem State.creditReturned_of_full {s : State} (h : 255 ≤ s.down.credits) : s.creditReturned = s :=
  if_neg (Nat.not_lt.mpr h)

/-- R124: a STALE tag becomes FREE once its stale period has passed. -/
theorem State.expireStale_of_over {s : State} {t : TagNo} {r : TagRecord} (ht : s.tag t = .stale r)
    (h : 4 * r.timeout ≤ s.now - r.issueTime) : s.expireStale t = s.setTag t .free := by
  simp [State.expireStale, ht, TagRecord.staleOver, h]

/-- R124: before that, and for a tag that is not STALE, nothing happens. -/
theorem State.expireStale_of_not_over {s : State} {t : TagNo}
    (h : ∀ r, s.tag t = .stale r → s.now - r.issueTime < 4 * r.timeout) : s.expireStale t = s := by
  unfold State.expireStale
  split
  · next r ht => exact if_neg (by simpa [TagRecord.staleOver] using h r ht)
  · rfl

/-! ### The data of an upstream response (R118) -/

/-- R118: data of at least the request's length is cut to it. -/
theorem shapeTo_of_le {n : Nat} {bytes : List Byte} (h : n ≤ bytes.length) : shapeTo n bytes = bytes.take n := by
  simp [shapeTo, Nat.sub_eq_zero_of_le h]

/-- R118: shorter data is filled with zeros. -/
theorem shapeTo_of_ge {n : Nat} {bytes : List Byte} (h : bytes.length ≤ n) :
    shapeTo n bytes = bytes ++ List.replicate (n - bytes.length) 0x00#8 := by
  simp [shapeTo, List.take_of_length_le h]

/-! ### Responses by what their tag holds (R118, R121) -/

/-- R118: a pass-through request answered OK. -/
theorem Happening.response_of_passThrough_ok {s : State} {t : TagNo} {r : TagRecord} {requester : RequesterId}
    {tag : UpstreamTag} {kind : RequestKind} {windowWrite : Bool} {length : Nat} (ht : s.tag t = .inUse r)
    (ho : r.origin = .passThrough requester tag kind windowWrite length) (data : Option (List Byte)) :
    (Happening.start s).response t .ok data =
      ⟨(s.setTag t .free).respond ⟨requester, tag, .ok, upstreamData kind length data⟩, []⟩ := by
  simp [Happening.response, ht, ho, Happening.deliverOk, Happening.step, Happening.start]

/-- R118: a pass-through request answered ERROR. -/
theorem Happening.response_of_passThrough_error {s : State} {t : TagNo} {r : TagRecord} {requester : RequesterId}
    {tag : UpstreamTag} {kind : RequestKind} {windowWrite : Bool} {length : Nat} (ht : s.tag t = .inUse r)
    (ho : r.origin = .passThrough requester tag kind windowWrite length) (data : Option (List Byte)) :
    (Happening.start s).response t .error data =
      ⟨(s.setTag t .free).respond ⟨requester, tag, .memError, none⟩, []⟩ := by
  simp [Happening.response, ht, ho, Happening.deliverFailure, Happening.step, Happening.start]

/-- R121: a late response. -/
theorem Happening.response_of_stale {s : State} {t : TagNo} {r : TagRecord} (ht : s.tag t = .stale r)
    (status : LinkStatus) (data : Option (List Byte)) :
    (Happening.start s).response t status data = ⟨s.setTag t .free, [⟨.downstreamPort, .lateResponse t⟩]⟩ := by
  simp [Happening.response, ht, Happening.step, Happening.start, Happening.post]

/-- R121: a stray response. -/
theorem Happening.response_of_free {s : State} {t : TagNo} (ht : s.tag t = .free) (status : LinkStatus)
    (data : Option (List Byte)) :
    (Happening.start s).response t status data = ⟨s, [⟨.downstreamPort, .strayResponse t⟩]⟩ := by
  simp [Happening.response, ht, Happening.start, Happening.post]

/-- Whether the engines have ended is what a happening's steps leave of it (R185). -/
@[simp] theorem enginesDone_happening (s : State) (f : Happening → Happening) :
    (happening s f).enginesDone = (f (Happening.start s)).state.enginesDone := by
  simp [State.enginesDone, State.allContextsFree]

end Sys2Proof.Machine

namespace Sys2Proof.Safety
open Machine

/-- A response in which no engine ends is its happening alone (R185). -/
theorem exec_response_of_same {s : State} {h : Happening} {t : TagNo} {status : LinkStatus} {data : Option (List Byte)}
    (hr : Running s) (hh : (Happening.start s).response t status data = h)
    (hd : h.state.enginesDone = s.enginesDone) :
    exec (.downstreamResponse t status data) s = .next (h.finish s.level) := by
  subst hh
  refine (next_running hr _).trans (congrArg _ (State.reported_of_same ?_))
  rw [enginesDone_happening, hd]

/-- Settles O23: the counter's two cases, and the two of the stale period. -/
theorem creditReturnAndStaleExpiry : Obligations.CreditReturnAndStaleExpiry := by
  intro s hr
  refine ⟨fun h => ?_, fun h => ?_, fun t => ⟨fun r ht h => ?_, fun h => ?_⟩⟩
  · exact (next_running hr _).trans (congrArg _ (State.creditReturned_of_room h))
  · exact (next_running hr _).trans (congrArg _ (State.creditReturned_of_full h))
  · exact (next_running hr _).trans (congrArg _ (State.expireStale_of_over ht h))
  · exact (next_running hr _).trans (congrArg _ (State.expireStale_of_not_over h))

/-- Settles O24: one upstream response, with the data that the request's kind gives it. -/
theorem passThroughResponseAnswered : Obligations.PassThroughResponseAnswered := by
  intro s t r requester tag kind windowWrite length data answered hr ht ho hanswered
  have hok : answered .ok ⟨requester, tag, .ok, upstreamData kind length data⟩ := by
    rw [hanswered]
    exact exec_response_of_same hr (Happening.response_of_passThrough_ok ht ho data) rfl
  have hread {d : List Byte} (hkind : kind = .read) (hd : data.getD [] = d) :
      answered .ok ⟨requester, tag, .ok, some (shapeTo length d)⟩ := by
    subst hkind hd
    exact hok
  refine ⟨?_, fun hkind => ?_, fun hkind => ?_, fun d hkind hdata hlen => ?_, fun d hkind hdata hlen => ?_,
    fun hkind hdata => ?_⟩
  · rw [hanswered]
    exact exec_response_of_same hr (Happening.response_of_passThrough_error ht ho data) rfl
  · subst hkind
    exact hok
  · subst hkind
    exact hok
  · exact shapeTo_of_le hlen ▸ hread hkind (congrArg (·.getD []) hdata)
  · exact shapeTo_of_ge hlen ▸ hread hkind (congrArg (·.getD []) hdata)
  · have hzeros : shapeTo length [] = List.replicate length 0x00#8 := shapeTo_of_ge (Nat.zero_le length)
    exact hzeros ▸ hread hkind (congrArg (·.getD []) hdata)

/-- Settles O25: one notice of the downstream port, at a level that stays. -/
theorem lateAndStrayResponses : Obligations.LateAndStrayResponses := by
  intro s t status data hr
  refine ⟨fun r ht => ?_, fun ht => ?_⟩
  · exact (exec_response_of_same hr (Happening.response_of_stale ht status data) rfl).trans
      (congrArg _ (finish_of_one_post rfl))
  · exact (exec_response_of_same hr (Happening.response_of_free ht status data) rfl).trans
      (congrArg _ (finish_of_one_post rfl))

end Sys2Proof.Safety
end

section
/-! Timeouts that no engine's end follows: those that have not passed, and those of pass-through requests (R122, R123). -/

namespace Sys2Proof.Machine

/-- R122, R123: a tag that is not IN_USE, or whose timeout is 0 or has not passed, does not time out. -/
theorem Happening.timeOut_of_not_due {h : Happening} {t : TagNo}
    (hn : ∀ r, h.state.tag t = .inUse r → r.timeout = 0 ∨ h.state.now - r.issueTime < r.timeout) :
    h.timeOut t = h := by
  unfold Happening.timeOut
  split
  · next r ht =>
    refine if_neg ?_
    rcases hn r ht with h0 | hlt
    · simp [TagRecord.timedOut, h0]
    · simp [TagRecord.timedOut, hlt]
  · rfl

/-- R123: a tag that times out is STALE, its origin takes the failure, and the timeout is counted and posted. -/
theorem Happening.timeOut_of_due {h : Happening} {t : TagNo} {r : TagRecord} (ht : h.state.tag t = .inUse r)
    (h0 : r.timeout ≠ 0) (hdue : r.timeout ≤ h.state.now - r.issueTime) :
    h.timeOut t = (((h.step (·.setTag t (.stale r))).deliverFailure .timeout r.origin).step
      State.countResponseTimedOut).post .downstreamPort (.responseTimeout r.origin.source r.address) := by
  simp [Happening.timeOut, ht, TagRecord.timedOut, h0, hdue]

end Sys2Proof.Machine

namespace Sys2Proof.Safety
open Machine

/-- A timeout in which no engine ends is its happening alone (R185). -/
theorem exec_tagTimeout_of_same {s : State} {h : Happening} {t : TagNo} (hr : Running s)
    (hh : (Happening.start s).timeOut t = h) (hd : h.state.enginesDone = s.enginesDone) :
    exec (.tagTimeout t) s = .next (h.finish s.level) := by
  subst hh
  refine (next_running hr _).trans (congrArg _ (State.timeOutTag_of_not_due ?_))
  have hsame := (enginesDone_happening s fun h => h.timeOut t).trans hd
  cases hs : s.enginesDone <;> simp [State.completesQuiesce, State.quiesceDue, hsame, hs]

/-- A timeout whose origin posts nothing and leaves both engines in the state they were in, at the level it began with. -/
theorem exec_tagTimeout_of_no_post {s v : State} {t : TagNo} {r : TagRecord} (hr : Running s) (ht : s.tag t = .inUse r)
    (h0 : r.timeout ≠ 0) (hdue : r.timeout ≤ s.now - r.issueTime)
    (hv : (⟨s.setTag t (.stale r), []⟩ : Happening).deliverFailure .timeout r.origin = ⟨v, []⟩)
    (hd : v.enginesDone = s.enginesDone) (hl : v.level = s.level) :
    exec (.tagTimeout t) s =
      .next (takePost v.countResponseTimedOut (.responseTimeout r.origin.source r.address) s.level) := by
  have htime : (Happening.start s).timeOut t =
      ⟨v.countResponseTimedOut, [⟨.downstreamPort, .responseTimeout r.origin.source r.address⟩]⟩ := by
    rw [Happening.timeOut_of_due (h := Happening.start s) ht h0 hdue]
    exact congrArg (fun k : Happening => (k.step State.countResponseTimedOut).post .downstreamPort
      (.responseTimeout r.origin.source r.address)) hv
  rw [exec_tagTimeout_of_same hr htime hd, ← hl]
  exact congrArg _ (finish_of_one_post rfl)

end Sys2Proof.Safety
end

section
/-! Timeouts of requests of the save engine (R73, R75, R76, R123). -/

namespace Sys2Proof.Machine

/-- R73: the first granule read that times out. -/
theorem Happening.saveResult_readTimedOut {h : Happening} {c : ContextNo} {x : SaveContext}
    (hc : h.state.context? c = some x) (he : x.error = .noError) (j : Nat) :
    h.saveResult c (.granuleRead j) .timeout =
      h.step fun s => (s.putContext c (x.readFailed .readTimeout)).settleContext c := by
  simp [Happening.saveResult, hc, he, Happening.step]

/-- R75: a record data write or a header write that times out. -/
theorem Happening.saveResult_logWriteTimedOut {h : Happening} {c : ContextNo} {x : SaveContext} {step : SaveStep}
    (hc : h.state.context? c = some x) (hs : ∀ j, step ≠ .granuleRead j) :
    h.saveResult c step .timeout = h.logWriteFailed c x .timeout := by
  cases step with
  | granuleRead j => exact absurd rfl (hs j)
  | dataWrite j => simp [Happening.saveResult, hc]
  | headerWrite => simp [Happening.saveResult, hc]

/-- R20: in RESETTING a break report does not reach the marks. -/
theorem Happening.logWriteFailed_marks_of_resetting {h : Happening} (hs : h.state.marks.state = .resetting)
    (c : ContextNo) (x : SaveContext) (result : Result) :
    (h.logWriteFailed c x result).state.marks = h.state.marks := by
  unfold Happening.logWriteFailed
  dsimp only
  split
  · simp
  · rw [Happening.breakReport_of_other _ (by simp [State.putContext, hs]) (by simp [State.putContext, hs])]
    simp [State.putContext]

/-- In RESETTING the end of a save's request leaves the marks as they are. -/
theorem Happening.saveResult_marks_of_resetting {h : Happening} (hs : h.state.marks.state = .resetting) (c : ContextNo)
    (step : SaveStep) (result : Result) : (h.saveResult c step result).state.marks = h.state.marks := by
  unfold Happening.saveResult
  split
  · rfl
  · split
    · split <;> simp [State.putContext]
    · split <;> simp [State.putContext]
    · split <;> simp [State.putContext]
    · split <;> simp
    · exact Happening.logWriteFailed_marks_of_resetting hs c _ _

/-- R75: the failures of a log write, told from the others. -/
theorem ErrorKind.isWrite_eq_true_iff {kind : ErrorKind} :
    kind.isWrite = true ↔ kind ∈ [.writeError, .writeTimeout] := by
  cases kind <;> decide

theorem ErrorKind.isWrite_eq_false_iff {kind : ErrorKind} :
    kind.isWrite = false ↔ kind ∈ [.noError, .readError, .readTimeout] := by
  cases kind <;> decide

/-- R73: a STALE tag is no outstanding request, as a FREE one is none. -/
theorem State.outstandingOf_setTag_stale (s : State) (t : TagNo) (r : TagRecord) (c : ContextNo) :
    (s.setTag t (.stale r)).outstandingOf c = (s.setTag t .free).outstandingOf c := by
  have hstale := s.tagCount_setTag t (.stale r) (TagEntry.outstandingFor c)
  have hfree := s.tagCount_setTag t .free (TagEntry.outstandingFor c)
  exact Nat.add_right_cancel (hstale.trans hfree.symm)

end Sys2Proof.Machine

namespace Sys2Proof.Safety
open Machine

/-- R73, R75: once tag `t` is STALE, its context has no request outstanding exactly when `t` had its last one. -/
theorem lastRequest_iff_of_stale {s : State} {t : TagNo} {c : ContextNo} {last : Bool} (r : TagRecord)
    (hlast : last = true ↔ LastRequest s t c) : last = true ↔ (s.setTag t (.stale r)).outstandingOf c = 0 := by
  rw [State.outstandingOf_setTag_stale]
  exact lastRequest_iff hlast

/-- R73, R76: a context that failed a read and has put this down settles. -/
theorem settleContext_of_readFailure {s : State} {c : ContextNo} {y : SaveContext} {last : Bool}
    (hs : y.state = .copying) (he : y.error = .readError ∨ y.error = .readTimeout)
    (hlast : last = true ↔ s.outstandingOf c = 0) :
    (s.putContext c y).settleContext c = s.putContext c
      (if last then { y with state := .voiding, headerIssued := false, lines := [] } else y) := by
  have hc : (s.putContext c y).context? c = some y := State.context?_putContext_of_busy (by simp [hs])
  cases last with
  | true => rw [State.settleContext_of_readFailed hc hs he (hlast.mp rfl), State.putContext_putContext, if_pos rfl]
  | false => exact State.settleContext_of_outstanding hc fun hnone => Bool.noConfusion (hlast.mpr hnone)

/-- What a happening of one silent step leaves. -/
theorem LeavesBreak.of_step {leaves : State → List NoticeKind → List NoticeKind → Prop} {h : Happening}
    {f : State → State} {v : State} (hl : LeavesBreak leaves (h.step f)) (hp : h.posts = []) (hv : f h.state = v) :
    leaves v [] [] :=
  hv ▸ hl [] [] hp fun p hp => by cases hp

/-- R123, R185: what the end of a request by timeout brings a busy context, with the posts it makes, is what the timeout
leaves. -/
theorem saveTimeout_leaves {s : State} {t : TagNo} {r : TagRecord} {c : ContextNo} {x : SaveContext} {step : SaveStep}
    (hr : Running s) (ht : s.tag t = .inUse r) (h0 : r.timeout ≠ 0) (hdue : r.timeout ≤ s.now - r.issueTime)
    (ho : r.origin = .save c step) (hc : s.context? c = some x) :
    LeavesBreak (TimeoutLeaves s t .save r.address)
      ((⟨s.setTag t (.stale r), []⟩ : Happening).saveResult c step .timeout) := by
  intro own rest hposts hrest
  have hsource : r.origin.source = .save := by rw [ho]; rfl
  have hleaves := timeoutLeaves_of hr ht h0 hdue (State.enginesDone_of_busy hc)
    ((⟨s.setTag t (.stale r), []⟩ : Happening).saveResult c step .timeout) (by rw [ho]; rfl)
    (keepsLimits_saveResult ⟨s.setTag t (.stale r), []⟩ c step .timeout).resetting (by simp [State.setTag])
    (fun hs => (congrArg (·.stack.length) (Happening.saveResult_marks_of_resetting
      (h := ⟨s.setTag t (.stale r), []⟩) hs c step .timeout)).symm) own (rest.map (·.kind))
  rw [hsource] at hleaves
  refine hleaves fun h hstate hall => ?_
  have htaken := finish_together h own (rest ++ [⟨.downstreamPort, .responseTimeout .save r.address⟩]) s.level
    (fun p hp => ?_) (by rw [hall, hposts, List.append_assoc])
  · rw [List.map_append] at htaken
    rw [hstate] at htaken ⊢
    exact htaken
  · rcases List.mem_append.mp hp with hp | hp
    · simp [hrest p hp]
    · simp [List.mem_singleton.mp hp]

end Sys2Proof.Safety
end

section
/-! Timeouts of requests of the restore engine (R123, R131, R136, R151 to R153). -/

namespace Sys2Proof.Machine

/-! ### A failed request in its walk (R131, R136) -/

/-- The engine once a request of it has ended: one less is outstanding. -/
def RestoreEngine.requestEnded (e : RestoreEngine) : RestoreEngine := { e with outstanding := e.outstanding - 1 }

/-- The engine once a data read or a write-back of its record has failed: the record has failed and its data is dropped
(R136). -/
def RestoreEngine.requestFailed (e : RestoreEngine) : RestoreEngine :=
  { e.requestEnded with linesEnded := e.linesEnded + 1, recordFailed := true, buffer := [] }

/-- A data read or a write-back that belongs to the engine's present record step. -/
def RestoreEngine.InStep (e : RestoreEngine) (step : RestoreStep) : Prop :=
  ∃ j, (step = .dataRead j ∧ e.step = .data) ∨ (step = .writeBack j ∧ e.step = .writeBack)

/-- R131: a header read that fails stops the walk. -/
theorem Happening.restoreResult_headerFailed {h : Happening} {result : Result} (hf : result.failed = true)
    (hs : h.state.restore.step = .header) :
    h.restoreResult .headerRead result = (h.step (·.updateEngine RestoreEngine.requestEnded)).stopWalk := by
  cases result with
  | ok data => cases hf
  | error => simp [Happening.restoreResult, State.updateEngine, hs, RestoreEngine.requestEnded]
  | timeout => simp [Happening.restoreResult, State.updateEngine, hs, RestoreEngine.requestEnded]

/-- R136: a data read or write-back that fails, with requests of its record outstanding or without. -/
theorem Happening.restoreResult_recordFailed {h : Happening} {step : RestoreStep} {result : Result}
    {record : CurrentRecord} (hf : result.failed = true) (hs : h.state.restore.InStep step)
    (hc : h.state.restore.current = some record) :
    h.restoreResult step result =
      if h.state.restore.outstanding - 1 = 0 then
        (h.step (·.updateEngine RestoreEngine.requestFailed)).finishRecord record .failed
      else h.step (·.updateEngine RestoreEngine.requestFailed) := by
  have hended (j : Nat) (isRead : Bool) :
      (h.step (·.updateEngine RestoreEngine.requestEnded)).recordRequestEnded record j isRead result =
        if h.state.restore.outstanding - 1 = 0 then
          (h.step (·.updateEngine RestoreEngine.requestFailed)).finishRecord record .failed
        else h.step (·.updateEngine RestoreEngine.requestFailed) := by
    simp [Happening.recordRequestEnded, hf, State.updateEngine, Happening.step, RestoreEngine.requestFailed,
      RestoreEngine.requestEnded]
  obtain ⟨j, ⟨rfl, hs⟩ | ⟨rfl, hs⟩⟩ := hs
  · rw [← hended j true]
    simp [Happening.restoreResult, State.updateEngine, hs, hc, RestoreEngine.requestEnded]
  · rw [← hended j false]
    simp [Happening.restoreResult, State.updateEngine, hs, hc, RestoreEngine.requestEnded]

/-- A failed request that belongs to nothing the walk is at changes only the count of those outstanding. -/
theorem Happening.restoreResult_of_other {h : Happening} {step : RestoreStep} (result : Result)
    (hh : ¬ (step = .headerRead ∧ h.state.restore.step = .header))
    (hs : ¬ (h.state.restore.InStep step ∧ ∃ record, h.state.restore.current = some record)) :
    h.restoreResult step result = h.step (·.updateEngine RestoreEngine.requestEnded) := by
  unfold Happening.restoreResult
  dsimp only
  split
  · next hstep => exact absurd ⟨rfl, hstep⟩ hh
  · next j record hstep hcurrent => exact absurd ⟨⟨j, .inl ⟨rfl, hstep⟩⟩, record, hcurrent⟩ hs
  · next j record hstep hcurrent => exact absurd ⟨⟨j, .inr ⟨rfl, hstep⟩⟩, record, hcurrent⟩ hs
  · rfl

/-- R123: a request of the restore engine that times out fails as one answered ERROR does. -/
theorem Happening.restoreResult_timeout_eq (h : Happening) (step : RestoreStep) :
    h.restoreResult step .timeout = h.restoreResult step .error := by
  by_cases hh : step = .headerRead ∧ h.state.restore.step = .header
  · obtain ⟨rfl, hs⟩ := hh
    rw [Happening.restoreResult_headerFailed rfl hs, Happening.restoreResult_headerFailed rfl hs]
  by_cases hs : h.state.restore.InStep step ∧ ∃ record, h.state.restore.current = some record
  · obtain ⟨hs, record, hc⟩ := hs
    rw [Happening.restoreResult_recordFailed rfl hs hc, Happening.restoreResult_recordFailed rfl hs hc]
  · rw [Happening.restoreResult_of_other _ hh hs, Happening.restoreResult_of_other _ hh hs]

/-- R136, R143: a record counted failed keeps the first failure offset, or sets it. -/
theorem WalkOutcome.count_failed (o : WalkOutcome) (start : Nat) :
    o.count start .failed =
      { o with failed := o.failed + 1, firstFailure := some (o.firstFailure.getD start) } := by
  cases hf : o.firstFailure <;> simp [WalkOutcome.count, hf]

/-! ### Walks without an end request -/

/-- `f` changes the restore engine alone, to one value whatever the downstream port holds, leaves it in its state and
posts nothing, from `s` on. -/
def WalksOn (s : State) (f : Happening → Happening) : Prop :=
  ∃ e : RestoreEngine, e.state = s.restore.state ∧
    ∀ d, f ⟨s.setDown d, []⟩ = ⟨(s.setDown d).setRestore e, []⟩

/-- R130: without an end request a walk that stops waits for its end to be taken. -/
theorem walksOn_stopWalk {s : State} (he : s.restore.endRequest = .noRequest) : WalksOn s Happening.stopWalk :=
  ⟨{ s.restore with step := .noStep, outcome := { s.restore.outcome with
      stopped := true, stopOffset := some s.restore.position } }, rfl,
    fun d => Happening.stopWalk_of_none (h := ⟨s.setDown d, []⟩) he⟩

/-- R130: without an end request the boundary test leaves the engine at work. -/
theorem walksOn_boundaryTest {s : State} (he : s.restore.endRequest = .noRequest) :
    WalksOn s Happening.boundaryTest := by
  by_cases hp : s.restore.position = s.restore.lowerBound <;> by_cases hr : s.restore.remaining = 0
  · exact ⟨s.restore, rfl, fun d => Happening.boundaryTest_at_end (h := ⟨s.setDown d, []⟩) he hp hr⟩
  · obtain ⟨e, hstate, hstop⟩ := walksOn_stopWalk he
    exact ⟨e, hstate, fun d =>
      (Happening.boundaryTest_mismatch (h := ⟨s.setDown d, []⟩) (.inl ⟨hp, hr⟩)).trans (hstop d)⟩
  · obtain ⟨e, hstate, hstop⟩ := walksOn_stopWalk he
    exact ⟨e, hstate, fun d =>
      (Happening.boundaryTest_mismatch (h := ⟨s.setDown d, []⟩) (.inr ⟨hp, hr⟩)).trans (hstop d)⟩
  · exact ⟨s.beginRecord.restore, rfl, fun d => Happening.boundaryTest_next (h := ⟨s.setDown d, []⟩) he hp hr⟩

/-- A step of the engine before one that walks on walks on. -/
theorem WalksOn.of_step {s : State} {f g : Happening → Happening} {step : RestoreEngine → RestoreEngine}
    (hf : WalksOn (s.setRestore (step s.restore)) f) (hs : (step s.restore).state = s.restore.state)
    (hg : ∀ d, g ⟨s.setDown d, []⟩ = f ((⟨s.setDown d, []⟩ : Happening).step (·.updateEngine step))) :
    WalksOn s g := by
  obtain ⟨e, hstate, hf⟩ := hf
  exact ⟨e, hstate.trans hs, fun d => (hg d).trans (hf d)⟩

/-- R139: without an end request the engine goes on from a record that is finished. -/
theorem walksOn_finishRecord {s : State} (he : s.restore.endRequest = .noRequest) (record : CurrentRecord)
    (how : RecordEnd) : WalksOn s fun h => h.finishRecord record how :=
  .of_step (f := Happening.boundaryTest) (step := fun e => { e with
    outcome := e.outcome.count record.start how, position := record.start, remaining := e.remaining - 1
    expected := e.expected - 1, step := .noStep, headerIssued := false, current := none, buffer := [] })
    (walksOn_boundaryTest he) rfl fun _ => rfl

/-- R131, R136: without an end request the failure of a request of the restore engine leaves the engine at work. -/
theorem walksOn_restoreResult {s : State} (he : s.restore.endRequest = .noRequest) (step : RestoreStep)
    {result : Result} (hf : result.failed = true) : WalksOn s fun h => h.restoreResult step result := by
  by_cases hh : step = .headerRead ∧ s.restore.step = .header
  · obtain ⟨rfl, hs⟩ := hh
    exact .of_step (step := RestoreEngine.requestEnded) (walksOn_stopWalk he) rfl
      fun d => Happening.restoreResult_headerFailed hf hs
  by_cases hs : s.restore.InStep step ∧ ∃ record, s.restore.current = some record
  · obtain ⟨hs, record, hc⟩ := hs
    have hfailed (d : DownstreamPort) :=
      Happening.restoreResult_recordFailed (h := ⟨s.setDown d, []⟩) hf hs hc
    by_cases ho : s.restore.outstanding - 1 = 0
    · have hfinish := walksOn_finishRecord (s := s.setRestore s.restore.requestFailed) he record .failed
      exact .of_step (step := RestoreEngine.requestFailed) hfinish rfl fun d => (hfailed d).trans (if_pos (by exact ho))
    · exact ⟨s.restore.requestFailed, rfl, fun d => (hfailed d).trans (if_neg (by exact ho))⟩
  · exact ⟨s.restore.requestEnded, rfl, fun d =>
      Happening.restoreResult_of_other (h := ⟨s.setDown d, []⟩) result hh hs⟩

end Sys2Proof.Machine

namespace Sys2Proof.Safety
open Machine

/-- R123, R185: what the end of a request by timeout brings a walk, with the post it makes, is what the timeout leaves. -/
theorem restoreTimeout_leaves {s : State} {t : TagNo} {r : TagRecord} {step : RestoreStep} (hr : Running s)
    (ht : s.tag t = .inUse r) (h0 : r.timeout ≠ 0) (hdue : r.timeout ≤ s.now - r.issueTime)
    (ho : r.origin = .restore step) (hw : s.restore.state ≠ .idle) :
    LeavesOne (TimeoutLeaves s t .restore r.address)
      ((⟨s.setTag t (.stale r), []⟩ : Happening).restoreResult step .timeout) := by
  intro own hone hposts
  have hsource : r.origin.source = .restore := by rw [ho]; rfl
  have hbusy : s.enginesDone = false := by
    rw [← Bool.not_eq_true, State.enginesDone_iff]
    exact fun hdone => hw hdone.2
  obtain ⟨hmarks, -⟩ := Happening.restoreResult_keeps ⟨s.setTag t (.stale r), []⟩ step .timeout
  have hlevel : ((⟨s.setTag t (.stale r), []⟩ : Happening).restoreResult step .timeout).state.level = s.level :=
    congrArg (·.stack.length) hmarks
  have hleaves := timeoutLeaves_of hr ht h0 hdue hbusy
    ((⟨s.setTag t (.stale r), []⟩ : Happening).restoreResult step .timeout) (by rw [ho]; rfl)
    (keepsLimits_restoreResult ⟨s.setTag t (.stale r), []⟩ step .timeout).resetting (by simp [State.setTag])
    (fun _ => hlevel.symm) own []
  rw [hsource] at hleaves
  refine hleaves fun h hstate hall => ?_
  have hh : h.state.level = s.level := by rw [hstate]; exact hlevel
  rw [hlevel, ← hh]
  refine finish_beside h own [.responseTimeout .restore r.address] hone (by simp) ?_
  rw [hall, List.map_append, hposts]
  rfl

/-- R131, R151 to R153: a header read that times out. -/
theorem headerTimeout_ends {leaves : State → List NoticeKind → List NoticeKind → Prop} {s : State}
    (hs : s.restore.step = .header)
    (hl : LeavesOne leaves ((⟨s, []⟩ : Happening).restoreResult .headerRead .timeout)) :
    WalkEnds s (stoppedEngine s.restore.requestEnded) leaves := by
  rw [Happening.restoreResult_headerFailed (h := ⟨s, []⟩) rfl hs] at hl
  exact stopWalk_ends _ rfl hl

/-- R136, R139: a data read or a write-back that times out. -/
theorem recordTimeout_fails {leaves : State → List NoticeKind → List NoticeKind → Prop} {s : State}
    {step : RestoreStep} {record : CurrentRecord} (hs : s.restore.InStep step) (hc : s.restore.current = some record)
    (hl : LeavesOne leaves ((⟨s, []⟩ : Happening).restoreResult step .timeout)) :
    RecordFails s { s.restore.requestEnded with linesEnded := s.restore.linesEnded + 1 } record leaves := by
  rw [Happening.restoreResult_recordFailed (h := ⟨s, []⟩) rfl hs hc] at hl
  refine ⟨fun ho => ?_, fun ho => ?_⟩
  · rw [if_neg (by exact ho)] at hl
    exact hl [] (Nat.zero_le _) rfl
  · rw [if_pos (by exact ho)] at hl
    have hfinished := finishRecord_finished _ record .failed rfl hl
    rw [WalkOutcome.count_failed] at hfinished
    exact hfinished

/-- R118, R123: without an end request a request of the restore engine that times out fails as one answered ERROR does. -/
theorem restoreTimeout_as_error {s : State} {t : TagNo} {r : TagRecord} {step : RestoreStep} (hr : Running s)
    (ht : s.tag t = .inUse r) (h0 : r.timeout ≠ 0) (hdue : r.timeout ≤ s.now - r.issueTime)
    (ho : r.origin = .restore step) (he : s.restore.endRequest = .noRequest) :
    ∃ u, exec (.downstreamResponse t .error none) s = .next u ∧ exec (.tagTimeout t) s = .next (takePost
      (State.countResponseTimedOut { u with down := { u.down with tags := s.down.tags.set t (.stale r) } })
      (.responseTimeout .restore r.address) s.level) := by
  obtain ⟨e, hstate, hfailed⟩ := walksOn_restoreResult he step (result := .error) rfl
  have hdone (x : TagEntry) : ((s.setTag t x).setRestore e).enginesDone = s.enginesDone := by
    simp [State.enginesDone, State.allContextsFree, State.setTag, hstate]
  have hanswered : (Happening.start s).response t .error none = ⟨(s.setTag t .free).setRestore e, []⟩ := by
    have htag : (Happening.start s).state.tag t = .inUse r := ht
    simp only [Happening.response, htag, ho]
    exact hfailed _
  have htimedOut : (⟨s.setTag t (.stale r), []⟩ : Happening).deliverFailure .timeout r.origin =
      ⟨(s.setTag t (.stale r)).setRestore e, []⟩ := by
    rw [ho]
    exact (Happening.restoreResult_timeout_eq _ step).trans (hfailed _)
  have hsource : r.origin.source = .restore := by rw [ho]; rfl
  have hexec := exec_tagTimeout_of_no_post hr ht h0 hdue htimedOut (hdone _) rfl
  rw [hsource] at hexec
  exact ⟨_, (exec_response_of_same hr hanswered (hdone _)).trans (congrArg _ (finish_of_no_posts rfl _)), hexec⟩

/-- Settles O26: each origin takes the failure of its request; what it leaves, with the timeout counted and posted, is
what the timeout leaves. -/
theorem tagTimeouts : Obligations.TagTimeouts := by
  intro s t hr
  refine ⟨fun hn => ?_, fun r stale counted ht h0 hdue hstale hcounted => ?_⟩
  · have hsame := Happening.timeOut_of_not_due (h := Happening.start s) hn
    exact (exec_tagTimeout_of_same hr hsame rfl).trans (congrArg _ (finish_of_no_posts rfl _))
  subst hstale hcounted
  refine ⟨fun requester tag kind windowWrite length ho => ?_,
    fun c x step last becomes ho hc hlast hbecomes => ?_, fun step e ho hw he => ?_,
    fun step ho he => restoreTimeout_as_error hr ht h0 hdue ho he⟩
  · have hsource : r.origin.source = .passThrough := by rw [ho]; rfl
    have hexec := exec_tagTimeout_of_no_post hr ht h0 hdue
      (v := (s.setTag t (.stale r)).respond ⟨requester, tag, .memError, none⟩) (by rw [ho]; rfl) rfl rfl
    rw [hsource] at hexec
    exact hexec
  · subst hbecomes
    have hleaves := saveTimeout_leaves hr ht h0 hdue ho hc
    have hbusy : (⟨s.setTag t (.stale r), []⟩ : Happening).state.context? c = some x := hc
    have hout := lastRequest_iff_of_stale r hlast
    refine ⟨?_, fun hstep herror => ?_, fun herror engine hfree => ?_⟩
    · rintro j rfl hs
      refine ⟨fun he => ?_, fun herror => ?_⟩
      · rw [Happening.saveResult_readTimedOut hbusy he] at hleaves
        have hsettled := settleContext_of_readFailure (y := x.readFailed .readTimeout) hs (.inr rfl) hout
        exact hleaves.of_step rfl hsettled
      · have he : x.error = .readError ∨ x.error = .readTimeout := by simpa using herror
        rw [Happening.saveResult_readAfterFailure hbusy (isWrite_of_readFailed he).2] at hleaves
        have hsettled := settleContext_of_readFailure hs he hout
        rw [State.putContext_self hbusy] at hsettled
        exact hleaves.of_step rfl hsettled
    · rw [Happening.saveResult_logWriteTimedOut hbusy hstep] at hleaves
      have hwrite := ErrorKind.isWrite_eq_false_iff.mpr herror
      exact logWriteFailed_leaves ⟨s.setTag t (.stale r), []⟩ rfl .timeout hc hwrite hout hleaves
    · have hwrite := ErrorKind.isWrite_eq_true_iff.mpr herror
      rw [Happening.saveResult_of_writeFailed hbusy hwrite] at hleaves
      have hsettled := settleContext_reported (s := s.setTag t (.stale r)) hc hwrite hout fun _ =>
        freeReported_congr (s := s) rfl (fun _ _ => rfl) hfree
      exact hleaves.of_step rfl hsettled
  · subst he
    have hleaves := restoreTimeout_leaves hr ht h0 hdue ho hw
    refine ⟨?_, fun j record hstep hcurrent => ?_⟩
    · rintro rfl hs
      exact headerTimeout_ends (s := s.setTag t (.stale r)) hs hleaves
    · exact recordTimeout_fails (s := s.setTag t (.stale r)) ⟨j, hstep⟩ hcurrent hleaves

end Sys2Proof.Safety
end

section
/-! What a grant to the restore engine issues (R131, R134, R135, R140, R106, R116). -/

namespace Sys2Proof.Machine

/-- R140: the engine is walking, has fewer than 4 requests outstanding, and its record has not failed. -/
def RestoreEngine.MayAsk (e : RestoreEngine) : Prop :=
  e.state ≠ .idle ∧ e.outstanding < 4 ∧ e.recordFailed = false

/-- R140: nothing holds back the offer of an engine that may ask. -/
theorem RestoreEngine.not_blocked_of_mayAsk {e : RestoreEngine} (h : e.MayAsk) :
    ¬ (e.state = .idle || Config.linesInFlight ≤ e.outstanding || e.recordFailed) = true := by
  obtain ⟨hwalking, hroom, hgood⟩ := h
  simp [hwalking, hgood, Config.linesInFlight, hroom]

/-- R131, R140: the header is read once. -/
theorem RestoreEngine.offer_headerRead {e : RestoreEngine} (h : e.MayAsk) (hs : e.step = .header)
    (hi : e.headerIssued = false) : e.offer = some .headerRead := by
  rw [RestoreEngine.offer, if_neg (not_blocked_of_mayAsk h)]
  simp [hs, hi]

/-- R134, R140: the data lines are read in order. -/
theorem RestoreEngine.offer_dataRead {e : RestoreEngine} {r : CurrentRecord} (h : e.MayAsk) (hs : e.step = .data)
    (hc : e.current = some r) (hi : e.linesIssued < r.granule.bytes / 64) :
    e.offer = some (.dataRead e.linesIssued) := by
  rw [RestoreEngine.offer, if_neg (not_blocked_of_mayAsk h)]
  simp [hs, hc, Granule.lines_eq, hi]

/-- R135, R140: the lines are written back in order. -/
theorem RestoreEngine.offer_writeBack {e : RestoreEngine} {r : CurrentRecord} (h : e.MayAsk) (hs : e.step = .writeBack)
    (hc : e.current = some r) (hi : e.linesIssued < r.granule.bytes / 64) :
    e.offer = some (.writeBack e.linesIssued) := by
  rw [RestoreEngine.offer, if_neg (not_blocked_of_mayAsk h)]
  simp [hs, hc, Granule.lines_eq, hi]

end Sys2Proof.Machine

namespace Sys2Proof.Safety
open Machine

/-- R106, R116: a grant to the restore engine issues its offer, and the engine notes it. -/
theorem grant_restore {s : State} {t : TagNo} {rest : List Source} {step : RestoreStep}
    (h : GrantGoesTo s .restore t rest) (ho : s.restore.offer = some step) :
    exec .arbiterGrant s = .next { (issuedAs s .restore t (.restore step)
        ⟨t, s.mgmt.partRequesterId, (s.restoreRequest step).2, BitVec.ofNat 40 (s.restoreRequest step).1, 64⟩ rest) with
      restore := s.restore.issued step } :=
  grant_of_goes (offer := .restore step) h (fun hp => by cases hp) (by rw [State.offerOf, ho]; rfl)

/-- Settles O22: each case is the engine's offer, issued with the address and the body of its record step. -/
theorem grantIssuesRestoreStep : Obligations.GrantIssuesRestoreStep := by
  intro s t rest h hwalking hroom hgood
  have hask : s.restore.MayAsk := ⟨hwalking, hroom, hgood⟩
  refine ⟨fun hs hi => ?_, fun r hs hc hi => ?_, fun r data hs hc hi hdata => ?_⟩
  · exact grant_restore h (RestoreEngine.offer_headerRead hask hs hi)
  · have hgrant := grant_restore h (RestoreEngine.offer_dataRead hask hs hc hi)
    simp only [State.restoreRequest, hc, Option.map_some, Option.getD_some] at hgrant
    exact hgrant
  · have hgrant := grant_restore h (RestoreEngine.offer_writeBack hask hs hc hi)
    simp only [State.restoreRequest, hc, hdata, Option.map_some, Option.getD_some] at hgrant
    exact hgrant

end Sys2Proof.Safety
end

section
/-! The end of a log check (R150). -/

namespace Sys2Proof.Safety
open Machine

/-- R130 to R132, R150: a walk waits for its end to be taken exactly when it is over. -/
theorem walkEnded_iff (e : RestoreEngine) : e.walkEnded = true ↔ WalkOver e := by
  simp [RestoreEngine.walkEnded, WalkOver]

/-- R150: a check that is over, without an end request, ends with one post of the restore engine. -/
theorem endCheck_of_over {h : Happening} (hc : h.state.restore.state = .checking)
    (hn : h.state.restore.endRequest = .noRequest) (hw : WalkOver h.state.restore) :
    h.endCheck = (h.step (·.setRestore (idleEngine h.state.restore))).post .restoreEngine
      (.checkDone h.state.restore.outcome (if h.state.restore.outcome.stopped then .stopped else .complete)) := by
  rw [Happening.endCheck, if_pos (by simp [State.checkEnded, hc, hn, (walkEnded_iff _).mpr hw])]
  rfl

/-- R150: while the walk is not over, no check ends. -/
theorem endCheck_of_not_over {h : Happening} (hw : ¬ WalkOver h.state.restore) : h.endCheck = h := by
  rw [Happening.endCheck, if_neg]
  simp [State.checkEnded, (walkEnded_iff _).not.mpr hw]

/-- Settles O38: the one post carries the level, which the end of a check leaves as it is. -/
theorem checkEndPostsCheckDone : Obligations.CheckEndPostsCheckDone := by
  intro s hr hc hn
  refine ⟨fun hw => ?_, fun hw => ?_⟩
  · have hend := endCheck_of_over (h := Happening.start s) hc hn hw
    have hpost := happening_of_one_post s Happening.endCheck .restoreEngine _ (by rw [hend]; rfl)
      (.inr (by rw [hend]; rfl))
    rw [hend] at hpost
    exact (next_running hr _).trans (congrArg _ hpost)
  · have hend := endCheck_of_not_over (h := Happening.start s) hw
    have hnone := happening_of_no_post s Happening.endCheck (by rw [hend]; rfl)
    rw [hend] at hnone
    exact (next_running hr _).trans (congrArg _ hnone)

end Sys2Proof.Safety
end

section
/-! Header verification (R132): the nine tests, and the record they give. -/

namespace Sys2Proof.Safety
open Machine

/-- R192: the kind codes. -/
theorem kindOfCode_eq_some (code : Byte) (kind : RecordKind) :
    RecordKind.ofCode code = some kind ↔ (code = 1#8 ∧ kind = .saved) ∨ (code = 2#8 ∧ kind = .void) := by
  have hone : code = 1#8 ↔ code.toNat = 1 := BitVec.toNat_inj.symm
  have htwo : code = 2#8 ↔ code.toNat = 2 := BitVec.toNat_inj.symm
  rw [hone, htwo, RecordKind.ofCode]
  split
  · next h => simp [h, eq_comm]
  · next h => simp [h, eq_comm]
  · next h1 h2 => simp [show code.toNat ≠ 1 from h1, show code.toNat ≠ 2 from h2]

/-- R132: the window unit's two tests, and the granule's map index (R39). -/
theorem checkGranule_eq_some (s : State) (number : Nat) (g : Granule) (a : Nat) (w : WindowNo) (i : Nat) :
    s.checkGranule number g a = some (w, i) ↔
      number = w.val ∧ (s.window w).enabled = true ∧ Granule.ofCode (s.window w).code = some g ∧
      (s.window w).base.toNat ≤ a ∧ a < (s.window w).rangeEnd ∧ a % g.bytes = 0 ∧
      i = (s.window w).mapOffset + (a - (s.window w).base.toNat) / g.bytes := by
  have htests (w : WindowNo) : ((s.window w).enabled && Granule.ofCode (s.window w).code == some g &&
      (s.window w).covers a && a % g.bytes == 0) = true ↔
      (s.window w).enabled = true ∧ Granule.ofCode (s.window w).code = some g ∧
      ((s.window w).base.toNat ≤ a ∧ a < (s.window w).rangeEnd) ∧ a % g.bytes = 0 := by
    simp [WindowRecord.covers, and_assoc]
  unfold State.checkGranule
  dsimp only
  constructor
  · intro h
    split at h
    · split at h
      · next hn ht =>
        obtain ⟨he, hg, ⟨hlow, hhigh⟩, ha⟩ := (htests _).mp ht
        simp only [Option.some.injEq, Prod.mk.injEq] at h
        obtain ⟨rfl, rfl⟩ := h
        exact ⟨rfl, he, hg, hlow, hhigh, ha, indexOf_of_granule hg a⟩
      · cases h
    · cases h
  · rintro ⟨rfl, he, hg, hlow, hhigh, ha, rfl⟩
    rw [dif_pos w.isLt, if_pos ((htests w).mpr ⟨he, hg, ⟨hlow, hhigh⟩, ha⟩), indexOf_of_granule hg]

/-- R132: the tests of the header alone: magic, version, header check and sequence. -/
def HeaderMatches (s : State) (bytes : Line) : Prop :=
  leField bytes 0 4 = headerMagic ∧ byteAt bytes 4 = 1#8 ∧ leField bytes 60 4 = crc32 (bytes.take 60) ∧
    leField bytes 16 4 = s.restore.expected

/-- R132: the tests against the walk: the span the record takes, and its mark number. -/
def HeaderInWalk (s : State) (bytes : Line) (g : Granule) : Prop :=
  s.restore.lowerBound + 64 + g.bytes ≤ s.restore.position ∧
    s.restore.lowerMark ≤ leField bytes 12 4 ∧ leField bytes 12 4 ≤ s.restore.lastIssued

/-- R132: verification finds a record exactly when each group of tests holds and the record has the header's values. -/
theorem verifyHeader_eq_some (s : State) (bytes : Line) (r : CurrentRecord) :
    s.verifyHeader bytes = some r ↔ HeaderMatches s bytes ∧ RecordKind.ofCode (byteAt bytes 5) = some r.kind ∧
      Granule.ofCode (byteAt bytes 6) = some r.granule ∧ HeaderInWalk s bytes r.granule ∧
      s.checkGranule (byteAt bytes 7).toNat r.granule (leField bytes 20 5) = some (r.window, r.index) ∧
      r.start = s.restore.position - 64 - r.granule.bytes ∧
      r.granuleAddress = BitVec.ofNat 40 (leField bytes 20 5) ∧ r.dataCheck = leField bytes 28 4 := by
  have hmatch : (leField bytes 0 4 = headerMagic && (byteAt bytes 4).toNat = 1 &&
      leField bytes 60 4 = crc32 (bytes.take 60) && leField bytes 16 4 = s.restore.expected) = true ↔
      HeaderMatches s bytes := by
    have hone : byteAt bytes 4 = 1#8 ↔ (byteAt bytes 4).toNat = 1 := BitVec.toNat_inj.symm
    simp [HeaderMatches, hone, and_assoc]
  have hwalk (g : Granule) : (s.restore.lowerBound + 64 + g.bytes ≤ s.restore.position &&
      s.restore.lowerMark ≤ leField bytes 12 4 && leField bytes 12 4 ≤ s.restore.lastIssued) = true ↔
      HeaderInWalk s bytes g := by
    simp [HeaderInWalk, and_assoc]
  unfold State.verifyHeader
  dsimp only
  constructor
  · intro h
    split at h
    · next hm =>
      refine ⟨hmatch.mp hm, ?_⟩
      split at h
      · next kind g hkind hgranule =>
        split at h
        · next hw =>
          split at h
          · next w i hcheck =>
            obtain rfl := Option.some.inj h
            exact ⟨hkind, hgranule, (hwalk g).mp hw, hcheck, rfl, rfl, rfl⟩
          · cases h
        · cases h
      · cases h
    · cases h
  · rintro ⟨hm, hkind, hgranule, hw, hcheck, hstart, haddress, hdata⟩
    rw [if_pos (hmatch.mpr hm), hkind, hgranule]
    dsimp only
    rw [if_pos ((hwalk r.granule).mpr hw), hcheck]
    dsimp only
    rw [← hstart, ← haddress, ← hdata]

end Sys2Proof.Safety
end

section
/-! Responses to requests of the restore engine (R118, R185), and what each answer to a header read leads to (R131 to
R134). -/

namespace Sys2Proof.Machine

/-- R118: a response frees its tag and brings the restore engine its result. -/
theorem Happening.response_of_restore {s : State} {t : TagNo} {r : TagRecord} {step : RestoreStep}
    (ht : s.tag t = .inUse r) (ho : r.origin = .restore step) (status : LinkStatus) (data : Option (List Byte)) :
    (Happening.start s).response t status data =
      (⟨s.setTag t .free, []⟩ : Happening).restoreResult step (responseResult data status) := by
  have htag : (Happening.start s).state.tag t = .inUse r := ht
  cases status <;> simp only [Happening.response, htag, ho] <;> rfl

/-- With the restore engine walking, the engines have not both ended (R185). -/
theorem State.enginesDone_of_walking {s : State} (hw : s.restore.state ≠ .idle) : s.enginesDone = false := by
  rw [← Bool.not_eq_true, State.enginesDone_iff]
  exact fun hdone => hw hdone.2

/-- R131: a header read answered OK while the walk waits for it. -/
theorem Happening.restoreResult_headerRead {h : Happening} (hs : h.state.restore.step = .header) (bytes : Line) :
    h.restoreResult .headerRead (.ok bytes) =
      (h.step (·.updateEngine RestoreEngine.requestEnded)).headerArrived bytes := by
  simp [Happening.restoreResult, State.updateEngine, hs, RestoreEngine.requestEnded]

/-- R132: a header that does not verify stops the walk. -/
theorem Happening.headerArrived_of_none {h : Happening} {bytes : Line} (hv : h.state.verifyHeader bytes = none) :
    h.headerArrived bytes = h.stopWalk := by
  rw [Happening.headerArrived, hv]

/-- R134: a SAVED header leads to its data. -/
theorem Happening.headerArrived_of_saved {h : Happening} {bytes : Line} {record : CurrentRecord}
    (hv : h.state.verifyHeader bytes = some record) (hk : record.kind = .saved) :
    h.headerArrived bytes = h.step (·.updateEngine fun e => { e with
      step := .data, current := some record, buffer := []
      linesIssued := 0, linesEnded := 0, recordFailed := false }) := by
  simp only [Happening.headerArrived, hv, hk]

/-- R133: a VOID header finishes its record as skipped. -/
theorem Happening.headerArrived_of_void {h : Happening} {bytes : Line} {record : CurrentRecord}
    (hv : h.state.verifyHeader bytes = some record) (hk : record.kind = .void) :
    h.headerArrived bytes = h.finishRecord record .skipped := by
  simp only [Happening.headerArrived, hv, hk]

end Sys2Proof.Machine

namespace Sys2Proof.Safety
open Machine

/-- A happening whose level stays, with at most one post (R158). -/
theorem finish_at_most_one {h : Happening} {own : List NoticeKind} (hone : own.length ≤ 1)
    (hposts : h.posts.map (·.kind) = own) :
    TakenTogether h.state (h.finish h.state.level) own [] h.state.level h.state.level := by
  by_cases hn : own = []
  · subst hn
    rw [finish_of_no_posts (List.map_eq_nil_iff.mp hposts)]
    exact takenTogether_own h.state [] h.state.level
  · exact finish_beside h own [] hone (by simpa using hn) (by simpa using hposts)

/-- R118, R185: the result a response brings a walk, with the post it makes, is what the response leaves. -/
theorem restoreResult_leaves {s : State} {t : TagNo} {r : TagRecord} {step : RestoreStep} (hr : Running s)
    (ht : s.tag t = .inUse r) (ho : r.origin = .restore step) (hw : s.restore.state ≠ .idle) (status : LinkStatus)
    (data : Option (List Byte)) :
    LeavesOne (ResponseLeaves s t status data)
      ((⟨s.setTag t .free, []⟩ : Happening).restoreResult step (responseResult data status)) := by
  intro own hone hposts
  have hkeeps := keepsLimits_happening (f := fun h => h.response t status data)
    (keepsLimits_response (Happening.start s) t status data)
  obtain ⟨hmarks, -⟩ :=
    Happening.restoreResult_keeps ⟨s.setTag t .free, []⟩ step (responseResult data status)
  refine responseLeaves_of hr (State.enginesDone_of_walking hw) rfl (hkeeps.low.trans hr) (mt hkeeps.resetting.mp) ?_
  have hlevel : s.level =
      ((⟨s.setTag t .free, []⟩ : Happening).restoreResult step (responseResult data status)).state.level :=
    (congrArg (·.stack.length) hmarks).symm
  rw [happening, Happening.response_of_restore ht ho, hlevel]
  exact finish_at_most_one hone hposts

/-- R118, R185: a response that leaves the engine walking, posts nothing and changes nothing else. -/
theorem exec_response_walks {s : State} {t : TagNo} {r : TagRecord} {step : RestoreStep} {status : LinkStatus}
    {data : Option (List Byte)} {e : RestoreEngine} (hr : Running s) (ht : s.tag t = .inUse r)
    (ho : r.origin = .restore step) (hw : s.restore.state ≠ .idle) (he : e.state = s.restore.state)
    (hresult : (⟨s.setTag t .free, []⟩ : Happening).restoreResult step (responseResult data status) =
      ⟨(s.setTag t .free).setRestore e, []⟩) :
    exec (.downstreamResponse t status data) s = .next { (tagFreed s t) with restore := e } := by
  have hdone : ((s.setTag t .free).setRestore e).enginesDone = s.enginesDone := by
    rw [State.enginesDone_of_walking hw]
    exact State.enginesDone_of_walking (by simpa [he] using hw)
  rw [exec_response_of_same hr ((Happening.response_of_restore ht ho status data).trans hresult) hdone,
    finish_of_no_posts rfl]
  rfl

/-- Settles O30: the tests of verification, and the three ways a header read goes on. -/
theorem headerVerification : Obligations.HeaderVerification := by
  refine ⟨fun s bytes r => ?_, fun s t r bytes data e hr ht ho hw hs hlen he => ?_⟩
  · rw [verifyHeader_eq_some, kindOfCode_eq_some, checkGranule_eq_some]
    constructor
    · rintro ⟨⟨hmagic, hversion, hcheck, hsequence⟩, hkind, hgranule, ⟨hspan, hlow, hhigh⟩,
        ⟨hnumber, henabled, hcode, hfrom, hto, haligned, hindex⟩, hstart, haddress, hdata⟩
      exact ⟨hmagic, hversion, hcheck, hsequence, hkind, hgranule, hspan, hlow, hhigh, hnumber, henabled, hcode, hfrom,
        hto, haligned, hstart, haddress, hindex, hdata⟩
    · rintro ⟨hmagic, hversion, hcheck, hsequence, hkind, hgranule, hspan, hlow, hhigh, hnumber, henabled, hcode, hfrom,
        hto, haligned, hstart, haddress, hindex, hdata⟩
      exact ⟨⟨hmagic, hversion, hcheck, hsequence⟩, hkind, hgranule, ⟨hspan, hlow, hhigh⟩,
        ⟨hnumber, henabled, hcode, hfrom, hto, haligned, hindex⟩, hstart, haddress, hdata⟩
  subst he
  have harrived : (⟨s.setTag t .free, []⟩ : Happening).restoreResult .headerRead (responseResult (some bytes) .ok) =
      ((⟨s.setTag t .free, []⟩ : Happening).step (·.updateEngine RestoreEngine.requestEnded)).headerArrived bytes := by
    rw [responseResult, Option.getD_some, shapeTo_of_length hlen]
    exact Happening.restoreResult_headerRead hs bytes
  have hleaves := restoreResult_leaves hr ht ho hw .ok (some bytes)
  rw [harrived] at hleaves
  refine ⟨fun hv => ?_, ?_, fun record hv hk => ?_, fun record hv hk => ?_⟩
  · rw [Happening.headerArrived_of_none hv] at hleaves
    exact stopWalk_ends _ rfl hleaves
  · have hfailed := restoreResult_leaves hr ht ho hw .error data
    rw [responseResult, Happening.restoreResult_headerFailed rfl hs] at hfailed
    exact stopWalk_ends _ rfl hfailed
  · exact exec_response_walks hr ht ho hw rfl (harrived.trans (Happening.headerArrived_of_saved hv hk))
  · rw [Happening.headerArrived_of_void hv hk] at hleaves
    exact finishRecord_finished _ record .skipped rfl hleaves

end Sys2Proof.Safety
end

section
/-! The data reads and write-backs of a record, from each response to the end of the record (R134 to R136, R139). -/

namespace Sys2Proof.Machine

/-- The engine once data line `j` of its record has returned OK: the line is in the record buffer (R134). -/
def RestoreEngine.lineRead (e : RestoreEngine) (j : Nat) (line : Line) : RestoreEngine :=
  { e.requestEnded with linesEnded := e.linesEnded + 1, buffer := e.buffer ++ [(j, line)] }

/-- The engine once a write-back of its record has been acknowledged OK (R135). -/
def RestoreEngine.lineRestored (e : RestoreEngine) : RestoreEngine :=
  { e.requestEnded with linesEnded := e.linesEnded + 1 }

/-! ### What a response leads to (R134 to R136) -/

/-- R134: the last data line leads to the data check. -/
theorem Happening.restoreResult_lineRead {h : Happening} {record : CurrentRecord}
    (hs : h.state.restore.step = .data) (hc : h.state.restore.current = some record)
    (hgood : h.state.restore.recordFailed = false) (j : Nat) (line : Line) :
    h.restoreResult (.dataRead j) (.ok line) =
      if h.state.restore.linesEnded + 1 = record.granule.bytes / 64 then
        (h.step (·.updateEngine (·.lineRead j line))).checkData record
      else h.step (·.updateEngine (·.lineRead j line)) := by
  simp [Happening.restoreResult, Happening.recordRequestEnded, Result.failed, State.updateEngine, Happening.step,
    RestoreEngine.lineRead, RestoreEngine.requestEnded, Granule.lines_eq, hs, hc, hgood]

/-- R135: the last write-back restores the record. -/
theorem Happening.restoreResult_lineRestored {h : Happening} {record : CurrentRecord}
    (hs : h.state.restore.step = .writeBack) (hc : h.state.restore.current = some record)
    (hgood : h.state.restore.recordFailed = false) (j : Nat) (line : Line) :
    h.restoreResult (.writeBack j) (.ok line) =
      if h.state.restore.linesEnded + 1 = record.granule.bytes / 64 then
        (h.step (·.updateEngine RestoreEngine.lineRestored)).restored record
      else h.step (·.updateEngine RestoreEngine.lineRestored) := by
  simp [Happening.restoreResult, Happening.recordRequestEnded, Result.failed, State.updateEngine, Happening.step,
    RestoreEngine.lineRestored, RestoreEngine.requestEnded, Granule.lines_eq, hs, hc, hgood]

/-- R136: once a record has failed, its requests end alike, whatever they end with. -/
theorem Happening.recordRequestEnded_of_failed {h : Happening} (hf : h.state.restore.recordFailed = true)
    (record : CurrentRecord) (j : Nat) (isRead : Bool) (result : Result) :
    h.recordRequestEnded record j isRead result = h.recordRequestEnded record j isRead .error := by
  simp [Happening.recordRequestEnded, hf]

/-- R136: the requests of a failed record end as one answered ERROR does. -/
theorem Happening.restoreResult_of_failed {h : Happening} {step : RestoreStep} {record : CurrentRecord}
    (hs : h.state.restore.InStep step) (hc : h.state.restore.current = some record)
    (hf : h.state.restore.recordFailed = true) (result : Result) :
    h.restoreResult step result = h.restoreResult step .error := by
  have hended := Happening.recordRequestEnded_of_failed
    (h := h.step (·.updateEngine RestoreEngine.requestEnded)) hf record
  obtain ⟨j, ⟨rfl, hs⟩ | ⟨rfl, hs⟩⟩ := hs
  · simpa [Happening.restoreResult, State.updateEngine, hs, hc, RestoreEngine.requestEnded] using hended j true result
  · simpa [Happening.restoreResult, State.updateEngine, hs, hc, RestoreEngine.requestEnded] using hended j false result

/-! ### The data check (R134) -/

/-- The data check holds: the buffer's bytes in line order have the data check of the header. -/
def RestoreEngine.DataIntact (e : RestoreEngine) (record : CurrentRecord) : Prop :=
  crc32 ((List.range (record.granule.bytes / 64)).flatMap fun k => (e.buffer.lookup k).getD []) = record.dataCheck

theorem RestoreEngine.dataIntact_iff (e : RestoreEngine) (record : CurrentRecord) :
    e.DataIntact record ↔ crc32 (bufferBytes e.buffer record.granule.lines) = record.dataCheck := by
  rw [Granule.lines_eq]
  rfl

/-- R134, R135: intact data is written back in a rollback. -/
theorem Happening.checkData_of_restoring {h : Happening} {record : CurrentRecord}
    (hd : h.state.restore.DataIntact record) (hs : h.state.restore.state = .restoring) :
    h.checkData record =
      h.step (·.updateEngine fun e => { e with step := .writeBack, linesIssued := 0, linesEnded := 0 }) := by
  rw [Happening.checkData, if_pos ((RestoreEngine.dataIntact_iff _ _).mp hd), if_pos hs]

/-- R134: intact data finishes its record as good in a check. -/
theorem Happening.checkData_of_checking {h : Happening} {record : CurrentRecord}
    (hd : h.state.restore.DataIntact record) (hs : h.state.restore.state = .checking) :
    h.checkData record = h.finishRecord record .good := by
  rw [Happening.checkData, if_pos ((RestoreEngine.dataIntact_iff _ _).mp hd), if_neg (by simp [hs])]

/-- R134: other data finishes its record as failed. -/
theorem Happening.checkData_of_not_intact {h : Happening} {record : CurrentRecord}
    (hd : ¬ h.state.restore.DataIntact record) : h.checkData record = h.finishRecord record .failed := by
  rw [Happening.checkData, if_neg (mt (RestoreEngine.dataIntact_iff _ _).mpr hd)]

end Sys2Proof.Machine

namespace Sys2Proof.Safety
open Machine

/-- R136, R139: a request that fails a record, or ends in a record that has failed. -/
theorem recordFails_of_result {leaves : State → List NoticeKind → List NoticeKind → Prop} {s : State}
    {step : RestoreStep} {record : CurrentRecord} {result : Result} (hs : s.restore.InStep step)
    (hc : s.restore.current = some record) (hf : result = .error ∨ s.restore.recordFailed = true)
    (hl : LeavesOne leaves ((⟨s, []⟩ : Happening).restoreResult step result)) :
    RecordFails s { s.restore.requestEnded with linesEnded := s.restore.linesEnded + 1 } record leaves := by
  have herror :
      (⟨s, []⟩ : Happening).restoreResult step result = (⟨s, []⟩ : Happening).restoreResult step .timeout := by
    rw [Happening.restoreResult_timeout_eq]
    rcases hf with rfl | hf
    · rfl
    · exact Happening.restoreResult_of_failed hs hc hf result
  rw [herror] at hl
  exact recordTimeout_fails hs hc hl

/-- R134, R139: the data check finishes its record, but for intact data in a rollback. -/
theorem checkData_finished {leaves : State → List NoticeKind → List NoticeKind → Prop} {h : Happening}
    {record : CurrentRecord} (hp : h.posts = []) (hl : LeavesOne leaves (h.checkData record)) :
    (h.state.restore.DataIntact record → h.state.restore.state = .checking →
      RecordFinished h.state h.state.restore record.start
        { h.state.restore.outcome with good := h.state.restore.outcome.good + 1 } leaves) ∧
    (¬ h.state.restore.DataIntact record → RecordFinished h.state h.state.restore record.start
      { h.state.restore.outcome with
        failed := h.state.restore.outcome.failed + 1
        firstFailure := some (h.state.restore.outcome.firstFailure.getD record.start) } leaves) := by
  refine ⟨fun hd hs => ?_, fun hd => ?_⟩
  · rw [Happening.checkData_of_checking hd hs] at hl
    exact finishRecord_finished h record .good hp hl
  · rw [Happening.checkData_of_not_intact hd] at hl
    have hfinished := finishRecord_finished h record .failed hp hl
    rw [WalkOutcome.count_failed] at hfinished
    exact hfinished

/-- Settles O31: each response moves the record on, fails it, or finishes it as the data check and the write-backs say. -/
theorem recordsAreReadRestoredAndFinished : Obligations.RecordsAreReadRestoredAndFinished := by
  refine ⟨fun map i hwf j => mapRead_mapWrite hwf i 0 j, ?_⟩
  intro s t r j record data line e failed isRead finishes hr ht hw hc hrequest hlen he hfailed hfinishes
  subst he hfailed hfinishes
  refine ⟨fun hread hgood => ?_, fun hwrite hgood => ?_, fun status hstatus => ?_⟩
  · obtain ⟨ho, hs⟩ : r.origin = .restore (.dataRead j) ∧ s.restore.step = .data := by
      rcases hrequest with ⟨ho, hs, -⟩ | ⟨-, -, rfl⟩
      · exact ⟨ho, hs⟩
      · exact hread.elim
    have hresult := Happening.restoreResult_lineRead (h := ⟨s.setTag t .free, []⟩) hs hc hgood j line
    have hanswer : responseResult (some line) .ok = .ok line := by
      rw [responseResult, Option.getD_some, shapeTo_of_length hlen]
    have hleaves := restoreResult_leaves hr ht ho hw .ok (some line)
    rw [← hanswer] at hresult
    refine ⟨fun hmore => exec_response_walks hr ht ho hw rfl (hresult.trans (if_neg hmore)), ?_⟩
    rintro hlast content rfl
    have hcheck := hresult.trans (if_pos hlast)
    rw [hcheck] at hleaves
    obtain ⟨hgoodEnd, hfailedEnd⟩ := checkData_finished rfl hleaves
    refine ⟨fun hintact => ⟨fun hrestoring => ?_, hgoodEnd hintact⟩, hfailedEnd⟩
    exact exec_response_walks hr ht ho hw rfl (hcheck.trans (Happening.checkData_of_restoring hintact hrestoring))
  · obtain ⟨ho, hs⟩ : r.origin = .restore (.writeBack j) ∧ s.restore.step = .writeBack := by
      rcases hrequest with ⟨-, -, rfl⟩ | ⟨ho, hs, -⟩
      · exact (hwrite trivial).elim
      · exact ⟨ho, hs⟩
    have hresult := Happening.restoreResult_lineRestored (h := ⟨s.setTag t .free, []⟩) hs hc hgood j
      (shapeTo 64 (data.getD []))
    refine ⟨fun hmore => exec_response_walks hr ht ho hw rfl (hresult.trans (if_neg hmore)), fun hlast => ?_⟩
    have hleaves := restoreResult_leaves hr ht ho hw .ok data
    rw [responseResult, hresult.trans (if_pos hlast)] at hleaves
    exact finishRecord_finished _ record .good rfl hleaves
  · obtain ⟨step, ho, hs⟩ : ∃ step, r.origin = .restore step ∧ s.restore.InStep step := by
      rcases hrequest with ⟨ho, hs, -⟩ | ⟨ho, hs, -⟩
      · exact ⟨_, ho, j, .inl ⟨rfl, hs⟩⟩
      · exact ⟨_, ho, j, .inr ⟨rfl, hs⟩⟩
    have hleaves := restoreResult_leaves hr ht ho hw status data
    exact recordFails_of_result (s := s.setTag t .free) hs hc (hstatus.imp_left fun he => by rw [he]; rfl) hleaves

end Sys2Proof.Safety
end

section
/-! The notice unit (08): a post taken or dropped (R160, R161), and that every step keeps at most 32 records with
consecutive sequence numbers, and counters within 32 bits (R159 to R161, R168). -/

namespace Sys2Proof.Safety

open Machine

/-! ### NOTICE_N and one post (R160, R161, R164) -/

/-- R164, R165: where the quiet timer has just been restarted, NOTICE_N follows the trigger condition alone. -/
theorem updateLine_of_restarted (s : State) (h : s.notice.quietStart = s.now) :
    s.updateLine = { s with notice := { s.notice with
      asserted := decide (s.mgmt.noticeTrigger ≤ s.notice.queue.length) } } := by
  have hquiet : ¬ (1 ≤ s.notice.queue.length ∧ s.mgmt.noticeQuiet ≠ 0 ∧
      s.mgmt.noticeQuiet ≤ s.now - s.notice.quietStart) := by
    rintro ⟨-, hon, hpassed⟩
    omega
  rw [updateLine_eq, decide_eq_decide.mpr (or_iff_left hquiet)]

/-- Settles O9: R160 gives the accepted post, R161 the dropped one. -/
theorem noticePostAcceptedOrDropped : Obligations.NoticePostAcceptedOrDropped := by
  refine fun s kind level => ⟨fun h => ?_, fun h => takePost_dropped s kind level h⟩
  rw [takePost_accepted s kind level h, updateLine_of_restarted _ rfl]
  exact ⟨_, rfl, rfl, rfl, rfl, rfl, rfl, by simp⟩

/-! ### The queue (R159 to R162) -/

/-- R159 to R161: what the invariant says of the queue, the notice sequence and the loss count. -/
def QueueOk (n : NoticeUnit) : Prop :=
  n.queue.length ≤ 32 ∧ n.nextSequence < 65536 ∧ n.loss ≤ 255 ∧
  ∀ i r, n.queue[i]? = some r →
    r.sequence < 65536 ∧ (r.sequence + (n.queue.length - i)) % 65536 = n.nextSequence ∧ r.lossBefore ≤ 255

/-- R160: the accepted record takes the notice sequence, and every other record stands one place further from it. -/
theorem QueueOk.accept {n : NoticeUnit} (h : QueueOk n) (hroom : n.queue.length < 32) (kind : NoticeKind)
    (level now : Nat) (counters : Counters) (asserted : Bool) :
    QueueOk ⟨n.queue ++ [⟨kind, n.nextSequence, n.loss, level⟩], (n.nextSequence + 1) % 65536, 0, now, counters,
      asserted⟩ := by
  obtain ⟨-, hnext, hloss, hrec⟩ := h
  refine ⟨by simpa using hroom, Nat.mod_lt _ (by decide), Nat.zero_le _, fun i r hr => ?_⟩
  simp only [List.length_append, List.length_singleton]
  rcases Nat.lt_or_ge i n.queue.length with hold | hnew
  · rw [List.getElem?_append_left hold] at hr
    obtain ⟨hseq, horder, hl⟩ := hrec i r hr
    exact ⟨hseq, by omega, hl⟩
  · rw [List.getElem?_append_right hnew, List.getElem?_singleton] at hr
    split at hr
    · cases hr
      exact ⟨hnext, by dsimp only; omega, hloss⟩
    · cases hr

/-- R161: a dropped post raises the loss count up to 255. -/
theorem QueueOk.drop {n : NoticeUnit} (h : QueueOk n) :
    QueueOk { n with loss := if n.loss < 255 then n.loss + 1 else 255 } := by
  obtain ⟨hlen, hnext, -, hrec⟩ := h
  exact ⟨hlen, hnext, by dsimp only; split <;> omega, hrec⟩

/-- R162: the front record leaves, and every other one keeps its distance from the notice sequence. -/
theorem QueueOk.takeFront {n : NoticeUnit} (h : QueueOk n) {front : NoticeRecord} {rest : List NoticeRecord}
    (hq : n.queue = front :: rest) (now : Nat) (asserted : Bool) :
    QueueOk { n with queue := rest, quietStart := now, asserted := asserted } := by
  obtain ⟨hlen, hnext, hloss, hrec⟩ := h
  rw [hq, List.length_cons] at hlen
  refine ⟨(Nat.lt_of_succ_le hlen).le, hnext, hloss, fun i r hr => ?_⟩
  have hplace := hrec (i + 1) r (by rw [hq]; exact hr)
  rwa [hq, List.length_cons, Nat.add_sub_add_right] at hplace

/-! ### The counters (R168) -/

/-- R168: each counter fits 32 bits. -/
structure CountersFit (c : Counters) : Prop where
  savesCompleted : c.savesCompleted ≤ Config.max32
  savesFailed : c.savesFailed ≤ Config.max32
  writesHeld : c.writesHeld ≤ Config.max32
  requestsDenied : c.requestsDenied ≤ Config.max32
  responsesTimedOut : c.responsesTimedOut ≤ Config.max32
  recordsRestored : c.recordsRestored ≤ Config.max32

theorem bump_of_lt {n : Nat} (h : n < Config.max32) : bump n = n + 1 := if_pos h

theorem bump_of_le {n : Nat} (h : Config.max32 ≤ n) : bump n = n := if_neg (Nat.not_lt.mpr h)

theorem bump_le {n : Nat} (h : n ≤ Config.max32) : bump n ≤ Config.max32 := by
  rcases Nat.lt_or_ge n Config.max32 with hlt | hge
  · rw [bump_of_lt hlt]
    exact hlt
  · rw [bump_of_le hge]
    exact h

theorem countersFit_reset : CountersFit Counters.reset := by
  constructor <;> exact Nat.zero_le _

/-! ### The invariant -/

theorem noticeUnitOk_iff (s : State) : NoticeUnitOk s ↔ QueueOk s.notice ∧ CountersFit s.notice.counters := by
  constructor
  · rintro ⟨hlen, hnext, hloss, hrec, hcompleted, hfailed, hheld, hdenied, htimedOut, hrestored⟩
    exact ⟨⟨hlen, hnext, hloss, hrec⟩, hcompleted, hfailed, hheld, hdenied, htimedOut, hrestored⟩
  · rintro ⟨⟨hlen, hnext, hloss, hrec⟩, hcompleted, hfailed, hheld, hdenied, htimedOut, hrestored⟩
    exact ⟨hlen, hnext, hloss, hrec, hcompleted, hfailed, hheld, hdenied, htimedOut, hrestored⟩

namespace NoticeUnitOk

theorem queue {s : State} (ok : NoticeUnitOk s) : QueueOk s.notice := ((noticeUnitOk_iff s).mp ok).1

theorem counters {s : State} (ok : NoticeUnitOk s) : CountersFit s.notice.counters := ((noticeUnitOk_iff s).mp ok).2

/-- The invariant speaks of the notice unit alone. -/
theorem congr {s t : State} (ok : NoticeUnitOk s) (h : t.notice = s.notice) : NoticeUnitOk t := by
  rw [noticeUnitOk_iff, h, ← noticeUnitOk_iff]
  exact ok

/-- The quiet timer and NOTICE_N are not among what the invariant speaks of. -/
theorem withLine {s t : State} (ok : NoticeUnitOk s) {start : Nat} {asserted : Bool}
    (h : t.notice = { s.notice with quietStart := start, asserted := asserted }) : NoticeUnitOk t := by
  rw [noticeUnitOk_iff, h]
  exact ⟨ok.queue, ok.counters⟩

theorem of_resetAt {t : State} {now : Nat} (h : t.notice = NoticeUnit.resetAt now) : NoticeUnitOk t :=
  noticeUnitOk_reset.withLine (start := now) (asserted := false) h

theorem updateLine {s : State} (ok : NoticeUnitOk s) : NoticeUnitOk s.updateLine := ok.withLine rfl

/-! ### Counting (R168) -/

theorem setCounters {s : State} (ok : NoticeUnitOk s) {c : Counters} (hc : CountersFit c) :
    NoticeUnitOk (s.setCounters c) :=
  (noticeUnitOk_iff _).mpr ⟨ok.queue, hc⟩

theorem countSaveCompleted {s : State} (ok : NoticeUnitOk s) : NoticeUnitOk s.countSaveCompleted :=
  ok.setCounters { ok.counters with savesCompleted := bump_le ok.counters.savesCompleted }

theorem countSaveFailed {s : State} (ok : NoticeUnitOk s) : NoticeUnitOk s.countSaveFailed :=
  ok.setCounters { ok.counters with savesFailed := bump_le ok.counters.savesFailed }

theorem countWriteHeld {s : State} (ok : NoticeUnitOk s) : NoticeUnitOk s.countWriteHeld :=
  ok.setCounters { ok.counters with writesHeld := bump_le ok.counters.writesHeld }

theorem countRequestDenied {s : State} (ok : NoticeUnitOk s) : NoticeUnitOk s.countRequestDenied :=
  ok.setCounters { ok.counters with requestsDenied := bump_le ok.counters.requestsDenied }

theorem countResponseTimedOut {s : State} (ok : NoticeUnitOk s) : NoticeUnitOk s.countResponseTimedOut :=
  ok.setCounters { ok.counters with responsesTimedOut := bump_le ok.counters.responsesTimedOut }

theorem countRecordRestored {s : State} (ok : NoticeUnitOk s) : NoticeUnitOk s.countRecordRestored :=
  ok.setCounters { ok.counters with recordsRestored := bump_le ok.counters.recordsRestored }

/-! ### Posts (R158, R160, R161) -/

theorem takePost {s : State} (ok : NoticeUnitOk s) (kind : NoticeKind) (level : Nat) :
    NoticeUnitOk (takePost s kind level) := by
  rcases Nat.lt_or_ge s.notice.queue.length 32 with hroom | hfull
  · rw [takePost_accepted s kind level hroom]
    exact (noticeUnitOk_iff _).mpr ⟨ok.queue.accept hroom kind level _ _ _, ok.counters⟩
  · rw [takePost_dropped s kind level hfull]
    exact (noticeUnitOk_iff _).mpr ⟨ok.queue.drop, ok.counters⟩

theorem takeAll {s : State} (ok : NoticeUnitOk s) (kinds : List NoticeKind) (level : Nat) :
    NoticeUnitOk (takeAll s kinds level) := by
  induction kinds generalizing s with
  | nil => exact ok
  | cons kind kinds ih => exact ih (ok.takePost kind level)

/-- R158: whatever a happening posts is taken one post at a time. -/
theorem happening {s : State} {f : Happening → Happening} (ok : NoticeUnitOk (f (Happening.start s)).state) :
    NoticeUnitOk (happening s f) := by
  obtain ⟨before, after, choices, -, -, -, htaken⟩ :=
    takePosts_any _ s.level true (f (Happening.start s)).posts (f (Happening.start s)).state le_rfl
  rw [Machine.happening, Happening.finish, htaken]
  exact ((ok.takeAll before _).takeAll after _).congr rfl

/-! ### The transit buffer (R85 to R105): held writes and denied requests are counted -/

theorem enterWaitSave {s : State} (ok : NoticeUnitOk s) (order : Nat) : NoticeUnitOk (s.enterWaitSave order) :=
  countWriteHeld (ok.congr (by simp))

theorem evaluateHead {s : State} (ok : NoticeUnitOk s) (order : Nat) : NoticeUnitOk (s.evaluateHead order) := by
  unfold State.evaluateHead
  (repeat' split)
  · exact ok
  · exact ok.enterWaitSave order
  · exact ok.congr (by simp)
  · exact ok

theorem passTurn {s : State} (ok : NoticeUnitOk s) (index : Nat) : NoticeUnitOk (s.passTurn index) := by
  unfold State.passTurn
  (repeat' split)
  · exact ok
  · exact ok.evaluateHead _
  · exact ok

theorem leave {s : State} (ok : NoticeUnitOk s) (order : Nat) : NoticeUnitOk (s.leave order) := by
  unfold State.leave
  split
  · exact ok
  · dsimp only
    split
    · exact passTurn (ok.congr (by simp)) _
    · exact ok.congr (by simp)

theorem reclassify {s : State} (ok : NoticeUnitOk s) (e : TransitEntry) : NoticeUnitOk (s.reclassify e) := by
  unfold State.reclassify
  dsimp only
  (repeat' split)
  · exact ok.congr (by simp)
  · exact evaluateHead (ok.congr (by simp)) _
  · exact ok

theorem reclassifyAll {s : State} (ok : NoticeUnitOk s) : NoticeUnitOk s.reclassifyAll := by
  unfold State.reclassifyAll
  generalize List.filter _ s.transit.entries = es
  induction es generalizing s with
  | nil => exact ok
  | cons e es ih => exact ih (ok.reclassify e)

theorem enterWindow {s : State} (ok : NoticeUnitOk s) (r : UpstreamRequest) (w : WindowNo) (index : Nat) :
    NoticeUnitOk (s.enterWindow r w index) := by
  unfold State.enterWindow
  dsimp only
  (repeat' split)
  · exact ok.congr (by simp)
  · exact ok.congr (by simp)
  · exact evaluateHead (ok.congr (by simp)) _

theorem denyRequest {h : Happening} (ok : NoticeUnitOk h.state) (r : UpstreamRequest) (reason : DenyReason) :
    NoticeUnitOk (h.denyRequest r reason).state :=
  countRequestDenied (ok.congr (by simp))

theorem arrive {h : Happening} (ok : NoticeUnitOk h.state) (r : UpstreamRequest) :
    NoticeUnitOk (h.arrive r).state := by
  unfold Happening.arrive
  (repeat' split)
  · exact ok.denyRequest r _
  · exact denyRequest (h := h.step _) (ok.congr (by simp)) r _
  · exact ok.enterWindow r _ _
  · exact ok.congr (by simp)

/-! ### Mark actions, breaks and outcomes (R13 to R21): the entries held are classified afresh -/

theorem settle {h : Happening} (ok : NoticeUnitOk h.state) : NoticeUnitOk h.settle.state :=
  ok.reclassifyAll.congr (by simp [Happening.settle])

theorem breakReport {h : Happening} (ok : NoticeUnitOk h.state) (reason : BrokenReason) :
    NoticeUnitOk (h.breakReport reason).state := by
  unfold Happening.breakReport
  dsimp only
  split
  · exact ok.congr (by simp)
  · refine settle (ok.congr ?_)
    (repeat' split) <;> simp
  · exact ok

theorem openEffect {h : Happening} (ok : NoticeUnitOk h.state) : NoticeUnitOk h.openEffect.state := by
  unfold Happening.openEffect
  (repeat' split)
  · exact settle (ok.congr (by simp))
  · exact ok
  · exact ok

theorem releaseEffect {h : Happening} (ok : NoticeUnitOk h.state) : NoticeUnitOk h.releaseEffect.state := by
  unfold Happening.releaseEffect
  split
  · split
    · refine settle (ok.congr ?_)
      rw [Happening.step_state]
      split <;> simp
    · exact ok
  · exact ok

theorem commitEffect {h : Happening} (ok : NoticeUnitOk h.state) : NoticeUnitOk h.commitEffect.state := by
  unfold Happening.commitEffect
  (repeat' split)
  · exact settle (ok.congr (by simp))
  · exact ok
  · exact ok

theorem rollbackDone {h : Happening} (ok : NoticeUnitOk h.state) (o : WalkOutcome) (m : MarkRecord) :
    NoticeUnitOk (h.rollbackDone o m).state := by
  unfold Happening.rollbackDone
  exact settle (ok.congr (by simp))

theorem rollbackIncomplete {h : Happening} (ok : NoticeUnitOk h.state) (o : WalkOutcome) :
    NoticeUnitOk (h.rollbackIncomplete o).state := by
  unfold Happening.rollbackIncomplete
  exact settle (ok.congr (by simp))

theorem takeOutcome {h : Happening} (ok : NoticeUnitOk h.state) : NoticeUnitOk h.takeOutcome.state := by
  unfold Happening.takeOutcome
  dsimp only
  (repeat' split)
  · exact rollbackDone (h := h.step _) (ok.congr (by simp)) _ _
  · exact ok
  · exact rollbackIncomplete (h := h.step _) (ok.congr (by simp)) _
  · exact ok

/-! ### Saves (R67 to R76): completed and failed ones are counted -/

theorem refuseSave {h : Happening} (ok : NoticeUnitOk h.state) (e : TransitEntry) (w : WindowNo) :
    NoticeUnitOk (h.refuseSave e w).state :=
  leave (countRequestDenied (ok.congr (by simp))) _

theorem allocateSave {h : Happening} (ok : NoticeUnitOk h.state) : NoticeUnitOk h.allocateSave.state := by
  unfold Happening.allocateSave
  split
  · exact ok
  · (repeat' split)
    · exact ok.congr (by simp)
    · exact breakReport (h := h.step _) (ok.congr (by simp)) _
    · exact ok.refuseSave _ _

theorem saveCompleted {s : State} (ok : NoticeUnitOk s) (c : ContextNo) (x : SaveContext) :
    NoticeUnitOk (s.saveCompleted c x) :=
  congr (countSaveCompleted (s := s.writeMap x.index x.markNumber) (ok.congr (by simp)))
    (by simp [State.saveCompleted])

theorem answerMemError {s : State} (ok : NoticeUnitOk s) (order : Nat) : NoticeUnitOk (s.answerMemError order) := by
  unfold State.answerMemError
  split
  · exact leave (ok.congr (by simp)) order
  · exact ok

theorem voidCompleted {h : Happening} (ok : NoticeUnitOk h.state) (c : ContextNo) (x : SaveContext) :
    NoticeUnitOk (h.voidCompleted c x).state := by
  have hfreed : NoticeUnitOk (h.state.countSaveFailed.freeContext c) := ok.countSaveFailed.congr (by simp)
  by_cases hm : h.state.marks.state = .opened ∨ h.state.marks.state = .draining
  · simpa [Happening.voidCompleted, hm] using hfreed.answerMemError x.held
  · exact hfreed.congr (by simp [Happening.voidCompleted, hm])

theorem settleContext {s : State} (ok : NoticeUnitOk s) (c : ContextNo) : NoticeUnitOk (s.settleContext c) :=
  ok.congr (by simp)

theorem logWriteFailed {h : Happening} (ok : NoticeUnitOk h.state) (c : ContextNo) (x : SaveContext)
    (result : Result) : NoticeUnitOk (h.logWriteFailed c x result).state := by
  unfold Happening.logWriteFailed
  split
  · exact ok.settleContext c
  · exact settleContext (breakReport (h := (h.step _).step _) (ok.congr (by simp)) _) c

theorem saveResult {h : Happening} (ok : NoticeUnitOk h.state) (c : ContextNo) (step : SaveStep) (result : Result) :
    NoticeUnitOk (h.saveResult c step result).state := by
  unfold Happening.saveResult
  split
  · exact ok
  · split
    · split <;> exact ok.congr (by simp)
    · split <;> exact ok.congr (by simp)
    · split <;> exact ok.congr (by simp)
    · split
      · exact ok.saveCompleted c _
      · exact ok.voidCompleted c _
      · exact ok.congr (by simp)
    · exact ok.logWriteFailed c _ _

/-! ### Walks (R134 to R136): restored records are counted -/

theorem restored {h : Happening} (ok : NoticeUnitOk h.state) (r : CurrentRecord) :
    NoticeUnitOk (h.restored r).state :=
  congr (countRecordRestored (s := h.state.writeMap r.index 0) (ok.congr (by simp)))
    (by simp [Happening.restored])

theorem recordRequestEnded {h : Happening} (ok : NoticeUnitOk h.state) (r : CurrentRecord) (line : Nat)
    (isRead : Bool) (result : Result) : NoticeUnitOk (h.recordRequestEnded r line isRead result).state := by
  unfold Happening.recordRequestEnded
  extract_lets failed ended
  have hended : NoticeUnitOk ended.state := ok.congr (by simp [ended])
  (repeat' split)
  · exact hended.congr (by simp)
  · exact hended
  · exact hended.congr (by simp)
  · exact hended.restored r
  · exact hended

theorem restoreResult {h : Happening} (ok : NoticeUnitOk h.state) (step : RestoreStep) (result : Result) :
    NoticeUnitOk (h.restoreResult step result).state := by
  unfold Happening.restoreResult
  dsimp only
  split
  · split <;> exact ok.congr (by simp)
  · exact recordRequestEnded (h := h.step _) (ok.congr (by simp)) _ _ _ _
  · exact recordRequestEnded (h := h.step _) (ok.congr (by simp)) _ _ _ _
  · exact ok.congr (by simp)

/-! ### The downstream port (R116 to R124): timeouts are counted -/

theorem tellIssued {s : State} (ok : NoticeUnitOk s) (offer : Offer) : NoticeUnitOk (s.tellIssued offer) := by
  cases offer with
  | passThrough e => exact ok.leave e.order
  | save c x step => exact ok.congr rfl
  | restore step => exact ok.congr rfl

theorem issue {s : State} (ok : NoticeUnitOk s) (source : Source) (offer : Offer) (t : TagNo) :
    NoticeUnitOk (s.issue source offer t) :=
  tellIssued (ok.congr (by simp)) offer

theorem grant {s : State} (ok : NoticeUnitOk s) : NoticeUnitOk s.grant := by
  unfold State.grant
  (repeat' split)
  · exact ok
  · exact ok.issue _ _ _
  · exact ok

theorem deliverOk {h : Happening} (ok : NoticeUnitOk h.state) (data : Option (List Byte)) (origin : TagOrigin) :
    NoticeUnitOk (h.deliverOk data origin).state := by
  cases origin with
  | passThrough requester tag kind windowWrite length => exact ok.congr rfl
  | save c step => exact ok.saveResult c step _
  | restore step => exact ok.restoreResult step _

theorem deliverFailure {h : Happening} (ok : NoticeUnitOk h.state) (failure : Result) (origin : TagOrigin) :
    NoticeUnitOk (h.deliverFailure failure origin).state := by
  cases origin with
  | passThrough requester tag kind windowWrite length => exact ok.congr rfl
  | save c step => exact ok.saveResult c step _
  | restore step => exact ok.restoreResult step _

theorem response {h : Happening} (ok : NoticeUnitOk h.state) (t : TagNo) (status : LinkStatus)
    (data : Option (List Byte)) : NoticeUnitOk (h.response t status data).state := by
  unfold Happening.response
  dsimp only
  (repeat' split)
  · exact deliverOk (h := h.step _) (ok.congr (by simp)) _ _
  · exact deliverFailure (h := h.step _) (ok.congr (by simp)) _ _
  · exact ok.congr rfl
  · exact ok

theorem timeOut {h : Happening} (ok : NoticeUnitOk h.state) (t : TagNo) : NoticeUnitOk (h.timeOut t).state := by
  unfold Happening.timeOut
  (repeat' split)
  · exact countResponseTimedOut (deliverFailure (h := h.step _) (ok.congr (by simp)) _ _)
  · exact ok
  · exact ok

/-! ### Resets (R167, R185 to R188, R191) -/

/-- R188: the reset step resets the notice unit. -/
theorem quiesceStep (s : State) : NoticeUnitOk s.quiesceStep := of_resetAt rfl

theorem quiesceComplete {s : State} (ok : NoticeUnitOk s) : NoticeUnitOk s.quiesceComplete := by
  unfold State.quiesceComplete
  split
  · exact quiesceStep s
  · exact ok

theorem reported {t : State} (ok : NoticeUnitOk t) (s : State) : NoticeUnitOk (s.reported t) := by
  rcases State.reported_cases s t with heq | ⟨-, heq⟩ <;> rw [heq]
  · exact ok
  · exact quiesceStep t

/-- R123, R163: the increment and the post of a timeout are cleared by the reset step, or come after it. -/
theorem timeOutTag {s : State} (ok : NoticeUnitOk s) (tag : TagNo) : NoticeUnitOk (s.timeOutTag tag) := by
  unfold State.timeOutTag
  dsimp only
  split
  · rename_i r _ _
    obtain ⟨u, rfl, hu⟩ := State.quiesceAmidTimeout_cases (Machine.happening s fun h => h.timeOut tag)
      (.responseTimeout r.origin.source r.address)
    have hreset := quiesceStep ((Machine.happening s fun h => h.timeOut tag).setChoices
      ((Machine.happening s fun h => h.timeOut tag).choices + 1))
    rcases hu with hu | hu | hu <;> rw [hu]
    · exact hreset
    · exact hreset.takePost _ _
    · exact hreset.countResponseTimedOut.takePost _ _
  · exact happening (timeOut (h := Happening.start s) ok tag)

theorem powerOnEnd {s : State} (ok : NoticeUnitOk s) : NoticeUnitOk s.powerOnEnd := by
  unfold State.powerOnEnd
  split
  · exact ok.withLine rfl
  · exact ok

theorem risingEdge {s : State} (ok : NoticeUnitOk s) : NoticeUnitOk s.risingEdge := by
  unfold State.risingEdge
  (repeat' split)
  · exact ok
  · exact ok.congr rfl
  · exact happening (ok.congr (by simp [State.setRollbackReq]))

/-! ### Rows that are no defined command (R165, R171 to R176) -/

theorem quietExpiry {s : State} (ok : NoticeUnitOk s) : NoticeUnitOk s.quietExpiry := by
  unfold State.quietExpiry
  split
  · exact ok.updateLine
  · exact ok

end NoticeUnitOk

/-! ### Owners (R162, R166, R170, R175) -/

/-- The owner's answer keeps the notice unit's invariant. -/
def OwnerKeepsNotices (owner : State → Answer) : Prop := ∀ s, NoticeUnitOk s → NoticeUnitOk (owner s).state

theorem NoticeUnitOk.takeFrame {s : State} (ok : NoticeUnitOk s) (f : Frame) (identifier expected : Nat)
    (anyState : Bool) {owner : State → Answer} (h : OwnerKeepsNotices owner) :
    NoticeUnitOk (takeFrame s f identifier expected anyState owner) := by
  rcases takeFrame_cases s f identifier expected anyState owner with heq | ⟨u, rfl, ⟨status, heq⟩ | ⟨-, heq⟩⟩ <;>
    rw [heq]
  · exact ok
  · exact ok.congr (by simp)
  · have hdriven : NoticeUnitOk (s.driveCommandPeriod (f.clocks (identifier + f.payload.length))) :=
      ok.congr (by simp)
    exact (h _ hdriven).congr (by simp)

/-- An owner that leaves the notice unit as it is. -/
theorem OwnerKeepsNotices.of_same {owner : State → Answer} (h : ∀ s, (owner s).state.notice = s.notice) :
    OwnerKeepsNotices owner :=
  fun s ok => ok.congr (h s)

theorem OwnerKeepsNotices.of_drain {owner : State → Answer} (h : ∀ s, RefusedOrDrains s (owner s)) :
    OwnerKeepsNotices owner := by
  refine .of_same fun s => ?_
  rcases h s with heq | ⟨action, heq⟩ <;> simp [heq]

/-- R162: READ_NOTICE takes the front record, if there is one. -/
theorem ownerKeepsNotices_readNotice : OwnerKeepsNotices answerReadNotice := by
  intro s ok
  unfold answerReadNotice
  split
  · exact ok
  · rename_i front rest hq
    exact NoticeUnitOk.updateLine ((noticeUnitOk_iff _).mpr ⟨ok.queue.takeFront hq _ _, ok.counters⟩)

/-- R170: CLEAR_COUNTERS. -/
theorem ownerKeepsNotices_clearCounters : OwnerKeepsNotices answerClearCounters :=
  fun _ ok => ok.setCounters countersFit_reset

/-- R166: NOTICE_TRIGGER brings NOTICE_N up to date. -/
theorem ownerKeepsNotices_writeNoticeTrigger (v : Nat) : OwnerKeepsNotices (answerWriteNoticeTrigger v) := by
  intro s ok
  rw [answerWriteNoticeTrigger_eq]
  split
  · exact NoticeUnitOk.updateLine (ok.congr rfl)
  · exact ok

/-- R166: NOTICE_QUIET brings NOTICE_N up to date. -/
theorem ownerKeepsNotices_writeNoticeQuiet (v : Nat) : OwnerKeepsNotices (answerWriteNoticeQuiet v) := by
  intro s ok
  rw [answerWriteNoticeQuiet_eq]
  split
  · exact NoticeUnitOk.updateLine (ok.congr rfl)
  · exact ok

/-- R184: SOFT_RESET resets the notice unit where the quiesce completes at once. -/
theorem ownerKeepsNotices_softReset : OwnerKeepsNotices answerSoftReset := by
  intro s ok
  unfold answerSoftReset
  exact NoticeUnitOk.quiesceComplete (ok.congr (by simp [State.updateMgmt]))

theorem ownerKeepsNotices_checkLog (k : Nat) : OwnerKeepsNotices (answerCheckLog k) := .of_same fun s => by
  unfold answerCheckLog
  (repeat' split) <;> simp

theorem ownerKeepsNotices_discard : OwnerKeepsNotices answerDiscard := .of_same fun s => by
  unfold answerDiscard
  dsimp only
  (repeat' split) <;> simp

theorem ownerKeepsNotices_setWindow (o : WindowOperands) : OwnerKeepsNotices (answerSetWindow o) :=
  .of_same fun s => withWindow_induction (P := fun a => a.state.notice = s.notice) rfl fun w => by split <;> simp

theorem ownerKeepsNotices_enableWindow (n : Nat) : OwnerKeepsNotices (answerEnableWindow n) :=
  .of_same fun s => withWindow_induction (P := fun a => a.state.notice = s.notice) rfl fun w => by
    (repeat' split) <;> simp

theorem ownerKeepsNotices_disableWindow (n : Nat) : OwnerKeepsNotices (answerDisableWindow n) :=
  .of_same fun s => withWindow_induction (P := fun a => a.state.notice = s.notice) rfl fun w => by
    (repeat' split) <;> simp

theorem ownerKeepsNotices_writeLogReader (a b c : Nat) : OwnerKeepsNotices (answerWriteLogReader a b c) :=
  .of_same fun s => by
    unfold answerWriteLogReader
    split <;> simp

theorem ownerKeepsNotices_writeLogBase (v : Nat) : OwnerKeepsNotices (answerWriteLogBase v) := .of_same fun s => by
  unfold answerWriteLogBase
  (repeat' split) <;> simp

theorem ownerKeepsNotices_writeLogSize (v : Nat) : OwnerKeepsNotices (answerWriteLogSize v) := .of_same fun s => by
  unfold answerWriteLogSize
  (repeat' split) <;> simp

theorem ownerKeepsNotices_writeLogThreshold (v : Nat) : OwnerKeepsNotices (answerWriteLogThreshold v) :=
  .of_same fun s => by
    unfold answerWriteLogThreshold
    split <;> simp

theorem ownerKeepsNotices_writeLogFullPolicy (v : Nat) : OwnerKeepsNotices (answerWriteLogFullPolicy v) :=
  .of_same fun s => by
    unfold answerWriteLogFullPolicy
    split <;> simp

theorem ownerKeepsNotices_writePartRequesterId (v : Nat) : OwnerKeepsNotices (answerWritePartRequesterId v) :=
  .of_same fun s => by
    unfold answerWritePartRequesterId
    (repeat' split) <;> simp [State.updateMgmt]

theorem ownerKeepsNotices_writeResponseTimeout (v : Nat) : OwnerKeepsNotices (answerWriteResponseTimeout v) :=
  .of_same fun s => by
    unfold answerWriteResponseTimeout
    split <;> simp [State.updateMgmt]

theorem ownerKeepsNotices_writeLineRollback (a b : Nat) : OwnerKeepsNotices (answerWriteLineRollback a b) :=
  .of_same fun s => by
    unfold answerWriteLineRollback
    split <;> simp [State.updateMgmt]

/-! ### Rows that are no defined command (R42, R171 to R176) -/

@[simp] theorem sweepComplete_notice (s : State) : s.sweepComplete.notice = s.notice := by
  unfold State.sweepComplete
  split <;> rfl

@[simp] theorem replyReady_notice (s : State) : s.replyReady.notice = s.notice := by
  unfold State.replyReady
  split <;> rfl

@[simp] theorem readPeriod_notice (s : State) (clocks : Nat) (beganInReset : Bool) :
    (s.readPeriod clocks beganInReset).notice = s.notice := by
  unfold State.readPeriod
  split <;> rfl

@[simp] theorem cutShort_notice (s : State) (p : Period) : (s.cutShort p).notice = s.notice := by
  unfold State.cutShort
  split <;> rfl

@[simp] theorem unknownCommand_notice (s : State) (f : Frame) : (s.unknownCommand f).notice = s.notice := by
  unfold State.unknownCommand
  split <;> rfl

@[simp] theorem checkFailed_notice (s : State) (p : Period) : (s.checkFailed p).notice = s.notice := by
  unfold State.checkFailed
  split <;> rfl

/-! ### The step -/

theorem NoticeUnitOk.running {s : State} (ok : NoticeUnitOk s) {f : State → State} (h : NoticeUnitOk (f s)) :
    NoticeUnitOk (s.running f) := by
  unfold State.running
  split
  · exact ok
  · exact h

/-- Every command answers a next state, in which the notice unit is as it must be. -/
theorem noticeUnitOk_exec {s : State} (ok : NoticeUnitOk s) (c : Instr) :
    ∃ t, exec c s = .next t ∧ NoticeUnitOk t := by
  have start {f : Happening → Happening} (h : NoticeUnitOk (f (Happening.start s)).state) :
      NoticeUnitOk (s.running fun s => happening s f) := ok.running (.happening h)
  have frame (f : Frame) {identifier expected : Nat} {anyState : Bool} {owner : State → Answer}
      (h : OwnerKeepsNotices owner) : NoticeUnitOk (takeFrame s f identifier expected anyState owner) :=
    ok.takeFrame f identifier expected anyState h
  have hstart : NoticeUnitOk (Happening.start s).state := ok
  cases c with
  | powerOnReset => exact ⟨_, rfl, .of_resetAt rfl⟩
  | powerOnResetEnd => exact ⟨_, rfl, ok.powerOnEnd⟩
  | mapSweepComplete => exact ⟨_, rfl, ok.running (ok.congr (by simp))⟩
  | rollbackReqRisingEdge => exact ⟨_, rfl, ok.risingEdge⟩
  | rollbackReqFallingEdge => exact ⟨_, rfl, ok.congr rfl⟩
  | upstreamRequest r => exact ⟨_, rfl, start (hstart.arrive r)⟩
  | saveAllocation => exact ⟨_, rfl, start hstart.allocateSave⟩
  | arbiterGrant => exact ⟨_, rfl, ok.running ok.grant⟩
  | downstreamCreditReturn => exact ⟨_, rfl, ok.running (ok.congr (by simp))⟩
  | downstreamResponse tag status data =>
    exact ⟨_, rfl, ok.running (NoticeUnitOk.reported (.happening (hstart.response tag status data)) s)⟩
  | tagTimeout tag => exact ⟨_, rfl, ok.running (ok.timeOutTag tag)⟩
  | stalePeriodExpiry tag => exact ⟨_, rfl, ok.running (ok.congr (by simp))⟩
  | openTakesEffect => exact ⟨_, rfl, start hstart.openEffect⟩
  | releaseTakesEffect => exact ⟨_, rfl, start hstart.releaseEffect⟩
  | commitTakesEffect => exact ⟨_, rfl, start hstart.commitEffect⟩
  | rollbackTakesEffect => exact ⟨_, rfl, start (hstart.congr (by simp))⟩
  | rollbackOutcome => exact ⟨_, rfl, start hstart.takeOutcome⟩
  | checkEnd => exact ⟨_, rfl, start (hstart.congr (by simp))⟩
  | softResetQuiesceComplete => exact ⟨_, rfl, ok.running ok.quiesceComplete⟩
  | quietTimerExpiry => exact ⟨_, rfl, ok.running ok.quietExpiry⟩
  | replyReady => exact ⟨_, rfl, ok.running (ok.congr (by simp))⟩
  | readPeriod clocks beganInReset => exact ⟨_, rfl, ok.congr (by simp)⟩
  | commandFrameCutShort p => exact ⟨_, rfl, ok.congr (by simp)⟩
  | unknownCommand code f => exact ⟨_, rfl, ok.congr (by simp)⟩
  | checkFailedFrame p => exact ⟨_, rfl, ok.congr (by simp)⟩
  | readNotice f => exact ⟨_, rfl, frame f ownerKeepsNotices_readNotice⟩
  | clearCounters f => exact ⟨_, rfl, frame f ownerKeepsNotices_clearCounters⟩
  | writeConfigNoticeTrigger f => exact ⟨_, rfl, frame f (ownerKeepsNotices_writeNoticeTrigger _)⟩
  | writeConfigNoticeQuiet f => exact ⟨_, rfl, frame f (ownerKeepsNotices_writeNoticeQuiet _)⟩
  | softReset f => exact ⟨_, rfl, frame f ownerKeepsNotices_softReset⟩
  | getStatus f => exact ⟨_, rfl, frame f (.of_same fun _ => rfl)⟩
  | getMarks f => exact ⟨_, rfl, frame f (.of_same fun _ => by simp)⟩
  | readConfig f => exact ⟨_, rfl, frame f (.of_same fun _ => by simp)⟩
  | readCounters f => exact ⟨_, rfl, frame f (.of_same fun _ => by simp)⟩
  | writeConfigUnknownItem f => exact ⟨_, rfl, frame f (.of_same fun _ => by simp)⟩
  | getWindow f => exact ⟨_, rfl, frame f (.of_same fun _ => by simp)⟩
  | readMap f => exact ⟨_, rfl, frame f (.of_same fun _ => by simp)⟩
  | writeConfigLogReader f => exact ⟨_, rfl, frame f (ownerKeepsNotices_writeLogReader _ _ _)⟩
  | writeConfigLogBase f => exact ⟨_, rfl, frame f (ownerKeepsNotices_writeLogBase _)⟩
  | writeConfigLogSize f => exact ⟨_, rfl, frame f (ownerKeepsNotices_writeLogSize _)⟩
  | writeConfigLogThreshold f => exact ⟨_, rfl, frame f (ownerKeepsNotices_writeLogThreshold _)⟩
  | writeConfigLogFullPolicy f => exact ⟨_, rfl, frame f (ownerKeepsNotices_writeLogFullPolicy _)⟩
  | writeConfigPartRequesterId f => exact ⟨_, rfl, frame f (ownerKeepsNotices_writePartRequesterId _)⟩
  | writeConfigResponseTimeout f => exact ⟨_, rfl, frame f (ownerKeepsNotices_writeResponseTimeout _)⟩
  | writeConfigLineRollback f => exact ⟨_, rfl, frame f (ownerKeepsNotices_writeLineRollback _ _)⟩
  | setWindow f => exact ⟨_, rfl, frame f (ownerKeepsNotices_setWindow _)⟩
  | enableWindow f => exact ⟨_, rfl, frame f (ownerKeepsNotices_enableWindow _)⟩
  | disableWindow f => exact ⟨_, rfl, frame f (ownerKeepsNotices_disableWindow _)⟩
  | openMark f => exact ⟨_, rfl, frame f (.of_drain (refusedOrDrains_openMark _))⟩
  | releaseMark f => exact ⟨_, rfl, frame f (.of_drain refusedOrDrains_releaseMark)⟩
  | commit f => exact ⟨_, rfl, frame f (.of_drain refusedOrDrains_commit)⟩
  | rollback f => exact ⟨_, rfl, frame f (.of_drain (refusedOrDrains_rollback _))⟩
  | checkLog f => exact ⟨_, rfl, frame f (ownerKeepsNotices_checkLog _)⟩
  | discard f => exact ⟨_, rfl, frame f ownerKeepsNotices_discard⟩

/-- Settles O53: posts, READ_NOTICE, increments and resets are all that change the notice unit, and each keeps its
invariant; time and the queue of commands do not touch it. -/
theorem stepsKeepTheNoticeUnit : Obligations.StepsKeepTheNoticeUnit := by
  intro s t ok hstep
  unfold step at hstep
  split at hstep
  · cases hstep
    exact ok.congr rfl
  · rename_i c rest _
    obtain ⟨u, hu, hok⟩ := noticeUnitOk_exec (s := s.setPending rest) (ok.congr rfl) c
    rw [hu] at hstep
    cases hstep
    exact hok

end Sys2Proof.Safety
end
section
/-! READ_NOTICE and the records' layouts (R162, R196), the counters (R168 to R170), and the quiet timer (R164, R165). -/

namespace Sys2Proof.Safety

open Machine

/-! ### Layouts of notice records (R196) -/

/-- R196: bytes 8 to 31 of every kind of record. -/
theorem noticeFields_length (kind : NoticeKind) : kind.fields.length = 24 := by
  cases kind <;> rfl

/-- The fields of the kinds that carry an address. -/
theorem addressedFields_address (b8 b9 b10 : Byte) (a : Address) :
    Zeros (addressedFields b8 b9 b10 a) 3 5 ∧ leField (addressedFields b8 b9 b10 a) 8 5 = a.toNat ∧
    Zeros (addressedFields b8 b9 b10 a) 13 11 := by
  refine ⟨zeros_of_bytes rfl, ?_, zeros_of_bytes rfl⟩
  exact (leField_of_bytes (v := a.toNat) rfl).trans (mod_eq_of_bits a (show 40 ≤ 40 by decide))

/-- A requester identifier as a byte. -/
theorem requesterByte_toNat (r : RequesterId) : (r.setWidth 8 : Byte).toNat = r.toNat :=
  (BitVec.toNat_setWidth _ _).trans (mod_eq_of_bits r (show 6 ≤ 8 by decide))

/-- The fields of the kinds that carry a log tail. -/
theorem tailFields_tail (b8 : Byte) (tail : Nat) :
    Zeros (tailFields b8 tail) 1 3 ∧ leField (tailFields b8 tail) 4 4 = tail % 2 ^ 32 ∧
    Zeros (tailFields b8 tail) 8 16 :=
  ⟨zeros_of_bytes rfl, leField_of_bytes rfl, zeros_of_bytes rfl⟩

/-- The fields of the kinds that carry an outcome of a walk. -/
theorem outcomeLayout_fields (o : WalkOutcome) (result : Byte) :
    byteAt (o.layout result) 0 = BitVec.ofNat 8 o.level ∧
    byteAt (o.layout result) 1 = (if o.origin = .command then 1#8 else 2#8) ∧
    (∀ k, (byteAt (o.layout result) 2).getLsbD k =
      if k = 0 then o.firstFailure.isSome else if k = 1 then o.stopped else false) ∧
    byteAt (o.layout result) 3 = result ∧ leField (o.layout result) 4 4 = o.good % 2 ^ 32 ∧
    leField (o.layout result) 8 4 = o.skipped % 2 ^ 32 ∧ leField (o.layout result) 12 4 = o.failed % 2 ^ 32 ∧
    leField (o.layout result) 16 4 = (o.firstFailure.getD 0xFFFFFFFF) % 2 ^ 32 ∧
    leField (o.layout result) 20 4 = (o.stopOffset.getD 0xFFFFFFFF) % 2 ^ 32 := by
  have horigin : o.origin.code = if o.origin = .command then 1#8 else 2#8 := by
    cases o.origin <;> rfl
  refine ⟨rfl, horigin, fun k => ?_, rfl, leField_of_bytes rfl, leField_of_bytes rfl, leField_of_bytes rfl,
    leField_of_bytes rfl, leField_of_bytes rfl⟩
  refine (flags_getLsbD o.firstFailure.isSome o.stopped false false k).trans ?_
  simp

/-- R154, R196: the eight bytes every record leads with. -/
theorem noticeRecord_layout (n : NoticeRecord) :
    n.layout.length = 32 ∧ byteAt n.layout 0 = n.kind.code ∧ byteAt n.layout 1 = BitVec.ofNat 8 n.level ∧
    leField n.layout 2 2 = n.sequence % 65536 ∧ byteAt n.layout 4 = BitVec.ofNat 8 n.lossBefore ∧
    Zeros n.layout 5 3 ∧ n.layout.drop 8 = n.kind.fields := by
  refine ⟨?_, rfl, rfl, leField_of_bytes rfl, rfl, zeros_of_bytes rfl, rfl⟩
  simp [NoticeRecord.layout, noticeFields_length]

/-- Settles O51: the front record leaves with its layout, and each kind's fields are read back by what they carry. -/
theorem readNoticeTakesTheFrontRecord : Obligations.ReadNoticeTakesTheFrontRecord := by
  refine ⟨fun s f hd => ⟨fun hempty => next_takeFrame hd (by decide) ?_, fun front rest hq => ?_⟩, ?_⟩
  · simp [answerReadNotice, hempty, countByte]
  · refine ⟨front.layout, next_takeFrame hd (by decide) ?_, noticeRecord_layout front⟩
    simp only [answerReadNotice, State.driveCommandPeriod_keeps, hq]
    rw [updateLine_of_restarted _ rfl]
    rfl
  · rintro laid addressed outcome rfl rfl rfl
    have hlength {kind : NoticeKind} : kind.fields.length = 24 := noticeFields_length kind
    refine ⟨fun w r reason a => ⟨rfl, hlength, rfl, requesterByte_toNat r, ?_, addressedFields_address _ _ _ a⟩,
      fun reason tail => ⟨rfl, hlength, rfl, tailFields_tail _ tail⟩,
      fun tail => ⟨rfl, hlength, zeros_of_bytes rfl, leField_of_bytes rfl, zeros_of_bytes rfl⟩,
      fun w r a => ⟨rfl, hlength, rfl, requesterByte_toNat r, rfl, addressedFields_address _ _ _ a⟩,
      fun r kind reason a => ⟨rfl, hlength, requesterByte_toNat r, ?_, ?_, addressedFields_address _ _ _ a⟩,
      fun source a => ⟨rfl, hlength, ?_, zeros_of_bytes rfl, addressedFields_address _ _ _ a⟩,
      fun t => ⟨rfl, hlength, rfl, zeros_of_bytes rfl⟩, fun t => ⟨rfl, hlength, rfl, zeros_of_bytes rfl⟩,
      fun o => ⟨rfl, hlength, outcomeLayout_fields o _⟩, fun o => ⟨rfl, hlength, outcomeLayout_fields o _⟩,
      fun o result => ⟨rfl, hlength, ?_⟩, fun reason => ⟨rfl, hlength, ?_, zeros_of_bytes rfl⟩,
      fun command => ⟨rfl, hlength, ?_, ?_, ?_, zeros_of_bytes rfl⟩⟩
    · cases reason <;> rfl
    · cases kind <;> rfl
    · cases reason <;> rfl
    · cases source <;> rfl
    · cases result <;> exact outcomeLayout_fields o _
    · cases reason <;> rfl
    · cases command <;> rfl
    · cases command <;> rfl
    · rcases command with _ | _ | _ | ⟨_, _ | _⟩ <;> rfl

/-! ### Counters and the quiet timer (R164, R165, R168 to R170) -/

/-- R194: the six counters of READ_COUNTERS. -/
theorem countersPayload_fields (c : Counters) :
    c.payload.length = 24 ∧ leField c.payload 0 4 = c.savesCompleted % 2 ^ 32 ∧
    leField c.payload 4 4 = c.savesFailed % 2 ^ 32 ∧ leField c.payload 8 4 = c.writesHeld % 2 ^ 32 ∧
    leField c.payload 12 4 = c.requestsDenied % 2 ^ 32 ∧ leField c.payload 16 4 = c.responsesTimedOut % 2 ^ 32 ∧
    leField c.payload 20 4 = c.recordsRestored % 2 ^ 32 :=
  ⟨rfl, leField_of_bytes rfl, leField_of_bytes rfl, leField_of_bytes rfl, leField_of_bytes rfl, leField_of_bytes rfl,
    leField_of_bytes rfl⟩

/-- R164, R165: the expiry, by the quiet condition. -/
theorem quietExpiry_eq (s : State) :
    s.quietExpiry = if 1 ≤ s.notice.queue.length ∧ s.mgmt.noticeQuiet ≠ 0 ∧
        s.mgmt.noticeQuiet ≤ s.now - s.notice.quietStart then
      { s with notice := { s.notice with asserted := true } } else s := by
  unfold State.quietExpiry
  by_cases h : 1 ≤ s.notice.queue.length ∧ s.mgmt.noticeQuiet ≠ 0 ∧ s.mgmt.noticeQuiet ≤ s.now - s.notice.quietStart
  · rw [if_pos h, if_pos (by simpa [and_assoc] using h), updateLine_eq, decide_eq_true (.inr h)]
  · rw [if_neg h, if_neg (by simpa [and_assoc] using h)]

/-- Settles O52: the increment saturates, the two commands read and clear the counters, and the expiry asserts NOTICE_N
under the quiet condition alone. -/
theorem countersAndQuietTimer : Obligations.CountersAndQuietTimer := by
  refine ⟨fun n => ⟨bump_of_lt, bump_of_le⟩, fun s => ⟨fun f hd => ?_, fun f hd => ?_, fun hr => ⟨?_, ?_⟩⟩⟩
  · exact ⟨_, next_takeFrame hd (by decide) rfl, countersPayload_fields s.notice.counters⟩
  · exact next_takeFrame hd (by decide) rfl
  · intro hsome hon hpassed
    refine (next_running hr State.quietExpiry).trans ?_
    rw [quietExpiry_eq, if_pos ⟨hsome, hon, hpassed⟩]
  · intro hidle
    refine (next_running hr State.quietExpiry).trans ?_
    rw [quietExpiry_eq, if_neg]
    rintro ⟨hsome, hon, hpassed⟩
    rcases hidle with hempty | hoff | hearly
    · rw [hempty] at hsome
      exact absurd hsome (by decide)
    · exact hon hoff
    · exact absurd hpassed (Nat.not_le.mpr hearly)

end Sys2Proof.Safety
end

section
/-! Chip-select periods read back (R171 to R175): the bytes and the bits of a well-formed command's period decode to that
command. -/

namespace Sys2Proof.Safety

open Machine

/-! ### From bits to bytes (R171) -/

/-- R171: a period's bits, most significant first, are read as its bytes; of a byte left incomplete only the number of
bits counts. -/
theorem decodePeriodBits_bitsOfBytes (p : Period) {loose : List Bool} (h : loose.length = p.bits.val) :
    decodePeriodBits (bitsOfBytes p.bytes ++ loose) p.beganInReset = decodePeriod p := by
  have hbits : Fin.ofNat 8 (bitsOfBytes p.bytes ++ loose).length = p.bits := by
    rw [List.length_append, bitsOfBytes_length, h]
    exact Fin.ext (by simp [Fin.ofNat, Nat.mod_eq_of_lt p.bits.isLt])
  unfold decodePeriodBits
  rw [bytesOfBits_bitsOfBytes p.bytes loose (h ▸ p.bits.isLt), hbits]

/-! ### Complete frames (R173, R174, R194) -/

/-- R173, R174: the period of a frame under a defined length and a right check is read as that frame. -/
theorem decodePeriod_frameBytes {code : Byte} (hcode : code ≠ 0#8) (request : Byte) {payload : List Byte}
    (hlen : payload.length ≤ 48) (extra : Nat) (bits : Fin 8) (began : Bool) :
    decodePeriod ⟨frameBytes code request payload extra, bits, began⟩ =
      commandOf code ⟨request, payload, extra, bits, began⟩ := by
  have hbyte : (BitVec.ofNat 8 payload.length).toNat = payload.length :=
    (BitVec.toNat_ofNat _ _).trans (Nat.mod_eq_of_lt (by omega))
  have hextra : payload.length + (extra + 1) - (payload.length + 1) = extra := by omega
  simp [decodePeriod, frameBytes, hcode, hbyte, byteAt, Nat.not_lt.mpr hlen, Config.maxPayload, hextra]

/-- R194: a row that carries its whole payload is read as its code's row. -/
theorem decodePeriod_periodOf {f : Frame} {code : Byte} {p : Period} (hw : f.wellFormed = true)
    (he : f.periodOf code = some p) (hcode : code ≠ 0#8) : decodePeriod p = commandOf code f := by
  obtain rfl := Option.some.inj he
  exact decodePeriod_frameBytes hcode f.request (of_decide_eq_true hw) f.extra f.bits f.beganInReset

/-- R195: a row that names its item itself is read as the row of that item. -/
theorem decodePeriod_itemPeriodOf {f : Frame} {id : Byte} {p : Period} (hw : f.wellFormed 1 = true)
    (he : f.itemPeriodOf id = some p) :
    decodePeriod p = writeConfigOf { f with payload := id :: f.payload } := by
  obtain rfl := Option.some.inj he
  have hlen : (id :: f.payload).length ≤ 48 := of_decide_eq_true hw
  exact decodePeriod_frameBytes (by decide) f.request hlen f.extra f.bits f.beganInReset

/-- R175: a code above the last one defined is the row UNKNOWN_COMMAND. -/
theorem commandOf_undefined {code : Byte} (h : 0x14 ≤ code.toNat) (f : Frame) : commandOf code f = .unknownCommand code f := by
  unfold commandOf
  split <;> try omega
  rfl

/-- R182: a WRITE_CONFIG whose identifier names no item, or that has none (log 16), is the row of an unknown item. -/
theorem writeConfigOf_of_no_item {f : Frame} (h : f.namesNoItem = true) : writeConfigOf f = .writeConfigUnknownItem f := by
  unfold Frame.namesNoItem at h
  unfold writeConfigOf
  split
  · rfl
  · rename_i id value hp
    have hid : id.toNat = 0 ∨ 0x0B ≤ id.toNat := by
      simpa [hp, BitVec.toNat_eq] using h
    dsimp only
    split <;> try omega
    rfl

/-! ### Read periods and frames that are not taken (R172, R173, R175) -/

/-- R172: a period of zero bytes is a read period of as many SPI_SCK cycles. -/
theorem decodePeriod_zeros {clocks : Nat} (h : 8 ≤ clocks) (began : Bool) :
    decodePeriod ⟨List.replicate (clocks / 8) 0#8, Fin.ofNat 8 clocks, began⟩ = .readPeriod clocks began := by
  obtain ⟨n, hn⟩ : ∃ n, clocks / 8 = n + 1 := ⟨clocks / 8 - 1, by omega⟩
  have hclocks : 8 * (n + 1) + clocks % 8 = clocks := by omega
  simp [decodePeriod, hn, List.replicate_succ, Period.clocks, Fin.ofNat, hclocks]

/-- R172, R173: a period that ends before its frame is complete, or that is empty (log 29). -/
theorem decodePeriod_of_cutShort {p : Period} (h : p.cutShort = true) : decodePeriod p = .commandFrameCutShort p := by
  obtain ⟨bytes, bits, began⟩ := p
  match bytes with
  | [] => rfl
  | [code] =>
    have hcode : code ≠ 0#8 := by simpa [Period.cutShort] using h
    simp [decodePeriod, hcode]
  | [code, request] =>
    have hcode : code ≠ 0#8 := by simpa [Period.cutShort] using h
    simp [decodePeriod, hcode]
  | code :: request :: len :: tail =>
    obtain ⟨hcode, hlen, htail⟩ : code ≠ 0#8 ∧ len.toNat ≤ 48 ∧ tail.length < len.toNat + 1 := by
      simpa [Period.cutShort, Config.maxPayload] using h
    simp [decodePeriod, hcode, Nat.not_lt.mpr hlen, htail, Config.maxPayload]

/-- R173, R175: a malformed frame, or a complete one whose check fails. -/
theorem decodePeriod_of_checkFailed {p : Period} (h : p.checkFailed = true) : decodePeriod p = .checkFailedFrame p := by
  obtain ⟨bytes, bits, began⟩ := p
  match bytes with
  | code :: request :: len :: tail =>
    obtain ⟨hcode, hbad⟩ : code ≠ 0#8 ∧ (48 < len.toNat ∨ len.toNat + 1 ≤ tail.length ∧
        crc8 (code :: request :: len :: tail.take len.toNat) ≠ byteAt tail len.toNat) := by
      simpa [Period.checkFailed, Config.maxPayload] using h
    rcases hbad with hlong | ⟨hcomplete, hcheck⟩
    · simp [decodePeriod, hcode, hlong, Config.maxPayload]
    · simp [decodePeriod, hcode, Nat.not_lt.mpr hcomplete, hcheck]

/-! ### Every row -/

/-- R171 to R175: the bytes of a well-formed command's period are read as that command. -/
theorem decodePeriod_encodePeriod {c : Instr} {p : Period} (hw : c.wellFormed = true) (he : encodePeriod c = some p) :
    decodePeriod p = c := by
  cases c with
  | readPeriod clocks began =>
    obtain rfl := Option.some.inj he
    exact decodePeriod_zeros (of_decide_eq_true hw) began
  | commandFrameCutShort q =>
    obtain rfl := Option.some.inj he
    exact decodePeriod_of_cutShort hw
  | checkFailedFrame q =>
    obtain rfl := Option.some.inj he
    exact decodePeriod_of_checkFailed hw
  | unknownCommand code f =>
    obtain ⟨hcode, hf⟩ : 0x14 ≤ code.toNat ∧ f.wellFormed = true := by simpa [Instr.wellFormed] using hw
    have hne : code ≠ 0#8 := by rintro rfl; exact absurd hcode (by decide)
    exact (decodePeriod_periodOf hf he hne).trans (commandOf_undefined hcode f)
  | writeConfigUnknownItem f =>
    obtain ⟨hf, hid⟩ : f.wellFormed = true ∧ f.namesNoItem = true := by simpa [Instr.wellFormed] using hw
    exact (decodePeriod_periodOf hf he (by decide)).trans (writeConfigOf_of_no_item hid)
  | getStatus f => exact decodePeriod_periodOf hw he (by decide)
  | getMarks f => exact decodePeriod_periodOf hw he (by decide)
  | readConfig f => exact decodePeriod_periodOf hw he (by decide)
  | setWindow f => exact decodePeriod_periodOf hw he (by decide)
  | getWindow f => exact decodePeriod_periodOf hw he (by decide)
  | enableWindow f => exact decodePeriod_periodOf hw he (by decide)
  | disableWindow f => exact decodePeriod_periodOf hw he (by decide)
  | readMap f => exact decodePeriod_periodOf hw he (by decide)
  | openMark f => exact decodePeriod_periodOf hw he (by decide)
  | releaseMark f => exact decodePeriod_periodOf hw he (by decide)
  | commit f => exact decodePeriod_periodOf hw he (by decide)
  | rollback f => exact decodePeriod_periodOf hw he (by decide)
  | checkLog f => exact decodePeriod_periodOf hw he (by decide)
  | discard f => exact decodePeriod_periodOf hw he (by decide)
  | readNotice f => exact decodePeriod_periodOf hw he (by decide)
  | readCounters f => exact decodePeriod_periodOf hw he (by decide)
  | clearCounters f => exact decodePeriod_periodOf hw he (by decide)
  | softReset f => exact decodePeriod_periodOf hw he (by decide)
  | writeConfigLogBase f => exact decodePeriod_itemPeriodOf hw he
  | writeConfigLogSize f => exact decodePeriod_itemPeriodOf hw he
  | writeConfigLogThreshold f => exact decodePeriod_itemPeriodOf hw he
  | writeConfigLogFullPolicy f => exact decodePeriod_itemPeriodOf hw he
  | writeConfigLogReader f => exact decodePeriod_itemPeriodOf hw he
  | writeConfigPartRequesterId f => exact decodePeriod_itemPeriodOf hw he
  | writeConfigResponseTimeout f => exact decodePeriod_itemPeriodOf hw he
  | writeConfigNoticeTrigger f => exact decodePeriod_itemPeriodOf hw he
  | writeConfigNoticeQuiet f => exact decodePeriod_itemPeriodOf hw he
  | writeConfigLineRollback f => exact decodePeriod_itemPeriodOf hw he
  | powerOnReset => cases he
  | powerOnResetEnd => cases he
  | mapSweepComplete => cases he
  | rollbackReqRisingEdge => cases he
  | rollbackReqFallingEdge => cases he
  | upstreamRequest r => cases he
  | saveAllocation => cases he
  | arbiterGrant => cases he
  | downstreamCreditReturn => cases he
  | downstreamResponse tag status data => cases he
  | tagTimeout tag => cases he
  | stalePeriodExpiry tag => cases he
  | openTakesEffect => cases he
  | releaseTakesEffect => cases he
  | commitTakesEffect => cases he
  | rollbackTakesEffect => cases he
  | rollbackOutcome => cases he
  | checkEnd => cases he
  | quietTimerExpiry => cases he
  | replyReady => cases he
  | softResetQuiesceComplete => cases he

/-- Settles O5: the bytes decode row by row, and the bits are read as the bytes. -/
theorem periodsDecodeToTheirCommands : Obligations.PeriodsDecodeToTheirCommands := by
  intro c p hw he
  have hbytes := decodePeriod_encodePeriod hw he
  exact ⟨hbytes, fun loose hloose => (decodePeriodBits_bitsOfBytes p hloose).trans hbytes⟩

end Sys2Proof.Safety
end

section
/-! Frames and periods that reach no owner (R171 to R176, R191): what is ignored in power-on reset, the tests of R175, and
what SPI_MISO carries. -/

namespace Sys2Proof.Safety

open Machine

/-! ### The rows a command frame comes in (R175) -/

/-- Every row a frame comes in takes it, under the tests of R175; only GET_STATUS is taken in every state. -/
theorem exec_of_frameRow {c : Instr} {f : Frame} {identifier n : Nat} (h : frameRow c = some (f, identifier, n)) :
    ∃ anyState owner, (anyState = true ↔ c = .getStatus f) ∧
      ∀ s, exec c s = .next (takeFrame s f identifier n anyState owner) := by
  cases c <;> cases h <;> exact ⟨_, _, by simp, fun _ => rfl⟩

/-- R171: a frame's period that fell into power-on reset is ignored whole. -/
theorem exec_frame_ignored {c : Instr} {f : Frame} {identifier n : Nat} (h : frameRow c = some (f, identifier, n))
    {s : State} (hi : s.pins.resetLow = true ∨ f.beganInReset = true) : exec c s = .next s := by
  obtain ⟨anyState, owner, -, hexec⟩ := exec_of_frameRow h
  rw [hexec, takeFrame_ignored s f identifier n anyState owner hi]

theorem notReady_iff (s : State) : s.notReady = true ↔ ¬ Ready s := by
  rw [State.notReady, Ready, Bool.or_eq_true, beq_iff_eq, beq_iff_eq]
  tauto

/-- Settles O39: every row takes its frame by the same tests, readiness before the length. -/
theorem frameTestsComeFirst : Obligations.FrameTestsComeFirst := by
  intro s c f identifier n hrow hr
  refine ⟨fun hb => exec_frame_ignored hrow (.inr hb), fun hb hlen => ?_⟩
  obtain ⟨anyState, owner, hany, hexec⟩ := exec_of_frameRow hrow
  rw [hexec]
  constructor
  · intro hs hc
    obtain rfl : anyState = false := by simpa [hc] using hany
    rw [takeFrame_not_ready s f identifier n owner hr hb hlen ((notReady_iff s).mpr hs)]
    rfl
  · intro hs hn
    have htaken : s.notReady = false ∨ anyState = true :=
      hs.imp (fun hs => by rw [← Bool.not_eq_true, notReady_iff, not_not]; exact hs) hany.mpr
    rw [takeFrame_wrong_length s f identifier n anyState owner hr hb hlen htaken hn]
    rfl

/-- Settles O1: by the definition of the step. -/
theorem stepRunsFrontCommand : Obligations.StepRunsFrontCommand := fun _ _ _ => rfl

/-! ### While RESET_N is low (R191) -/

/-- R191: no happening reaches the part while RESET_N is low. -/
theorem next_running_of_low {s : State} (h : s.pins.resetLow = true) (f : State → State) :
    (.next (s.running f) : Host.Outcome State Fault Refusal) = .next s :=
  congrArg _ (State.running_of_low s f h)

theorem readPeriod_ignored {s : State} {began : Bool} (h : s.pins.resetLow = true ∨ began = true) (clocks : Nat) :
    s.readPeriod clocks began = s := by
  simp [State.readPeriod, h]

theorem cutShort_ignored {s : State} {p : Period} (h : s.pins.resetLow = true ∨ p.beganInReset = true) :
    s.cutShort p = s := by
  simp [State.cutShort, h]

theorem checkFailed_ignored {s : State} {p : Period} (h : s.pins.resetLow = true ∨ p.beganInReset = true) :
    s.checkFailed p = s := by
  simp [State.checkFailed, h]

theorem unknownCommand_ignored {s : State} {f : Frame} (h : s.pins.resetLow = true ∨ f.beganInReset = true) :
    s.unknownCommand f = s := by
  simp [State.unknownCommand, h]

/-- R191, R171: what leaves the part as it is while RESET_N is low. -/
theorem exec_of_low {c : Instr} {s : State} (hlow : s.pins.resetLow = true) (hon : c ≠ .powerOnReset)
    (hend : c ≠ .powerOnResetEnd) (hrise : c ≠ .rollbackReqRisingEdge) (hfall : c ≠ .rollbackReqFallingEdge) :
    exec c s = .next s := by
  cases hrow : frameRow c with
  | some row => exact exec_frame_ignored hrow (.inl hlow)
  | none =>
    cases c with
    | powerOnReset => exact absurd rfl hon
    | powerOnResetEnd => exact absurd rfl hend
    | rollbackReqRisingEdge => exact absurd rfl hrise
    | rollbackReqFallingEdge => exact absurd rfl hfall
    | readPeriod clocks began => exact congrArg Host.Outcome.next (readPeriod_ignored (.inl hlow) clocks)
    | commandFrameCutShort p => exact congrArg Host.Outcome.next (cutShort_ignored (.inl hlow))
    | checkFailedFrame p => exact congrArg Host.Outcome.next (checkFailed_ignored (.inl hlow))
    | unknownCommand code f => exact congrArg Host.Outcome.next (unknownCommand_ignored (.inl hlow))
    | mapSweepComplete | upstreamRequest | saveAllocation | arbiterGrant | downstreamCreditReturn | downstreamResponse
    | tagTimeout | stalePeriodExpiry | openTakesEffect | releaseTakesEffect | commitTakesEffect | rollbackTakesEffect
    | rollbackOutcome | checkEnd | quietTimerExpiry | replyReady | softResetQuiesceComplete =>
      exact next_running_of_low hlow _
    | _ => cases hrow

/-- R191: while RESET_N is low a rising edge moves the level of the pin alone. -/
theorem risingEdge_of_low {s : State} (hlow : s.pins.resetLow = true) :
    s.risingEdge = { s with pins := { s.pins with rollbackReq := true } } := by
  unfold State.risingEdge
  split
  · rename_i hhigh
    rw [← hhigh]
  · rfl

/-- Settles O3: a command is a happening, a period or a frame, and RESET_N low holds back each of them. -/
theorem powerOnResetHoldsThePart : Obligations.PowerOnResetHoldsThePart := by
  intro c s hlow
  exact ⟨exec_of_low hlow, congrArg Host.Outcome.next (risingEdge_of_low hlow), rfl⟩

/-! ### Resets (R42, R84, R191) -/

/-- Settles O6: each block's value after power-on reset is the one it was given. -/
theorem powerOnResetValues : Obligations.PowerOnResetValues := fun _ =>
  ⟨_, rfl, rfl, rfl, rfl, rfl, rfl, rfl, rfl, rfl, rfl, rfl, rfl, rfl, rfl, rfl, rfl, rfl, rfl, rfl, rfl, rfl⟩

/-- R84, R165, R191: from STARTING the end of the reset grants the credits and restarts the quiet timer. -/
theorem powerOnEnd_of_starting {s : State} (hlow : s.pins.resetLow = true) (hs : s.marks.state = .starting) :
    s.powerOnEnd = { s with
      transit := { s.transit with credits := 24 }
      notice := { s.notice with quietStart := s.now }
      pins := { s.pins with resetLow := false } } := by
  have hmarks : { s.marks with state := .starting } = s.marks := by rw [← hs]
  rw [State.powerOnEnd, if_pos hlow, hmarks]

/-- Settles O7: the end of the reset leaves STARTING as it is, and the sweep leaves an empty map. -/
theorem resetEndAndSweepComplete : Obligations.ResetEndAndSweepComplete := by
  refine ⟨fun s hlow hs => congrArg Host.Outcome.next (powerOnEnd_of_starting hlow hs), fun s hr hs => ?_⟩
  refine ⟨_, next_running hr State.sweepComplete, ?_⟩
  rw [State.sweepComplete, if_pos hs]
  exact ⟨fun _ => rfl, rfl⟩

/-! ### Frames that are not taken (R173, R175, R182) -/

/-- R175: a frame of an undefined code is answered UNKNOWN_COMMAND. -/
theorem unknownCommand_of_running {s : State} (hr : Running s) {f : Frame} (hb : f.beganInReset = false)
    (hlen : f.payload.length ≤ 48) :
    s.unknownCommand f = replied s f f.payload.length .unknownCommand [] := by
  rw [State.unknownCommand, show s.pins.resetLow = false from hr, hb, if_neg (by decide),
    if_neg (Nat.not_lt.mpr hlen)]
  rfl

/-- R173, R175: a failed check is answered with the request number as received. -/
theorem checkFailed_of_running {s : State} (hr : Running s) {p : Period} (hb : p.beganInReset = false) :
    s.checkFailed p = (s.driveCommandPeriod p.clocks).reply (byteAt p.bytes 1) .checkFailed [] := by
  simp [State.checkFailed, hb, show s.pins.resetLow = false from hr]

/-- R172, R173: a frame cut short does nothing but that SPI_MISO is driven. -/
theorem cutShort_of_running {s : State} (hr : Running s) {p : Period} (hb : p.beganInReset = false) :
    s.cutShort p = s.driveCommandPeriod p.clocks := by
  simp [State.cutShort, hb, show s.pins.resetLow = false from hr]

/-- Settles O40: the four rows that answer without an owner's change. -/
theorem framesThatAreNotTaken : Obligations.FramesThatAreNotTaken := by
  refine ⟨fun s code f hr hb hlen => congrArg Host.Outcome.next (unknownCommand_of_running hr hb hlen),
    fun s f hd => next_takeFrame hd (by decide) rfl, fun s code request length rest bits hr => ?_,
    fun s code f hb => congrArg Host.Outcome.next (unknownCommand_ignored (.inr hb)),
    fun s p hb => congrArg Host.Outcome.next (checkFailed_ignored (.inr hb))⟩
  exact congrArg Host.Outcome.next (checkFailed_of_running hr rfl)

/-! ### What SPI_MISO carries (R171, R172, R176) -/

/-- The bits SPI_MISO is driven to over a period of `clocks` cycles, one more than there are cycles (log 25). -/
def misoBits (sent : List Byte) (clocks : Nat) : List Bool :=
  (List.range (clocks + 1)).map fun i => (bitsOfBytes sent).getD i false

theorem misoOf_eq (sent : List Byte) (clocks : Nat) : misoOf sent clocks =
    (misoBits sent clocks).map (fun b => if b then MisoLevel.high else MisoLevel.low) ++ [.highImpedance] := by
  simp only [misoOf, misoBits, List.map_map]
  rfl

/-- Each byte's bits are driven most significant first, a byte left incomplete included. -/
theorem misoBits_getElem? {sent : List Byte} {clocks i k : Nat} (hk : k < 8) (h : 8 * i + k ≤ clocks) :
    (misoBits sent clocks)[8 * i + k]? = some ((byteAt sent i).getLsbD (7 - k)) := by
  rw [← bitsOfBytes_getD sent i k hk]
  simp [misoBits, Nat.lt_succ_of_le h]

theorem readBytes_of_not_ready {s : State} (h : ∀ r, s.mgmt.buffer ≠ .ready r) : s.readBytes = [0x00#8] := by
  unfold State.readBytes
  split
  · exact absurd ‹_› (h _)
  · rfl

theorem readyByte_of_not_ready {s : State} (h : ∀ r, s.mgmt.buffer ≠ .ready r) : s.readyByte = 0x00#8 := by
  unfold State.readyByte
  split
  · exact absurd ‹_› (h _)
  · rfl

theorem readPeriod_of_running {s : State} (hr : Running s) (clocks : Nat) :
    s.readPeriod clocks false = s.setPins { s.pins with miso := misoOf s.readBytes clocks } := by
  simp [State.readPeriod, show s.pins.resetLow = false from hr]

/-- Settles O41: the course of SPI_MISO bit by bit, and each period's own bytes. -/
theorem periodsAndReplies : Obligations.PeriodsAndReplies := by
  refine ⟨fun sent clocks => ⟨_, misoOf_eq sent clocks, by simp [misoBits], fun i k => misoBits_getElem?⟩, ?_⟩
  rintro s drives hr rfl
  refine ⟨fun r clocks hb => ?_, fun clocks hb => ?_,
    fun clocks => congrArg Host.Outcome.next (readPeriod_ignored (.inr rfl) clocks), fun r hb => ?_,
    fun bytes bits => congrArg Host.Outcome.next (cutShort_of_running hr rfl),
    fun bytes bits => congrArg Host.Outcome.next (cutShort_ignored (.inr rfl)), fun r hb => ?_,
    readyByte_of_not_ready⟩
  · refine congrArg Host.Outcome.next ((readPeriod_of_running hr clocks).trans ?_)
    rw [State.readBytes, hb]
    rfl
  · refine congrArg Host.Outcome.next ((readPeriod_of_running hr clocks).trans ?_)
    rw [readBytes_of_not_ready hb]
    rfl
  · refine (next_running hr State.replyReady).trans ?_
    rw [State.replyReady, hb]
    rfl
  · rw [State.readyByte, hb]

end Sys2Proof.Safety
end

section
/-! The soft reset (R184 to R190): what the release step makes of each entry, what the quiesce leaves once it completes, and
the entry to RESETTING. -/

namespace Sys2Proof.Machine

/-! ### The release step (R105, R186) -/

/-- R78, R105: an entry once the waiting list is released. -/
def TransitEntry.unwaited (e : TransitEntry) : TransitEntry :=
  if e.state = .waitSave && !e.hasContext then { e with state := .forwardable } else e

@[simp] theorem TransitEntry.unwaited_order (e : TransitEntry) : e.unwaited.order = e.order := by
  unfold TransitEntry.unwaited
  split <;> rfl

@[simp] theorem TransitEntry.unwaited_index? (e : TransitEntry) : e.unwaited.index? = e.index? := by
  unfold TransitEntry.unwaited
  split <;> rfl

theorem TransitEntry.unwaited_of_waiting {e : TransitEntry} (h : e.state = .waitSave ∧ e.hasContext = false) :
    e.unwaited = { e with state := .forwardable } := by
  simp [TransitEntry.unwaited, h]

theorem TransitEntry.unwaited_of_not_waiting {e : TransitEntry} (h : ¬ (e.state = .waitSave ∧ e.hasContext = false)) :
    e.unwaited = e := by
  simpa [TransitEntry.unwaited] using fun hs hc => absurd ⟨hs, hc⟩ h

theorem State.releaseWaiting_entries (s : State) :
    s.releaseWaiting.transit.entries = s.transit.entries.map TransitEntry.unwaited := rfl

theorem InOrder.map {es : List TransitEntry} {f : TransitEntry → TransitEntry} (h : InOrder es)
    (hf : ∀ e, (f e).order = e.order) : InOrder (es.map f) :=
  List.pairwise_map.mpr (h.imp fun hab => by rw [hf, hf]; exact hab)

/-- The entry that `e`, behind the entries `before`, becomes at the release step (R105, R186). -/
def releaseResult (before : List TransitEntry) (e : TransitEntry) : TransitEntry :=
  if e.state = .waitSave ∧ e.hasContext = false then { e with state := .forwardable }
  else if e.state = .waitMark ∧ e.index? ≠ none then releasedFrom before e
  else e

/-- R105, R186: the release step in RESETTING, entry by entry. -/
theorem State.releaseStep_transit {s : State} (hs : s.marks.state = .resetting) (ho : InOrder s.transit.entries) :
    s.releaseStep.transit.entries.length = s.transit.entries.length ∧
    s.releaseStep.transit.credits = s.transit.credits ∧
    ∀ before e after, s.transit.entries = before ++ e :: after →
      s.releaseStep.transit.entries[before.length]? = some (releaseResult before e) := by
  have ho₁ : InOrder s.releaseWaiting.transit.entries := ho.map TransitEntry.unwaited_order
  obtain ⟨hlength, hcredits, hentry⟩ := reclassify_foldl_resetting
    (s.releaseWaiting.transit.entries.filter (·.state == .waitMark)) s.releaseWaiting (by simpa using hs) ho₁
    (List.Pairwise.filter _ ho₁) (fun x hx => (List.mem_filter.mp hx).1)
  refine ⟨hlength.trans (by simp [State.releaseWaiting_entries]), hcredits, fun before e after he => ?_⟩
  have he₁ : s.releaseWaiting.transit.entries =
      before.map TransitEntry.unwaited ++ e.unwaited :: after.map TransitEntry.unwaited := by
    simp [State.releaseWaiting_entries, he]
  have hat := hentry _ _ _ he₁
  rw [List.length_map] at hat
  have hmem : e.unwaited ∈ s.releaseWaiting.transit.entries.filter (·.state == .waitMark) ↔
      e.unwaited.state = .waitMark := by
    simp [he₁]
  refine hat.trans (congrArg some ?_)
  simp only [hmem, TransitEntry.unwaited_index?, releaseResult]
  by_cases hwait : e.state = .waitSave ∧ e.hasContext = false
  · rw [TransitEntry.unwaited_of_waiting hwait, if_pos hwait, if_neg (by simp)]
  · rw [TransitEntry.unwaited_of_not_waiting hwait, if_neg hwait,
      releasedFrom_congr (g := before) (by simp [Function.comp_def])]

end Sys2Proof.Machine

namespace Sys2Proof.Safety

open Machine

/-! ### The quiesce (R185 to R190) -/

/-- R190: a stopped walk's offset becomes the interruption report, else the report stays. -/
theorem resetStep_interruption (m : ManagementPort) :
    (∀ p, m.stoppedWalk = some p → m.resetStep.interruption = some p) ∧
    (m.stoppedWalk = none → m.resetStep.interruption = m.interruption) :=
  ⟨fun p h => by simp [ManagementPort.resetStep, h], fun h => by simp [ManagementPort.resetStep, h]⟩

/-- Settles O11: where the quiesce is due it is the release step and then the reset step, and elsewhere nothing. -/
theorem quiesceCompletesWithResetStep : Obligations.QuiesceCompletesWithResetStep := by
  intro s hr hs ho
  constructor
  · intro hfree hidle
    have hdue : s.quiesceDue = true := (State.quiesceDue_iff s).mpr ⟨hs, hfree, hidle⟩
    obtain ⟨hlength, hcredits, hentry⟩ := State.releaseStep_transit hs ho
    obtain ⟨hmarks, hwindows, hlog, hsave, htransit, hdown, hrestore, hnotice, hmgmt, hpins, hlinks, -, -, -⟩ :=
      s.quiesceStep_keeps
    obtain ⟨hstopped, hnone⟩ := resetStep_interruption s.mgmt
    refine ⟨s.quiesceStep, (next_running hr State.quiesceComplete).trans ?_, hmarks, window_reset, ?_, ?_, ?_⟩
    · rw [State.quiesceComplete_of_due hdue]
    · rw [hwindows]
      rfl
    · rw [items, hlog, hwindows, hmgmt]
      rfl
    · rw [hlog, hsave, hrestore, hnotice, hmgmt, htransit]
      exact ⟨rfl, rfl, rfl, contextCleared_reset, rfl, rfl, rfl, rfl, rfl, rfl, rfl, rfl, hstopped, hnone, hlength,
        hentry, hcredits, hdown, hlinks, hpins⟩
  · intro hbusy
    refine (next_running hr State.quiesceComplete).trans (congrArg Host.Outcome.next ?_)
    refine State.quiesceComplete_of_not_due ((Bool.eq_false_iff).mpr fun hdue => ?_)
    obtain ⟨-, hfree, hidle⟩ := (State.quiesceDue_iff s).mp hdue
    rcases hbusy with ⟨c, hc⟩ | hwalk
    · exact hc (hfree c)
    · exact hwalk hidle

/-! ### The quiesce and the management port (R176, R188) -/

/-- R93: evaluating a head does not touch the management port. -/
theorem evaluateHead_setMgmt (s : State) (m : ManagementPort) (o : Nat) :
    (s.setMgmt m).evaluateHead o = (s.evaluateHead o).setMgmt m := by
  unfold State.evaluateHead
  rw [show (s.setMgmt m).entry? o = s.entry? o from rfl]
  cases s.entry? o with
  | none => rfl
  | some e =>
    dsimp only
    split
    · rw [apply_ite (State.setMgmt · m)]
      rfl
    · rfl

/-- R99: re-classifying an entry does not touch the management port. -/
theorem reclassify_setMgmt (s : State) (m : ManagementPort) (e : TransitEntry) :
    (s.setMgmt m).reclassify e = (s.reclassify e).setMgmt m := by
  unfold State.reclassify
  split
  · dsimp only
    rw [apply_ite (State.setMgmt · m), ← evaluateHead_setMgmt]
    rfl
  · rfl

/-- R186: neither does the release step. -/
theorem releaseStep_setMgmt (s : State) (m : ManagementPort) : (s.setMgmt m).releaseStep = s.releaseStep.setMgmt m := by
  have fold (es : List TransitEntry) : ∀ s : State,
      es.foldl State.reclassify (s.setMgmt m) = (es.foldl State.reclassify s).setMgmt m := by
    induction es with
    | nil => exact fun _ => rfl
    | cons e es ih => exact fun s => by rw [List.foldl_cons, reclassify_setMgmt, ih, List.foldl_cons]
  exact fold _ s.releaseWaiting

/-- R176, R188: the quiesce leaves a reply in the response buffer. -/
theorem quiesceComplete_reply (s : State) (request : Byte) (status : Status) (payload : List Byte) :
    (s.reply request status payload).quiesceComplete = s.quiesceComplete.reply request status payload := by
  cases hdue : s.quiesceDue with
  | false =>
    rw [State.quiesceComplete_of_not_due hdue, State.quiesceComplete_of_not_due (by exact hdue)]
  | true =>
    have hmgmt : s.releaseStep.mgmt = s.mgmt := by simp
    rw [State.quiesceComplete_of_due hdue, State.quiesceComplete_of_due (by exact hdue), State.quiesceStep, State.reply,
      releaseStep_setMgmt, State.quiesceStep, ← hmgmt]
    rfl

/-! ### The entry to RESETTING (R26, R104, R152, R153, R184) -/

/-- R152, R153: an engine with an end request set. -/
def askedToEnd (e : RestoreEngine) (request : EndRequest) : RestoreEngine := { e with endRequest := request }

/-- R152, R153: an engine with an end request set, back in IDLE where the record step ends the walk at once. -/
def endedOrAsked (e : RestoreEngine) (request : EndRequest) : RestoreEngine :=
  if e.endsAtOnce then idleEngine (askedToEnd e request) else askedToEnd e request

/-- R152, R153: the engine a soft reset leaves. -/
def engineAtReset (e : RestoreEngine) : RestoreEngine :=
  match e.state with
  | .idle => e
  | .restoring => endedOrAsked e .stop
  | .checking => endedOrAsked e .abandonSilent

/-- R152: the walk offset the port then holds: a rollback that ends at once hands over its own. -/
def offsetAtReset (e : RestoreEngine) (held : Option Nat) : Option Nat :=
  if e.state = .restoring ∧ e.endsAtOnce = true then some e.position else held

/-- R152: a rollback walk is stopped. -/
theorem requestEnd_stop (h : Happening) : (h.requestEnd .stop).state = { h.state with
    restore := endedOrAsked h.state.restore .stop
    mgmt := { h.state.mgmt with
      stoppedWalk := if h.state.restore.endsAtOnce then some h.state.restore.position else h.state.mgmt.stoppedWalk } } := by
  unfold Happening.requestEnd endedOrAsked
  cases h.state.restore.endsAtOnce <;> rfl

/-- R153: a check is abandoned silently. -/
theorem requestEnd_abandonSilent (h : Happening) : (h.requestEnd .abandonSilent).state =
    { h.state with restore := endedOrAsked h.state.restore .abandonSilent } := by
  unfold Happening.requestEnd endedOrAsked
  cases h.state.restore.endsAtOnce <;> rfl

/-- R152, R153: on entry to RESETTING. -/
theorem endWalkForReset_state (h : Happening) : h.endWalkForReset.state = { h.state with
    restore := engineAtReset h.state.restore
    mgmt := { h.state.mgmt with stoppedWalk := offsetAtReset h.state.restore h.state.mgmt.stoppedWalk } } := by
  unfold Happening.endWalkForReset
  split
  · simp [engineAtReset, offsetAtReset, *]
  · simp [engineAtReset, offsetAtReset, requestEnd_stop, *]
  · simp [engineAtReset, offsetAtReset, requestEnd_abandonSilent, *]

/-- R184: the state SOFT_RESET enters, before the quiesce is tested. -/
def resetEntered (s : State) : State :=
  { s with
    marks := { s.marks with state := .resetting, action := .noAction, latch := false }
    transit := { s.transit with
      entries := s.transit.entries.map fun e => { e with markNumber := none, preDrain := false } }
    restore := engineAtReset s.restore
    mgmt := { s.mgmt with
      resetPhase := .engines, stoppedWalk := offsetAtReset s.restore s.mgmt.stoppedWalk } }

/-- R184, R185: SOFT_RESET enters RESETTING and tests the quiesce once. -/
theorem answerSoftReset_eq (s : State) : answerSoftReset s = ⟨(resetEntered s).quiesceComplete, .accepted, []⟩ := by
  have hentries : (s.transit.entries.map fun e => { e with markNumber := none }).map
      (fun e => { e with preDrain := false }) =
      s.transit.entries.map fun e => { e with markNumber := none, preDrain := false } :=
    List.map_map
  unfold answerSoftReset
  dsimp only
  rw [endWalkForReset_state, resetEntered, ← hentries]
  rfl

/-- Settles O10: SOFT_RESET leaves the state it enters with the quiesce tested, and the reply stands beside it. -/
theorem softResetEntersResetting : Obligations.SoftResetEntersResetting := by
  intro s f hd
  obtain ⟨hr, ⟨hstarting, hresetting⟩, hb, hl⟩ := hd
  refine ⟨resetEntered s, (replied (resetEntered s) f 0 .accepted []).quiesceComplete, ?_,
    next_running (s := replied (resetEntered s) f 0 .accepted []) hr State.quiesceComplete, rfl, rfl, rfl, rfl, rfl,
    rfl, rfl, rfl, rfl, rfl, ?_, ?_, ?_, ?_, ?_⟩
  · refine congrArg Host.Outcome.next ((takeFrame_taken s f 0 0 false answerSoftReset hr hb (by simpa using hl)
      (by decide) (.inl (by simp [State.notReady, hstarting, hresetting]))).trans ?_)
    rw [answerSoftReset_eq]
    exact (quiesceComplete_reply _ _ _ _).symm
  · intro hs
    simp [resetEntered, engineAtReset, offsetAtReset, hs]
  · intro hs he
    simp [resetEntered, engineAtReset, offsetAtReset, endedOrAsked, askedToEnd, hs, (endsAtOnce_iff _).mpr he]
  · intro hs he
    simp [resetEntered, engineAtReset, offsetAtReset, endedOrAsked, askedToEnd, hs, not_endsAtOnce_of_goesOn he]
  · intro hs he
    simp [resetEntered, engineAtReset, offsetAtReset, endedOrAsked, askedToEnd, hs, (endsAtOnce_iff _).mpr he]
  · intro hs he
    simp [resetEntered, engineAtReset, offsetAtReset, endedOrAsked, askedToEnd, hs, not_endsAtOnce_of_goesOn he]

end Sys2Proof.Safety
end

section
/-! What changes the items, the next mark number and the granule map (R2, R41, R180, R185, R188): the happenings that
leave them alone, and the commands that do not. -/

namespace Sys2Proof.Safety

open Machine

/-! ### The next mark number (R2, R13) -/

@[simp] theorem nextNumber_startDrain (s : State) (action : PendingAction) :
    (s.startDrain action).marks.nextNumber = s.marks.nextNumber := rfl

@[simp] theorem nextNumber_lineRequest (h : Happening) :
    h.lineRequest.state.marks.nextNumber = h.state.marks.nextNumber := by
  unfold Happening.lineRequest
  dsimp only
  (repeat' split) <;> simp [State.updateMarks]

@[simp] theorem nextNumber_evaluateLatch (h : Happening) :
    h.evaluateLatch.state.marks.nextNumber = h.state.marks.nextNumber := by
  unfold Happening.evaluateLatch
  (repeat' split) <;> simp [State.updateMarks]

@[simp] theorem nextNumber_settle (h : Happening) : h.settle.state.marks.nextNumber = h.state.marks.nextNumber := by
  simp [Happening.settle]

@[simp] theorem nextNumber_enterBroken (s : State) (reason : BrokenReason) :
    (s.enterBroken reason).marks.nextNumber = s.marks.nextNumber := rfl

@[simp] theorem nextNumber_breakReport (h : Happening) (reason : BrokenReason) :
    (h.breakReport reason).state.marks.nextNumber = h.state.marks.nextNumber := by
  unfold Happening.breakReport
  dsimp only
  (repeat' split) <;> simp [State.updateMarks]

@[simp] theorem nextNumber_popMark (s : State) : s.popMark.marks.nextNumber = s.marks.nextNumber := rfl

@[simp] theorem nextNumber_commitMarks (s : State) : s.commitMarks.marks.nextNumber = s.marks.nextNumber := rfl

@[simp] theorem nextNumber_releaseEffect (h : Happening) :
    h.releaseEffect.state.marks.nextNumber = h.state.marks.nextNumber := by
  unfold Happening.releaseEffect
  split
  · split
    · simp only [nextNumber_settle, Happening.step_state]
      split <;> rfl
    · rfl
  · rfl

@[simp] theorem nextNumber_commitEffect (h : Happening) :
    h.commitEffect.state.marks.nextNumber = h.state.marks.nextNumber := by
  unfold Happening.commitEffect
  (repeat' split) <;> simp

@[simp] theorem nextNumber_rollbackEffect (h : Happening) :
    h.rollbackEffect.state.marks.nextNumber = h.state.marks.nextNumber := by
  unfold Happening.rollbackEffect
  (repeat' split) <;> simp [Happening.beginRollback, State.updateMarks]

@[simp] theorem nextNumber_takeOutcome (h : Happening) :
    h.takeOutcome.state.marks.nextNumber = h.state.marks.nextNumber := by
  unfold Happening.takeOutcome
  dsimp only
  (repeat' split) <;> simp [Happening.rollbackDone, Happening.rollbackIncomplete, State.updateMarks]

@[simp] theorem nextNumber_allocateSave (h : Happening) :
    h.allocateSave.state.marks.nextNumber = h.state.marks.nextNumber := by
  unfold Happening.allocateSave
  (repeat' split) <;> simp

@[simp] theorem nextNumber_logWriteFailed (h : Happening) (c : ContextNo) (x : SaveContext) (result : Result) :
    (h.logWriteFailed c x result).state.marks.nextNumber = h.state.marks.nextNumber := by
  unfold Happening.logWriteFailed
  dsimp only
  split <;> simp

@[simp] theorem nextNumber_saveResult (h : Happening) (c : ContextNo) (step : SaveStep) (result : Result) :
    (h.saveResult c step result).state.marks.nextNumber = h.state.marks.nextNumber := by
  unfold Happening.saveResult
  (repeat' split) <;> simp

@[simp] theorem nextNumber_deliverOk (h : Happening) (data : Option (List Byte)) (origin : TagOrigin) :
    (h.deliverOk data origin).state.marks.nextNumber = h.state.marks.nextNumber := by
  cases origin <;> simp [Happening.deliverOk]

@[simp] theorem nextNumber_deliverFailure (h : Happening) (failure : Result) (origin : TagOrigin) :
    (h.deliverFailure failure origin).state.marks.nextNumber = h.state.marks.nextNumber := by
  cases origin <;> simp [Happening.deliverFailure]

@[simp] theorem nextNumber_response (h : Happening) (t : TagNo) (status : LinkStatus) (data : Option (List Byte)) :
    (h.response t status data).state.marks.nextNumber = h.state.marks.nextNumber := by
  unfold Happening.response
  dsimp only
  (repeat' split) <;> simp

@[simp] theorem nextNumber_timeOut (h : Happening) (t : TagNo) :
    (h.timeOut t).state.marks.nextNumber = h.state.marks.nextNumber := by
  unfold Happening.timeOut
  (repeat' split) <;> simp

/-- R13: an OPEN that takes effect issues the next mark number; else nothing is issued. -/
theorem nextNumber_openEffect (h : Happening) : h.openEffect.state.marks.nextNumber = h.state.marks.nextNumber ∨
    h.openEffect.state.marks.nextNumber = h.state.marks.nextNumber + 1 := by
  unfold Happening.openEffect
  split
  · split
    · exact .inr (by rw [nextNumber_settle]; rfl)
    · exact .inl rfl
  · exact .inl rfl

/-! ### LOG_READER and the granule map: a response writes the map alone, a failure not even that (R41, R136) -/

@[simp] theorem reader_writeMap (s : State) (i v : Nat) : (s.writeMap i v).windows.reader = s.windows.reader := rfl

@[simp] theorem reader_restored (h : Happening) (r : CurrentRecord) :
    (h.restored r).state.windows.reader = h.state.windows.reader := by
  simp [Happening.restored]

@[simp] theorem reader_recordRequestEnded (h : Happening) (r : CurrentRecord) (line : Nat) (isRead : Bool)
    (result : Result) :
    (h.recordRequestEnded r line isRead result).state.windows.reader = h.state.windows.reader := by
  unfold Happening.recordRequestEnded
  dsimp only
  (repeat' split) <;> simp

@[simp] theorem reader_restoreResult (h : Happening) (step : RestoreStep) (result : Result) :
    (h.restoreResult step result).state.windows.reader = h.state.windows.reader := by
  unfold Happening.restoreResult
  dsimp only
  (repeat' split) <;> simp

@[simp] theorem reader_saveCompleted (s : State) (c : ContextNo) (x : SaveContext) :
    (s.saveCompleted c x).windows.reader = s.windows.reader := by
  simp [State.saveCompleted]

@[simp] theorem reader_saveResult (h : Happening) (c : ContextNo) (step : SaveStep) (result : Result) :
    (h.saveResult c step result).state.windows.reader = h.state.windows.reader := by
  unfold Happening.saveResult
  (repeat' split) <;> simp

theorem windows_recordRequestEnded_of_failed (h : Happening) (r : CurrentRecord) (line : Nat) (isRead : Bool)
    {result : Result} (hf : result.failed = true) :
    (h.recordRequestEnded r line isRead result).state.windows = h.state.windows := by
  unfold Happening.recordRequestEnded
  simp only [hf, Bool.or_true, if_true]
  split <;> simp

theorem windows_restoreResult_of_failed (h : Happening) (step : RestoreStep) {result : Result}
    (hf : result.failed = true) : (h.restoreResult step result).state.windows = h.state.windows := by
  unfold Happening.restoreResult
  dsimp only
  split
  · split
    · cases hf
    · simp
  · rw [windows_recordRequestEnded_of_failed _ _ _ _ hf]
    rfl
  · rw [windows_recordRequestEnded_of_failed _ _ _ _ hf]
    rfl
  · rfl

theorem windows_saveResult_of_failed (h : Happening) (c : ContextNo) (step : SaveStep) {result : Result}
    (hf : result.failed = true) : (h.saveResult c step result).state.windows = h.state.windows := by
  unfold Happening.saveResult
  split
  · rfl
  · split
    · cases hf
    · split <;> simp
    · cases hf
    · cases hf
    · simp

theorem windows_deliverFailure (h : Happening) {failure : Result} (hf : failure.failed = true) (origin : TagOrigin) :
    (h.deliverFailure failure origin).state.windows = h.state.windows := by
  cases origin with
  | passThrough => rfl
  | save c step => exact windows_saveResult_of_failed h c step hf
  | restore step => exact windows_restoreResult_of_failed h step hf

@[simp] theorem reader_deliverOk (h : Happening) (data : Option (List Byte)) (origin : TagOrigin) :
    (h.deliverOk data origin).state.windows.reader = h.state.windows.reader := by
  cases origin <;> simp [Happening.deliverOk]

@[simp] theorem reader_response (h : Happening) (t : TagNo) (status : LinkStatus) (data : Option (List Byte)) :
    (h.response t status data).state.windows.reader = h.state.windows.reader := by
  unfold Happening.response
  split
  · cases status with
    | ok => simp
    | error =>
      dsimp only
      rw [windows_deliverFailure _ rfl]
      simp
  · simp
  · simp

@[simp] theorem windows_timeOut (h : Happening) (t : TagNo) : (h.timeOut t).state.windows = h.state.windows := by
  unfold Happening.timeOut
  split
  · split
    · simp [windows_deliverFailure (failure := .timeout) _ rfl]
    · rfl
  · rfl

/-! ### Settings -/

/-- The items are what the log unit, LOG_READER and the management port hold. -/
theorem items_eq {s t : State} (hl : logItems t.log = logItems s.log) (hr : t.windows.reader = s.windows.reader)
    (hp : portItems t.mgmt = portItems s.mgmt) : items t = items s := by
  simp only [logItems, portItems, Prod.mk.injEq] at hl hp
  simp only [items, hl, hr, hp]

/-- `t` has the items, the next mark number and the map of `s`, and a part that runs is still in RESETTING where it was. -/
structure KeepsSettings (s t : State) : Prop where
  items : items t = items s
  number : t.marks.nextNumber = s.marks.nextNumber
  map : t.windows.map = s.windows.map
  resetting : Running s → s.marks.state = .resetting → t.marks.state = .resetting

namespace KeepsSettings

theorem refl (s : State) : KeepsSettings s s := ⟨rfl, rfl, rfl, fun _ => id⟩

/-- A change that leaves the marks and the windows. -/
theorem of_same {s t : State} (hm : t.marks = s.marks) (hw : t.windows = s.windows)
    (hl : logItems t.log = logItems s.log) (hp : portItems t.mgmt = portItems s.mgmt) : KeepsSettings s t :=
  ⟨items_eq hl (by rw [hw]) hp, by rw [hm], by rw [hw], fun _ => by rw [hm]; exact id⟩

/-- A happening that leaves the windows, and RESETTING as the engines' limits have it. -/
theorem of_limits {s t : State} (k : KeepsLimits s t) (hn : t.marks.nextNumber = s.marks.nextNumber)
    (hw : t.windows = s.windows) (hl : logItems t.log = logItems s.log) (hp : portItems t.mgmt = portItems s.mgmt) :
    KeepsSettings s t :=
  ⟨items_eq hl (by rw [hw]) hp, hn, by rw [hw], fun _ => k.resetting.mpr⟩

/-- A happening's posts change no setting. -/
theorem happening {s : State} {f : Happening → Happening} (h : KeepsSettings s (f (Happening.start s)).state) :
    KeepsSettings s (Machine.happening s f) := by
  obtain ⟨hmarks, hwindows, hlog, -, -, -, -, hmgmt, -⟩ := happening_keeps s f
  refine ⟨?_, by rw [hmarks]; exact h.number, by rw [hwindows]; exact h.map, by rw [hmarks]; exact h.resetting⟩
  rw [← h.items, Safety.items, Safety.items, hlog, hwindows, hmgmt]

/-- A happening that does not reach a part in power-on reset (R191). -/
theorem running {s : State} {f : State → State} (h : KeepsSettings s (f s)) : KeepsSettings s (s.running f) := by
  unfold State.running
  split
  · exact .refl s
  · exact h

/-- A taken frame with its reply. -/
theorem reply {s t : State} {n : Nat} (h : KeepsSettings (s.driveCommandPeriod n) t) (request : Byte) (status : Status)
    (payload : List Byte) : KeepsSettings s (t.reply request status payload) :=
  ⟨h.items, h.number, h.map, h.resetting⟩

end KeepsSettings

/-! ### Frames (R175 to R183) -/

/-- An owner that changes no setting where the part is ready, or where it answers in every state. -/
def OwnerKeepsSettings (anyState : Bool) (owner : State → Answer) : Prop :=
  ∀ s, (anyState = false → s.marks.state ≠ .resetting) → KeepsSettings s (owner s).state

theorem not_resetting_of_ready {s : State} (h : s.notReady = false) : s.marks.state ≠ .resetting := by
  intro hs
  simp [State.notReady, hs] at h

/-- A frame refused by the tests of R175 changes no setting, and neither does one such an owner takes. -/
theorem keepsSettings_takeFrame (s : State) (f : Frame) (identifier n : Nat) {anyState : Bool} {owner : State → Answer}
    (h : OwnerKeepsSettings anyState owner) : KeepsSettings s (takeFrame s f identifier n anyState owner) := by
  rcases takeFrame_cases s f identifier n anyState owner with heq | ⟨u, rfl, ⟨status, heq⟩ | ⟨hready, heq⟩⟩
  · rw [heq]
    exact .refl s
  · rw [heq]
    exact (KeepsSettings.refl _).reply _ _ _
  · rw [heq]
    exact (h _ fun hany => not_resetting_of_ready (hready hany)).reply _ _ _

/-- An owner that leaves the marks, the windows and the items. -/
theorem OwnerKeepsSettings.of_same {anyState : Bool} {owner : State → Answer}
    (h : ∀ s, (owner s).state.marks = s.marks ∧ (owner s).state.windows = s.windows ∧
      logItems (owner s).state.log = logItems s.log ∧ portItems (owner s).state.mgmt = portItems s.mgmt) :
    OwnerKeepsSettings anyState owner := fun s _ => by
  obtain ⟨hm, hw, hl, hp⟩ := h s
  exact .of_same hm hw hl hp

/-- An owner that changes window records alone. -/
theorem OwnerKeepsSettings.of_records {owner : State → Answer} (h : ∀ s, KeepsAllButRecords s (owner s))
    (hr : ∀ s, (owner s).state.windows.reader = s.windows.reader) : OwnerKeepsSettings false owner := by
  intro s _
  obtain ⟨hmarks, hmap, hlog, -, -, hmgmt⟩ := h s
  exact ⟨items_eq (by rw [hlog]) (hr s) (by rw [hmgmt]), by rw [hmarks], hmap, fun _ => by rw [hmarks]; exact id⟩

theorem reader_answerSetWindow (o : WindowOperands) (s : State) :
    (answerSetWindow o s).state.windows.reader = s.windows.reader := by
  refine withWindow_induction (P := fun a => a.state.windows.reader = s.windows.reader) rfl fun w => ?_
  split <;> rfl

theorem reader_answerEnableWindow (n : Nat) (s : State) :
    (answerEnableWindow n s).state.windows.reader = s.windows.reader := by
  refine withWindow_induction (P := fun a => a.state.windows.reader = s.windows.reader) rfl fun w => ?_
  (repeat' split) <;> rfl

theorem reader_answerDisableWindow (n : Nat) (s : State) :
    (answerDisableWindow n s).state.windows.reader = s.windows.reader := by
  refine withWindow_induction (P := fun a => a.state.windows.reader = s.windows.reader) rfl fun w => ?_
  (repeat' split) <;> rfl

/-- A mark command's owner, which refuses or begins a drain (R6). -/
theorem OwnerKeepsSettings.of_drain {owner : State → Answer} (h : ∀ s, RefusedOrDrains s (owner s)) :
    OwnerKeepsSettings false owner := by
  intro s hs
  rcases h s with heq | ⟨action, heq⟩ <;> rw [heq]
  · exact .refl s
  · exact .of_limits (keepsLimits_startDrain (hs rfl) action) rfl rfl rfl rfl

/-- R9: CHECK_LOG begins a walk or is refused. -/
theorem ownerKeepsSettings_checkLog (k : Nat) : OwnerKeepsSettings false (answerCheckLog k) := .of_same fun s => by
  unfold answerCheckLog
  (repeat' split) <;> simp

/-- R10: DISCARD leaves BROKEN for IDLE. -/
theorem ownerKeepsSettings_discard : OwnerKeepsSettings false answerDiscard := by
  intro s hs
  unfold answerDiscard
  dsimp only
  (repeat' split) <;> try exact .refl s
  exact ⟨rfl, rfl, rfl, fun _ h => absurd h (hs rfl)⟩

/-! ### The items (R46, R57, R60, R182, R183) -/

/-- A WRITE_CONFIG is refused and changes nothing, or is answered OK and leaves all but the items and the line. -/
def RefusedOrStored (s : State) (a : Answer) : Prop :=
  a.state = s ∨ (a.status = .ok ∧ a.payload = [] ∧ a.state.marks = s.marks ∧ a.state.windows.map = s.windows.map)

theorem refusedOrStored_writeLogBase (v : Nat) (s : State) : RefusedOrStored s (answerWriteLogBase v s) := by
  unfold answerWriteLogBase
  (repeat' split) <;> try exact .inl rfl
  exact .inr ⟨rfl, rfl, rfl, rfl⟩

theorem refusedOrStored_writeLogSize (v : Nat) (s : State) : RefusedOrStored s (answerWriteLogSize v s) := by
  unfold answerWriteLogSize
  (repeat' split) <;> try exact .inl rfl
  exact .inr ⟨rfl, rfl, rfl, rfl⟩

theorem refusedOrStored_writeLogThreshold (v : Nat) (s : State) :
    RefusedOrStored s (answerWriteLogThreshold v s) := by
  unfold answerWriteLogThreshold
  (repeat' split) <;> try exact .inl rfl
  exact .inr ⟨rfl, rfl, rfl, rfl⟩

theorem refusedOrStored_writeLogFullPolicy (v : Nat) (s : State) :
    RefusedOrStored s (answerWriteLogFullPolicy v s) := by
  unfold answerWriteLogFullPolicy
  (repeat' split) <;> try exact .inl rfl
  all_goals exact .inr ⟨rfl, rfl, rfl, rfl⟩

theorem refusedOrStored_writeLogReader (a b c : Nat) (s : State) :
    RefusedOrStored s (answerWriteLogReader a b c s) := by
  unfold answerWriteLogReader
  (repeat' split) <;> try exact .inl rfl
  exact .inr ⟨rfl, rfl, rfl, rfl⟩

theorem refusedOrStored_writePartRequesterId (v : Nat) (s : State) :
    RefusedOrStored s (answerWritePartRequesterId v s) := by
  unfold answerWritePartRequesterId
  (repeat' split) <;> try exact .inl rfl
  exact .inr ⟨rfl, rfl, rfl, rfl⟩

theorem refusedOrStored_writeResponseTimeout (v : Nat) (s : State) :
    RefusedOrStored s (answerWriteResponseTimeout v s) := by
  unfold answerWriteResponseTimeout
  (repeat' split) <;> try exact .inl rfl
  exact .inr ⟨rfl, rfl, rfl, rfl⟩

theorem refusedOrStored_writeNoticeTrigger (v : Nat) (s : State) :
    RefusedOrStored s (answerWriteNoticeTrigger v s) := by
  unfold answerWriteNoticeTrigger
  (repeat' split) <;> try exact .inl rfl
  exact .inr ⟨rfl, rfl, rfl, rfl⟩

theorem refusedOrStored_writeNoticeQuiet (v : Nat) (s : State) :
    RefusedOrStored s (answerWriteNoticeQuiet v s) := by
  unfold answerWriteNoticeQuiet
  (repeat' split) <;> try exact .inl rfl
  exact .inr ⟨rfl, rfl, rfl, rfl⟩

theorem refusedOrStored_writeLineRollback (a b : Nat) (s : State) :
    RefusedOrStored s (answerWriteLineRollback a b s) := by
  unfold answerWriteLineRollback
  (repeat' split) <;> try exact .inl rfl
  exact .inr ⟨rfl, rfl, rfl, rfl⟩

theorem refusedOrStored_unknownItem (s : State) : RefusedOrStored s (answerUnknownItem s) := .inl rfl

/-! ### What each command may change -/

/-- What the claim asks of a command that leaves `t`. -/
def OnlyItsOwn (c : Instr) (s t : State) : Prop :=
  (items t = items s ∨
    (isWriteConfig c = true ∧ ∃ request, t.mgmt.buffer = .forming ⟨request, .ok, []⟩) ∨
    (items t = resetItems ∧ (c = .powerOnReset ∨ (∃ f, c = .softReset f) ∨ s.marks.state = .resetting))) ∧
  (c = .powerOnReset ∨ (Running s ∧ s.marks.state = .resetting ∧ t.marks.state ≠ .resetting) ∨
      (∃ f, c = .softReset f ∧ Delivered s f 0 ∧ t.marks.state = .idle) →
    items t = resetItems) ∧
  (c ≠ .powerOnReset → c ≠ .mapSweepComplete →
    t.marks.nextNumber = s.marks.nextNumber ∨
      (c = .openTakesEffect ∧ t.marks.nextNumber = s.marks.nextNumber + 1)) ∧
  (c ≠ .mapSweepComplete → (∀ tag status data, c ≠ .downstreamResponse tag status data) →
    t.windows.map = s.windows.map)

namespace OnlyItsOwn

/-- A command other than the two resets that keeps the items and stays in RESETTING. -/
theorem of_items {c : Instr} {s t : State} (hon : c ≠ .powerOnReset) (hsoft : ∀ f, c ≠ .softReset f)
    (hi : items t = items s) (hs : Running s → s.marks.state = .resetting → t.marks.state = .resetting)
    (hn : c ≠ .mapSweepComplete → t.marks.nextNumber = s.marks.nextNumber ∨
      (c = .openTakesEffect ∧ t.marks.nextNumber = s.marks.nextNumber + 1))
    (hm : c ≠ .mapSweepComplete → (∀ tag status data, c ≠ .downstreamResponse tag status data) →
      t.windows.map = s.windows.map) : OnlyItsOwn c s t := by
  refine ⟨.inl hi, ?_, fun _ => hn, hm⟩
  rintro (rfl | ⟨hr, hin, hout⟩ | ⟨f, rfl, -⟩)
  · exact absurd rfl hon
  · exact absurd (hs hr hin) hout
  · exact absurd rfl (hsoft f)

/-- A command that keeps every setting. -/
theorem of_keeps {c : Instr} {s t : State} (k : KeepsSettings s t) (hon : c ≠ .powerOnReset)
    (hsoft : ∀ f, c ≠ .softReset f) : OnlyItsOwn c s t :=
  .of_items hon hsoft k.items k.resetting (fun _ => .inl k.number) fun _ _ => k.map

/-- A command that completes the quiesce (R185, R188). -/
theorem of_reset {c : Instr} {s t : State} (hc : (∃ f, c = .softReset f) ∨ s.marks.state = .resetting)
    (hi : items t = resetItems) (hn : t.marks.nextNumber = s.marks.nextNumber)
    (hm : (∀ tag status data, c ≠ .downstreamResponse tag status data) → t.windows.map = s.windows.map) :
    OnlyItsOwn c s t :=
  ⟨.inr (.inr ⟨hi, .inr hc⟩), fun _ => hi, fun _ _ => .inl hn, fun _ => hm⟩

/-- A WRITE_CONFIG. -/
theorem of_write {c : Instr} (hc : isWriteConfig c = true) (s : State) (f : Frame) (identifier n : Nat)
    {owner : State → Answer} (h : ∀ u, RefusedOrStored u (owner u)) :
    OnlyItsOwn c s (takeFrame s f identifier n false owner) := by
  have hkeeps {t : State} (k : KeepsSettings s t) : OnlyItsOwn c s t :=
    .of_keeps k (by rintro rfl; cases hc) (by rintro f rfl; cases hc)
  rcases takeFrame_cases s f identifier n false owner with heq | ⟨u, rfl, ⟨status, heq⟩ | ⟨hready, heq⟩⟩
  · rw [heq]
    exact hkeeps (.refl s)
  · rw [heq]
    exact hkeeps ((KeepsSettings.refl _).reply _ _ _)
  · rw [heq]
    rcases h (s.driveCommandPeriod (f.clocks (identifier + f.payload.length))) with hsame | ⟨hok, hempty, hm, hmap⟩
    · rw [hsame]
      exact hkeeps ((KeepsSettings.refl _).reply _ _ _)
    · refine ⟨.inr (.inl ⟨hc, f.request, by rw [hok, hempty]; rfl⟩), ?_, fun _ _ => .inl (congrArg _ hm), fun _ _ => hmap⟩
      rintro (rfl | ⟨-, hs, -⟩ | ⟨f, rfl, -⟩)
      · cases hc
      · exact absurd hs (not_resetting_of_ready (hready rfl))
      · cases hc

end OnlyItsOwn

/-! ### The quiesce (R180, R185, R188) -/

@[simp] theorem items_quiesceStep (s : State) : items s.quiesceStep = resetItems := rfl

@[simp] theorem items_takePost (s : State) (kind : NoticeKind) (level : Nat) :
    items (takePost s kind level) = items s := by
  simp [items]

@[simp] theorem items_countResponseTimedOut (s : State) : items s.countResponseTimedOut = items s := rfl

@[simp] theorem map_resetStep (w : WindowUnit) : w.resetStep.map = w.map := rfl

theorem map_quiesceStep (s : State) : s.quiesceStep.windows.map = s.windows.map := by
  simp

/-- R184, R185: SOFT_RESET completes the quiesce at once, or enters RESETTING. -/
theorem answerSoftReset_cases (s : State) :
    (items (answerSoftReset s).state = resetItems ∧ (answerSoftReset s).state.marks.nextNumber = s.marks.nextNumber ∧
      (answerSoftReset s).state.windows.map = s.windows.map) ∨
    (KeepsSettings s (answerSoftReset s).state ∧ (answerSoftReset s).state.marks.state = .resetting) := by
  rw [answerSoftReset_eq]
  cases hdue : (resetEntered s).quiesceDue with
  | true =>
    rw [State.quiesceComplete_of_due hdue]
    exact .inl ⟨items_quiesceStep _, by simp [resetEntered], map_quiesceStep _⟩
  | false =>
    rw [State.quiesceComplete_of_not_due hdue]
    exact .inr ⟨⟨rfl, rfl, rfl, fun _ _ => rfl⟩, rfl⟩

theorem resetting_of_completes {s t : State} (h : s.completesQuiesce t = true) : t.marks.state = .resetting := by
  simp only [State.completesQuiesce, Bool.and_eq_true] at h
  exact ((State.quiesceDue_iff t).mp h.2).1

namespace OnlyItsOwn

/-- A happening that does not reach a part in power-on reset (R191). -/
theorem running {c : Instr} {s : State} {f : State → State} (hon : c ≠ .powerOnReset) (hsoft : ∀ g, c ≠ .softReset g)
    (h : OnlyItsOwn c s (f s)) : OnlyItsOwn c s (s.running f) := by
  unfold State.running
  split
  · exact .of_keeps (.refl s) hon hsoft
  · exact h

theorem softReset (s : State) (f : Frame) :
    OnlyItsOwn (.softReset f) s (takeFrame s f 0 0 false answerSoftReset) := by
  have hkeeps {t : State} (k : KeepsSettings s t) (hidle : Delivered s f 0 → t.marks.state ≠ .idle) :
      OnlyItsOwn (.softReset f) s t := by
    refine ⟨.inl k.items, ?_, fun _ _ => .inl k.number, fun _ _ => k.map⟩
    rintro (h | ⟨hr, hin, hout⟩ | ⟨g, hg, hd, hs⟩)
    · cases h
    · exact absurd (k.resetting hr hin) hout
    · cases hg
      exact absurd hs (hidle hd)
  have htaken (n : Nat) (request : Byte) (status : Status) (payload : List Byte) : OnlyItsOwn (.softReset f) s
      ((answerSoftReset (s.driveCommandPeriod n)).state.reply request status payload) := by
    rcases answerSoftReset_cases (s.driveCommandPeriod n) with ⟨hi, hn, hm⟩ | ⟨k, hs⟩
    · exact .of_reset (.inl ⟨f, rfl⟩) hi hn fun _ => hm
    · refine hkeeps (k.reply _ _ _) fun _ => ?_
      rw [(State.reply_keeps _ _ _ _).1, hs]
      decide
  by_cases hd : Delivered s f 0
  · rw [takeFrame_delivered s f 0 0 false answerSoftReset hd (by decide)]
    exact htaken _ _ _ _
  · rcases takeFrame_cases s f 0 0 false answerSoftReset with heq | ⟨u, rfl, ⟨status, heq⟩ | ⟨-, heq⟩⟩
    · rw [heq]
      exact hkeeps (.refl s) fun h => absurd h hd
    · rw [heq]
      exact hkeeps ((KeepsSettings.refl _).reply _ _ _) fun h => absurd h hd
    · rw [heq]
      exact htaken _ _ _ _

/-- R41, R185: a response may write the map, and may complete the quiesce. -/
theorem response (s : State) (tag : TagNo) (status : LinkStatus) (data : Option (List Byte)) :
    OnlyItsOwn (.downstreamResponse tag status data) s
      (s.reported (happening s fun h => h.response tag status data)) := by
  have hresetting : (happening s fun h => h.response tag status data).marks.state = .resetting ↔
      s.marks.state = .resetting := by
    rw [(happening_keeps s _).1]
    exact (keepsLimits_response (Happening.start s) tag status data).resetting
  rcases State.reported_cases s (happening s fun h => h.response tag status data) with heq | ⟨hdone, heq⟩
  · rw [heq]
    exact .of_items (by simp) (by simp) (items_eq (by simp) (by simp) (by simp)) (fun _ => hresetting.mpr)
      (fun _ => .inl (by simp)) fun _ h => absurd rfl (h tag status data)
  · rw [heq]
    exact .of_reset (.inr (hresetting.mp (resetting_of_completes hdone))) (items_quiesceStep _) (by simp)
      fun h => absurd rfl (h tag status data)

/-- R123, R185: a timeout may complete the quiesce. -/
theorem timeOut (s : State) (tag : TagNo) : OnlyItsOwn (.tagTimeout tag) s (s.timeOutTag tag) := by
  have k : KeepsSettings s (happening s fun h => h.timeOut tag) := .happening
    (.of_limits (keepsLimits_timeOut (Happening.start s) tag) (by simp) (by simp) (by simp) (by simp))
  have hresetting : (happening s fun h => h.timeOut tag).marks.state = .resetting → s.marks.state = .resetting := by
    rw [(happening_keeps s _).1]
    exact (keepsLimits_timeOut (Happening.start s) tag).resetting.mp
  unfold State.timeOutTag
  dsimp only
  split
  · rename_i r hdone _
    obtain ⟨u, rfl, hu⟩ := State.quiesceAmidTimeout_cases (happening s fun h => h.timeOut tag)
      (.responseTimeout r.origin.source r.address)
    have hreset := hresetting (resetting_of_completes hdone)
    rcases hu with hu | hu | hu <;> rw [hu]
    · exact .of_reset (.inr hreset) (by simp) (by simp) (by simp)
    · exact .of_reset (.inr hreset) (by simp) (by simp) (by simp)
    · exact .of_reset (.inr hreset) (by simp) (by simp) (by simp)
  · exact .of_keeps k (by simp) (by simp)

/-- R185, R188: the quiesce's own row. -/
theorem quiesceComplete (s : State) : OnlyItsOwn .softResetQuiesceComplete s s.quiesceComplete := by
  cases hdue : s.quiesceDue with
  | true =>
    rw [State.quiesceComplete_of_due hdue]
    exact .of_reset (.inr ((State.quiesceDue_iff s).mp hdue).1) (items_quiesceStep s) (by simp)
      fun _ => map_quiesceStep s
  | false =>
    rw [State.quiesceComplete_of_not_due hdue]
    exact .of_keeps (.refl s) (by simp) (by simp)

/-- R42: the sweep writes the map and begins with mark number 1. -/
theorem sweepComplete (s : State) : OnlyItsOwn .mapSweepComplete s s.sweepComplete := by
  unfold State.sweepComplete
  split
  · rename_i hs
    exact .of_items (by simp) (by simp) rfl (fun _ h => by rw [hs] at h; cases h) (absurd rfl) (absurd rfl)
  · exact .of_keeps (.refl s) (by simp) (by simp)

/-- R13: an OPEN that takes effect. -/
theorem openEffect (s : State) : OnlyItsOwn .openTakesEffect s (happening s Happening.openEffect) := by
  refine .of_items (by simp) (by simp) (items_eq (by simp) (by simp) (by simp)) (fun _ => ?_) (fun _ => ?_)
    fun _ _ => by simp
  · rw [(happening_keeps s _).1]
    exact (keepsLimits_openEffect (Happening.start s)).resetting.mpr
  · rw [(happening_keeps s _).1]
    exact (nextNumber_openEffect (Happening.start s)).imp_right fun h => ⟨rfl, h⟩

/-- R191: power-on reset. -/
theorem powerOn (s : State) : OnlyItsOwn .powerOnReset s s.powerOn :=
  ⟨.inr (.inr ⟨rfl, .inl rfl⟩), fun _ => rfl, fun h => absurd rfl h, fun _ _ => rfl⟩

end OnlyItsOwn

/-- A happening that leaves the windows, the items and the next mark number, which `simp` sees by their rules. -/
theorem keepsSettings_happening {s : State} {f : Happening → Happening}
    (k : KeepsLimits s (f (Happening.start s)).state)
    (hn : (f (Happening.start s)).state.marks.nextNumber = s.marks.nextNumber := by simp)
    (hw : (f (Happening.start s)).state.windows = s.windows := by simp)
    (hl : logItems (f (Happening.start s)).state.log = logItems s.log := by simp)
    (hp : portItems (f (Happening.start s)).state.mgmt = portItems s.mgmt := by simp) :
    KeepsSettings s (happening s f) :=
  .happening (.of_limits k hn hw hl hp)

theorem keepsSettings_powerOnEnd (s : State) : KeepsSettings s s.powerOnEnd := by
  unfold State.powerOnEnd
  split
  · rename_i hlow
    exact ⟨rfl, rfl, rfl, fun hr => by rw [Running, hlow] at hr; cases hr⟩
  · exact .refl s

theorem keepsSettings_risingEdge (s : State) : KeepsSettings s s.risingEdge := by
  unfold State.risingEdge
  (repeat' split)
  · exact .refl s
  · exact .of_same rfl rfl rfl rfl
  · obtain ⟨hi, hn, hm, hs⟩ := keepsSettings_happening (s := s.setRollbackReq true)
      (keepsLimits_lineRequest (Happening.start (s.setRollbackReq true)))
    exact ⟨hi, hn, hm, hs⟩

/-- R37, R46, R57, R60, R182, R183: the WRITE_CONFIG rows. -/
theorem onlyItsOwn_writeConfig {c : Instr} (hc : isWriteConfig c = true) (s : State) :
    ∃ t, exec c s = .next t ∧ OnlyItsOwn c s t := by
  cases c with
  | writeConfigLogBase f => exact ⟨_, rfl, .of_write hc s f _ _ (refusedOrStored_writeLogBase _)⟩
  | writeConfigLogSize f => exact ⟨_, rfl, .of_write hc s f _ _ (refusedOrStored_writeLogSize _)⟩
  | writeConfigLogThreshold f => exact ⟨_, rfl, .of_write hc s f _ _ (refusedOrStored_writeLogThreshold _)⟩
  | writeConfigLogFullPolicy f => exact ⟨_, rfl, .of_write hc s f _ _ (refusedOrStored_writeLogFullPolicy _)⟩
  | writeConfigLogReader f => exact ⟨_, rfl, .of_write hc s f _ _ (refusedOrStored_writeLogReader _ _ _)⟩
  | writeConfigPartRequesterId f => exact ⟨_, rfl, .of_write hc s f _ _ (refusedOrStored_writePartRequesterId _)⟩
  | writeConfigResponseTimeout f => exact ⟨_, rfl, .of_write hc s f _ _ (refusedOrStored_writeResponseTimeout _)⟩
  | writeConfigNoticeTrigger f => exact ⟨_, rfl, .of_write hc s f _ _ (refusedOrStored_writeNoticeTrigger _)⟩
  | writeConfigNoticeQuiet f => exact ⟨_, rfl, .of_write hc s f _ _ (refusedOrStored_writeNoticeQuiet _)⟩
  | writeConfigLineRollback f => exact ⟨_, rfl, .of_write hc s f _ _ (refusedOrStored_writeLineRollback _ _)⟩
  | writeConfigUnknownItem f => exact ⟨_, rfl, .of_write hc s f _ _ refusedOrStored_unknownItem⟩
  | _ => cases hc

/-- The commands that change no setting: the frames but WRITE_CONFIG and SOFT_RESET, the periods that are no command, and
every happening but those that write the map, issue a number or can complete the quiesce. -/
def isSettingsNeutral : Instr → Bool
  | .powerOnReset | .mapSweepComplete | .downstreamResponse _ _ _ | .tagTimeout _ | .openTakesEffect
  | .softResetQuiesceComplete | .softReset _ => false
  | c => !isWriteConfig c

theorem exec_keepsSettings {c : Instr} (hc : isSettingsNeutral c = true) (s : State) :
    ∃ t, exec c s = .next t ∧ KeepsSettings s t := by
  cases c with
  | powerOnResetEnd => exact ⟨_, rfl, keepsSettings_powerOnEnd s⟩
  | rollbackReqRisingEdge => exact ⟨_, rfl, keepsSettings_risingEdge s⟩
  | rollbackReqFallingEdge => exact ⟨_, rfl, .of_same rfl rfl rfl rfl⟩
  | upstreamRequest r =>
    exact ⟨_, rfl, .running (keepsSettings_happening (keepsLimits_arrive (Happening.start s) r))⟩
  | saveAllocation =>
    exact ⟨_, rfl, .running (keepsSettings_happening (keepsLimits_allocateSave (Happening.start s)))⟩
  | releaseTakesEffect =>
    exact ⟨_, rfl, .running (keepsSettings_happening (keepsLimits_releaseEffect (Happening.start s)))⟩
  | commitTakesEffect =>
    exact ⟨_, rfl, .running (keepsSettings_happening (keepsLimits_commitEffect (Happening.start s)))⟩
  | rollbackTakesEffect =>
    exact ⟨_, rfl, .running (keepsSettings_happening (keepsLimits_rollbackEffect (Happening.start s)))⟩
  | rollbackOutcome =>
    exact ⟨_, rfl, .running (keepsSettings_happening (keepsLimits_takeOutcome (Happening.start s)))⟩
  | checkEnd =>
    exact ⟨_, rfl, .running (keepsSettings_happening (keepsLimits_endCheck (Happening.start s)))⟩
  | arbiterGrant => exact ⟨_, rfl, .running (.of_same (by simp) (by simp) (by simp) (by simp))⟩
  | downstreamCreditReturn => exact ⟨_, rfl, .running (.of_same (by simp) (by simp) (by simp) (by simp))⟩
  | stalePeriodExpiry tag => exact ⟨_, rfl, .running (.of_same (by simp) (by simp) (by simp) (by simp))⟩
  | quietTimerExpiry => exact ⟨_, rfl, .running (.of_same (by simp) (by simp) (by simp) (by simp))⟩
  | replyReady => exact ⟨_, rfl, .running (.of_same (by simp) (by simp) (by simp) (by simp))⟩
  | readPeriod clocks began => exact ⟨_, rfl, .of_same (by simp) (by simp) (by simp) (by simp)⟩
  | commandFrameCutShort p => exact ⟨_, rfl, .of_same (by simp) (by simp) (by simp) (by simp)⟩
  | unknownCommand code f => exact ⟨_, rfl, .of_same (by simp) (by simp) (by simp) (by simp)⟩
  | checkFailedFrame p => exact ⟨_, rfl, .of_same (by simp) (by simp) (by simp) (by simp)⟩
  | getStatus f => exact ⟨_, rfl, keepsSettings_takeFrame s f _ _ (.of_same fun s => by simp)⟩
  | getMarks f => exact ⟨_, rfl, keepsSettings_takeFrame s f _ _ (.of_same fun s => by simp)⟩
  | readConfig f => exact ⟨_, rfl, keepsSettings_takeFrame s f _ _ (.of_same fun s => by simp)⟩
  | getWindow f => exact ⟨_, rfl, keepsSettings_takeFrame s f _ _ (.of_same fun s => by simp)⟩
  | readMap f => exact ⟨_, rfl, keepsSettings_takeFrame s f _ _ (.of_same fun s => by simp)⟩
  | readNotice f => exact ⟨_, rfl, keepsSettings_takeFrame s f _ _ (.of_same fun s => by simp)⟩
  | readCounters f => exact ⟨_, rfl, keepsSettings_takeFrame s f _ _ (.of_same fun s => by simp)⟩
  | clearCounters f => exact ⟨_, rfl, keepsSettings_takeFrame s f _ _ (.of_same fun s => by simp)⟩
  | setWindow f =>
    exact ⟨_, rfl, keepsSettings_takeFrame s f _ _
      (.of_records (keepsAllButRecords_answerSetWindow _) (reader_answerSetWindow _))⟩
  | enableWindow f =>
    exact ⟨_, rfl, keepsSettings_takeFrame s f _ _
      (.of_records (keepsAllButRecords_answerEnableWindow _) (reader_answerEnableWindow _))⟩
  | disableWindow f =>
    exact ⟨_, rfl, keepsSettings_takeFrame s f _ _
      (.of_records (keepsAllButRecords_answerDisableWindow _) (reader_answerDisableWindow _))⟩
  | openMark f => exact ⟨_, rfl, keepsSettings_takeFrame s f _ _ (.of_drain (refusedOrDrains_openMark _))⟩
  | releaseMark f => exact ⟨_, rfl, keepsSettings_takeFrame s f _ _ (.of_drain refusedOrDrains_releaseMark)⟩
  | commit f => exact ⟨_, rfl, keepsSettings_takeFrame s f _ _ (.of_drain refusedOrDrains_commit)⟩
  | rollback f => exact ⟨_, rfl, keepsSettings_takeFrame s f _ _ (.of_drain (refusedOrDrains_rollback _))⟩
  | checkLog f => exact ⟨_, rfl, keepsSettings_takeFrame s f _ _ (ownerKeepsSettings_checkLog _)⟩
  | discard f => exact ⟨_, rfl, keepsSettings_takeFrame s f _ _ ownerKeepsSettings_discard⟩
  | _ => cases hc

/-- Every command answers a next state, and changes no setting but its own. -/
theorem onlyItsOwn_exec (c : Instr) (s : State) : ∃ t, exec c s = .next t ∧ OnlyItsOwn c s t := by
  cases hneutral : isSettingsNeutral c with
  | true =>
    obtain ⟨t, ht, k⟩ := exec_keepsSettings hneutral s
    exact ⟨t, ht, .of_keeps k (by rintro rfl; cases hneutral) (by rintro f rfl; cases hneutral)⟩
  | false =>
    cases c with
    | powerOnReset => exact ⟨_, rfl, .powerOn s⟩
    | mapSweepComplete => exact ⟨_, rfl, .running (by simp) (by simp) (.sweepComplete s)⟩
    | downstreamResponse tag status data =>
      exact ⟨_, rfl, .running (by simp) (by simp) (.response s tag status data)⟩
    | tagTimeout tag => exact ⟨_, rfl, .running (by simp) (by simp) (.timeOut s tag)⟩
    | openTakesEffect => exact ⟨_, rfl, .running (by simp) (by simp) (.openEffect s)⟩
    | softResetQuiesceComplete => exact ⟨_, rfl, .running (by simp) (by simp) (.quiesceComplete s)⟩
    | softReset f => exact ⟨_, rfl, .softReset s f⟩
    | _ => exact onlyItsOwn_writeConfig (by simpa [isSettingsNeutral] using hneutral) s

/-- Settles O60: a command keeps every setting, or is one of those the claim names. -/
theorem onlyTheirCommandsChangeThem : Obligations.OnlyTheirCommandsChangeThem := by
  intro c s t ht
  obtain ⟨u, hu, h⟩ := onlyItsOwn_exec c s
  rw [hu] at ht
  cases ht
  exact h

end Sys2Proof.Safety
end

section
/-! What the queue of commands and the time base see of a command: nothing (logs 1 and 4). A happening, a frame's owner
and a reset each leave both, and so does every row; an idle step moves the time base alone. -/

namespace Sys2Proof.Safety

open Machine

/-- `t` has the queue and the time of `s`. -/
def KeepsClock (s t : State) : Prop := t.pending = s.pending ∧ t.now = s.now

namespace KeepsClock

theorem refl (s : State) : KeepsClock s s := ⟨rfl, rfl⟩

theorem trans {s t u : State} (h : KeepsClock s t) (k : KeepsClock t u) : KeepsClock s u :=
  ⟨k.1.trans h.1, k.2.trans h.2⟩

/-- A happening's posts take no time; that its steps take none, `simp` sees by their rules. -/
theorem happening {s : State} {f : Happening → Happening}
    (hpending : (f (Happening.start s)).state.pending = s.pending := by simp)
    (hnow : (f (Happening.start s)).state.now = s.now := by simp) : KeepsClock s (Machine.happening s f) :=
  ⟨by simp [hpending], by simp [hnow]⟩

/-- A happening that does not reach a part in power-on reset (R191). -/
theorem running {s : State} {f : State → State} (h : KeepsClock s (f s)) : KeepsClock s (s.running f) := by
  unfold State.running
  split
  · exact .refl s
  · exact h

end KeepsClock

/-! ### Frames (R171 to R176) -/

theorem keepsClock_driveCommandPeriod (s : State) (n : Nat) : KeepsClock s (s.driveCommandPeriod n) := ⟨rfl, rfl⟩

theorem keepsClock_reply (s : State) (request : Byte) (status : Status) (payload : List Byte) :
    KeepsClock s (s.reply request status payload) := ⟨rfl, rfl⟩

/-- A frame takes no time where its owner takes none. -/
theorem keepsClock_takeFrame (s : State) (f : Frame) (identifier n : Nat) (anyState : Bool) {owner : State → Answer}
    (h : ∀ u, KeepsClock u (owner u).state) : KeepsClock s (takeFrame s f identifier n anyState owner) := by
  rcases takeFrame_cases s f identifier n anyState owner with heq | ⟨u, rfl, ⟨status, heq⟩ | ⟨-, heq⟩⟩
  · rw [heq]
    exact .refl s
  · rw [heq]
    exact (keepsClock_driveCommandPeriod s _).trans (keepsClock_reply _ _ _ _)
  · rw [heq]
    exact ((keepsClock_driveCommandPeriod s _).trans (h _)).trans (keepsClock_reply _ _ _ _)

theorem keepsClock_readPeriod (s : State) (clocks : Nat) (beganInReset : Bool) :
    KeepsClock s (s.readPeriod clocks beganInReset) := by
  unfold State.readPeriod
  split <;> exact ⟨rfl, rfl⟩

theorem keepsClock_cutShort (s : State) (p : Period) : KeepsClock s (s.cutShort p) := by
  unfold State.cutShort
  split <;> exact ⟨rfl, rfl⟩

theorem keepsClock_checkFailed (s : State) (p : Period) : KeepsClock s (s.checkFailed p) := by
  unfold State.checkFailed
  split <;> exact ⟨rfl, rfl⟩

theorem keepsClock_unknownCommand (s : State) (f : Frame) : KeepsClock s (s.unknownCommand f) := by
  unfold State.unknownCommand
  split <;> exact ⟨rfl, rfl⟩

theorem keepsClock_replyReady (s : State) : KeepsClock s s.replyReady := by
  unfold State.replyReady
  split <;> exact ⟨rfl, rfl⟩

/-! ### The owners of the frames -/

theorem keepsClock_readNotice (s : State) : KeepsClock s (answerReadNotice s).state := by
  unfold answerReadNotice
  split <;> exact ⟨by simp, by simp⟩

theorem keepsClock_quietExpiry (s : State) : KeepsClock s s.quietExpiry := by
  unfold State.quietExpiry
  split <;> exact ⟨by simp, by simp⟩

theorem keepsClock_setWindow (o : WindowOperands) (s : State) : KeepsClock s (answerSetWindow o s).state := by
  refine withWindow_induction (P := fun a => KeepsClock s a.state) (.refl s) fun w => ?_
  split <;> exact ⟨rfl, rfl⟩

theorem keepsClock_enableWindow (n : Nat) (s : State) : KeepsClock s (answerEnableWindow n s).state := by
  refine withWindow_induction (P := fun a => KeepsClock s a.state) (.refl s) fun w => ?_
  (repeat' split) <;> exact ⟨rfl, rfl⟩

theorem keepsClock_disableWindow (n : Nat) (s : State) : KeepsClock s (answerDisableWindow n s).state := by
  refine withWindow_induction (P := fun a => KeepsClock s a.state) (.refl s) fun w => ?_
  (repeat' split) <;> exact ⟨rfl, rfl⟩

/-- R6: a mark command's owner refuses or begins a drain. -/
theorem keepsClock_of_drain {s : State} {a : Answer} (h : RefusedOrDrains s a) : KeepsClock s a.state := by
  rcases h with heq | ⟨action, heq⟩ <;> rw [heq]
  · exact .refl s
  · exact ⟨by simp, by simp⟩

theorem keepsClock_checkLog (k : Nat) (s : State) : KeepsClock s (answerCheckLog k s).state := by
  unfold answerCheckLog
  (repeat' split) <;> exact ⟨by simp, by simp⟩

theorem keepsClock_discard (s : State) : KeepsClock s (answerDiscard s).state := by
  unfold answerDiscard
  (repeat' split) <;> exact ⟨rfl, rfl⟩

theorem keepsClock_writeLogBase (v : Nat) (s : State) : KeepsClock s (answerWriteLogBase v s).state := by
  unfold answerWriteLogBase
  (repeat' split) <;> exact ⟨rfl, rfl⟩

theorem keepsClock_writeLogSize (v : Nat) (s : State) : KeepsClock s (answerWriteLogSize v s).state := by
  unfold answerWriteLogSize
  (repeat' split) <;> exact ⟨rfl, rfl⟩

theorem keepsClock_writeLogThreshold (v : Nat) (s : State) : KeepsClock s (answerWriteLogThreshold v s).state := by
  unfold answerWriteLogThreshold
  split <;> exact ⟨rfl, rfl⟩

theorem keepsClock_writeLogFullPolicy (v : Nat) (s : State) : KeepsClock s (answerWriteLogFullPolicy v s).state := by
  unfold answerWriteLogFullPolicy
  split <;> exact ⟨rfl, rfl⟩

theorem keepsClock_writeLogReader (enable reqMatch reqMask : Nat) (s : State) :
    KeepsClock s (answerWriteLogReader enable reqMatch reqMask s).state := by
  unfold answerWriteLogReader
  split <;> exact ⟨rfl, rfl⟩

theorem keepsClock_writePartRequesterId (v : Nat) (s : State) :
    KeepsClock s (answerWritePartRequesterId v s).state := by
  unfold answerWritePartRequesterId
  (repeat' split) <;> exact ⟨rfl, rfl⟩

theorem keepsClock_writeResponseTimeout (v : Nat) (s : State) :
    KeepsClock s (answerWriteResponseTimeout v s).state := by
  unfold answerWriteResponseTimeout
  split <;> exact ⟨rfl, rfl⟩

theorem keepsClock_writeNoticeTrigger (v : Nat) (s : State) : KeepsClock s (answerWriteNoticeTrigger v s).state := by
  unfold answerWriteNoticeTrigger
  split <;> exact ⟨rfl, rfl⟩

theorem keepsClock_writeNoticeQuiet (v : Nat) (s : State) : KeepsClock s (answerWriteNoticeQuiet v s).state := by
  unfold answerWriteNoticeQuiet
  split <;> exact ⟨rfl, rfl⟩

theorem keepsClock_writeLineRollback (enable target : Nat) (s : State) :
    KeepsClock s (answerWriteLineRollback enable target s).state := by
  unfold answerWriteLineRollback
  split <;> exact ⟨rfl, rfl⟩

/-! ### Resets (R185 to R191) -/

theorem keepsClock_quiesceStep (s : State) : KeepsClock s s.quiesceStep := ⟨by simp, by simp⟩

theorem keepsClock_quiesceComplete (s : State) : KeepsClock s s.quiesceComplete := by
  cases hdue : s.quiesceDue with
  | true =>
    rw [State.quiesceComplete_of_due hdue]
    exact keepsClock_quiesceStep s
  | false =>
    rw [State.quiesceComplete_of_not_due hdue]
    exact .refl s

theorem keepsClock_softReset (s : State) : KeepsClock s (answerSoftReset s).state := by
  rw [answerSoftReset_eq]
  exact keepsClock_quiesceComplete (resetEntered s)

theorem keepsClock_reported {s t : State} (h : KeepsClock s t) : KeepsClock s (s.reported t) := by
  rcases State.reported_cases s t with heq | ⟨-, heq⟩ <;> rw [heq]
  · exact h
  · exact h.trans (keepsClock_quiesceStep t)

/-- R123, R185: in whichever order the reset step and a timeout's notice come. -/
theorem keepsClock_quiesceAmidTimeout (t : State) (post : NoticeKind) : KeepsClock t (t.quiesceAmidTimeout post) := by
  obtain ⟨u, rfl, heq | heq | heq⟩ := State.quiesceAmidTimeout_cases t post <;>
    exact heq ▸ ⟨by simp, by simp⟩

theorem keepsClock_timeOutTag (s : State) (tag : TagNo) : KeepsClock s (s.timeOutTag tag) := by
  have hout : KeepsClock s (happening s fun h => h.timeOut tag) := .happening
  unfold State.timeOutTag
  dsimp only
  split
  · exact hout.trans (keepsClock_quiesceAmidTimeout _ _)
  · exact hout

theorem keepsClock_sweepComplete (s : State) : KeepsClock s s.sweepComplete := by
  unfold State.sweepComplete
  split <;> exact ⟨rfl, rfl⟩

theorem keepsClock_powerOnEnd (s : State) : KeepsClock s s.powerOnEnd := by
  unfold State.powerOnEnd
  split <;> exact ⟨rfl, rfl⟩

theorem keepsClock_risingEdge (s : State) : KeepsClock s s.risingEdge := by
  have hpin : KeepsClock s (s.setRollbackReq true) := ⟨rfl, rfl⟩
  unfold State.risingEdge
  split
  · exact .refl s
  · split
    · exact hpin
    · exact hpin.trans .happening

/-! ### Every command -/

/-- Every command answers a next state, with the queue and the time it found. -/
theorem exec_keepsClock (c : Instr) (s : State) : ∃ t, exec c s = .next t ∧ KeepsClock s t := by
  cases c with
  | powerOnReset => exact ⟨_, rfl, rfl, rfl⟩
  | powerOnResetEnd => exact ⟨_, rfl, keepsClock_powerOnEnd s⟩
  | mapSweepComplete => exact ⟨_, rfl, .running (keepsClock_sweepComplete s)⟩
  | rollbackReqRisingEdge => exact ⟨_, rfl, keepsClock_risingEdge s⟩
  | rollbackReqFallingEdge => exact ⟨_, rfl, rfl, rfl⟩
  | upstreamRequest r => exact ⟨_, rfl, .running .happening⟩
  | saveAllocation => exact ⟨_, rfl, .running .happening⟩
  | arbiterGrant => exact ⟨_, rfl, .running ⟨by simp, by simp⟩⟩
  | downstreamCreditReturn => exact ⟨_, rfl, .running ⟨by simp, by simp⟩⟩
  | downstreamResponse tag status data =>
    exact ⟨_, rfl, .running (keepsClock_reported .happening)⟩
  | tagTimeout tag => exact ⟨_, rfl, .running (keepsClock_timeOutTag s tag)⟩
  | stalePeriodExpiry tag => exact ⟨_, rfl, .running ⟨by simp, by simp⟩⟩
  | openTakesEffect => exact ⟨_, rfl, .running .happening⟩
  | releaseTakesEffect => exact ⟨_, rfl, .running .happening⟩
  | commitTakesEffect => exact ⟨_, rfl, .running .happening⟩
  | rollbackTakesEffect => exact ⟨_, rfl, .running .happening⟩
  | rollbackOutcome => exact ⟨_, rfl, .running .happening⟩
  | checkEnd => exact ⟨_, rfl, .running .happening⟩
  | quietTimerExpiry => exact ⟨_, rfl, .running (keepsClock_quietExpiry s)⟩
  | readPeriod clocks began => exact ⟨_, rfl, keepsClock_readPeriod s clocks began⟩
  | replyReady => exact ⟨_, rfl, .running (keepsClock_replyReady s)⟩
  | commandFrameCutShort p => exact ⟨_, rfl, keepsClock_cutShort s p⟩
  | checkFailedFrame p => exact ⟨_, rfl, keepsClock_checkFailed s p⟩
  | unknownCommand code f => exact ⟨_, rfl, keepsClock_unknownCommand s f⟩
  | getStatus f => exact ⟨_, rfl, keepsClock_takeFrame s f _ _ _ fun _ => ⟨rfl, rfl⟩⟩
  | getMarks f => exact ⟨_, rfl, keepsClock_takeFrame s f _ _ _ .refl⟩
  | readConfig f => exact ⟨_, rfl, keepsClock_takeFrame s f _ _ _ .refl⟩
  | writeConfigLogBase f => exact ⟨_, rfl, keepsClock_takeFrame s f _ _ _ (keepsClock_writeLogBase _)⟩
  | writeConfigLogSize f => exact ⟨_, rfl, keepsClock_takeFrame s f _ _ _ (keepsClock_writeLogSize _)⟩
  | writeConfigLogThreshold f => exact ⟨_, rfl, keepsClock_takeFrame s f _ _ _ (keepsClock_writeLogThreshold _)⟩
  | writeConfigLogFullPolicy f => exact ⟨_, rfl, keepsClock_takeFrame s f _ _ _ (keepsClock_writeLogFullPolicy _)⟩
  | writeConfigLogReader f => exact ⟨_, rfl, keepsClock_takeFrame s f _ _ _ (keepsClock_writeLogReader _ _ _)⟩
  | writeConfigPartRequesterId f =>
    exact ⟨_, rfl, keepsClock_takeFrame s f _ _ _ (keepsClock_writePartRequesterId _)⟩
  | writeConfigResponseTimeout f =>
    exact ⟨_, rfl, keepsClock_takeFrame s f _ _ _ (keepsClock_writeResponseTimeout _)⟩
  | writeConfigNoticeTrigger f => exact ⟨_, rfl, keepsClock_takeFrame s f _ _ _ (keepsClock_writeNoticeTrigger _)⟩
  | writeConfigNoticeQuiet f => exact ⟨_, rfl, keepsClock_takeFrame s f _ _ _ (keepsClock_writeNoticeQuiet _)⟩
  | writeConfigLineRollback f => exact ⟨_, rfl, keepsClock_takeFrame s f _ _ _ (keepsClock_writeLineRollback _ _)⟩
  | writeConfigUnknownItem f => exact ⟨_, rfl, keepsClock_takeFrame s f _ _ _ .refl⟩
  | setWindow f => exact ⟨_, rfl, keepsClock_takeFrame s f _ _ _ (keepsClock_setWindow _)⟩
  | getWindow f => exact ⟨_, rfl, keepsClock_takeFrame s f _ _ _ fun _ => ⟨by simp, by simp⟩⟩
  | enableWindow f => exact ⟨_, rfl, keepsClock_takeFrame s f _ _ _ (keepsClock_enableWindow _)⟩
  | disableWindow f => exact ⟨_, rfl, keepsClock_takeFrame s f _ _ _ (keepsClock_disableWindow _)⟩
  | readMap f => exact ⟨_, rfl, keepsClock_takeFrame s f _ _ _ fun _ => ⟨by simp, by simp⟩⟩
  | openMark f =>
    exact ⟨_, rfl, keepsClock_takeFrame s f _ _ _ fun u => keepsClock_of_drain (refusedOrDrains_openMark _ u)⟩
  | releaseMark f =>
    exact ⟨_, rfl, keepsClock_takeFrame s f _ _ _ fun u => keepsClock_of_drain (refusedOrDrains_releaseMark u)⟩
  | commit f =>
    exact ⟨_, rfl, keepsClock_takeFrame s f _ _ _ fun u => keepsClock_of_drain (refusedOrDrains_commit u)⟩
  | rollback f =>
    exact ⟨_, rfl, keepsClock_takeFrame s f _ _ _ fun u => keepsClock_of_drain (refusedOrDrains_rollback _ u)⟩
  | checkLog f => exact ⟨_, rfl, keepsClock_takeFrame s f _ _ _ (keepsClock_checkLog _)⟩
  | discard f => exact ⟨_, rfl, keepsClock_takeFrame s f _ _ _ keepsClock_discard⟩
  | readNotice f => exact ⟨_, rfl, keepsClock_takeFrame s f _ _ _ keepsClock_readNotice⟩
  | readCounters f => exact ⟨_, rfl, keepsClock_takeFrame s f _ _ _ .refl⟩
  | clearCounters f => exact ⟨_, rfl, keepsClock_takeFrame s f _ _ _ fun _ => ⟨rfl, rfl⟩⟩
  | softReset f => exact ⟨_, rfl, keepsClock_takeFrame s f _ _ _ keepsClock_softReset⟩
  | softResetQuiesceComplete => exact ⟨_, rfl, .running (keepsClock_quiesceComplete s)⟩

/-- An idle step is a tick of the time base (log 4). -/
theorem step_of_idle {s : State} (h : s.pending = []) : step s = .next s.tick := by
  unfold step
  rw [h]

/-- Settles O2: every command keeps the clock, and an idle step ticks. -/
theorem timePassesOnlyWhenIdle : Obligations.TimePassesOnlyWhenIdle := by
  refine ⟨fun c s t ht => ?_, fun s hidle => step_of_idle hidle⟩
  obtain ⟨u, hu, hkeeps⟩ := exec_keepsClock c s
  rw [hu] at ht
  cases ht
  exact hkeeps

end Sys2Proof.Safety
end
